-- ==== Sys2Proof/Word.lean ====
section
/-! DEFINITION. The word types of the record bus (00_scope.md 1.6, R194): a word is 32 bits, a byte 8, a
half 16, a byte address 24. -/

namespace Sys2Proof

/-- A word of record memory (00_scope.md 1.6). -/
abbrev Word := BitVec 32

/-- A byte of record memory. -/
abbrev Byte := BitVec 8

/-- A half of a word. -/
abbrev Half := BitVec 16

/-- A byte address on the 24-bit record bus. -/
abbrev Addr := BitVec 24

end Sys2Proof
end

