-- ==== Sys2Proof/Syntax.lean ====
section
/-! DEFINITION. The commands of the part: one constructor of `Instr` for each row of spec/opcode_table.json, in the
table's order. The table gives no row any bits or operands; the operands here are what the row's rule reads. -/

namespace Sys2Proof

/-- One beat of a passing access as the bus side presents it (R186, R193's pins): its byte address, its byte enables, its
data, whether its access is a 4-beat burst (B_BURST), and its direction (B_RW): a read or a write. The data of a read is
not used. -/
structure Beat where
  addr  : Addr
  be    : BitVec 4
  data  : Word
  burst : Bool
  read  : Bool
deriving DecidableEq, Repr

/-- The levels of the two discrete inputs, MAINS_FAIL and MAINT_ALL (R76, R77, R193). -/
structure Levels where
  mainsFail : Bool
  maintAll  : Bool
deriving DecidableEq, Repr

/-- What the bus and the memory side may do while RESET_N is asserted (R192): a beat of a passing access is presented, or
M_READY goes to a level. -/
inductive BusEvent where
  | access (b : Beat)
  | ready (level : Bool)
deriving DecidableEq, Repr

/-- How REFCLK runs to a microsecond carry: the level of M_READY in the cycle that gives the carry (R186, log entry 32),
and whether REFCLK runs only up to that cycle, so that the commands that follow come at the carry's moment and before it
(R88, log entry 34). -/
structure CarryRun where
  ready : Bool
  upTo  : Bool
deriving DecidableEq, Repr

/-- The steps of spec/opcode_table.json.

The rows of a write name the beat that is written; PASSING_WRITE, whose rule R186 speaks of every passing access, also
takes the beat of a read (log entry 12). The mailbox rows with a command code of their own name the tag, the
argument and B_BURST: their beat is a full-word write of the code, tag and argument to the mailbox (R171, 12.4). The
expiries of a soak name the incident slot. HARDWARE_RESET names the strapped base and the input
levels at the release of RESET_N, and what comes on the bus and from memory while RESET_N is asserted (R192);
MICROSECOND_CARRY names the levels it samples (R193) and how REFCLK runs to the carry. -/
inductive Instr where
  | hardwareReset (straps : BitVec 8) (levels : Levels) (during : List BusEvent)
  | mainsFailEdge
  | maintAllEdge
  | passingWrite (b : Beat)
  | intakeWord0Write (b : Beat)
  | intakeWord1Write (b : Beat)
  | intakePartialWrite (b : Beat)
  | intakePartialWord3Write (b : Beat)
  | emptyRecord (b : Beat)
  | malformedRecord (b : Beat)
  | statusRecord (b : Beat)
  | missRecord (b : Beat)
  | gaspRecord (b : Beat)
  | linkRecord (b : Beat)
  | treeDown (b : Beat)
  | treeUp (b : Beat)
  | millisecondCarry
  | silenceCarry
  | stormLeak
  | settleExpiry
  | passReading
  | passMatching
  | attackExpiry (slot : Fin 32)
  | releaseExpiry (slot : Fin 32)
  | extendCmd (tag : Byte) (arg : Half) (burst : Bool)
  | editCmd (tag : Byte) (arg : Half) (burst : Bool)
  | commitCmd (tag : Byte) (arg : Half) (burst : Bool)
  | abandonCmd (tag : Byte) (arg : Half) (burst : Bool)
  | settimeCmd (tag : Byte) (arg : Half) (burst : Bool)
  | forgetCmd (tag : Byte) (arg : Half) (burst : Bool)
  | maintCmd (tag : Byte) (arg : Half) (burst : Bool)
  | censusCmd (tag : Byte) (arg : Half) (burst : Bool)
  | resetCmd (tag : Byte) (arg : Half) (burst : Bool)
  | badOpcode (b : Beat)
  | ownedWordWrite (b : Beat)
  | disturbingWrite (b : Beat)
  | consumerIndexWrite (b : Beat)
  | loaderCheckRead
  | terminalWordApply
  | commitCompletion
  | editLimitExpiry
  | noticeWordWrite
  | producerWrite
  | ringHeaderInitWrite
  | ownedWordWriterGrant
  | censusWordWrite
  | censusDoneWrite
  | censusCutWrite
  | patienceExpiry
  | microsecondCarry (levels : Levels) (run : CarryRun)
deriving DecidableEq, Repr

end Sys2Proof
end

