-- ==== Sys2Proof/Decode.lean ====
section
/-! DEFINITION. The decoder of the opcode table's bits. No row of spec/opcode_table.json gives any bits
(every row's "fields" is empty and none has "fixed"), so no word spells a command. The words the part itself decodes,
the mailbox word and the intake words, are read in Machine/Operands.lean and Machine/Path.lean. -/

namespace Sys2Proof

/-- The command that a word spells by the table's bits: none, since no row of the table gives bits. -/
def decodeTableWord (_nbits _w : Nat) : Option Instr := none

end Sys2Proof
end

