-- ==== Sys2Proof/Config.lean ====
section
/-! DEFINITION. What the Jadven 5124 fixes once for every part: sizes, fixed windows and ceilings. The spec leaves
no result of a command undefined, so no free value stands here; what the model chose is named in notes/assumptions/. -/

namespace Sys2Proof.Config

/-- Bytes of the record bus address space (00_scope.md 1.2). -/
def busBytes : Nat := 16777216

/-- Bytes of the Setup Block page the straps select (R169). -/
def setupPage : Nat := 65536

/-- Words of the Setup Block (R169). -/
def setupWords : Nat := 656

/-- Words of the census region (R166). -/
def censusWords : Nat := 642

/-- Ceiling of the storm gauge (R94). -/
def gaugeMax : Nat := 1023

/-- Ceiling of the counters of part status word B (R20, R183). -/
def counterMax : Nat := 255

/-- Ceiling of the disturbance count (R172). -/
def disturbanceMax : Nat := 65535

/-- Ceiling of the miss run (R28). -/
def missRunMax : Nat := 15

/-- Millisecond carries of the edit limit (R175). -/
def editLimit : Nat := 10000

/-- Microsecond carries of the patience window (R191). -/
def patience : Nat := 5

/-- What a byte of record memory that nothing has written reads as. DESIGN CHOICE (log entry 1): the spec gives the
SRAM no power-on contents. -/
def unwrittenByte : Byte := 0

end Sys2Proof.Config
end

