-- ==== Sys2Proof/Machine/State.lean ====
section
/-! DEFINITION. The state of the part as plain data: every piece of state that the blocks of 00_scope.md 1.3 hold, the
record memory behind the memory side, and the queue of waiting commands; its value after reset. -/

namespace Sys2Proof.Machine

/-- The reasons a command stops the part. There is none: no rule of the spec names an event that stops it. -/
inductive Fault where
deriving DecidableEq, Repr

/-- Why a command has no meaning. -/
inductive Refusal where
  /-- Raised by `exec` for a row of the table that has no meaning yet; no row is left so. Safe. -/
  | notModelled (mnemonic : String)
deriving DecidableEq, Repr

/-! ## Windows -/

/-- A window counted in carries (R88): the carries left, in 1..d while it runs; whether the carry that ends it has been
given and waits to be taken by the window's block, in the event of the window's expiry (log entry 6); and whether it
started in the REFCLK cycle that gives a carry of its period which is still to come, and which it does not count (R88, log
entry 34). -/
structure Window where
  left  : Nat
  due   : Bool
  fresh : Bool
deriving DecidableEq, Repr

/-- A window of `d` carries as it starts (R88). -/
def Window.start (d : Nat) (fresh : Bool) : Window := { left := d, due := false, fresh }

/-! ## Intake Parser -/

/-- The word0 capture of an assembly mark (1.2): kind 0..255, round 0..255, terminal number 0..1023. -/
structure Word0Capture where
  kind     : Byte
  round    : Byte
  terminal : BitVec 10
deriving DecidableEq, Repr

/-- The assembly mark of an intake slot (1.2). The power of the word1 capture is in signed dBt. -/
structure Mark where
  word0 : Option Word0Capture
  word1 : Option Int
  torn  : Bool
deriving DecidableEq, Repr

/-- A clear mark: both captures absent and torn clear (1.2). -/
def Mark.clear : Mark := { word0 := none, word1 := none, torn := false }

/-- A ring in record memory: its base byte address and its number of slots (R1, R158). -/
structure Ring where
  base  : Nat
  count : Nat
deriving DecidableEq, Repr

/-! ## Terminal Table and Level Filter -/

/-- The five link states (2.2). -/
inductive Link where
  | unheard | lit | fading | dark | spent
deriving DecidableEq, Repr

/-- A terminal entry (2.1). The filter value is in sixteenths of a dBt (R51). -/
structure Entry where
  provisioned : Bool
  fibreParent : Fin 128
  powerParent : Fin 128
  link        : Link
  silence     : Nat
  missRun     : Nat
  lastRound   : Option Byte
  filter      : Option Int
  dim         : Bool
  covering    : Option (Fin 32)
deriving DecidableEq, Repr

/-- A terminal entry after hardware reset (R45). -/
def Entry.afterReset : Entry :=
  { provisioned := false, fibreParent := 0, powerParent := 1, link := .unheard, silence := 0, missRun := 0,
    lastRound := none, filter := none, dim := false, covering := none }

/-! ## Topology Table -/

/-- The two trees (4.1). -/
inductive Tree where
  | fibre | power
deriving DecidableEq, Repr

/-- A node entry (4.1). The trunk flag of node 0 is the State's field `trunk`. -/
structure Node where
  enabled     : Bool
  tree        : Tree
  parent      : Option (Fin 128)
  tag         : Byte
  depth       : Nat
  monitored   : Nat
  dark        : Nat
  dim         : Nat
  spent       : Nat
  maint       : Bool
  struckDark  : Bool
  struckDim   : Bool
  struckPower : Bool
deriving DecidableEq, Repr

/-- A node with every count 0 and every mark and flag clear. -/
def Node.quiet (enabled : Bool) (tree : Tree) (parent : Option (Fin 128)) : Node :=
  { enabled, tree, parent, tag := 0, depth := 0, monitored := 0, dark := 0, dim := 0, spent := 0, maint := false,
    struckDark := false, struckDim := false, struckPower := false }

/-- The node table after hardware reset (R78). -/
def nodesAfterReset : Vector Node 128 :=
  ((Vector.replicate 128 (Node.quiet false .fibre (some 0))).set 0 (Node.quiet true .fibre none)).set 1
    (Node.quiet true .power none)

/-! ## Timebase -/

/-- The Timebase (5.1, 5.2): prescaler 0..24, divider 0..999, millisecond counter 0..1023, the ms clock, and whether the
16 ms tap and the selected silence tap have carried at the last millisecond carry and the carry waits to be taken by its
block (R83; model fields, log entry 6). -/
structure Timebase where
  prescaler  : Nat
  divider    : Nat
  counter    : Nat
  clock      : Word
  leakDue    : Bool
  silenceDue : Bool
deriving DecidableEq, Repr

/-- The chain held at 0 with no carry given (R92). -/
def Timebase.zero : Timebase :=
  { prescaler := 0, divider := 0, counter := 0, clock := 0, leakDue := false, silenceDue := false }

/-! ## The two discrete inputs -/

/-- The levels of MAINS_FAIL and MAINT_ALL that the part has taken, the levels of the latest samples, and whether the
first sample after the release of RESET_N has been made (R76, R77, R193). -/
structure Inputs where
  mainsFail : Bool
  maintAll  : Bool
  sample    : Levels
  sampled   : Bool
deriving DecidableEq, Repr

/-! ## Applied settings -/

/-- The applied parameters of Setup Block words 9..14 (12.4), after the clamps of R60 and R180. Duration codes and the
predicate word are held as read (R87, R149). -/
structure Settings where
  filterShift   : Nat
  dimSet        : Int
  dimClear      : Int
  silenceTap    : Nat
  silenceLimit  : Nat
  missLimit     : Nat
  qDark         : Nat
  qDim          : Nat
  qPower        : Nat
  qMains        : Nat
  minAffected   : Nat
  stormLeak     : Nat
  stormEnter    : Nat
  stormExit     : Nat
  settleCalm    : Nat
  settleStorm   : Nat
  attackDark    : Nat
  releaseDark   : Nat
  attackPower   : Nat
  releasePower  : Nat
  attackDim     : Nat
  releaseDim    : Nat
  predicates    : Word
deriving DecidableEq, Repr

/-- What a reader of the settings meets while none has been applied (R60, R92, R98: none until the first COMMIT). Each
is the least value of its applied range. DESIGN CHOICE (log entry 2): no event that the spec allows reads one. -/
def Settings.unapplied : Settings :=
  { filterShift := 0, dimSet := -500, dimClear := -499, silenceTap := 0, silenceLimit := 2, missLimit := 0, qDark := 1,
    qDim := 1, qPower := 1, qMains := 1, minAffected := 1, stormLeak := 0, stormEnter := 1, stormExit := 0,
    settleCalm := 0, settleStorm := 0, attackDark := 0, releaseDark := 0, attackPower := 0, releasePower := 0,
    attackDim := 0, releaseDim := 0, predicates := 0 }

/-! ## Correlation Pass and Incident Table -/

/-- The three families of evidence (R114). -/
inductive Family where
  | dark | power | dim
deriving DecidableEq, Repr

/-- The cause kinds, codes 1..8 in this order (8.1). -/
inductive CauseKind where
  | trunkLoss | branchDark | terminalDark | mainsLoss | terminalPower | branchDim | terminalDim | residue
deriving DecidableEq, Repr

/-- The subject of a cause or an incident; the residue has none (8.1). -/
inductive Subject where
  | node (n : Fin 128)
  | terminal (t : Fin 512)
  | nothing
deriving DecidableEq, Repr

/-- A cause of the cause list of a pass in progress (R115, R116, R117). -/
structure Cause where
  kind       : CauseKind
  subject    : Subject
  afflicted  : Nat
  monitored  : Nat
  exceptions : List (Fin 512)
  truncated  : Bool
deriving DecidableEq, Repr

/-- The states of an incident (8.1). -/
inductive Phase where
  | waiting  -- PENDING
  | opened   -- OPEN
  | clearing -- CLEARING
deriving DecidableEq, Repr

/-- The close reasons (8.1). -/
inductive CloseReason where
  | cleared | absorbed | reconfigured
deriving DecidableEq, Repr

/-- The close-due mark with its reason and the absorbing number, 0 unless ABSORBED (8.1, R142). -/
structure Close where
  reason   : CloseReason
  absorber : Nat
deriving DecidableEq, Repr

/-- The residue's three unplaced counts (R123). -/
structure Unplaced where
  dark  : Nat
  power : Nat
  dim   : Nat
deriving DecidableEq, Repr

/-- An incident record (8.1). `soak` is absent when no soak runs. -/
structure Incident where
  number     : Nat
  kind       : CauseKind
  subject    : Subject
  phase      : Phase
  soak       : Option Window
  created    : Word
  afflicted  : Nat
  monitored  : Nat
  exceptions : List (Fin 512)
  truncated  : Bool
  unplaced   : Unplaced
  maint      : Bool
  storm      : Bool
  announced  : Bool
  withheld   : Bool
  recurred   : Bool
  openDue    : Bool
  updateDue  : Bool
  close      : Option Close
deriving DecidableEq, Repr

/-! ## Notice Writer and census writer -/

/-- The reasons of a RESTART (R159). -/
inductive RestartReason where
  | hardReset | softReset | ringMoved
deriving DecidableEq, Repr

/-- A notice in progress: its eight words as fixed at the take, how many are written, and the slot a CLOSE frees
(R159, R163). -/
structure Notice where
  words   : List Word
  written : Nat
  frees   : Option (Fin 32)
deriving DecidableEq, Repr

/-- A census being written or cut: its region, its tag, how many of its 643 writes are made, and whether it has been
cut (R166, R168). -/
structure Census where
  base    : Nat
  tag     : Byte
  written : Nat
  cut     : Bool
deriving DecidableEq, Repr

/-! ## Command Unit -/

/-- The part states (10.2). -/
inductive PartState where
  | unconfigured | running | edit | loading
deriving DecidableEq, Repr

/-- A COMMIT load: its tag, which pass it is in, the words staged in the order read, the terminal words applied, the
clamp count and the disturbance count (R170, R178, R181, R182). -/
structure Load where
  tag          : Byte
  applying     : Bool
  staged       : List Word
  applied      : Nat
  clamps       : Nat
  disturbances : Nat
deriving DecidableEq, Repr

/-- The outcomes of a command, codes 0..11 in this order (12.4); `unset` stands after hardware reset (R172). -/
inductive CmdOutcome where
  | unset | done | clamped | busy | wrongState | badArgument | badOpcode | badSetup | disturbed | expired | cut
  | abandoned
deriving DecidableEq, Repr

/-- The command status word's fields (R172). -/
structure CommandStatus where
  tag     : Byte
  outcome : CmdOutcome
  detail  : Nat
deriving DecidableEq, Repr

/-! ## Path Unit -/

/-- The part's own write of a word to record memory. -/
structure Store where
  addr : Nat
  word : Word
deriving DecidableEq, Repr

/-- The internal accesses whose event comes when their write has been made (R163, R164, R166, R168). The others, the
loader's reads and the owned-word writer's writes, have their event at the grant (R178, R181, R189). -/
inductive Ending where
  | noticeWord | producer | header (ring : Ring) | censusWord | censusDone | censusCut
deriving DecidableEq, Repr

/-- What holds the memory side: a beat of a passing access, or an internal access, with what it writes and the event that
its end brings (R186, R190). -/
inductive Busy where
  | passing
  | internal (store : Option Store) (ending : Option Ending)
deriving DecidableEq, Repr

/-- The Path Unit's hold of the memory side and its arbiter (R186, R190 to R192): the level of M_READY; the access that
memory has not made ready yet; how many beats of a burst in progress are still to come; whether that burst was in progress
at a hardware reset and is carried through as a plain passthrough; the patience window, the impatience, and the passing
beat held with WAIT behind another access. -/
structure Arbiter where
  ready     : Bool
  busy      : Option Busy
  beatsLeft : Nat
  plain     : Bool
  window    : Option Window
  impatient : Bool
  held      : Option Beat
deriving DecidableEq, Repr

/-- A patient arbiter with no access in progress, before a memory that is ready (R191, log entry 32). -/
def Arbiter.idle : Arbiter :=
  { ready := true, busy := none, beatsLeft := 0, plain := false, window := none, impatient := false, held := none }

/-- The owned-word writer's three write-pending marks, for Setup Block words 1, 2 and 3 (R189). -/
structure WriteMarks where
  status : Bool
  partA  : Bool
  partB  : Bool
deriving DecidableEq, Repr

/-! ## The state -/

/-- The state of the part. The queue `pending` holds the commands that wait, first in first out. -/
structure State where
  pending     : List Instr
  /-- Record memory behind the memory side, in the canonical form of `Memory.wf`. -/
  mem         : List Host.Cell
  /-- The SETUP_BASE straps as sampled (R192). -/
  straps      : BitVec 8
  arb         : Arbiter
  /-- The data that the last passing read returned to its master (R186). -/
  readData    : Word
  writeMarks  : WriteMarks
  inputs      : Inputs
  time        : Timebase
  /-- The assembly marks that are not clear, by slot index, in the canonical form of `Sparse.wf`. -/
  marks       : List (Nat × Mark)
  malformed   : Nat
  unknown     : Nat
  intakeRing  : Option Ring
  entries     : Vector Entry 512
  nodes       : Vector Node 128
  trunk       : Bool
  gauge       : Nat
  storm       : Bool
  /-- The Settle Timer: absent when IDLE, else COUNTING with its remaining count (R101). -/
  settle      : Option Window
  passRequest : Bool
  /-- The cause list of the pass in progress, if any (R108). -/
  pass        : Option (List Cause)
  slots       : Vector (Option Incident) 32
  order       : List (Fin 32)
  nextNumber  : Nat
  noticeRing  : Option Ring
  producer    : Half
  consumer    : Half
  ringFault   : Bool
  restart     : Option RestartReason
  notice      : Option Notice
  /-- An initialisation that waits for the notice in progress (R164). -/
  ringWaiting : Option Ring
  /-- The initialisation's write of 0 to header word 0 has not been made yet (R164). -/
  headerDue   : Bool
  censusBase  : Option Nat
  census      : Option Census
  part        : PartState
  configured  : Bool
  /-- The edit origin, while there is an edit or a load (R170). -/
  origin      : Option PartState
  editTag     : Byte
  editLimit   : Option Window
  latch       : Option Half
  load        : Option Load
  settings    : Option Settings
  status      : CommandStatus
  disturbed   : Nat
  clamped     : Nat
deriving DecidableEq, Repr

/-- The part right after hardware reset (R21, R45, R78, R92, R99, R106, R154, R159, R170, R172, R174, R189), with the
straps at 0, both inputs released, M_READY asserted, no data read and nothing written to record memory. DESIGN CHOICE for
those (log entry 3): they come from the board. -/
def State.reset : State :=
  { pending := []
    mem := []
    straps := 0
    arb := Arbiter.idle
    readData := 0
    writeMarks := { status := true, partA := true, partB := true }
    inputs := { mainsFail := false, maintAll := false, sample := { mainsFail := false, maintAll := false },
                sampled := false }
    time := Timebase.zero
    marks := []
    malformed := 0
    unknown := 0
    intakeRing := none
    entries := Vector.replicate 512 Entry.afterReset
    nodes := nodesAfterReset
    trunk := false
    gauge := 0
    storm := false
    settle := none
    passRequest := false
    pass := none
    slots := Vector.replicate 32 none
    order := []
    nextNumber := 1
    noticeRing := none
    producer := 0
    consumer := 0
    ringFault := false
    restart := some .hardReset
    notice := none
    ringWaiting := none
    headerDue := false
    censusBase := none
    census := none
    part := .unconfigured
    configured := false
    origin := none
    editTag := 0
    editLimit := none
    latch := none
    load := none
    settings := none
    status := { tag := 0, outcome := .unset, detail := 0 }
    disturbed := 0
    clamped := 0 }

end Sys2Proof.Machine
end

