-- ==== Sys2Proof/WellFormed.lean ====
section
/-! DEFINITION. Which commands a sender can present: a beat's address is a word address (the bus carries no address
bit below bit 2, R193), a row of full-word writes has all four byte enables (R4, R6), a row of partial writes has at
least one and fewer than four (R5, R7), only PASSING_WRITE carries a read (R186, R187), and a soak expiry names an
ordinary slot 1..31 (R131). -/

namespace Sys2Proof

/-- The beat lies at a word address (00_scope.md 1.6, R193). -/
def Beat.aligned (b : Beat) : Bool := b.addr.toNat % 4 = 0

/-- A write beat at a word address (R193). -/
def Beat.writes (b : Beat) : Bool := b.aligned && !b.read

/-- All four byte enables are asserted (R4). -/
def Beat.full (b : Beat) : Bool := b.be = 15

/-- At least one byte enable and fewer than four (R5). -/
def Beat.isPartial (b : Beat) : Bool := b.be ≠ 0 ∧ b.be ≠ 15

/-- A beat that is presented while RESET_N is asserted lies at a word address (R192, R193). -/
def BusEvent.wf : BusEvent → Bool
  | .access b => b.aligned
  | .ready _ => true

/-- The well-formed commands. -/
def Instr.wellFormed : Instr → Bool
  | .hardwareReset _ _ during => during.all BusEvent.wf
  | .mainsFailEdge => true
  | .maintAllEdge => true
  | .passingWrite b => b.aligned
  | .intakeWord0Write b => b.writes && b.full
  | .intakeWord1Write b => b.writes && b.full
  | .intakePartialWrite b => b.writes && b.isPartial
  | .intakePartialWord3Write b => b.writes && b.isPartial
  | .emptyRecord b => b.writes && b.full
  | .malformedRecord b => b.writes && b.full
  | .statusRecord b => b.writes && b.full
  | .missRecord b => b.writes && b.full
  | .gaspRecord b => b.writes && b.full
  | .linkRecord b => b.writes && b.full
  | .treeDown b => b.writes && b.full
  | .treeUp b => b.writes && b.full
  | .millisecondCarry => true
  | .silenceCarry => true
  | .stormLeak => true
  | .settleExpiry => true
  | .passReading => true
  | .passMatching => true
  | .attackExpiry k => k ≠ 0
  | .releaseExpiry k => k ≠ 0
  | .extendCmd _ _ _ => true
  | .editCmd _ _ _ => true
  | .commitCmd _ _ _ => true
  | .abandonCmd _ _ _ => true
  | .settimeCmd _ _ _ => true
  | .forgetCmd _ _ _ => true
  | .maintCmd _ _ _ => true
  | .censusCmd _ _ _ => true
  | .resetCmd _ _ _ => true
  | .badOpcode b => b.writes
  | .ownedWordWrite b => b.writes
  | .disturbingWrite b => b.writes && b.be ≠ 0
  | .consumerIndexWrite b => b.writes
  | .loaderCheckRead => true
  | .terminalWordApply => true
  | .commitCompletion => true
  | .editLimitExpiry => true
  | .noticeWordWrite => true
  | .producerWrite => true
  | .ringHeaderInitWrite => true
  | .ownedWordWriterGrant => true
  | .censusWordWrite => true
  | .censusDoneWrite => true
  | .censusCutWrite => true
  | .patienceExpiry => true
  | .microsecondCarry _ _ => true

end Sys2Proof
end

