-- ==== Sys2Proof/Machine/Ops.lean ====
section
/-! DEFINITION. The named operations over tables and record memory: fixed tables mapped entry by entry, sparse tables in
one canonical form, and the bytes and words of record memory (R194). -/

namespace Sys2Proof.Machine

/-! ## Windows -/

/-- The REFCLK cycle that stands is the one that gives the microsecond carry (R81). -/
def State.atMicrosecond (s : State) : Bool := decide (24 ≤ s.time.prescaler)

/-- The REFCLK cycle that stands is the one that gives the millisecond carry (R81). -/
def State.atMillisecond (s : State) : Bool := s.atMicrosecond && decide (999 ≤ s.time.divider)

/-- A window of `d` millisecond carries as it starts; the carry of the moment that stands is not counted (R88). -/
def State.msWindow (s : State) (d : Nat) : Window := Window.start d s.atMillisecond

/-- A window of `d` microsecond carries as it starts; the carry of the moment that stands is not counted (R88). -/
def State.usWindow (s : State) (d : Nat) : Window := Window.start d s.atMicrosecond

/-- A window after a carry of its period that it does not count (R88, R90). -/
def Window.passed (w : Window) : Window := { w with fresh := false }

/-- A window after a carry of its period: the carry of the moment of its start is not counted; another is taken or, if it
is the last, waits for the window's expiry (R88). -/
def Window.carried (w : Window) : Window :=
  if w.fresh then w.passed
  else if w.left ≤ 1 then { w with due := true } else { w with left := w.left - 1 }

/-- A window as it is frozen: a last carry that has not been taken is not counted (R90). -/
def Window.frozen (w : Window) : Window := { w with due := false }

/-- The last carry of a window has been given (R88). -/
def isDue (w : Option Window) : Bool := (w.map (·.due)).getD false

/-! ## Fixed tables -/

/-- `f k x, f (k+1) y, …` for the list `x, y, …`. -/
def mapFrom {α β : Type} (f : Nat → α → β) : Nat → List α → List β
  | _, [] => []
  | k, x :: xs => f k x :: mapFrom f (k + 1) xs

theorem length_mapFrom {α β : Type} (f : Nat → α → β) (k : Nat) (l : List α) :
    (mapFrom f k l).length = l.length := by
  induction l generalizing k with
  | nil => rfl
  | cons x xs ih => simp [mapFrom, ih]

/-- The table with each entry replaced by `f` of its index and itself. -/
def mapTable {α β : Type} {n : Nat} (f : Nat → α → β) (v : Vector α n) : Vector β n :=
  ⟨⟨mapFrom f 0 v.toList⟩, by simp [length_mapFrom]⟩

/-- All indices of a table, ascending. -/
def indices (n : Nat) [NeZero n] : List (Fin n) := (List.range n).map (Fin.ofNat n)

/-! ## Sparse tables

A sparse table lists the entries that differ from a default, by rising index. -/

namespace Sparse

/-- The entry at an index. -/
def get {α : Type} (d : α) : List (Nat × α) → Nat → α
  | [], _ => d
  | (j, x) :: rest, i => if j = i then x else get d rest i

/-- The table with one entry replaced; an entry equal to the default is not listed. -/
def put {α : Type} [DecidableEq α] (d : α) : List (Nat × α) → Nat → α → List (Nat × α)
  | [], i, v => if v = d then [] else [(i, v)]
  | (j, x) :: rest, i, v =>
    if j < i then (j, x) :: put d rest i v
    else if j = i then (if v = d then rest else (i, v) :: rest)
    else if v = d then (j, x) :: rest else (i, v) :: (j, x) :: rest

/-- The canonical form: indices strictly rising from `lo` and below `hi`, no entry equal to the default. -/
def wfFrom {α : Type} [DecidableEq α] (d : α) (hi : Nat) : Nat → List (Nat × α) → Bool
  | _, [] => true
  | lo, (j, x) :: rest => decide (lo ≤ j) && decide (j < hi) && decide (x ≠ d) && wfFrom d hi (j + 1) rest

end Sparse

/-! ## Record memory -/

/-- The byte at an address (R194); a byte never written reads as `Config.unwrittenByte`. -/
def readByte (mem : List Host.Cell) (a : Nat) : Byte := Sparse.get Config.unwrittenByte mem a

/-- Memory with one byte written. -/
def writeByte (mem : List Host.Cell) (a : Nat) (v : Byte) : List Host.Cell := Sparse.put Config.unwrittenByte mem a v

/-- The canonical form of record memory: rising addresses of the 24-bit bus, no listed byte that reads as an unlisted
one would. -/
def Memory.wf (mem : List Host.Cell) : Bool := Sparse.wfFrom Config.unwrittenByte Config.busBytes 0 mem

/-- The address of the word that holds a byte address, on the 24-bit bus (00_scope.md 1.6). -/
def wordAddr (a : Nat) : Nat := a % Config.busBytes / 4 * 4

/-- The byte of a word that byte enable `i` covers (R194). -/
def wordByte (w : Word) (i : Nat) : Byte := BitVec.ofNat 8 (w.toNat / 2 ^ (8 * i))

/-- Memory after a write beat: each enabled byte of the word is written, byte enable 0 at the word's address (R194). -/
def writeBeat (mem : List Host.Cell) (a : Nat) (be : BitVec 4) (w : Word) : List Host.Cell :=
  [0, 1, 2, 3].foldl (fun m i => if be.getLsbD i then writeByte m (wordAddr a + i) (wordByte w i) else m) mem

/-- Memory after a single-word write with all byte enables (R190). -/
def writeWord (mem : List Host.Cell) (a : Nat) (w : Word) : List Host.Cell := writeBeat mem a 15 w

/-- The word at a word address (R194). -/
def readWord (mem : List Host.Cell) (a : Nat) : Word :=
  let b := wordAddr a
  readByte mem (b + 3) ++ readByte mem (b + 2) ++ readByte mem (b + 1) ++ readByte mem b

/-- The state after the part's own single-word write (R190). -/
def State.store (s : State) (a : Nat) (w : Word) : State := { s with mem := writeWord s.mem a w }

/-- The state after an internal access's write, if it makes one, has reached memory (R190). -/
def land (w : Option Store) (s : State) : State :=
  match w with
  | none => s
  | some w => s.store w.addr w.word

/-- The state after a passing beat whose data reached memory as `w` (R186, R188). -/
def State.passBeat (s : State) (b : Beat) (w : Word) : State :=
  { s with mem := writeBeat s.mem b.addr.toNat b.be w }

/-- The Setup Block's base (R169, R192). -/
def State.setupBase (s : State) : Nat := s.straps.toNat * Config.setupPage

/-- The address of a word of the Setup Block (R169). -/
def State.setupAddr (s : State) (word : Nat) : Nat := s.setupBase + 4 * word

/-- The settings that a reader meets (R60, R98). -/
def State.par (s : State) : Settings := s.settings.getD Settings.unapplied

/-- A terminal's entry. -/
def State.entry (s : State) (t : Fin 512) : Entry := s.entries[t]

/-- The incident of a slot, if the slot is not free. -/
def State.slot (s : State) (k : Fin 32) : Option Incident := s.slots[k]

/-- The state with a terminal's entry replaced. -/
def State.putEntry (s : State) (t : Fin 512) (e : Entry) : State := { s with entries := s.entries.set t e }

/-- The state with an incident slot's record replaced. -/
def State.putSlot (s : State) (k : Fin 32) (i : Incident) : State := { s with slots := s.slots.set k (some i) }

end Sys2Proof.Machine
end

