-- ==== Sys2Proof/Machine/Operands.lean ====
section
/-! DEFINITION. The words that the part reads and the words it forms, field by field (12_formats.md). -/

namespace Sys2Proof.Machine

/-! ## Reading fields -/

/-- Bits `hi..lo` of a word. -/
def bits (w : Word) (hi lo : Nat) : Nat := w.toNat / 2 ^ lo % 2 ^ (hi + 1 - lo)

/-- The first half of a word, bits 15..0 (R194). -/
def firstHalf (w : Word) : Half := w.setWidth 16

/-- The second half of a word, bits 31..16 (R194). -/
def secondHalf (w : Word) : Half := (w >>> 16).setWidth 16

/-- The byte of a word at bits `8i+7..8i`. -/
def byteAt (w : Word) (i : Nat) : Byte := (w >>> (8 * i)).setWidth 8

/-- A half read as a signed number, two's complement (R194). -/
def signedHalf (h : Half) : Int := h.toInt

/-- The word0 capture of an intake word0 (12.2, R4). -/
def captureWord0 (w : Word) : Word0Capture := { kind := byteAt w 3, round := byteAt w 2, terminal := w.setWidth 10 }

/-- The received power of an intake word1 (12.2, R4). -/
def capturePower (w : Word) : Int := signedHalf (firstHalf w)

/-- The power value of a burst that was not measured (R49). -/
def notMeasured : Int := -32768

/-- The command code of a mailbox word (12.4). -/
def mailboxCode (w : Word) : Nat := (byteAt w 3).toNat

/-- The tag of a mailbox word (12.4). -/
def mailboxTag (w : Word) : Byte := byteAt w 2

/-- The argument of a mailbox word (12.4). -/
def mailboxArg (w : Word) : Half := firstHalf w

/-- The mailbox word of a command (12.4). -/
def mailboxWord (code tag : Byte) (arg : Half) : Word := code ++ tag ++ arg

/-- A terminal word marks its terminal provisioned (12.4). -/
def terminalWordProvisioned (w : Word) : Bool := w.getLsbD 31

/-- The fibre parent of a terminal word (12.4). -/
def terminalWordFibre (w : Word) : Fin 128 := Fin.ofNat 128 (bits w 14 8)

/-- The power parent of a terminal word (12.4). -/
def terminalWordPower (w : Word) : Fin 128 := Fin.ofNat 128 (bits w 6 0)

/-- A node word enables its node (12.4). -/
def nodeWordEnabled (w : Word) : Bool := w.getLsbD 31

/-- The tree of a node word (12.4). -/
def nodeWordTree (w : Word) : Tree := if w.getLsbD 30 then .power else .fibre

/-- The parent of a node word (12.4). -/
def nodeWordParent (w : Word) : Fin 128 := Fin.ofNat 128 (bits w 14 8)

/-- The tag of a node word (12.4). -/
def nodeWordTag (w : Word) : Byte := byteAt w 0

/-! ## Codes -/

/-- The link state codes (R10). -/
def Link.code : Link → Nat
  | .unheard => 1 | .lit => 2 | .fading => 3 | .dark => 4 | .spent => 5

/-- The dispositions of an intake record (R10). -/
inductive Disposition where
  | accepted | repeated | late | flooded | unknown | malformed | withdrawn
deriving DecidableEq, Repr

/-- The disposition codes (R10). -/
def Disposition.code : Disposition → Nat
  | .accepted => 1 | .repeated => 2 | .late => 3 | .flooded => 4 | .unknown => 5 | .malformed => 6 | .withdrawn => 7

/-- The cause kind codes (8.1). -/
def CauseKind.code : CauseKind → Nat
  | .trunkLoss => 1 | .branchDark => 2 | .terminalDark => 3 | .mainsLoss => 4 | .terminalPower => 5 | .branchDim => 6
  | .terminalDim => 7 | .residue => 8

/-- The close reason codes (12.3). -/
def CloseReason.code : CloseReason → Nat
  | .cleared => 1 | .absorbed => 2 | .reconfigured => 3

/-- The RESTART reason codes (12.3). -/
def RestartReason.code : RestartReason → Nat
  | .hardReset => 1 | .softReset => 2 | .ringMoved => 3

/-- The part state codes (12.4). -/
def PartState.code : PartState → Nat
  | .unconfigured => 0 | .running => 1 | .edit => 2 | .loading => 3

/-- The outcome codes (12.4). -/
def CmdOutcome.code : CmdOutcome → Nat
  | .unset => 0 | .done => 1 | .clamped => 2 | .busy => 3 | .wrongState => 4 | .badArgument => 5 | .badOpcode => 6
  | .badSetup => 7 | .disturbed => 8 | .expired => 9 | .cut => 10 | .abandoned => 11

/-- The kinds of notice (R162). -/
inductive NoticeKind where
  | opening | updating | closing | restarting
deriving DecidableEq, Repr

/-- The notice kind codes (12.3). -/
def NoticeKind.code : NoticeKind → Nat
  | .opening => 1 | .updating => 2 | .closing => 3 | .restarting => 4

/-! ## Forming words -/

/-- A flag as a number. -/
def flag (b : Bool) : Nat := if b then 1 else 0

/-- A word of four bytes, most significant first. -/
def wordOfBytes (a b c d : Nat) : Word := BitVec.ofNat 8 a ++ BitVec.ofNat 8 b ++ BitVec.ofNat 8 c ++ BitVec.ofNat 8 d

/-- A word of two bytes and a half, most significant first. -/
def wordOfBytesHalf (a b c : Nat) : Word := BitVec.ofNat 8 a ++ BitVec.ofNat 8 b ++ BitVec.ofNat 16 c

/-- A word of its second half and its first half (R194). -/
def wordOfHalves (second first : Nat) : Word := BitVec.ofNat 16 second ++ BitVec.ofNat 16 first

/-- The disposition word (R10, 12.2); a record with no link state carries 0 there. -/
def dispositionWord (d : Disposition) (link : Option Link) (clock : Word) : Word :=
  wordOfBytesHalf d.code ((link.map Link.code).getD 0) (firstHalf clock).toNat

/-- The command status word (12.4). -/
def statusWord (c : CommandStatus) : Word := wordOfBytesHalf c.tag.toNat c.outcome.code c.detail

/-- A census status word: WRITING 1, DONE 2, CUT 3, with the census's tag (12.5). -/
def censusStatusWord (state : Nat) (tag : Byte) : Word := wordOfBytesHalf state tag.toNat 0

/-- The level of a filter value, the quotient by 16 rounded toward zero (R55). -/
def level (f : Int) : Int := Int.tdiv f 16

/-- A census node word (12.5); a disabled node's is 0 (R196). -/
def censusNodeWord (n : Node) : Word :=
  if n.enabled then
    let first := match n.tree with | .fibre => n.dark | .power => n.spent
    let second := match n.tree with | .fibre => n.dim | .power => 0
    BitVec.ofNat 10 n.monitored ++ BitVec.ofNat 10 first ++ BitVec.ofNat 10 second ++ BitVec.ofBool n.maint ++
      BitVec.ofBool true
  else 0

/-- A census terminal word (12.5). -/
def censusTerminalWord (e : Entry) : Word :=
  BitVec.ofNat 3 e.link.code ++ BitVec.ofBool e.dim ++ BitVec.ofInt 16 ((e.filter.map level).getD 0) ++
    BitVec.ofNat 3 e.silence ++ BitVec.ofNat 4 e.missRun ++ BitVec.ofBool e.filter.isSome ++ (0 : BitVec 4)

/-- The subject field of a notice (12.3). -/
def subjectField : Subject → Nat
  | .node n => n.val
  | .terminal t => t.val
  | .nothing => 65535

/-- The flags field of a notice (12.3). -/
def noticeFlags (i : Incident) : Nat := flag i.storm + 2 * flag i.maint + 4 * flag i.truncated + 8 * flag i.recurred

/-- An exception of a list as a half, 0 past its end (R162). -/
def exceptionField (l : List (Fin 512)) (k : Nat) : Nat := ((l[k]?).map Fin.val).getD 0

/-- The eight words of a notice of an incident, with the ms clock at the take (R162, 12.3). The close reason and the
absorbing number stand in a CLOSE only (log entry 9). `tag` is the tag of a node subject. -/
def incidentNotice (kind : NoticeKind) (i : Incident) (tag : Byte) (clock : Word) : List Word :=
  let close := if kind = .closing then i.close else none
  let reason := (close.map (·.reason.code)).getD 0
  let absorber := (close.map (·.absorber)).getD 0
  if i.kind = .residue then
    [ wordOfBytesHalf kind.code i.kind.code i.number,
      wordOfBytesHalf reason (flag i.storm + 2 * flag i.maint) 65535,
      wordOfHalves (i.unplaced.dark + i.unplaced.power + i.unplaced.dim) 0,
      clock, i.created, 0,
      wordOfHalves i.unplaced.power i.unplaced.dark,
      wordOfHalves 0 i.unplaced.dim ]
  else
    [ wordOfBytesHalf kind.code i.kind.code i.number,
      wordOfBytesHalf reason (noticeFlags i) (subjectField i.subject),
      wordOfHalves i.afflicted i.monitored,
      clock, i.created,
      BitVec.ofNat 16 absorber ++ tag ++ BitVec.ofNat 8 i.exceptions.length,
      wordOfHalves (exceptionField i.exceptions 1) (exceptionField i.exceptions 0),
      wordOfHalves (exceptionField i.exceptions 3) (exceptionField i.exceptions 2) ]

/-- The eight words of a RESTART notice (R162, 12.3). -/
def restartNotice (r : RestartReason) (clock : Word) : List Word :=
  [ wordOfBytesHalf NoticeKind.restarting.code 0 0, wordOfBytesHalf r.code 0 65535, 0, clock, 0, 0, 0, 0 ]

/-! ## Durations -/

/-- The duration of a code in milliseconds (R87). -/
def duration : Nat → Nat
  | 0 => 1 | 1 => 10 | 2 => 25 | 3 => 50 | 4 => 100 | 5 => 200 | 6 => 400 | 7 => 750
  | 8 => 1000 | 9 => 1500 | 10 => 2000 | 11 => 3000 | 12 => 5000 | 13 => 10000 | 14 => 20000
  | _ => 60000

/-- The period in milliseconds of the silence tap of a code (R30). -/
def tapPeriod : Nat → Nat
  | 0 => 4 | 1 => 16 | 2 => 64 | _ => 256

end Sys2Proof.Machine
end

