-- ==== Sys2Proof/Machine/Flags.lean ====
section
/-! DEFINITION. The flags the part computes: the Level Filter's arithmetic and the DIM test (chapter 3), the STORM test
(R96), the emit predicate (R149), the part status words and the ATTN and WAIT lines (R159, R185, R186). -/

namespace Sys2Proof.Machine

/-! ## Level Filter -/

/-- A measured reading clamped into −500..100 dBt (R50). -/
def clampReading (p : Int) : Int := max (-500) (min 100 p)

/-- The filter value a seed gives for a clamped reading (R52). -/
def seedFilter (p : Int) : Int := 16 * p

/-- The step of a present filter value `f` toward 16 times a clamped reading `p` with FILTER_SHIFT `k` (R53). -/
def filterStep (k : Nat) (p f : Int) : Int :=
  let d := 16 * p - f
  let q := Int.tdiv d (2 ^ k)
  if q = 0 then (if d > 0 then 1 else if d < 0 then -1 else 0) else q

/-- The filter value after a step (R53). -/
def stepFilter (k : Nat) (p f : Int) : Int := f + filterStep k p f

/-- The DIM flag after a test of filter value `f` (R56). -/
def dimTest (dimSet dimClear : Int) (f : Int) (was : Bool) : Bool :=
  if level f ≤ dimSet then true else if dimClear ≤ level f then false else was

/-! ## Storm -/

/-- The STORM flag after a test of a gauge value (R96). -/
def stormTest (enter exit gauge : Nat) (was : Bool) : Bool :=
  if enter ≤ gauge then true else if gauge ≤ exit then false else was

/-! ## Emit predicate -/

/-- Notices are permitted for a cause kind with these storm and maint flags by the predicate word (R149, word 14). -/
def permittedBy (predicates : Word) (kind : CauseKind) (storm maint : Bool) : Bool :=
  predicates.getLsbD (4 * (kind.code - 1) + (2 * flag storm + flag maint))

/-! ## Part status and output lines -/

/-- The number of incident slots in use (R134). -/
def State.slotsInUse (s : State) : Nat := s.slots.toList.countP Option.isSome

/-- Part status word A with its fields as they stand (R185, 12.4). -/
def State.partStatusA (s : State) : Word :=
  BitVec.ofNat 8 s.part.code ++ BitVec.ofBool s.storm ++ BitVec.ofBool s.inputs.mainsFail ++
    BitVec.ofBool s.inputs.maintAll ++ BitVec.ofBool s.ringFault ++ BitVec.ofBool s.census.isSome ++
    BitVec.ofBool (s.slot 0).isSome ++ (0 : BitVec 12) ++ BitVec.ofNat 6 s.slotsInUse

/-- Part status word B with its fields as they stand (R185, 12.4). -/
def State.partStatusB (s : State) : Word := wordOfBytes s.malformed s.unknown s.disturbed s.clamped

/-- ATTN is asserted while the part has a ring and its producer and accepted consumer indices differ (R158, R159). -/
def State.attn (s : State) : Bool := s.noticeRing.isSome && s.producer != s.consumer

/-- WAIT is asserted on a passing access that memory has not made ready, and on one that is held behind an internal
access (R186, R190, R191). -/
def State.wait (s : State) : Bool := s.arb.held.isSome || decide (s.arb.busy = some .passing)

/-- The unconsumed count of the notice ring (R159). -/
def State.unconsumed (s : State) : Nat := (s.producer - s.consumer).toNat

end Sys2Proof.Machine
end

