-- ==== Sys2Proof/Machine/Events.lean ====
section
/-! DEFINITION. What many commands share: dirty marks (R101), falls and the gauge (R94, R96), command outcomes (R172),
the write-pending marks of the status words (R185, R189), and the memory-side arbiter (R190, R191). -/

namespace Sys2Proof.Machine

/-! ## Part states -/

/-- The part has a setup in use: RUNNING, or EDIT or LOADING entered from RUNNING (R18, R19, R101). -/
def State.setupInUse (s : State) : Bool :=
  match s.part with
  | .unconfigured => false
  | .running => true
  | .edit => s.origin = some .running
  | .loading => s.origin = some .running

/-- Settle and soak windows are frozen in EDIT and LOADING (R90). -/
def State.frozen (s : State) : Bool := s.part = .edit ∨ s.part = .loading

/-- A COMMIT's apply pass is in progress (R170). -/
def State.applyPass (s : State) : Bool := (s.load.map (·.applying)).getD false

/-- A COMMIT's check pass is in progress (R170). -/
def State.checkPass (s : State) : Bool := (s.load.map (fun l => !l.applying)).getD false

/-! ## Dirty marks and the storm gauge -/

/-- A dirty mark reaches the Settle Timer (R101, R102). -/
def dirtyMark (s : State) : State :=
  if s.setupInUse && s.settle.isNone then
    { s with settle := some (s.msWindow (duration (if s.storm then s.par.settleStorm else s.par.settleCalm))) }
  else s

/-- A dirty mark if the event makes one. -/
def markIf (made : Bool) (s : State) : State := if made then dirtyMark s else s

/-- The gauge takes a new value; a change is followed by the STORM test (R96). -/
def setGauge (g : Nat) (s : State) : State :=
  if g = s.gauge then s
  else { s with gauge := g, storm := stormTest s.par.stormEnter s.par.stormExit g s.storm }

/-- The gauge takes the falls of an event (R94). -/
def addFalls (n : Nat) (s : State) : State :=
  if n = 0 then s else setGauge (min Config.gaugeMax (s.gauge + n)) s

/-! ## Command outcomes and status words -/

/-- An outcome is recorded (R172). -/
def record (tag : Byte) (outcome : CmdOutcome) (detail : Nat) (s : State) : State :=
  { s with status := { tag, outcome, detail }, writeMarks.status := true }

/-- A counter of part status word B, stopping at 255 (R20, R183). -/
def bumpCounter (n : Nat) : Nat := min Config.counterMax (n + 1)

/-- The write-pending marks after an event that began in `s0`: a changed field of word A or B sets its word (R185). -/
def markStatusWords (s0 s : State) : State :=
  { s with writeMarks :=
      { status := s.writeMarks.status
        partA := s.writeMarks.partA || s.partStatusA != s0.partStatusA
        partB := s.writeMarks.partB || s.partStatusB != s0.partStatusB } }

/-! ## The memory-side arbiter -/

/-- The internal requesters (R190). -/
inductive Requester where
  | loader | noticeWriter | ownedWords | census
deriving DecidableEq, Repr

/-- The loader has reads left: 139 words in the check pass, 512 in the apply pass (R178, R181, R190). -/
def State.loaderWaits (s : State) : Bool :=
  match s.load with
  | none => false
  | some l => if l.applying then decide (l.applied < 512) else decide (l.staged.length < 139)

/-- The head internal request: the highest-priority requester that has a request waiting (R190). -/
def State.head (s : State) : Option Requester :=
  if s.loaderWaits then some .loader
  else if s.notice.isSome || s.headerDue then some .noticeWriter
  else if s.writeMarks.status || s.writeMarks.partA || s.writeMarks.partB then some .ownedWords
  else if s.census.isSome then some .census
  else none

/-- The patience window starts, when a request waits while a passing access has the memory side (R191). -/
def startWindow (s : State) : State :=
  if s.head.isSome && s.arb.window.isNone && !s.arb.impatient then
    { s with arb.window := some (s.usWindow Config.patience) }
  else s

/-- A passing access has the memory side: a burst with beats to come, or a beat that memory has not made ready (R186,
R190). -/
def Arbiter.passing (a : Arbiter) : Bool := a.beatsLeft ≠ 0 || decide (a.busy = some .passing)

/-- The patience window starts if a request waits while a passing access has the memory side (R191). -/
def watchPatience (s : State) : State := if s.arb.passing then startWindow s else s

/-- What closes every event: the write-pending marks of changed status words (R185), and the patience window (R191). -/
def finish (s0 s : State) : State := watchPatience (markStatusWords s0 s)

/-- The arbiter once a passing beat has been forwarded: the beats of its access are counted, and a beat that memory does
not make ready holds the memory side (R186). -/
def Arbiter.afterBeat (b : Beat) (a : Arbiter) : Arbiter :=
  let left := if a.beatsLeft = 0 then (if b.burst then 3 else 0) else a.beatsLeft - 1
  { a with beatsLeft := left, plain := a.plain && decide (left ≠ 0), busy := if a.ready then none else some .passing }

/-- What closes the event of a passing beat: as `finish`, with the beat counted and the window started if a request
waits (R186, R191). -/
def finishBeat (b : Beat) (s0 s : State) : State :=
  startWindow { markStatusWords s0 s with arb := s.arb.afterBeat b }

/-- A passing access that starts now is held with WAIT: the arbiter is impatient and an internal request waits (R191, log
entry 31). -/
def State.holdsPassing (s : State) : Bool := s.arb.impatient && s.arb.beatsLeft = 0 && s.head.isSome

/-- The arbiter after a grant to an internal request: the window and the impatience end (R191). -/
def endWindow (s : State) : State := { s with arb.window := none, arb.impatient := false }

/-- A requester's next access can be granted: the memory side is free between bursts, and it is the head request (R190,
R191). -/
def State.grants (s : State) (r : Requester) : Bool := s.arb.busy.isNone && s.arb.beatsLeft = 0 && s.head = some r

end Sys2Proof.Machine
end

