-- ==== Sys2Proof/Machine/Topology.lean ====
section
/-! DEFINITION. The Topology Table: ancestor chains and subtrees (R63), memberships (R24), the counts and their
adjustments (R35, R66 to R68), the maintenance test (R73), the MAINT marks (R74) and the two input edges (R76, R77). -/

namespace Sys2Proof.Machine

/-! ## Chains -/

/-- The ancestor chain of a node, walked at most `fuel` nodes; a disabled node is on no chain (R63). -/
def chainFrom (nodes : Vector Node 128) : Nat → Fin 128 → List (Fin 128)
  | 0, _ => []
  | fuel + 1, n =>
    if nodes[n].enabled then
      n :: (match nodes[n].parent with
            | some p => chainFrom nodes fuel p
            | none => [])
    else []

/-- The ancestor chain of a node, itself first: at most eight nodes (R63). -/
def chain (nodes : Vector Node 128) (n : Fin 128) : List (Fin 128) := chainFrom nodes 8 n

/-- Node `n` lies in the subtree of node `m` (R63). -/
def inSubtree (nodes : Vector Node 128) (m n : Fin 128) : Bool := decide (m ∈ chain nodes n)

/-- The tree that a family is counted on (R24). -/
def Family.tree : Family → Tree
  | .dark => .fibre | .dim => .fibre | .power => .power

/-- A terminal's parent in a tree (R64). -/
def Entry.parentIn (e : Entry) : Tree → Fin 128
  | .fibre => e.fibreParent | .power => e.powerParent

/-! ## Memberships -/

/-- A provisioned terminal is monitored in LIT, FADING, DARK and SPENT (R24). -/
def Entry.monitored (e : Entry) : Bool := e.provisioned && e.link != .unheard

/-- A provisioned terminal is afflicted in a family (R24). -/
def Entry.afflicted (e : Entry) : Family → Bool
  | .dark => e.provisioned && e.link = .dark
  | .power => e.provisioned && e.link = .spent
  | .dim => e.provisioned && e.dim

/-- The terminal hangs in the subtree of node `i`, by the parent it has in the node's tree (R63, R64). -/
def hangsBelow (nodes : Vector Node 128) (i : Fin 128) (e : Entry) : Bool :=
  decide (i ∈ chain nodes (e.parentIn nodes[i].tree))

/-! ## Counts -/

/-- A count after one membership changes: one added, one taken away, or kept (R35). -/
def bump (was now : Bool) (c : Nat) : Nat :=
  match was, now with
  | false, true => c + 1
  | true, false => c - 1
  | _, _ => c

/-- A node's counts after a terminal below it changes from `old` to `new`. A count that the node's tree does not carry
is kept (R35, R62). -/
def adjustNode (old new : Entry) (n : Node) : Node :=
  match n.tree with
  | .fibre =>
    { n with monitored := bump old.monitored new.monitored n.monitored
             dark := bump (old.afflicted .dark) (new.afflicted .dark) n.dark
             dim := bump (old.afflicted .dim) (new.afflicted .dim) n.dim }
  | .power =>
    { n with monitored := bump old.monitored new.monitored n.monitored
             spent := bump (old.afflicted .power) (new.afflicted .power) n.spent }

/-- The two entries differ in a membership of R24. -/
def membershipMoved (old new : Entry) : Bool :=
  old.monitored != new.monitored || old.afflicted .dark != new.afflicted .dark ||
    old.afflicted .power != new.afflicted .power || old.afflicted .dim != new.afflicted .dim

/-- The node table after one terminal changes from `old` to `new`, which hang at the same parents (R35, R67). -/
def adjustNodes (old new : Entry) (nodes : Vector Node 128) : Vector Node 128 :=
  if membershipMoved old new then
    let fibre := chain nodes old.fibreParent
    let power := chain nodes old.powerParent
    mapTable (fun i n =>
      if Fin.ofNat 128 i ∈ (match n.tree with | .fibre => fibre | .power => power) then adjustNode old new n else n)
      nodes
  else nodes

/-- How many terminals of the table hang below node `i` and meet `p`. -/
def countBelow (nodes : Vector Node 128) (entries : Vector Entry 512) (i : Fin 128) (p : Entry → Bool) : Nat :=
  entries.toList.countP (fun e => p e && hangsBelow nodes i e)

/-- A node with its counts rebuilt from the terminal entries (R68). -/
def recountNode (nodes : Vector Node 128) (entries : Vector Entry 512) (i : Fin 128) (n : Node) : Node :=
  { n with
    monitored := countBelow nodes entries i Entry.monitored
    dark := if n.tree = .fibre then countBelow nodes entries i (Entry.afflicted · .dark) else 0
    dim := if n.tree = .fibre then countBelow nodes entries i (Entry.afflicted · .dim) else 0
    spent := if n.tree = .power then countBelow nodes entries i (Entry.afflicted · .power) else 0 }

/-- Every count rebuilt from the entries as they stand (R68). -/
def recountNodes (nodes : Vector Node 128) (entries : Vector Entry 512) : Vector Node 128 :=
  mapTable (fun i n => recountNode nodes entries (Fin.ofNat 128 i) n) nodes

/-- The counts after a terminal event; during an apply pass they are left as they stand (R38). -/
def adjustCounts (old new : Entry) (s : State) : State :=
  if s.applyPass then s else { s with nodes := adjustNodes old new s.nodes }

/-! ## Maintenance -/

/-- A node is under maintenance (R73). -/
def State.nodeUnderMaint (s : State) (n : Fin 128) : Bool :=
  s.inputs.maintAll || s.nodes[n].maint || (chain s.nodes n).any (fun m => s.nodes[m].maint)

/-- The mark of a node after a MAINT with this block, mask and polarity (R74). -/
def maintMark (block : Nat) (mask : Half) (polarity : Bool) (i : Nat) (n : Node) : Node :=
  if i / 16 = block ∧ mask.getLsbD (i % 16) = true ∧ n.enabled = true then { n with maint := polarity } else n

/-- The node table after a MAINT (R74). -/
def maintNodes (block : Nat) (mask : Half) (polarity : Bool) (nodes : Vector Node 128) : Vector Node 128 :=
  mapTable (maintMark block mask polarity) nodes

/-- How many marks differ between two node tables (R74). -/
def marksChanged (before after : Vector Node 128) : Nat :=
  (indices 128).countP (fun i => before[i].maint != after[i].maint)

/-! ## The input edges -/

/-- MAINS_FAIL: the sample differs from the level taken, which is an edge; its level is followed and one dirty mark is
made (R77, R193). -/
def execMainsFailEdge (s : State) : Host.Outcome State Fault Refusal :=
  if s.inputs.sample.mainsFail = s.inputs.mainsFail then .next s
  else .next (finish s (dirtyMark { s with inputs.mainsFail := s.inputs.sample.mainsFail }))

/-- MAINT_ALL: as MAINS_FAIL (R76, R193). -/
def execMaintAllEdge (s : State) : Host.Outcome State Fault Refusal :=
  if s.inputs.sample.maintAll = s.inputs.maintAll then .next s
  else .next (finish s (dirtyMark { s with inputs.maintAll := s.inputs.sample.maintAll }))

end Sys2Proof.Machine
end

