-- ==== Sys2Proof/Machine/Evidence.lean ====
section
/-! DEFINITION. Terminal evidence (chapter 2): what each record kind and a silence carry do to a terminal entry, and
what the change hands on to the counts, the storm gauge and the Settle Timer (R35 to R38). -/

namespace Sys2Proof.Machine

/-! ## The entry -/

/-- Entry into DARK or SPENT (R34). -/
def Entry.fallTo (e : Entry) (link : Link) : Entry :=
  { e with link, dim := false, filter := none, silence := 0, missRun := 0 }

/-- A LIT terminal falls to DARK and a FADING one to SPENT (R28, R31). -/
def Entry.fall (e : Entry) : Entry :=
  match e.link with
  | .lit => e.fallTo .dark
  | .fading => e.fallTo .spent
  | _ => e

/-- The resting content of an unheard terminal; provisioning, parents and covering field are kept (R39). -/
def Entry.forgotten (e : Entry) : Entry :=
  { e with link := .unheard, filter := none, dim := false, silence := 0, missRun := 0, lastRound := none }

/-- The resting content of an unprovisioned terminal (R23, R42); RESET gives the same to every entry (R46). -/
def Entry.rested (e : Entry) : Entry := { e.forgotten with covering := none }

/-- The filter value a measured reading gives, followed by the DIM test (R52, R53, R56). -/
def Entry.takeFilter (p : Settings) (e : Entry) (f : Int) : Entry :=
  { e with filter := some f, dim := dimTest p.dimSet p.dimClear f e.dim }

/-- The Level Filter on a STATUS: an unmeasured reading changes nothing, an empty filter is seeded, a present one is
stepped (R49, R52, R53). -/
def Entry.filterStatus (p : Settings) (e : Entry) (power : Int) : Entry :=
  if power = notMeasured then e
  else match e.filter with
    | none => e.takeFilter p (seedFilter (clampReading power))
    | some f => e.takeFilter p (stepFilter p.filterShift (clampReading power) f)

/-- The Level Filter on a LINK: a measured reading restarts the filter (R49, R58). -/
def Entry.filterLink (p : Settings) (e : Entry) (power : Int) : Entry :=
  if power = notMeasured then e else e.takeFilter p (seedFilter (clampReading power))

/-- A STATUS or MISS of this round is a repeat (R25). -/
def Entry.repeats (e : Entry) (round : Byte) : Bool := e.lastRound = some round

/-- The entry after a STATUS taken as evidence (R26). -/
def Entry.status (p : Settings) (e : Entry) (round : Byte) (power : Int) : Entry :=
  Entry.filterStatus p { e with lastRound := some round, silence := 0, missRun := 0, link := .lit } power

/-- The disposition of a STATUS taken as evidence (R15, R16). -/
def statusDisposition (storm : Bool) (old new : Entry) : Disposition :=
  if old.link = .fading then .withdrawn
  else if old.link = .lit ∧ storm = true ∧ old.dim = new.dim then .flooded
  else .accepted

/-- The entry after a LINK (R27). -/
def Entry.linked (p : Settings) (e : Entry) (power : Int) : Entry :=
  Entry.filterLink p { e with lastRound := none, silence := 0, missRun := 0, link := .lit } power

/-- The disposition of a LINK (R27). -/
def linkDisposition (old : Entry) : Disposition := if old.link = .fading then .withdrawn else .accepted

/-- The entry after a MISS taken as evidence (R28). -/
def Entry.missed (p : Settings) (e : Entry) (round : Byte) : Entry :=
  let e := { e with lastRound := some round }
  if e.link = .lit ∨ e.link = .fading then
    let run := min Config.missRunMax (e.missRun + 1)
    let e := { e with missRun := run }
    if p.missLimit ≠ 0 ∧ p.missLimit ≤ run then e.fall else e
  else e

/-- The entry after a GASP (R29). -/
def Entry.gasped (e : Entry) : Entry :=
  match e.link with
  | .unheard => { e with link := .fading }
  | .lit => { e with link := .fading }
  | .dark => e.fallTo .spent
  | .fading => e
  | .spent => e

/-- The disposition of a GASP (R29). -/
def gaspDisposition (old : Entry) : Disposition :=
  match old.link with
  | .unheard => .accepted
  | .lit => .accepted
  | .fading => .repeated
  | .dark => .late
  | .spent => .repeated

/-- The entry after a carry of the silence tap (R31). -/
def Entry.silent (limit : Nat) (e : Entry) : Entry :=
  if e.provisioned = true ∧ (e.link = .lit ∨ e.link = .fading) then
    let e := { e with silence := e.silence + 1 }
    if e.silence = limit then e.fall else e
  else e

/-! ## What a change hands on -/

/-- The change of an entry is a fall: LIT to DARK, or UNHEARD or LIT to FADING by a gasp (R37). -/
def isFall (old new : Entry) : Bool :=
  match old.link, new.link with
  | .lit, .dark => true
  | .unheard, .fading => true
  | .lit, .fading => true
  | _, _ => false

/-- The link state or the DIM flag changed (R36). -/
def linkOrDimChanged (old new : Entry) : Bool := old.link != new.link || old.dim != new.dim

/-- The entry takes its new content and the counts move with it (R35, R38). -/
def moveEntry (t : Fin 512) (new : Entry) (s : State) : State := adjustCounts (s.entry t) new (s.putEntry t new)

/-- The whole of a terminal event but for its dirty mark: the entry, the counts and the fall (R35, R37). -/
def terminalChange (t : Fin 512) (new : Entry) (s : State) : State :=
  addFalls (flag (isFall (s.entry t) new)) (moveEntry t new s)

/-- A terminal event of a record: the change and its one dirty mark, also made when its falls change STORM
(R36, R96). -/
def terminalEvent (t : Fin 512) (new : Entry) (s : State) : State :=
  let s' := terminalChange t new s
  markIf (linkOrDimChanged (s.entry t) new || s'.storm != s.storm) s'

/-- FORGET for a provisioned terminal: always one dirty mark (R39). -/
def forgetTerminal (t : Fin 512) (s : State) : State :=
  dirtyMark (moveEntry t (s.entry t).forgotten s)

/-! ## Silence -/

/-- The node counts after many terminals change, entry by entry (R31, R67). -/
def adjustAll (nodes : Vector Node 128) : List (Entry × Entry) → Vector Node 128
  | [] => nodes
  | (old, new) :: rest => adjustAll (adjustNodes old new nodes) rest

/-- The whole of a silence carry at the Terminal Table: one event, one dirty mark (R31, R36). -/
def silenceEvent (s : State) : State :=
  let entries := mapTable (fun _ e => Entry.silent s.par.silenceLimit e) s.entries
  let pairs := s.entries.toList.zip entries.toList
  let nodes := if s.applyPass then s.nodes else adjustAll s.nodes pairs
  let falls := pairs.countP (fun p => isFall p.1 p.2)
  let s' := addFalls falls { s with entries, nodes }
  markIf (pairs.any (fun p => linkOrDimChanged p.1 p.2) || s'.storm != s.storm) s'

/-- SILENCE_CARRY: a carry of the selected silence tap, which a millisecond carry has given (R31, R82, R83). -/
def execSilenceCarry (s : State) : Host.Outcome State Fault Refusal :=
  if s.time.silenceDue then .next (finish s (silenceEvent { s with time.silenceDue := false })) else .next s

/-- The leak of the storm gauge (R95). -/
def leakEvent (s : State) : State :=
  let s' := setGauge (s.gauge - s.par.stormLeak) s
  markIf (s'.storm != s.storm) s'

/-- STORM_LEAK: a carry of the 16 ms tap, which a millisecond carry has given (R82, R83, R95). -/
def execStormLeak (s : State) : Host.Outcome State Fault Refusal :=
  if s.time.leakDue then .next (finish s (leakEvent { s with time.leakDue := false })) else .next s

end Sys2Proof.Machine
end

