-- ==== Sys2Proof/Machine/Intake.lean ====
section
/-! DEFINITION. The Intake Parser (chapter 1): the assembly marks, the decision at a completion (R6), the counters (R20)
and the effect of each intake write on the part and on record memory. -/

namespace Sys2Proof.Machine

/-! ## Slots and marks -/

/-- The slot index and word number of an address in a ring (R1). -/
def Ring.locate (r : Ring) (a : Nat) : Option (Nat × Nat) :=
  if r.base ≤ a ∧ a < r.base + 16 * r.count then some ((a - r.base) / 16, (a - r.base) % 16 / 4) else none

/-- The slot index and word number of an intake write, while intake writes are taken (R1, R18, R19). -/
def State.intakeWord (s : State) (b : Beat) : Option (Nat × Nat) :=
  if s.setupInUse then s.intakeRing.bind (fun r => r.locate (wordAddr b.addr.toNat)) else none

/-- The slot index of an intake write; 0 for a write that is none, which no caller meets. -/
def State.intakeSlot (s : State) (b : Beat) : Nat := ((s.intakeWord b).map Prod.fst).getD 0

/-- The assembly mark of a slot (1.2). -/
def State.mark (s : State) (k : Nat) : Mark := Sparse.get Mark.clear s.marks k

/-- The state with a slot's assembly mark replaced. -/
def State.putMark (s : State) (k : Nat) (m : Mark) : State := { s with marks := Sparse.put Mark.clear s.marks k m }

/-- What a completion decides from the mark (R6, cases 1 to 7; cases 6 and 7 are told apart by the record's rows). -/
inductive Decision where
  | empty
  | malformed
  | treeDown
  | treeUp
  | status (c : Word0Capture) (power : Int)
  | miss (c : Word0Capture)
  | gasp (c : Word0Capture)
  | link (c : Word0Capture) (power : Int)
deriving DecidableEq, Repr

/-- The decision of a mark at completion, in the order of R6. -/
def Mark.decision (m : Mark) : Decision :=
  match m.word0 with
  | none => .malformed
  | some c =>
    if c.kind = 0 then .empty
    else if m.torn then .malformed
    else match m.word1 with
      | none => .malformed
      | some power =>
        match c.kind.toNat with
        | 1 => .status c power
        | 2 => .miss c
        | 3 => .gasp c
        | 4 => .link c power
        | 5 => .treeDown
        | 6 => .treeUp
        | _ => .malformed

/-- The provisioned terminal of a record, if its number names one (R13). -/
def State.recordTerminal (s : State) (c : Word0Capture) : Option (Fin 512) :=
  if h : c.terminal.toNat < 512 then
    (if (s.entry ⟨c.terminal.toNat, h⟩).provisioned then some ⟨c.terminal.toNat, h⟩ else none)
  else none

/-! ## Effects of the intake writes -/

/-- A full word0 write: the capture is stored and the write passes (R4). -/
def effWord0 (b : Beat) (s : State) : State :=
  let k := s.intakeSlot b
  (s.putMark k { s.mark k with word0 := some (captureWord0 b.data) }).passBeat b b.data

/-- A full word1 write: the power is stored and the write passes (R4). -/
def effWord1 (b : Beat) (s : State) : State :=
  let k := s.intakeSlot b
  (s.putMark k { s.mark k with word1 := some (capturePower b.data) }).passBeat b b.data

/-- A partial word0 or word1 write: torn is set and the capture of the word written is removed (R5). -/
def effPartial (b : Beat) (s : State) : State :=
  let k := s.intakeSlot b
  let m := s.mark k
  let m := if ((s.intakeWord b).map Prod.snd) = some 0 then { m with word0 := none, torn := true }
           else { m with word1 := none, torn := true }
  (s.putMark k m).passBeat b b.data

/-- A partial word3 write: the captures are dropped, torn is set, the malformed counter counts (R7). -/
def effPartialWord3 (b : Beat) (s : State) : State :=
  let s' := (s.putMark (s.intakeSlot b) { word0 := none, word1 := none, torn := true }).passBeat b b.data
  { s' with malformed := bumpCounter s.malformed }

/-- A completion: the mark is cleared and the completing write carries the disposition word (R6, R11). -/
def complete (b : Beat) (d : Disposition) (link : Option Link) (s : State) : State :=
  (s.putMark (s.intakeSlot b) Mark.clear).passBeat b (dispositionWord d link s.time.clock)

/-- An EMPTY completion: the write passes unchanged and the mark is cleared (R6, case 1). -/
def effEmpty (b : Beat) (s : State) : State := (s.putMark (s.intakeSlot b) Mark.clear).passBeat b b.data

/-- A MALFORMED completion (R12). -/
def effMalformed (b : Beat) (s : State) : State :=
  { complete b .malformed none s with malformed := bumpCounter s.malformed }

/-- An UNKNOWN completion (R13). -/
def effUnknown (b : Beat) (s : State) : State :=
  { complete b .unknown none s with unknown := bumpCounter s.unknown }

/-- A completion that is delivered to the Terminal Table: the record's change of the entry, then the disposition word
with the link state the record left (R15, R17). -/
def deliver (b : Beat) (t : Fin 512) (new : Entry) (d : Disposition) (s : State) : State :=
  complete b d (some new.link) (terminalEvent t new s)

/-- A tree record: the trunk flag, one dirty mark if it changed, ACCEPTED (R14, R70). -/
def effTree (b : Beat) (down : Bool) (s : State) : State :=
  complete b .accepted none (markIf (s.trunk != down) { s with trunk := down })

/-- A TREE_DOWN completion (R14). -/
def effTreeDown (b : Beat) (s : State) : State := effTree b true s

/-- A TREE_UP completion (R14). -/
def effTreeUp (b : Beat) (s : State) : State := effTree b false s

/-- A STATUS completion (R13, R16, R25, R26). -/
def effStatus (b : Beat) (s : State) : State :=
  match (s.mark (s.intakeSlot b)).decision with
  | .status c power =>
    match s.recordTerminal c with
    | none => effUnknown b s
    | some t =>
      let old := s.entry t
      if old.repeats c.round then deliver b t old .repeated s
      else
        let new := old.status s.par c.round power
        deliver b t new (statusDisposition s.storm old new) s
  | _ => s

/-- A MISS completion (R13, R25, R28). -/
def effMiss (b : Beat) (s : State) : State :=
  match (s.mark (s.intakeSlot b)).decision with
  | .miss c =>
    match s.recordTerminal c with
    | none => effUnknown b s
    | some t =>
      let old := s.entry t
      if old.repeats c.round then deliver b t old .repeated s
      else deliver b t (old.missed s.par c.round) .accepted s
  | _ => s

/-- A GASP completion (R13, R29). -/
def effGasp (b : Beat) (s : State) : State :=
  match (s.mark (s.intakeSlot b)).decision with
  | .gasp c =>
    match s.recordTerminal c with
    | none => effUnknown b s
    | some t =>
      let old := s.entry t
      deliver b t old.gasped (gaspDisposition old) s
  | _ => s

/-- A LINK completion (R13, R27). -/
def effLink (b : Beat) (s : State) : State :=
  match (s.mark (s.intakeSlot b)).decision with
  | .link c power =>
    match s.recordTerminal c with
    | none => effUnknown b s
    | some t =>
      let old := s.entry t
      deliver b t (old.linked s.par power) (linkDisposition old) s
  | _ => s

end Sys2Proof.Machine
end

