-- ==== Sys2Proof/Machine/Incidents.lean ====
section
/-! DEFINITION. The Incident Table (chapter 8) and covering (7.3): freeing and closing incidents (R142 to R146),
absorption (R125), covering fields (R126), the emit predicate (R149) and the soak expiries (R136, R139). -/

namespace Sys2Proof.Machine

/-! ## Kinds -/

/-- The family of a cause kind; the residue has none (R114). -/
def CauseKind.family : CauseKind → Option Family
  | .trunkLoss => some .dark | .branchDark => some .dark | .terminalDark => some .dark
  | .mainsLoss => some .power | .terminalPower => some .power
  | .branchDim => some .dim | .terminalDim => some .dim
  | .residue => none

/-- The attack code of a family (word 13, R135). -/
def Settings.attack (p : Settings) : Family → Nat
  | .dark => p.attackDark | .power => p.attackPower | .dim => p.attackDim

/-- The release code of a family (word 13, R138). -/
def Settings.release (p : Settings) : Family → Nat
  | .dark => p.releaseDark | .power => p.releasePower | .dim => p.releaseDim

/-- The attack soak of a cause kind in milliseconds (R87, R135). -/
def State.attackSoak (s : State) (k : CauseKind) : Nat := (k.family.map (fun f => duration (s.par.attack f))).getD 0

/-- The release soak of a cause kind in milliseconds (R87, R138). -/
def State.releaseSoak (s : State) (k : CauseKind) : Nat := (k.family.map (fun f => duration (s.par.release f))).getD 0

/-! ## Covering -/

/-- An incident in OPEN or CLEARING covers; a close-due one goes on covering (R114). -/
def Incident.covering (i : Incident) : Bool := i.phase = .opened ∨ i.phase = .clearing

/-- The subject of the incident is a node that has node `n` below it in its subtree (R114). -/
def Incident.aboveNode (nodes : Vector Node 128) (i : Incident) (n : Fin 128) : Bool :=
  match i.subject with
  | .node m => n ≠ m && inSubtree nodes m n
  | _ => false

/-- The subject of the incident is a node whose subtree holds the terminal by its parent in the family's tree (R125). -/
def Incident.aboveTerminal (nodes : Vector Node 128) (i : Incident) (e : Entry) : Bool :=
  match i.subject, i.kind.family with
  | .node m, some f => inSubtree nodes m (e.parentIn f.tree)
  | _, _ => false

/-- The incident covers node `n` in family `f` (R114). -/
def Incident.coversNode (nodes : Vector Node 128) (f : Family) (i : Incident) (n : Fin 128) : Bool :=
  i.covering && decide (i.kind.family = some f) && i.aboveNode nodes n

/-- The incident covers the terminal, which is afflicted in the incident's family (R114). -/
def Incident.coversTerminal (nodes : Vector Node 128) (i : Incident) (e : Entry) : Bool :=
  i.covering && ((i.kind.family.map e.afflicted).getD false) && i.aboveTerminal nodes e

/-- Some incident in the table covers node `n` in family `f` (R115, R121). -/
def State.nodeCovered (s : State) (f : Family) (n : Fin 128) : Bool :=
  s.slots.toList.any (fun o => (o.map (fun i => i.coversNode s.nodes f n)).getD false)

/-- The incident of slot `k` covers the terminal. -/
def State.slotCovers (s : State) (e : Entry) (k : Fin 32) : Bool :=
  ((s.slot k).map (fun i => i.coversTerminal s.nodes e)).getD false

/-- The terminal is covered: by the incident its covering field names, or by any found along its chain (R117). -/
def State.terminalCovered (s : State) (e : Entry) : Bool :=
  ((e.covering.map (s.slotCovers e)).getD false) || (indices 32).any (s.slotCovers e)

/-- The depth of an incident's subject node (R114). -/
def Incident.subjectDepth (nodes : Vector Node 128) (i : Incident) : Nat :=
  match i.subject with
  | .node m => nodes[m].depth
  | _ => 0

/-- The depth of the subject node of the incident in a slot. -/
def State.slotDepth (s : State) (k : Fin 32) : Nat := ((s.slot k).map (fun i => i.subjectDepth s.nodes)).getD 0

/-- Of slots in creation order, the first of those with the greatest subject depth that cover the terminal (R114). -/
def State.nearestOf (s : State) (e : Entry) : List (Fin 32) → Option (Fin 32) → Option (Fin 32)
  | [], best => best
  | k :: rest, best =>
    let better := match best with | none => true | some j => decide (s.slotDepth j < s.slotDepth k)
    s.nearestOf e rest (if s.slotCovers e k && better then some k else best)

/-- The covering incident of a terminal: the nearest that covers it (R114). -/
def State.coveringSlot (s : State) (e : Entry) : Option (Fin 32) := s.nearestOf e s.order none

/-- The covering field that a matching writes for a terminal: every provisioned one's is rewritten (R126). -/
def State.rewrittenCovering (s : State) (e : Entry) : Option (Fin 32) :=
  if e.provisioned then s.coveringSlot e else e.covering

/-- The covering fields rewritten at a matching (R126). -/
def rewriteCovering (s : State) : State :=
  { s with entries := mapTable (fun _ e => { e with covering := s.rewrittenCovering e }) s.entries }

/-! ## Freeing and closing -/

/-- A slot is freed: it leaves the creation-order list, the covering fields that name it become none, and part status
word A is set for writing (R44, R146). Whether a dirty mark is made is the event's (R146). -/
def freeSlot (k : Fin 32) (s : State) : State :=
  { s with slots := s.slots.set k none
           order := s.order.filter (· ≠ k)
           entries := mapTable (fun _ e => if e.covering = some k then { e with covering := none } else e) s.entries
           writeMarks.partA := true }

/-- An incident closes: an announced one becomes close-due and its soak ends, another is freed (R142). -/
def closeIncident (k : Fin 32) (reason : CloseReason) (absorber : Nat) (i : Incident) (s : State) : State :=
  if i.announced then s.putSlot k { i with close := some { reason, absorber }, soak := none }
  else freeSlot k s

/-! ## Absorption -/

/-- The subject of `other` is covered by the entering incident `i`: a node below its subject, or a terminal that hangs
in its subtree (R125). -/
def Incident.takesIn (nodes : Vector Node 128) (entries : Vector Entry 512) (i other : Incident) : Bool :=
  match other.subject with
  | .node n => i.aboveNode nodes n
  | .terminal t => i.aboveTerminal nodes entries[t]
  | .nothing => false

/-- The entering incident `i` of slot `k` absorbs the incident of slot `j` if R125 says so. -/
def absorbSlot (k : Fin 32) (i : Incident) (s : State) (j : Fin 32) : State :=
  match s.slot j with
  | none => s
  | some other =>
    if j ≠ k ∧ other.close = none ∧ i.kind.family.isSome = true ∧ other.kind.family = i.kind.family ∧
        i.takesIn s.nodes s.entries other = true then
      closeIncident j .absorbed i.number other s
    else s

/-- The absorptions of the incident of slot `k` as it enters OPEN; only a node incident absorbs (R125). -/
def absorbAll (k : Fin 32) (i : Incident) (s : State) : State := (indices 32).foldl (absorbSlot k i) s

/-! ## Flags and the emit predicate -/

/-- The maintenance test for an incident's subject (R73). -/
def State.subjectUnderMaint (s : State) (i : Incident) : Bool :=
  match i.subject with
  | .node n => s.nodeUnderMaint n
  | .terminal t => s.nodeUnderMaint ((s.entry t).parentIn ((i.kind.family.map Family.tree).getD .fibre))
  | .nothing => s.inputs.maintAll

/-- Notices are permitted for the incident by its kind's predicate and its held flags (R149). -/
def State.permitted (s : State) (i : Incident) : Bool := permittedBy s.par.predicates i.kind i.storm i.maint

/-- The predicate test at an entry into OPEN or while withheld: open-due or withheld (R136, R150). -/
def State.tested (s : State) (i : Incident) : Incident :=
  if s.permitted i then { i with openDue := true, withheld := false } else { i with withheld := true }

/-! ## Covering fields at an attack expiry -/

/-- The covering field of a terminal when the incident `i` of slot `k` enters OPEN at its attack expiry: set to `k`
where it held none or an incident on a node nearer the root (R126). -/
def State.coveringAtOpening (s : State) (k : Fin 32) (i : Incident) (e : Entry) : Option (Fin 32) :=
  if i.coversTerminal s.nodes e then
    match e.covering with
    | none => some k
    | some j => if s.slotDepth j < i.subjectDepth s.nodes then some k else some j
  else e.covering

/-- The covering fields after an attack expiry (R126). -/
def coverAtOpening (k : Fin 32) (i : Incident) (s : State) : State :=
  { s with entries := mapTable (fun _ e => { e with covering := s.coveringAtOpening k i e }) s.entries }

/-! ## Soak expiries -/

/-- The carry that ends the attack soak of the incident of slot `k` waits to be taken, and the soak is not frozen (R136,
R141). -/
def State.attackDue (s : State) (k : Fin 32) (i : Incident) : Bool :=
  decide (s.slot k = some i) && k ≠ 0 && i.phase = .waiting && i.close.isNone && isDue i.soak && !s.frozen

/-- The event of an attack expiry but for the take of a notice (R136, R125, R126, R146). -/
def attackEvent (k : Fin 32) (i : Incident) (s : State) : State :=
  let opened := s.tested { i with phase := .opened, soak := none }
  let s1 := s.putSlot k opened
  let s2 := coverAtOpening k opened (absorbAll k opened s1)
  markIf (decide (s2.slotsInUse < s.slotsInUse)) s2

/-- The carry that ends the release soak of the incident of slot `k` waits to be taken, and the soak is not frozen (R139,
R141). -/
def State.releaseDue (s : State) (k : Fin 32) (i : Incident) : Bool :=
  decide (s.slot k = some i) && k ≠ 0 && i.phase = .clearing && i.close.isNone && isDue i.soak && !s.frozen

/-- The event of a release expiry but for the take of a notice (R139, R142, R146). -/
def releaseEvent (k : Fin 32) (i : Incident) (s : State) : State :=
  markIf (!i.announced) (closeIncident k .cleared 0 i s)

/-! ## Creation -/

/-- The number after `n` of the incident number counter (R133). -/
def nextNumberAfter (n : Nat) : Nat := if 65535 ≤ n then 1 else n + 1

/-- An incident in the table holds the number (R133). -/
def State.numberHeld (s : State) (n : Nat) : Bool :=
  s.slots.toList.any (fun o => (o.map (fun i => decide (i.number = n))).getD false)

/-- The first number from `n` on that no incident holds; 33 steps pass the 32 slots (R133). -/
def State.freshNumberFrom (s : State) : Nat → Nat → Nat
  | 0, n => n
  | fuel + 1, n => if s.numberHeld n then s.freshNumberFrom fuel (nextNumberAfter n) else n

/-- The number that the next incident created takes (R133). -/
def State.freshNumber (s : State) : Nat := s.freshNumberFrom 33 s.nextNumber

/-- A new incident of a cause: number, creation time, every mark clear (R122, R131). -/
def State.newIncident (s : State) (c : Cause) : Incident :=
  { number := s.freshNumber, kind := c.kind, subject := c.subject, phase := .waiting,
    soak := some (s.msWindow (s.attackSoak c.kind)), created := s.time.clock, afflicted := c.afflicted,
    monitored := c.monitored, exceptions := c.exceptions, truncated := c.truncated,
    unplaced := { dark := 0, power := 0, dim := 0 },
    maint := false, storm := false, announced := false, withheld := false, recurred := false, openDue := false,
    updateDue := false, close := none }

/-- The new incident takes slot `k`, joins the end of the creation-order list, and the counter moves on (R122, R132,
R133). -/
def createIncident (k : Fin 32) (i : Incident) (s : State) : State :=
  { s with slots := s.slots.set k (some i), order := s.order ++ [k], nextNumber := nextNumberAfter i.number }

end Sys2Proof.Machine
end

