-- ==== Sys2Proof/Machine/Notices.lean ====
section
/-! DEFINITION. The Notice Writer (chapter 9): the choice and the take of a notice (R161, R162), its nine writes (R163),
ring initialisation (R164), the RESTART mark (R165), consumer index writes (R160), and the soak expiries, which end with
a take. -/

namespace Sys2Proof.Machine

/-! ## Choosing and taking -/

/-- The kind of notice that an incident is due: OPEN before UPDATE before CLOSE (R161). -/
def Incident.due (i : Incident) : Option NoticeKind :=
  if i.openDue then some .opening
  else if i.updateDue then some .updating
  else if i.close.isSome then some .closing
  else none

/-- The notice due of the incident of a slot. -/
def State.slotDue (s : State) (k : Fin 32) : Option (Fin 32 × Incident × NoticeKind) :=
  (s.slot k).bind (fun i => i.due.map (fun d => (k, i, d)))

/-- The first incident of the creation-order list that holds a due mark, with its notice (R161). -/
def State.chosen (s : State) : Option (Fin 32 × Incident × NoticeKind) := s.order.findSome? s.slotDue

/-- The incident's marks after a notice of it is taken (R153). -/
def Incident.taken (i : Incident) : NoticeKind → Incident
  | .opening => { i with announced := true, openDue := false, updateDue := false, recurred := false }
  | .updating => { i with updateDue := false, recurred := false }
  | .closing => i
  | .restarting => i

/-- The tag of an incident's subject node, 0 for another subject (R162). -/
def State.subjectTag (s : State) (i : Incident) : Byte :=
  match i.subject with
  | .node n => s.nodes[n].tag
  | _ => 0

/-- The writer has a ring with room, no notice in progress and no initial header write to make (R161, R164). -/
def State.canTake (s : State) : Bool :=
  match s.noticeRing with
  | none => false
  | some r => s.notice.isNone && !s.headerDue && decide (s.unconsumed < r.count)

/-- The take of a notice of an incident (R153, R161, R162). -/
def takeIncident (k : Fin 32) (i : Incident) (kind : NoticeKind) (s : State) : State :=
  { s.putSlot k (i.taken kind) with
      notice := some { words := incidentNotice kind i (s.subjectTag i) s.time.clock, written := 0,
                       frees := if kind = .closing then some k else none } }

/-- The take of the RESTART notice (R161, R162). -/
def takeRestart (r : RestartReason) (s : State) : State :=
  { s with restart := none, notice := some { words := restartNotice r s.time.clock, written := 0, frees := none } }

/-- A notice is taken if all the conditions of R161 hold: RESTART first, else the oldest incident due. -/
def takeNotice (s : State) : State :=
  if s.canTake then
    match s.restart with
    | some r => takeRestart r s
    | none =>
      match s.chosen with
      | some (k, i, kind) => takeIncident k i kind s
      | none => s
  else s

/-! ## Soak expiries -/

/-- ATTACK_EXPIRY of a slot (R136); one that is not due does not come (R141). -/
def execAttackExpiry (k : Fin 32) (s : State) : Host.Outcome State Fault Refusal :=
  match s.slot k with
  | none => .next s
  | some i => if s.attackDue k i then .next (finish s (takeNotice (attackEvent k i s))) else .next s

/-- RELEASE_EXPIRY of a slot (R139); one that is not due does not come (R141). -/
def execReleaseExpiry (k : Fin 32) (s : State) : Host.Outcome State Fault Refusal :=
  match s.slot k with
  | none => .next s
  | some i => if s.releaseDue k i then .next (finish s (takeNotice (releaseEvent k i s))) else .next s

/-! ## The ring -/

/-- The initialisation of a ring (R164): HARD_RESET for the first ring since hardware reset, else RING_MOVED. One write of
0 is due at a time: an earlier ring's, still due when the ring moves again, is dropped (DESIGN CHOICE, log entry 33). -/
def initRing (r : Ring) (s : State) : State :=
  { s with noticeRing := some r, producer := 0, consumer := 0, ringFault := false,
           restart := some (if s.noticeRing.isNone then .hardReset else .ringMoved),
           headerDue := true, ringWaiting := none }

/-- What a COMMIT completion does about its applied ring: nothing if it is the ring in use, else the initialisation, at
once or when the notice in progress ends (R164). A ring that an earlier completion left waiting gives way to the one
applied last (log entry 10). -/
def applyNoticeRing (r : Ring) (s : State) : State :=
  if s.noticeRing = some r then { s with ringWaiting := none }
  else if s.notice.isSome then { s with ringWaiting := some r }
  else initRing r s

/-- The SOFT_RESET that a RESET command makes due, unless a reason that stands is kept (R165). -/
def softRestart : Option RestartReason → Option RestartReason
  | some .hardReset => some .hardReset
  | some .ringMoved => some .ringMoved
  | _ => some .softReset

/-- The address of word `i` of the slot that the producer index names (R158, R163). -/
def State.noticeAddr (s : State) (r : Ring) (i : Nat) : Nat := r.base + 32 + 32 * (s.producer.toNat % r.count) + 4 * i

/-- The value of the producer's header word (R158, R188). -/
def indexWord (i : Half) : Word := i.setWidth 32

/-- What the next access of a notice writes: the next of its eight words to its slot (R163). -/
def State.noticeStore (s : State) (r : Ring) (n : Notice) : Store :=
  { addr := s.noticeAddr r n.written, word := (n.words[n.written]?).getD 0 }

/-- One of the eight slot words of the notice in progress is counted as written (R163). -/
def noticeWordEvent (n : Notice) (s : State) : State := { s with notice := some { n with written := n.written + 1 } }

/-- The slot of a written CLOSE is freed, with a dirty mark (R146, R163). -/
def freeClosed : Option (Fin 32) → State → State
  | none, s => s
  | some k, s => dirtyMark (freeSlot k s)

/-- The ring that waited for the notice to end is initialised (R164). -/
def initWaiting (s : State) : State :=
  match s.ringWaiting with
  | none => s
  | some r => initRing r s

/-- What the producer write writes: the index plus one, to header word 0 (R163). -/
def State.producerStore (s : State) (r : Ring) : Store := { addr := r.base, word := indexWord (s.producer + 1) }

/-- The producer write (R163): the index advances, the notice ends, a CLOSE's slot is freed, a waiting ring is
initialised, and the next notice is taken (R161). -/
def producerEvent (n : Notice) (s : State) : State :=
  takeNotice (initWaiting (freeClosed n.frees { s with producer := s.producer + 1, notice := none }))

/-- The initial write of 0 to header word 0 of a new ring has been made: notices may be taken (R164). -/
def headerEvent (s : State) : State := takeNotice { s with headerDue := false }

/-! ## Consumer index writes -/

/-- A consumer write of value `v` is accepted (R160). -/
def State.acceptsConsumer (s : State) (r : Ring) (v : Half) : Bool :=
  decide ((s.producer - v).toNat ≤ r.count) &&
    (s.notice.isNone || decide ((s.producer + 1 - v).toNat ≤ r.count))

/-- A consumer index write: passes unchanged, is accepted or held, and may make room for a take (R160, R161). -/
def effConsumer (b : Beat) (s : State) : State :=
  let s1 := s.passBeat b b.data
  match s.noticeRing with
  | none => s1
  | some r =>
    let v := firstHalf b.data
    if b.full && s.acceptsConsumer r v then takeNotice { s1 with consumer := v, ringFault := false }
    else { s1 with ringFault := true }

end Sys2Proof.Machine
end

