-- ==== Sys2Proof/Machine/Pass.lean ====
section
/-! DEFINITION. The Correlation Pass (chapter 7): the reading, with the quorum test, the struck flags and the cause list,
and the matching in its seven stages (R108). -/

namespace Sys2Proof.Machine

/-! ## The quorum test -/

/-- The quorum test on whole numbers (R110). -/
def quorum (q minAffected monitored afflicted : Nat) : Bool :=
  decide (1 ≤ monitored) && decide (minAffected ≤ afflicted) && decide (q * monitored ≤ 16 * afflicted)

/-- Node `i` is struck in a family at the reading (R110, R111, R112). -/
def State.isStruck (s : State) (f : Family) (i : Fin 128) : Bool :=
  let n := s.nodes[i]
  let p := s.par
  n.enabled && decide (n.tree = f.tree) &&
    (match f with
      | .dark => (decide (i = 0) && s.trunk) || quorum p.qDark p.minAffected n.monitored n.dark
      | .dim => quorum p.qDim p.minAffected n.monitored n.dim
      | .power =>
        quorum (if i = 1 ∧ s.inputs.mainsFail = true then p.qMains else p.qPower) p.minAffected n.monitored n.spent)

/-- The struck flags that the reading writes for node `i`; a disabled node's stay as they are (R113). -/
def State.struckNode (s : State) (i : Fin 128) (n : Node) : Node :=
  if n.enabled then
    { n with struckDark := s.isStruck .dark i, struckDim := s.isStruck .dim i, struckPower := s.isStruck .power i }
  else n

/-- The node table after the reading (R113). -/
def State.struckNodes (s : State) : Vector Node 128 := mapTable (fun i n => s.struckNode (Fin.ofNat 128 i) n) s.nodes

/-- The struck flag of a family. -/
def Node.struck (n : Node) : Family → Bool
  | .dark => n.struckDark | .dim => n.struckDim | .power => n.struckPower

/-! ## Causes

The functions below read the state after the struck flags are written. -/

/-- The afflicted count of a node in a family (R110). -/
def Node.afflictedCount (n : Node) : Family → Nat
  | .dark => n.dark | .dim => n.dim | .power => n.spent

/-- The terminals of a node's subtree, by the parents in the family's tree, that are monitored and not afflicted in the
family, ascending (R116). -/
def State.exceptionsOf (s : State) (f : Family) (i : Fin 128) : List (Fin 512) :=
  (indices 512).filter (fun t =>
    let e := s.entry t
    e.monitored && !e.afflicted f && inSubtree s.nodes i (e.parentIn f.tree))

/-- A node is a node cause of a family: struck, no node above it struck, not covered (R115). -/
def State.isNodeCause (s : State) (f : Family) (i : Fin 128) : Bool :=
  s.nodes[i].enabled && s.nodes[i].struck f && !(chain s.nodes i).tail.any (fun m => s.nodes[m].struck f) &&
    !s.nodeCovered f i

/-- The node cause of a kind on a node (R115, R116). -/
def State.nodeCause (s : State) (kind : CauseKind) (f : Family) (i : Fin 128) : Cause :=
  let l := s.exceptionsOf f i
  { kind, subject := .node i, afflicted := s.nodes[i].afflictedCount f, monitored := s.nodes[i].monitored,
    exceptions := l.take 4, truncated := decide (4 < l.length) }

/-- The node causes of a family in order of node number, of a kind that the node decides (R115, R118). -/
def State.nodeCauses (s : State) (f : Family) (kind : CauseKind) (p : Fin 128 → Bool) : List Cause :=
  ((indices 128).filter (fun i => s.isNodeCause f i && p i)).map (s.nodeCause kind f)

/-- A terminal is a terminal cause of a family: afflicted, no node on its chain struck, not covered (R117). -/
def State.isTerminalCause (s : State) (f : Family) (t : Fin 512) : Bool :=
  let e := s.entry t
  e.afflicted f && !(chain s.nodes (e.parentIn f.tree)).any (fun m => s.nodes[m].struck f) && !s.terminalCovered e

/-- The terminal cause of a kind (R117). -/
def terminalCause (kind : CauseKind) (t : Fin 512) : Cause :=
  { kind, subject := .terminal t, afflicted := 1, monitored := 1, exceptions := [], truncated := false }

/-- The terminal causes of a family in order of terminal number (R118). -/
def State.terminalCauses (s : State) (f : Family) (kind : CauseKind) : List Cause :=
  ((indices 512).filter (s.isTerminalCause f)).map (terminalCause kind)

/-- The cause list in the order of R118. Node 0 is TRUNK_LOSS in place of BRANCH_DARK while the trunk flag is set
(R112). -/
def State.causes (s : State) : List Cause :=
  s.nodeCauses .dark .trunkLoss (fun i => decide (i = 0) && s.trunk) ++
  s.nodeCauses .dark .branchDark (fun i => !(decide (i = 0) && s.trunk)) ++
  s.nodeCauses .power .mainsLoss (fun _ => true) ++
  s.nodeCauses .dim .branchDim (fun _ => true) ++
  s.terminalCauses .dark .terminalDark ++
  s.terminalCauses .power .terminalPower ++
  s.terminalCauses .dim .terminalDim

/-- The reading: the struck flags are written and the cause list is formed (R108). -/
def readingEvent (s : State) : State :=
  let s1 := { s with nodes := s.struckNodes, passRequest := false }
  { s1 with pass := some s1.causes }

/-- PASS_READING: the waiting request begins a pass. During an apply pass the pass ends at once and its request is
merged into the completion's (R103, R108, R109). -/
def execPassReading (s : State) : Host.Outcome State Fault Refusal :=
  if s.passRequest && s.pass.isNone then
    .next (finish s (if s.applyPass then { s with passRequest := false } else readingEvent s))
  else .next s

/-! ## Matching -/

/-- The subject of the cause is covered in the cause's family (R121, R125). -/
def State.causeCovered (s : State) (c : Cause) : Bool :=
  match c.subject, c.kind.family with
  | .node n, some f => s.nodeCovered f n
  | .terminal t, some f => (s.entry t).afflicted f && s.terminalCovered (s.entry t)
  | _, _ => false

/-- The incident has the cause's kind and subject (R119). -/
def Cause.fits (c : Cause) (i : Incident) : Bool := i.kind = c.kind ∧ i.subject = c.subject

/-- The incident refreshed from its cause (R119). -/
def Incident.refreshed (i : Incident) (c : Cause) : Incident :=
  { i with afflicted := c.afflicted, monitored := c.monitored, exceptions := c.exceptions, truncated := c.truncated }

/-- An incident whose cause is present (R119, R140): CLEARING enters OPEN again. It takes the recurred mark if it is
announced, by R140's table; one that is not announced keeps the mark as it is, where R119 and R162 name no announcement
(DEDUCED, log entry 36). -/
def Incident.present (i : Incident) (c : Cause) : Incident :=
  match i.phase with
  | .clearing => { i.refreshed c with phase := .opened, soak := none, recurred := i.announced || i.recurred }
  | _ => i.refreshed c

/-- Stage 2 for one slot (R119). -/
def matchSlot (causes : List Cause) (s : State) (k : Fin 32) : State :=
  match s.slot k with
  | none => s
  | some i =>
    if k = 0 ∨ i.close.isSome = true then s
    else match causes.find? (·.fits i) with
      | some c => s.putSlot k (i.present c)
      | none =>
        match i.phase with
        | .waiting => freeSlot k s
        | .opened => s.putSlot k { i with phase := .clearing, soak := some (s.msWindow (s.releaseSoak i.kind)) }
        | .clearing => s

/-- The cause fits an incident that a matching matches: not close-due, not the residue (R119). -/
def State.matched (s : State) (c : Cause) : Bool :=
  s.slots.toList.any (fun o => (o.map (fun i => i.close.isNone && c.fits i)).getD false)

/-- The incident of slot `k` entered OPEN again between two states of one matching. -/
def recurredAt (s0 s : State) (k : Fin 32) : Bool :=
  match s0.slot k, s.slot k with
  | some old, some new => old.phase = .clearing ∧ new.phase = .opened ∧ old.number = new.number
  | _, _ => false

/-- Stage 3 for one recurred slot: its absorptions (R125, R140). -/
def absorbRecurred (s : State) (k : Fin 32) : State :=
  match s.slot k with
  | none => s
  | some i => if i.close.isNone then absorbAll k i s else s

/-- The lowest-numbered free ordinary slot (R122). -/
def State.freeOrdinary (s : State) : Option (Fin 32) := (indices 32).find? (fun k => k ≠ 0 && (s.slot k).isNone)

/-- A close-due incident holds the cause's kind and subject (R122). -/
def State.leaving (s : State) (c : Cause) : Bool :=
  s.slots.toList.any (fun o => (o.map (fun i => i.close.isSome && c.fits i)).getD false)

/-- Stage 4 (R122): the new causes are placed in order; the answer holds the unplaced ones too. -/
def placeCauses : List Cause → State → State × List Cause
  | [], s => (s, [])
  | c :: rest, s =>
    if s.leaving c then
      let (s', u) := placeCauses rest s
      (s', c :: u)
    else match s.freeOrdinary with
      | some k => placeCauses rest (createIncident k (s.newIncident c) s)
      | none =>
        let (s', u) := placeCauses rest s
        (s', c :: u)

/-- How many causes are of a family. -/
def countFamily (causes : List Cause) (f : Family) : Nat := causes.countP (fun c => decide (c.kind.family = some f))

/-- The unplaced counts of a matching (R123). -/
def unplacedCounts (causes : List Cause) : Unplaced :=
  { dark := countFamily causes .dark, power := countFamily causes .power, dim := countFamily causes .dim }

/-- No cause is counted. -/
def Unplaced.none : Unplaced := { dark := 0, power := 0, dim := 0 }

/-- A new residue incident (R123, R147). -/
def State.newResidue (s : State) (u : Unplaced) : Incident :=
  { number := s.freshNumber, kind := .residue, subject := .nothing, phase := .opened, soak := none,
    created := s.time.clock, afflicted := 0, monitored := 0, exceptions := [], truncated := false, unplaced := u,
    maint := false, storm := false, announced := false, withheld := false, recurred := false, openDue := false,
    updateDue := false, close := none }

/-- Stage 5: the residue recount (R123, R147). -/
def residueRecount (u : Unplaced) (s : State) : State :=
  match s.slot 0 with
  | none => if u = Unplaced.none then s else createIncident 0 (s.newResidue u) s
  | some i =>
    if i.close.isSome then s
    else if u = Unplaced.none then closeIncident 0 .cleared 0 { i with unplaced := u } s
    else s.putSlot 0 { i with unplaced := u }

/-- What sets update-due when it changed at a matching (R152). -/
def updateReasons (old new : Incident) : Bool :=
  old.afflicted != new.afflicted || old.monitored != new.monitored || old.exceptions != new.exceptions ||
    old.truncated != new.truncated || old.maint != new.maint || old.storm != new.storm ||
    old.unplaced != new.unplaced || (decide (old.phase = .clearing) && decide (new.phase = .opened))

/-- The flags of an incident taken anew (R148). -/
def State.reflagged (s : State) (i : Incident) : Incident :=
  { i with maint := s.subjectUnderMaint i, storm := s.storm }

/-- The update-due mark of an incident against its record at the start of the matching (R152). -/
def Incident.updated (old : Option Incident) (i : Incident) : Incident :=
  if (i.announced || i.openDue) && (old.map (fun o => updateReasons o i)).getD false then { i with updateDue := true }
  else i

/-- Stage 7 for one incident: flags, update-due, then the predicate test of an OPEN one that is neither announced nor
open-due (R148, R150, R152). -/
def State.evaluated (s : State) (old : Option Incident) (i : Incident) : Incident :=
  if i.close.isSome then i
  else
    let i := (s.reflagged i).updated old
    if i.phase = .opened ∧ i.announced = false ∧ i.openDue = false then s.tested i else i

/-- Stage 7 (R108): the evaluations, against the table `s0` that the matching began with. -/
def evaluateAll (s0 s : State) : State :=
  { s with slots := mapTable (fun k o => o.map (s.evaluated (s0.slot (Fin.ofNat 32 k)))) s.slots }

/-- Stages 2 and 3: matching and the absorptions of recurred incidents in creation order (R119, R125). -/
def matchAll (causes : List Cause) (s : State) : State :=
  let s2 := (indices 32).foldl (matchSlot causes) s
  (s2.order.filter (recurredAt s s2)).foldl absorbRecurred s2

/-- The matching on a cause list, but for the take of a notice (R108). -/
def matchingEvent (causes : List Cause) (s : State) : State :=
  let live := causes.filter (fun c => !s.causeCovered c)
  let s3 := matchAll live s
  let new := live.filter (fun c => !s.matched c && !s3.causeCovered c)
  let placed := placeCauses new s3
  let s5 := residueRecount (unplacedCounts placed.2) placed.1
  { evaluateAll s (rewriteCovering s5) with pass := none }

/-- PASS_MATCHING: ends the pass in progress (R108, R128). -/
def execPassMatching (s : State) : Host.Outcome State Fault Refusal :=
  match s.pass with
  | none => .next s
  | some causes => .next (finish s (takeNotice (matchingEvent causes s)))

end Sys2Proof.Machine
end

