-- ==== Sys2Proof/Machine/Setup.lean ====
section
/-! DEFINITION. The staged setup: the clamps (R60, R180), the structural checks (R179), the parameter apply (R41, R71,
R98), a terminal word's application (R42, R181) and the COMMIT completion (R183). -/

namespace Sys2Proof.Machine

/-! ## Staged words -/

/-- Staged word `i` of the Setup Block, 4..14 (R178). -/
def Load.param (l : Load) (i : Nat) : Word := (l.staged[i - 4]?).getD 0

/-- The staged word of node `n` (R178). -/
def Load.nodeWord (l : Load) (n : Fin 128) : Word := (l.staged[11 + n.val]?).getD 0

/-- The Setup Block word that the check pass reads after `k` reads: 4..14, then 528..655 (R178). -/
def checkWord (k : Nat) : Nat := if k < 11 then 4 + k else 517 + k

/-! ## Clamps -/

/-- A base with its low bits cleared to a multiple (R180). -/
def clampBase (multiple base : Nat) : Nat := base / multiple * multiple

/-- The greatest power of two of a list that is not above `n`, else `least` (R180). -/
def clampPower (powers : List Nat) (least n : Nat) : Nat := powers.foldl (fun acc p => if p ≤ n then p else acc) least

/-- The intake slot count as applied (R180). -/
def clampIntakeCount (n : Nat) : Nat := clampPower [16, 32, 64, 128, 256, 512, 1024, 2048, 4096] 16 n

/-- The notice slot count as applied (R180). -/
def clampNoticeCount (n : Nat) : Nat := clampPower [8, 16, 32, 64, 128, 256, 512, 1024] 8 n

/-- A setting clamped into a range of naturals (R180). -/
def clampNat (lo hi n : Nat) : Nat := if n < lo then lo else if hi < n then hi else n

/-- A threshold clamped into −500..100 dBt (R60). -/
def clampLevel (x : Int) : Int := if x < -500 then -500 else if 100 < x then 100 else x

/-- DIM_SET as applied (R60, orders 2 and 4). -/
def clampDimSet (x : Int) : Int := if clampLevel x = 100 then 99 else clampLevel x

/-- DIM_CLEAR as applied against the applied DIM_SET (R60, orders 3 and 5). -/
def clampDimClear (dimSet x : Int) : Int := if clampLevel x ≤ dimSet then dimSet + 1 else clampLevel x

/-- STORM_EXIT as applied against the applied STORM_ENTER (R180). -/
def clampStormExit (enter x : Nat) : Nat := if enter ≤ x then enter - 1 else x

/-- The intake ring of the staged words, as clamped (words 4 and 5). -/
def Load.intake (l : Load) : Ring :=
  { base := clampBase 16 (bits (l.param 4) 23 0), count := clampIntakeCount (bits (l.param 5) 15 0) }

/-- The notice ring of the staged words, as clamped (words 6 and 7). -/
def Load.notices (l : Load) : Ring :=
  { base := clampBase 32 (bits (l.param 6) 23 0), count := clampNoticeCount (bits (l.param 7) 15 0) }

/-- The census base of the staged words, as clamped (word 8). -/
def Load.census (l : Load) : Nat := clampBase 4 (bits (l.param 8) 23 0)

/-- The settings of the staged words as read (words 9..14, 12.4). -/
def Load.readSettings (l : Load) : Settings :=
  { filterShift := bits (l.param 10) 31 24
    dimSet := signedHalf (secondHalf (l.param 9))
    dimClear := signedHalf (firstHalf (l.param 9))
    silenceTap := bits (l.param 10) 23 16
    silenceLimit := bits (l.param 10) 15 8
    missLimit := bits (l.param 10) 7 0
    qDark := bits (l.param 11) 31 24
    qDim := bits (l.param 11) 23 16
    qPower := bits (l.param 11) 15 8
    qMains := bits (l.param 11) 7 0
    minAffected := bits (l.param 12) 31 27
    stormLeak := bits (l.param 12) 26 22
    stormEnter := bits (l.param 12) 21 11
    stormExit := bits (l.param 12) 10 0
    settleCalm := bits (l.param 13) 31 28
    settleStorm := bits (l.param 13) 27 24
    attackDark := bits (l.param 13) 23 20
    releaseDark := bits (l.param 13) 19 16
    attackPower := bits (l.param 13) 15 12
    releasePower := bits (l.param 13) 11 8
    attackDim := bits (l.param 13) 7 4
    releaseDim := bits (l.param 13) 3 0
    predicates := l.param 14 }

/-- The settings as applied (R60, R180). Duration and predicate codes are applied as read. -/
def Settings.applied (r : Settings) : Settings :=
  { r with
    filterShift := clampNat 0 4 r.filterShift
    dimSet := clampDimSet r.dimSet
    dimClear := clampDimClear (clampDimSet r.dimSet) r.dimClear
    silenceTap := clampNat 0 3 r.silenceTap
    silenceLimit := clampNat 2 7 r.silenceLimit
    missLimit := clampNat 0 15 r.missLimit
    qDark := clampNat 1 16 r.qDark
    qDim := clampNat 1 16 r.qDim
    qPower := clampNat 1 16 r.qPower
    qMains := clampNat 1 16 r.qMains
    minAffected := clampNat 1 16 r.minAffected
    stormLeak := clampNat 0 15 r.stormLeak
    stormEnter := clampNat 1 1023 r.stormEnter
    stormExit := clampStormExit (clampNat 1 1023 r.stormEnter) r.stormExit }

/-- How many settings the clamps change in words 9..12 (R180). -/
def Settings.clampCount (r : Settings) : Nat :=
  let a := r.applied
  flag (r.filterShift != a.filterShift) + flag (r.dimSet != a.dimSet) + flag (r.dimClear != a.dimClear) +
  flag (r.silenceTap != a.silenceTap) + flag (r.silenceLimit != a.silenceLimit) + flag (r.missLimit != a.missLimit) +
  flag (r.qDark != a.qDark) + flag (r.qDim != a.qDim) + flag (r.qPower != a.qPower) + flag (r.qMains != a.qMains) +
  flag (r.minAffected != a.minAffected) + flag (r.stormLeak != a.stormLeak) + flag (r.stormEnter != a.stormEnter) +
  flag (r.stormExit != a.stormExit)

/-- The clamp count of the staged parameters: each setting that a clamp changes counts once (R180). -/
def Load.clampCount (l : Load) : Nat :=
  flag (bits (l.param 4) 23 0 != l.intake.base) + flag (bits (l.param 5) 15 0 != l.intake.count) +
  flag (bits (l.param 6) 23 0 != l.notices.base) + flag (bits (l.param 7) 15 0 != l.notices.count) +
  flag (bits (l.param 8) 23 0 != l.census) + l.readSettings.clampCount

/-! ## Structural checks -/

/-- The region of `len` bytes from `a` and that of `len'` bytes from `a'` share no byte. -/
def disjoint (a len a' len' : Nat) : Bool := decide (a + len ≤ a') || decide (a' + len' ≤ a)

/-- A region lies within the 16 MiB space (R179). -/
def inSpace (a len : Nat) : Bool := decide (a + len ≤ Config.busBytes)

/-- The bytes of an intake ring (R1). -/
def Ring.intakeBytes (r : Ring) : Nat := 16 * r.count

/-- The bytes of a notice ring with its header (R158). -/
def Ring.noticeBytes (r : Ring) : Nat := 32 * (r.count + 1)

/-- A region lies outside the Setup Block (R169, R179). -/
def State.outsideSetup (s : State) (a len : Nat) : Bool := disjoint a len s.setupBase (4 * Config.setupWords)

/-- A region lies outside the notice ring in use, if any (R179). -/
def State.outsideNotices (s : State) (a len : Nat) : Bool :=
  match s.noticeRing with
  | none => true
  | some r => disjoint a len r.base r.noticeBytes

/-- Check 1: the intake ring (R179). -/
def State.intakeFits (s : State) (l : Load) : Bool :=
  let r := l.intake
  inSpace r.base r.intakeBytes && s.outsideSetup r.base r.intakeBytes && s.outsideNotices r.base r.intakeBytes

/-- Check 2: the notice ring (R179). -/
def State.noticesFit (s : State) (l : Load) : Bool :=
  let r := l.notices
  inSpace r.base r.noticeBytes && s.outsideSetup r.base r.noticeBytes &&
    disjoint r.base r.noticeBytes l.intake.base l.intake.intakeBytes

/-- Check 3: the census region (R179). -/
def State.censusFits (s : State) (l : Load) : Bool :=
  let a := l.census
  let len := 4 * Config.censusWords
  inSpace a len && s.outsideSetup a len && disjoint a len l.intake.base l.intake.intakeBytes &&
    disjoint a len l.notices.base l.notices.noticeBytes && s.outsideNotices a len

/-- The staged setup enables node `n`; the roots always are (R62, R179). -/
def Load.enables (l : Load) (n : Fin 128) : Bool := n = 0 || n = 1 || nodeWordEnabled (l.nodeWord n)

/-- The tree of node `n` in the staged setup; node 0 FIBRE and node 1 POWER (R62, R179). -/
def Load.tree (l : Load) (n : Fin 128) : Tree :=
  if n = 0 then .fibre else if n = 1 then .power else nodeWordTree (l.nodeWord n)

/-- The parent of node `n` in the staged setup. -/
def Load.parent (l : Load) (n : Fin 128) : Fin 128 := nodeWordParent (l.nodeWord n)

/-- Following staged parents from `n` reaches a root within `steps` steps (R179, check 5). -/
def Load.reachesRoot (l : Load) : Nat → Fin 128 → Bool
  | 0, n => n = 0 || n = 1
  | steps + 1, n => n = 0 || n = 1 || l.reachesRoot steps (l.parent n)

/-- Checks 4 and 5 of one node 2..127 (R179). -/
def Load.nodeFits (l : Load) (n : Fin 128) : Bool :=
  !(nodeWordEnabled (l.nodeWord n)) ||
    (l.enables (l.parent n) && l.parent n ≠ n && decide (l.tree (l.parent n) = l.tree n) && l.reachesRoot 7 n)

/-- The offset of the first structural fault, if any (R179). -/
def State.setupFault (s : State) (l : Load) : Option Nat :=
  if !s.intakeFits l then some 4
  else if !s.noticesFit l then some 6
  else if !s.censusFits l then some 8
  else ((indices 128).find? (fun n => decide (2 ≤ n.val) && !l.nodeFits n)).map (fun n => 528 + n.val)

/-! ## Parameter apply -/

/-- A node as its staged word applies it, but for its depth (R71). -/
def Load.appliedNode (l : Load) (i : Nat) (n : Node) : Node :=
  let w := l.nodeWord (Fin.ofNat 128 i)
  if i < 2 then { n with tag := nodeWordTag w }
  else { n with enabled := nodeWordEnabled w, tree := nodeWordTree w, parent := some (nodeWordParent w),
                tag := nodeWordTag w }

/-- The depth of a node: its chain's length less one; a disabled node's is 0 (R63, R71). -/
def depthIn (nodes : Vector Node 128) (i : Fin 128) : Nat := (chain nodes i).length - 1

/-- The node table after the staged node words are applied (R71). -/
def Load.appliedNodes (l : Load) (nodes : Vector Node 128) : Vector Node 128 :=
  let placed := mapTable l.appliedNode nodes
  mapTable (fun i n => { n with depth := depthIn placed (Fin.ofNat 128 i) }) placed

/-- A silence counter at or above a new SILENCE_LIMIT is set to one below it (R41). -/
def Entry.limited (limit : Nat) (e : Entry) : Entry := if limit ≤ e.silence then { e with silence := limit - 1 } else e

/-- A carry of the silence tap that waits while a setup's tap comes into use: it stands only if it is a carry of that tap
too (R41, R91, log entry 35). -/
def Timebase.retapped (t : Timebase) (tap : Nat) : Timebase :=
  { t with silenceDue := t.silenceDue && decide (t.counter % tapPeriod tap = 0) }

/-- The parameter apply: settings, silence counters, the silence tap, the STORM test against the new thresholds, node
words (R41, R60, R71, R91, R98, R181). -/
def parameterApply (l : Load) (s : State) : State :=
  let p := l.readSettings.applied
  let storm := stormTest p.stormEnter p.stormExit s.gauge s.storm
  markIf (storm != s.storm)
    { s with settings := some p, storm, time := s.time.retapped p.silenceTap,
             entries := mapTable (fun _ e => Entry.limited p.silenceLimit e) s.entries,
             nodes := l.appliedNodes s.nodes }

/-! ## Leaving EDIT and LOADING -/

/-- The part returns to its edit origin and the edit limit ends; any load and its staging are gone (R176, R177). -/
def leaveEdit (s : State) : State :=
  { s with part := s.origin.getD .unconfigured, origin := none, editLimit := none, load := none }

/-- The end of the check pass (R178 to R181): BAD_SETUP back in EDIT, or the apply pass with its parameter apply. -/
def checkEnd (l : Load) (s : State) : State :=
  match s.setupFault l with
  | some offset => record l.tag .badSetup offset { s with part := .edit, load := none }
  | none => parameterApply l { s with load := some { l with applying := true, clamps := l.clampCount } }

/-- A loader read of the check pass: the word is staged, and the last one ends the pass (R178). -/
def checkReadEvent (l : Load) (s : State) : State :=
  let w := readWord s.mem (s.setupAddr (checkWord l.staged.length))
  let l := { l with staged := l.staged ++ [w] }
  if l.staged.length = 139 then checkEnd l { s with load := some l } else { s with load := some l }

/-! ## Terminal words -/

/-- A terminal word's parents are an enabled FIBRE node and an enabled POWER node (R64, R181). -/
def State.parentsValid (s : State) (w : Word) : Bool :=
  let f := s.nodes[terminalWordFibre w]
  let p := s.nodes[terminalWordPower w]
  f.enabled && decide (f.tree = .fibre) && p.enabled && decide (p.tree = .power)

/-- An entry after its terminal word is applied, provisioned or not (R42). -/
def Entry.applyWord (e : Entry) (provisioned : Bool) (w : Word) : Entry :=
  let e := { e with fibreParent := terminalWordFibre w, powerParent := terminalWordPower w }
  if provisioned = true ∧ e.provisioned = true then e else { e.rested with provisioned }

/-- A loader read of the apply pass: terminal `t`'s word is applied (R42, R181). -/
def terminalWordEvent (l : Load) (t : Fin 512) (s : State) : State :=
  let w := readWord s.mem (s.setupAddr (16 + t.val))
  let wanted := terminalWordProvisioned w
  let provisioned := wanted && s.parentsValid w
  { s.putEntry t ((s.entry t).applyWord provisioned w) with
      load := some { l with applied := l.applied + 1, clamps := l.clamps + flag (wanted && !provisioned) } }

/-! ## Completion -/

/-- Stage 2: the marks and struck flags of a disabled node are cleared (R72). -/
def clearDisabled (n : Node) : Node :=
  if n.enabled then n else { n with maint := false, struckDark := false, struckDim := false, struckPower := false }

/-- The incident's subject no longer exists in its family (R145). -/
def State.subjectGone (s : State) (i : Incident) : Bool :=
  match i.subject with
  | .node n => !s.nodes[n].enabled || decide (some s.nodes[n].tree ≠ i.kind.family.map Family.tree)
  | .terminal t => !(s.entry t).provisioned
  | .nothing => false

/-- Stage 3 for one slot: the RECONFIGURED close (R145). -/
def reconfigureSlot (s : State) (k : Fin 32) : State :=
  match s.slot k with
  | none => s
  | some i =>
    if k ≠ 0 ∧ i.close = none ∧ s.subjectGone i = true then closeIncident k .reconfigured 0 i s else s

/-- Stage 4: the staged intake ring and census base are taken into use; the marks are cleared if the ring changed
(R19, R183). -/
def takeRegions (l : Load) (s : State) : State :=
  { s with marks := if s.intakeRing = some l.intake then s.marks else []
           intakeRing := some l.intake, censusBase := some l.census }

/-- Stages 6 and 7: the timer is IDLE, a pass is requested, the edit ends and the part is RUNNING (R105, R183). -/
def enterRunning (s : State) : State :=
  { s with settle := none, passRequest := true, editLimit := none, load := none, configured := true, part := .running,
           origin := none }

/-- Stage 8: the COMMIT's outcome and part status word B (R183). -/
def commitOutcome (l : Load) (s : State) : State :=
  let s := { s with clamped := min Config.counterMax l.clamps }
  if 0 < l.disturbances then record l.tag .disturbed l.disturbances { s with disturbed := bumpCounter s.disturbed }
  else if 0 < l.clamps then record l.tag .clamped l.clamps s
  else record l.tag .done 0 s

/-- The completion of a COMMIT in the order of R183, ended by the take that its closes may have made due (R161). -/
def completionEvent (l : Load) (s : State) : State :=
  let s1 := { s with nodes := mapTable (fun _ n => clearDisabled n) (recountNodes s.nodes s.entries) }
  let s3 := (indices 32).foldl reconfigureSlot s1
  takeNotice (commitOutcome l (enterRunning (applyNoticeRing l.notices (takeRegions l s3))))

/-- COMMIT_COMPLETION: follows the last terminal word's application (R183). -/
def execCommitCompletion (s : State) : Host.Outcome State Fault Refusal :=
  match s.load with
  | none => .next s
  | some l => if l.applying && decide (512 ≤ l.applied) then .next (finish s (completionEvent l s)) else .next s

end Sys2Proof.Machine
end

