-- ==== Sys2Proof/Machine/Commands.lean ====
section
/-! DEFINITION. The Command Unit (chapter 10): the mailbox (R171), the states that take each command (R173), the EXTEND
latch (R174), and the effect of each command; with the cut of a census (R168) and the RESET command (R184). -/

namespace Sys2Proof.Machine

/-! ## The mailbox -/

/-- The tag of a mailbox beat: read if byte enable 2 is asserted, else 0 (R171). -/
def beatTag (b : Beat) : Byte := if b.be.getLsbD 2 then mailboxTag b.data else 0

/-- A mailbox write in its event: it passes unchanged and consumes the latch; `body` has the state before, for the
latch, and goes on from the state after (R171, R174). -/
def mailboxEvent (b : Beat) (body : Option Half → State → State) (s : State) : State :=
  body s.latch { s.passBeat b b.data with latch := none }

/-- A refused command records its outcome with detail 0 and changes nothing else (R173). -/
def refuse (tag : Byte) (o : CmdOutcome) (s : State) : State := record tag o 0 s

/-- The cut of a census being written: CUT is recorded with its tag; a census already cut is not changed (R168). -/
def cutCensus (s : State) : State :=
  match s.census with
  | none => s
  | some c => if c.cut then s else record c.tag .cut 0 { s with census := some { c with cut := true } }

/-! ## EXTEND, EDIT, COMMIT, ABANDON -/

/-- EXTEND stores its argument in the latch (R174). -/
def extendBody (tag : Byte) (arg : Half) (s : State) : State := record tag .done 0 { s with latch := some arg }

/-- The soak of an incident as it is frozen (R90, R141). -/
def Incident.frozen (i : Incident) : Incident := { i with soak := i.soak.map Window.frozen }

/-- The settle window and the soaks are frozen at the entry into EDIT: a last carry that their blocks have not taken
comes after the entry and is not counted (R90, R104, R141). -/
def freezeWindows (s : State) : State :=
  { s with settle := s.settle.map Window.frozen, slots := mapTable (fun _ o => o.map Incident.frozen) s.slots }

/-- EDIT (R173, R175). -/
def editBody (tag : Byte) (s : State) : State :=
  match s.part with
  | .unconfigured | .running =>
    record tag .done 0
      { freezeWindows s with
          origin := some s.part, editTag := tag, part := .edit, editLimit := some (s.msWindow Config.editLimit) }
  | .edit => refuse tag .wrongState s
  | .loading => refuse tag .busy s

/-- An empty load (R178). -/
def Load.start (tag : Byte) : Load :=
  { tag, applying := false, staged := [], applied := 0, clamps := 0, disturbances := 0 }

/-- COMMIT (R173, R178): no outcome is recorded at its take. -/
def commitBody (tag : Byte) (s : State) : State :=
  match s.part with
  | .unconfigured | .running => refuse tag .wrongState s
  | .edit => cutCensus { s with part := .loading, load := some (Load.start tag) }
  | .loading => refuse tag .busy s

/-- ABANDON (R173, R177); a stopped check pass records its COMMIT's ABANDONED first. -/
def abandonBody (tag : Byte) (s : State) : State :=
  match s.part with
  | .unconfigured | .running => refuse tag .wrongState s
  | .edit => record tag .done 0 (leaveEdit s)
  | .loading =>
    match s.load with
    | none => refuse tag .busy s
    | some l =>
      if l.applying then refuse tag .busy s else record tag .done 1 (record l.tag .abandoned 0 (leaveEdit s))

/-! ## SETTIME, FORGET, MAINT, CENSUS -/

/-- SETTIME: the latched value, or 0, is the high half of the new clock (R86). -/
def settimeBody (tag : Byte) (arg : Half) (latch : Option Half) (s : State) : State :=
  record tag .done 0 { s with time.clock := latch.getD 0 ++ arg }

/-- The provisioned terminal that a FORGET names, if any (R173). -/
def State.forgetTarget (s : State) (arg : Half) : Option (Fin 512) :=
  if h : arg.toNat < 512 then
    (if (s.entry ⟨arg.toNat, h⟩).provisioned then some ⟨arg.toNat, h⟩ else none)
  else none

/-- FORGET (R39, R173). -/
def forgetBody (tag : Byte) (arg : Half) (s : State) : State :=
  match s.part with
  | .unconfigured => refuse tag .wrongState s
  | .loading => refuse tag .busy s
  | .running | .edit =>
    match s.forgetTarget arg with
    | none => refuse tag .badArgument s
    | some t => record tag .done 0 (forgetTerminal t s)

/-- The block a MAINT acts on: bits 2..0 of the latched value, 0 with none (R74). -/
def maintBlock (latch : Option Half) : Nat := ((latch.map (fun v => v.toNat % 8))).getD 0

/-- The polarity of a MAINT: bit 15 of the latched value, set with none (R74). -/
def maintPolarity (latch : Option Half) : Bool := (latch.map (fun v => v.getLsbD 15)).getD true

/-- The marks a MAINT takes, its dirty mark and its outcome (R74). -/
def maintEvent (tag : Byte) (mask : Half) (latch : Option Half) (s : State) : State :=
  let nodes := maintNodes (maintBlock latch) mask (maintPolarity latch) s.nodes
  let changed := marksChanged s.nodes nodes
  record tag .done changed (markIf (decide (0 < changed)) { s with nodes })

/-- MAINT (R74, R75, R173). -/
def maintBody (tag : Byte) (mask : Half) (latch : Option Half) (s : State) : State :=
  match s.part with
  | .unconfigured => refuse tag .wrongState s
  | .loading => refuse tag .busy s
  | .running | .edit => maintEvent tag mask latch s

/-- A census starts on the region in use, or is refused with BUSY while one is being written (R166, R173). -/
def startCensus (tag : Byte) (s : State) : State :=
  if s.census.isSome then refuse tag .busy s
  else { s with census := some { base := s.censusBase.getD 0, tag, written := 0, cut := false } }

/-- CENSUS (R166, R173): no outcome is recorded at its take. -/
def censusBody (tag : Byte) (s : State) : State :=
  match s.part with
  | .unconfigured => refuse tag .wrongState s
  | .loading => refuse tag .busy s
  | .running => startCensus tag s
  | .edit => if s.setupInUse then startCensus tag s else refuse tag .wrongState s

/-! ## RESET -/

/-- The part state after a RESET command (R184). -/
def State.stateAfterReset (s : State) : PartState :=
  match s.part with
  | .unconfigured => .unconfigured
  | .running => .running
  | .edit => if s.origin = some .running then .running else .unconfigured
  | .loading => .unconfigured

/-- What RESET clears in a node (R79). -/
def Node.soft (n : Node) : Node :=
  { n with monitored := 0, dark := 0, dim := 0, spent := 0, maint := false, struckDark := false, struckDim := false,
           struckPower := false }

/-- The Timebase after a RESET command: the chain at 0, the ms clock kept; a tap carry that has been given stays given
(R93, log entry 20). -/
def Timebase.soft (t : Timebase) : Timebase := { t with prescaler := 0, divider := 0, counter := 0 }

/-- RESET's effects across the part but for the census cut, the outcome and the take (R184). The patience window keeps its
count; no carry comes at the moment of the cleared chain (R93). -/
def softReset (s : State) : State :=
  { s with
    part := s.stateAfterReset
    configured := s.configured && decide (s.part ≠ .loading)
    origin := none, editLimit := none, load := none, latch := none
    marks := [], malformed := 0, unknown := 0
    entries := mapTable (fun _ e => Entry.rested e) s.entries
    nodes := mapTable (fun _ n => Node.soft n) s.nodes
    trunk := false
    time := s.time.soft
    arb.window := s.arb.window.map Window.passed
    gauge := 0, storm := false
    settle := none, passRequest := false, pass := none
    slots := Vector.replicate 32 none, order := []
    restart := softRestart s.restart
    notice := s.notice.map (fun n => { n with frees := none })
    disturbed := 0 }

/-- RESET: a census is cut first, then the part is reset and DONE recorded; the RESTART may be taken at once (R165,
R168, R184). -/
def resetBody (tag : Byte) (s : State) : State := takeNotice (record tag .done 0 (softReset (cutCensus s)))

/-! ## Effects of the mailbox rows -/

/-- EXTEND (R174). -/
def effExtend (b : Beat) (s : State) : State :=
  mailboxEvent b (fun _ => extendBody (beatTag b) (mailboxArg b.data)) s

/-- EDIT (R175). -/
def effEdit (b : Beat) (s : State) : State := mailboxEvent b (fun _ => editBody (beatTag b)) s

/-- COMMIT (R178). -/
def effCommit (b : Beat) (s : State) : State := mailboxEvent b (fun _ => commitBody (beatTag b)) s

/-- ABANDON (R177). -/
def effAbandon (b : Beat) (s : State) : State := mailboxEvent b (fun _ => abandonBody (beatTag b)) s

/-- SETTIME (R86). -/
def effSettime (b : Beat) (s : State) : State :=
  mailboxEvent b (settimeBody (beatTag b) (mailboxArg b.data)) s

/-- FORGET (R39). -/
def effForget (b : Beat) (s : State) : State :=
  mailboxEvent b (fun _ => forgetBody (beatTag b) (mailboxArg b.data)) s

/-- MAINT (R74). -/
def effMaint (b : Beat) (s : State) : State :=
  mailboxEvent b (maintBody (beatTag b) (mailboxArg b.data)) s

/-- CENSUS (R166). -/
def effCensus (b : Beat) (s : State) : State := mailboxEvent b (fun _ => censusBody (beatTag b)) s

/-- RESET (R184). -/
def effReset (b : Beat) (s : State) : State := mailboxEvent b (fun _ => resetBody (beatTag b)) s

/-- A partial mailbox write or an unknown code is refused with BAD_OPCODE (R171). -/
def effBadOpcode (b : Beat) (s : State) : State := mailboxEvent b (fun _ => refuse (beatTag b) .badOpcode) s

/-! ## The edit limit -/

/-- The event of the edit limit's expiry (R176). -/
def editLimitEvent (s : State) : State :=
  match s.load with
  | none => record s.editTag .expired 0 (leaveEdit s)
  | some l =>
    if l.applying then { s with editLimit := none }
    else record l.tag .expired 1 (leaveEdit s)

/-- The carry that ends the edit limit waits to be taken (R88, R176). -/
def State.editDue (s : State) : Bool := isDue s.editLimit && (decide (s.part = .edit) || decide (s.part = .loading))

/-- EDIT_LIMIT_EXPIRY: the limit runs out (R176). -/
def execEditLimitExpiry (s : State) : Host.Outcome State Fault Refusal :=
  if s.editDue then .next (finish s (editLimitEvent s)) else .next s

end Sys2Proof.Machine
end

