-- ==== Sys2Proof/Machine/Path.lean ====
section
/-! DEFINITION. The Path Unit (chapter 11): the classification of passing write beats (R187), the substitution of owned
words (R188), the forwarding of a beat and its hold with WAIT (R186, R190, R191), and the meaning of every row of a
passing access. -/

namespace Sys2Proof.Machine

/-! ## Classification -/

/-- The rows of spec/opcode_table.json that are passing write beats. -/
inductive BeatRow where
  | passingWrite | intakeWord0 | intakeWord1 | intakePartial | intakePartialWord3 | empty | malformed | status | miss
  | gasp | link | treeDown | treeUp | extend | edit | commit | abandon | settime | forget | maint | census | reset
  | badOpcode | ownedWord | disturbing | consumerIndex
deriving DecidableEq, Repr

/-- The word of the Setup Block's page that an address names, if it lies in the block (R169). -/
def State.setupWordOf (s : State) (a : Nat) : Option Nat :=
  if s.setupBase ≤ a ∧ a < s.setupBase + 4 * Config.setupWords then some ((a - s.setupBase) / 4) else none

/-- The row of a mailbox beat (R171, 12.4). -/
def mailboxRow (b : Beat) : BeatRow :=
  if b.full then
    match mailboxCode b.data with
    | 1 => .extend | 2 => .edit | 3 => .commit | 4 => .abandon | 5 => .settime | 6 => .forget | 7 => .maint
    | 8 => .census | 9 => .reset
    | _ => .badOpcode
  else .badOpcode

/-- The row of a completion by the decision of its mark (R6). -/
def Decision.row : Decision → BeatRow
  | .empty => .empty | .malformed => .malformed | .treeDown => .treeDown | .treeUp => .treeUp
  | .status _ _ => .status | .miss _ => .miss | .gasp _ => .gasp | .link _ _ => .link

/-- The row of an intake write to word `w` of slot `k` (R4 to R7). A beat with no byte enable is a passing write (R4). -/
def State.intakeRow (s : State) (b : Beat) (k w : Nat) : BeatRow :=
  if b.be = 0 then .passingWrite
  else match w with
    | 0 => if b.full then .intakeWord0 else .intakePartial
    | 1 => if b.full then .intakeWord1 else .intakePartial
    | 2 => .passingWrite
    | _ => if b.full then (s.mark k).decision.row else .intakePartialWord3

/-- The word of the notice ring's header that a beat addresses, while a ring is in use (R158, R187). -/
def State.headerWord (s : State) (a : Nat) : Option Nat :=
  s.noticeRing.bind (fun r => if a = r.base then some 0 else if a = r.base + 4 then some 1 else none)

/-- The row of a beat outside the Setup Block's watched words (R187). -/
def State.ringRow (s : State) (b : Beat) : BeatRow :=
  match s.intakeWord b with
  | some (k, w) => s.intakeRow b k w
  | none =>
    match s.headerWord (wordAddr b.addr.toNat) with
    | some 0 => .ownedWord
    | some _ => .consumerIndex
    | none => .passingWrite

/-- The row of a passing write beat, by the regions that the part watches (R187). A beat with no byte enable to words
4..655 is no full or partial write and passes (R182, log entry 8). -/
def State.writeRow (s : State) (b : Beat) : BeatRow :=
  match s.setupWordOf (wordAddr b.addr.toNat) with
  | some 0 => mailboxRow b
  | some 1 => .ownedWord
  | some 2 => .ownedWord
  | some 3 => .ownedWord
  | some _ => if s.part = .loading ∧ b.be ≠ 0 then .disturbing else s.ringRow b
  | none => s.ringRow b

/-- The row that the part takes a passing beat as. A read is handed to no block (R187), and a beat of a burst that was in
progress at a hardware reset passes plainly (R192). -/
def State.rowOf (s : State) (b : Beat) : BeatRow := if b.read || s.arb.plain then .passingWrite else s.writeRow b

/-! ## Effects of the other rows -/

/-- A passing access that no block takes: a write reaches memory unchanged, a read returns the word of memory (R186). -/
def effPassing (b : Beat) (s : State) : State :=
  if b.read then { s with readData := readWord s.mem b.addr.toNat } else s.passBeat b b.data

/-- The part's value of the owned word at an address (R188). -/
def State.ownedValue (s : State) (a : Nat) : Word :=
  match s.setupWordOf a with
  | some 1 => statusWord s.status
  | some 2 => s.partStatusA
  | some 3 => s.partStatusB
  | _ => indexWord s.producer

/-- A write to an owned word carries the part's value in its enabled bytes (R188). -/
def effOwned (b : Beat) (s : State) : State := s.passBeat b (s.ownedValue (wordAddr b.addr.toNat))

/-- A disturbing write adds one to the disturbance count, which stops at 65535 (R172, R182). -/
def effDisturbing (b : Beat) (s : State) : State :=
  let count (l : Load) : Load := { l with disturbances := min Config.disturbanceMax (l.disturbances + 1) }
  { s.passBeat b b.data with load := s.load.map count }

/-! ## Forwarding -/

/-- The effect of a beat as the row the part takes it as (R187). -/
def takeBeat (b : Beat) (s : State) : State :=
  match s.rowOf b with
  | .passingWrite => effPassing b s
  | .intakeWord0 => effWord0 b s
  | .intakeWord1 => effWord1 b s
  | .intakePartial => effPartial b s
  | .intakePartialWord3 => effPartialWord3 b s
  | .empty => effEmpty b s
  | .malformed => effMalformed b s
  | .status => effStatus b s
  | .miss => effMiss b s
  | .gasp => effGasp b s
  | .link => effLink b s
  | .treeDown => effTreeDown b s
  | .treeUp => effTreeUp b s
  | .extend => effExtend b s
  | .edit => effEdit b s
  | .commit => effCommit b s
  | .abandon => effAbandon b s
  | .settime => effSettime b s
  | .forget => effForget b s
  | .maint => effMaint b s
  | .census => effCensus b s
  | .reset => effReset b s
  | .badOpcode => effBadOpcode b s
  | .ownedWord => effOwned b s
  | .disturbing => effDisturbing b s
  | .consumerIndex => effConsumer b s

/-- A passing beat presented as a row of the table. While one is held with WAIT the bus side starts no other; one that
starts while another access holds the memory side, or while the arbiter is impatient, is held (R186, R190, R191); else it
is forwarded, with the row's effect. A beat that the part does not take as the row named is taken as the row that it is
(log entry 5). -/
def present (row : BeatRow) (eff : Beat → State → State) (b : Beat) (s : State) : Host.Outcome State Fault Refusal :=
  if s.arb.held.isSome then .next s
  else if s.arb.busy.isSome || s.holdsPassing then .next { s with arb.held := some b }
  else .next (finishBeat b s (if s.rowOf b = row then eff b s else takeBeat b s))

/-- At the end of an access, the beat held with WAIT takes the memory side (R190, R191). -/
def releaseHeld (s : State) : State :=
  match s.arb.held with
  | none => s
  | some b =>
    let s' := { s with arb.held := none }
    finishBeat b s' (takeBeat b s')

/-- The beat of a command: a full-word write of its code, tag and argument to the mailbox (R171, 12.4). -/
def State.mailboxBeat (s : State) (code tag : Byte) (arg : Half) (burst : Bool) : Beat :=
  { addr := BitVec.ofNat 24 s.setupBase, be := 15, data := mailboxWord code tag arg, burst, read := false }

/-! ## The rows -/

/-- PASSING_WRITE, a passing access of either direction (R186, log entry 12). -/
def execPassingWrite (b : Beat) (s : State) : Host.Outcome State Fault Refusal := present .passingWrite effPassing b s

/-- INTAKE_WORD0_WRITE (R4). -/
def execIntakeWord0Write (b : Beat) (s : State) : Host.Outcome State Fault Refusal := present .intakeWord0 effWord0 b s

/-- INTAKE_WORD1_WRITE (R4). -/
def execIntakeWord1Write (b : Beat) (s : State) : Host.Outcome State Fault Refusal := present .intakeWord1 effWord1 b s

/-- INTAKE_PARTIAL_WRITE (R5). -/
def execIntakePartialWrite (b : Beat) (s : State) : Host.Outcome State Fault Refusal :=
  present .intakePartial effPartial b s

/-- INTAKE_PARTIAL_WORD3_WRITE (R7). -/
def execIntakePartialWord3Write (b : Beat) (s : State) : Host.Outcome State Fault Refusal :=
  present .intakePartialWord3 effPartialWord3 b s

/-- EMPTY (R6). -/
def execEmpty (b : Beat) (s : State) : Host.Outcome State Fault Refusal := present .empty effEmpty b s

/-- MALFORMED (R12). -/
def execMalformed (b : Beat) (s : State) : Host.Outcome State Fault Refusal := present .malformed effMalformed b s

/-- STATUS (R26). -/
def execStatus (b : Beat) (s : State) : Host.Outcome State Fault Refusal := present .status effStatus b s

/-- MISS (R28). -/
def execMiss (b : Beat) (s : State) : Host.Outcome State Fault Refusal := present .miss effMiss b s

/-- GASP (R29). -/
def execGasp (b : Beat) (s : State) : Host.Outcome State Fault Refusal := present .gasp effGasp b s

/-- LINK (R27). -/
def execLink (b : Beat) (s : State) : Host.Outcome State Fault Refusal := present .link effLink b s

/-- TREE_DOWN (R14). -/
def execTreeDown (b : Beat) (s : State) : Host.Outcome State Fault Refusal := present .treeDown effTreeDown b s

/-- TREE_UP (R14). -/
def execTreeUp (b : Beat) (s : State) : Host.Outcome State Fault Refusal := present .treeUp effTreeUp b s

/-- EXTEND, command code 1 (R174). -/
def execExtend (tag : Byte) (arg : Half) (burst : Bool) (s : State) : Host.Outcome State Fault Refusal :=
  present .extend effExtend (s.mailboxBeat 1 tag arg burst) s

/-- EDIT, command code 2 (R175). -/
def execEdit (tag : Byte) (arg : Half) (burst : Bool) (s : State) : Host.Outcome State Fault Refusal :=
  present .edit effEdit (s.mailboxBeat 2 tag arg burst) s

/-- COMMIT, command code 3 (R178). -/
def execCommit (tag : Byte) (arg : Half) (burst : Bool) (s : State) : Host.Outcome State Fault Refusal :=
  present .commit effCommit (s.mailboxBeat 3 tag arg burst) s

/-- ABANDON, command code 4 (R177). -/
def execAbandon (tag : Byte) (arg : Half) (burst : Bool) (s : State) : Host.Outcome State Fault Refusal :=
  present .abandon effAbandon (s.mailboxBeat 4 tag arg burst) s

/-- SETTIME, command code 5 (R86). -/
def execSettime (tag : Byte) (arg : Half) (burst : Bool) (s : State) : Host.Outcome State Fault Refusal :=
  present .settime effSettime (s.mailboxBeat 5 tag arg burst) s

/-- FORGET, command code 6 (R39). -/
def execForget (tag : Byte) (arg : Half) (burst : Bool) (s : State) : Host.Outcome State Fault Refusal :=
  present .forget effForget (s.mailboxBeat 6 tag arg burst) s

/-- MAINT, command code 7 (R74). -/
def execMaint (tag : Byte) (arg : Half) (burst : Bool) (s : State) : Host.Outcome State Fault Refusal :=
  present .maint effMaint (s.mailboxBeat 7 tag arg burst) s

/-- CENSUS, command code 8 (R166). -/
def execCensus (tag : Byte) (arg : Half) (burst : Bool) (s : State) : Host.Outcome State Fault Refusal :=
  present .census effCensus (s.mailboxBeat 8 tag arg burst) s

/-- RESET, command code 9 (R184). -/
def execReset (tag : Byte) (arg : Half) (burst : Bool) (s : State) : Host.Outcome State Fault Refusal :=
  present .reset effReset (s.mailboxBeat 9 tag arg burst) s

/-- BAD_OPCODE (R171). -/
def execBadOpcode (b : Beat) (s : State) : Host.Outcome State Fault Refusal := present .badOpcode effBadOpcode b s

/-- OWNED_WORD_WRITE (R188). -/
def execOwnedWordWrite (b : Beat) (s : State) : Host.Outcome State Fault Refusal := present .ownedWord effOwned b s

/-- DISTURBING_WRITE (R182). -/
def execDisturbingWrite (b : Beat) (s : State) : Host.Outcome State Fault Refusal :=
  present .disturbing effDisturbing b s

/-- CONSUMER_INDEX_WRITE (R160). -/
def execConsumerIndexWrite (b : Beat) (s : State) : Host.Outcome State Fault Refusal :=
  present .consumerIndex effConsumer b s

end Sys2Proof.Machine
end

