-- ==== Sys2Proof/Machine/Grants.lean ====
section
/-! DEFINITION. The accesses of the internal requesters (R190): the loader's reads (R178, R181), the Notice Writer's
writes (R163, R164), the owned-word writer's (R189) and the census writer's (R166 to R168). Each is one grant of the
memory side to the head internal request, and ends when memory makes it ready (R186). -/

namespace Sys2Proof.Machine

/-! ## The end of an access -/

/-- A census write of the status, a node, a terminal or the time is counted (R166). -/
def censusWordEvent (c : Census) (s : State) : State := { s with census := some { c with written := c.written + 1 } }

/-- The census ends with its outcome (R166). -/
def censusDoneEvent (c : Census) (s : State) : State := record c.tag .done 0 { s with census := none }

/-- A cut census ends with no outcome (R168). -/
def censusCutEvent (s : State) : State := { s with census := none }

/-- The event of an internal write that has been made (R163, R164, R166, R168). A header write that was granted for a ring
which is no longer the one in use ends no initialisation (log entry 33). -/
def endingEvent (e : Ending) (s : State) : State :=
  match e, s.notice, s.census with
  | .noticeWord, some n, _ => noticeWordEvent n s
  | .producer, some n, _ => producerEvent n s
  | .header r, _, _ => if s.noticeRing = some r then headerEvent s else s
  | .censusWord, _, some c => censusWordEvent c s
  | .censusDone, _, some c => censusDoneEvent c s
  | .censusCut, _, _ => censusCutEvent s
  | _, _, _ => s

/-- An internal access ends: what it writes is in memory, and its event comes if it has one then (R186, R190). -/
def endAccess (w : Option Store) (ending : Option Ending) (s : State) : State :=
  match ending with
  | none => land w s
  | some e => finish (land w s) (endingEvent e (land w s))

/-- M_READY is at a level. Asserted, it ends the access that holds the memory side. An internal access is followed by the
beat held behind it; after a passing access the head internal request goes first if the arbiter is impatient (R186, R190,
R191). -/
def memoryReady (ready : Bool) (s : State) : State :=
  let s1 := { s with arb.ready := ready }
  if ready then
    match s.arb.busy with
    | none => s1
    | some .passing =>
      let s2 := { s1 with arb.busy := none }
      if s2.holdsPassing then s2 else releaseHeld s2
    | some (.internal w ending) => releaseHeld (endAccess w ending { s1 with arb.busy := none })
  else s1

/-! ## The grant -/

/-- The event of a grant to a requester, if it is the head request and the memory side is free: the window and the
impatience end, and the event that the access has at its grant is taken. A memory that is ready ends the access there, and
a beat held with WAIT follows it. A memory that is not holds the access, with what it writes as fixed at the grant (R186,
R190, R191, log entry 32). An access that the arbiter does not grant does not come. -/
def grant (r : Requester) (w : Option Store) (event : State → State) (ending : Option Ending) (s : State) :
    Host.Outcome State Fault Refusal :=
  if s.grants r then
    let t := finish s (event (endWindow s))
    .next (if s.arb.ready then releaseHeld (endAccess w ending t)
      else { t with arb.busy := some (.internal w ending) })
  else .next s

/-- The grant of a write whose event comes when it has been made. -/
def grantWrite (r : Requester) (w : Store) (ending : Ending) (s : State) : Host.Outcome State Fault Refusal :=
  grant r (some w) id (some ending) s

/-! ## Loader -/

/-- LOADER_CHECK_READ (R178). -/
def execLoaderCheckRead (s : State) : Host.Outcome State Fault Refusal :=
  match s.load with
  | none => .next s
  | some l => if l.applying then .next s else grant .loader none (checkReadEvent l) none s

/-- TERMINAL_WORD_APPLY (R42, R181). -/
def execTerminalWordApply (s : State) : Host.Outcome State Fault Refusal :=
  match s.load with
  | none => .next s
  | some l =>
    if l.applying then grant .loader none (terminalWordEvent l (Fin.ofNat 512 l.applied)) none s else .next s

/-! ## Notice Writer -/

/-- NOTICE_WORD_WRITE: one of the eight slot words (R163). -/
def execNoticeWordWrite (s : State) : Host.Outcome State Fault Refusal :=
  match s.notice, s.noticeRing with
  | some n, some r =>
    if n.written < 8 then grantWrite .noticeWriter (s.noticeStore r n) .noticeWord s else .next s
  | _, _ => .next s

/-- PRODUCER_WRITE: the ninth access of a notice (R163). -/
def execProducerWrite (s : State) : Host.Outcome State Fault Refusal :=
  match s.notice, s.noticeRing with
  | some n, some r =>
    if 8 ≤ n.written then grantWrite .noticeWriter (s.producerStore r) .producer s else .next s
  | _, _ => .next s

/-- RING_HEADER_INIT_WRITE (R164). -/
def execRingHeaderInitWrite (s : State) : Host.Outcome State Fault Refusal :=
  match s.noticeRing with
  | none => .next s
  | some r =>
    if s.headerDue && s.notice.isNone then grantWrite .noticeWriter { addr := r.base, word := 0 } (.header r) s
    else .next s

/-! ## Owned-word writer -/

/-- What the owned-word writer writes: the lowest-numbered word whose mark is set, with its value at the grant (R189). -/
def State.ownedStore (s : State) : Option Store :=
  if s.writeMarks.status then some { addr := s.setupAddr 1, word := statusWord s.status }
  else if s.writeMarks.partA then some { addr := s.setupAddr 2, word := s.partStatusA }
  else if s.writeMarks.partB then some { addr := s.setupAddr 3, word := s.partStatusB }
  else none

/-- The mark of the word granted is cleared in the grant event (R189). -/
def ownedWordEvent (s : State) : State :=
  if s.writeMarks.status then { s with writeMarks.status := false }
  else if s.writeMarks.partA then { s with writeMarks.partA := false }
  else { s with writeMarks.partB := false }

/-- OWNED_WORD_WRITER_GRANT (R189). -/
def execOwnedWordWriterGrant (s : State) : Host.Outcome State Fault Refusal :=
  grant .ownedWords s.ownedStore ownedWordEvent none s

/-! ## Census writer -/

/-- The census word of write `k` and its value at the grant: the status as WRITING, the node words, the terminal words,
then the time (R166, R167). -/
def State.censusWord (s : State) (c : Census) (k : Nat) : Nat × Word :=
  if k = 0 then (0, censusStatusWord 1 c.tag)
  else if k ≤ 128 then (k + 1, censusNodeWord s.nodes[Fin.ofNat 128 (k - 1)])
  else if k ≤ 640 then (k + 1, censusTerminalWord (s.entry (Fin.ofNat 512 (k - 129))))
  else (1, s.time.clock)

/-- What the census's next access writes (R166, R167). -/
def State.censusStore (s : State) (c : Census) : Store :=
  let w := s.censusWord c c.written
  { addr := c.base + 4 * w.1, word := w.2 }

/-- CENSUS_WORD_WRITE: the first 642 writes of a census that is not cut (R166, R167). -/
def execCensusWordWrite (s : State) : Host.Outcome State Fault Refusal :=
  match s.census with
  | none => .next s
  | some c =>
    if !c.cut && decide (c.written < 642) then grantWrite .census (s.censusStore c) .censusWord s
    else .next s

/-- The final write of word 0, as DONE (R166). -/
def Census.doneStore (c : Census) : Store := { addr := c.base, word := censusStatusWord 2 c.tag }

/-- CENSUS_DONE_WRITE (R166). -/
def execCensusDoneWrite (s : State) : Host.Outcome State Fault Refusal :=
  match s.census with
  | none => .next s
  | some c =>
    if !c.cut && decide (642 ≤ c.written) then grantWrite .census c.doneStore .censusDone s else .next s

/-- The write of word 0 as CUT, to the region in use at the cut (R168). -/
def Census.cutStore (c : Census) : Store := { addr := c.base, word := censusStatusWord 3 c.tag }

/-- CENSUS_CUT_WRITE (R168). -/
def execCensusCutWrite (s : State) : Host.Outcome State Fault Refusal :=
  match s.census with
  | none => .next s
  | some c => if c.cut then grantWrite .census c.cutStore .censusCut s else .next s

end Sys2Proof.Machine
end

