-- ==== Sys2Proof/Machine/Timers.lean ====
section
/-! DEFINITION. The counting chain (chapter 5), the windows it counts down, the events that wait at the moment of a carry,
the settle expiry (R102), the patience expiry (R191) and hardware reset (R192). -/

namespace Sys2Proof.Machine

/-! ## Events that wait

Each block takes a carry or an edge as an event of its own (R83). Until every one of them has been taken, no REFCLK cycle
passes (log entry 6). -/

/-- The first slot whose attack soak ends with the carry that has been given. -/
def State.attackWaiting (s : State) : Option (Fin 32) :=
  (indices 32).find? (fun k => ((s.slot k).map (s.attackDue k)).getD false)

/-- The first slot whose release soak ends with the carry that has been given. -/
def State.releaseWaiting (s : State) : Option (Fin 32) :=
  (indices 32).find? (fun k => ((s.slot k).map (s.releaseDue k)).getD false)

/-- The settle window ends with the carry that has been given, and is not frozen (R102, R104). -/
def State.settleDue (s : State) : Bool := isDue s.settle && !s.frozen

/-- The event that waits at this moment, if any; of several, in the order of the list below (log entry 6): an input edge
(R193), a tap carry (R83), a window's expiry (R88), a pass that a request begins at once (R103). -/
def State.waiting (s : State) : Option Instr :=
  if s.inputs.sample.mainsFail != s.inputs.mainsFail then some .mainsFailEdge
  else if s.inputs.sample.maintAll != s.inputs.maintAll then some .maintAllEdge
  else if s.time.silenceDue then some .silenceCarry
  else if s.time.leakDue then some .stormLeak
  else if s.settleDue then some .settleExpiry
  else match s.attackWaiting with
  | some k => some (.attackExpiry k)
  | none =>
    match s.releaseWaiting with
    | some k => some (.releaseExpiry k)
    | none =>
      if s.editDue then some .editLimitExpiry
      else if isDue s.arb.window then some .patienceExpiry
      else if s.passRequest && s.pass.isNone then some .passReading
      else none

/-! ## Windows -/

/-- The soak of an incident after a millisecond carry (R88, R141). -/
def Incident.soaked (i : Incident) : Incident := { i with soak := i.soak.map Window.carried }

/-- The soak of an incident after a millisecond carry that it does not count (R90, R141). -/
def Incident.unsoaked (i : Incident) : Incident := { i with soak := i.soak.map Window.passed }

/-- Settle and soak windows after a millisecond carry: none counts while frozen (R90, R102, R141). -/
def countWindows (s : State) : State :=
  if s.frozen then
    { s with settle := s.settle.map Window.passed, slots := mapTable (fun _ o => o.map Incident.unsoaked) s.slots }
  else { s with settle := s.settle.map Window.carried, slots := mapTable (fun _ o => o.map Incident.soaked) s.slots }

/-- The patience window after a microsecond carry: it counts while an internal request waits (R191). -/
def countPatience (s : State) : State :=
  if s.head.isSome then { s with arb.window := s.arb.window.map Window.carried }
  else { s with arb.window := s.arb.window.map Window.passed }

/-- The patience window after the `n` microsecond carries, one or more, of a run of REFCLK: its expiry is taken on the way
if it comes before the last of them; the first is not counted by a window that started at its moment (R88, R191, log
entry 6). -/
def runPatience (n : Nat) (s : State) : State :=
  match s.arb.window with
  | none => s
  | some w =>
    let count := if w.fresh then n - 1 else n
    if s.head.isNone then { s with arb.window := some w.passed }
    else if count < w.left then { s with arb.window := some { w.passed with left := w.left - count } }
    else if count = w.left then { s with arb.window := some { left := 1, due := true, fresh := false } }
    else { s with arb.window := none, arb.impatient := true }

/-! ## Carries -/

/-- The tap carries that a millisecond carry gives, by the value the counter reaches (R82, R83): the leak's 16 ms tap,
and the selected silence tap once a setup has been applied (R30). -/
def giveTaps (s : State) : State :=
  { s with
    time.leakDue := decide (s.time.counter % 16 = 0)
    time.silenceDue := s.settings.isSome && decide (s.time.counter % tapPeriod s.par.silenceTap = 0) }

/-- A millisecond carry: the counter and the ms clock advance, the taps are given, and the settle window, the soaks and
the edit limit count (R82, R83, R84, R102, R141, R175). The settle window and the soaks meet the carry that ends the edit
limit while they are frozen and do not count it: R90 and R104 leave that to the order of the two, and the model fixes it.
The ms clock advances before every event that the carry gives, so a notice taken at a soak expiry of this carry stamps the
advanced clock: R83 and R85 allow either order, and the model fixes this one (both DESIGN CHOICE, log entry 34). -/
def millisecondEvent (s : State) : State :=
  let s := { s with time.counter := (s.time.counter + 1) % 1024, time.clock := s.time.clock + 1,
                    editLimit := s.editLimit.map Window.carried }
  countWindows (giveTaps s)

/-- MILLISECOND_CARRY: REFCLK runs on to the next millisecond carry (R81, R84). On the way the patience window counts the
divider's microsecond carries and the inputs are sampled as they were (log entry 6). While an event of this moment waits,
the carry does not come. -/
def execMillisecondCarry (s : State) : Host.Outcome State Fault Refusal :=
  if s.waiting.isSome then .next s
  else
    let s1 := { runPatience (1000 - s.time.divider) s with
                  time.prescaler := 0, time.divider := 0, inputs.sampled := true }
    .next (finish s (millisecondEvent s1))

/-- The levels sampled at a microsecond carry: the first sample after hardware reset is the starting level, a later one
that differs leaves an edge to be taken (R193). -/
def Inputs.take (levels : Levels) (i : Inputs) : Inputs :=
  { mainsFail := if i.sampled then i.mainsFail else levels.mainsFail
    maintAll := if i.sampled then i.maintAll else levels.maintAll
    sample := levels, sampled := true }

/-- A microsecond carry: the prescaler returns to 0, the patience window counts, the inputs are sampled, and the divider
counts; the carry that takes the divider past 999 gives the millisecond carry (R81, R191, R193). -/
def microsecondEvent (levels : Levels) (s : State) : State :=
  let s1 := { countPatience s with time.prescaler := 0, inputs := s.inputs.take levels }
  if 999 ≤ s.time.divider then millisecondEvent { s1 with time.divider := 0 }
  else { s1 with time.divider := s.time.divider + 1 }

/-- REFCLK runs on into the cycle that gives the microsecond carry, where M_READY is at a level (R81, R186). -/
def toMicrosecond (ready : Bool) (s : State) : State := memoryReady ready { s with time.prescaler := 24 }

/-- The cycle of a microsecond carry, with M_READY at a level, and the carry at its end. The access that M_READY ends comes
before the carry, and so before an expiry that the carry gives: R191 allows both orders, and the model fixes this one
(DESIGN CHOICE, log entry 34). A RESET command that was held behind that access clears the chain, and the carry does not
come (R93). -/
def microsecond (levels : Levels) (ready : Bool) (s : State) : State :=
  let s1 := toMicrosecond ready s
  if s1.atMicrosecond then finish s1 (microsecondEvent levels s1) else s1

/-- MICROSECOND_CARRY: REFCLK runs on to the next microsecond carry, or only up to the cycle that gives it, with M_READY at
a level in that cycle (R81, R186, R191, R193, log entries 32 and 34). While an event of this moment waits, the carry does
not come (log entry 6). -/
def execMicrosecondCarry (levels : Levels) (run : CarryRun) (s : State) : Host.Outcome State Fault Refusal :=
  if s.waiting.isSome then .next s
  else if run.upTo then .next (toMicrosecond run.ready s)
  else .next (microsecond levels run.ready s)

/-- One REFCLK cycle: the prescaler counts 0..24, and the cycle that takes it past 24 gives the microsecond carry, with
the inputs as last sampled and M_READY as it stands (R81, log entry 7). -/
def refclk (s : State) : State :=
  if 24 ≤ s.time.prescaler then microsecond s.inputs.sample s.arb.ready s
  else { s with time.prescaler := s.time.prescaler + 1 }

/-! ## Expiries -/

/-- SETTLE_EXPIRY: the Settle Timer takes the carry that brings its count to 0; it is IDLE and a pass is requested (R102,
R103, R104). -/
def execSettleExpiry (s : State) : Host.Outcome State Fault Refusal :=
  if s.settleDue then .next (finish s { s with settle := none, passRequest := true }) else .next s

/-- PATIENCE_EXPIRY: the window runs out and the arbiter becomes impatient (R191). -/
def execPatienceExpiry (s : State) : Host.Outcome State Fault Refusal :=
  if isDue s.arb.window then .next (finish s { s with arb.window := none, arb.impatient := true }) else .next s

/-! ## Hardware reset

While RESET_N is asserted the bus side and the memory side are joined: no region is watched, no internal access is
requested, and WAIT follows M_READY alone (R192). -/

/-- A passing beat is forwarded plainly while RESET_N is asserted (R192). -/
def plainBeat (b : Beat) (s : State) : State := { effPassing b s with arb := { s.arb.afterBeat b with held := none } }

/-- The beat held with WAIT follows, if the memory side is free (R186, R192). -/
def plainRelease (s : State) : State :=
  match s.arb.held, s.arb.busy with
  | some b, none => plainBeat b s
  | _, _ => s

/-- RESET_N is asserted: an internal access in progress is ended and lost, the arbiter is patient with no window, and a
beat that it held follows (R191, R192). -/
def assertReset (s : State) : State :=
  plainRelease { s with arb := { s.arb with
    busy := if s.arb.busy = some .passing then some .passing else none, window := none, impatient := false } }

/-- What comes while RESET_N is asserted: a beat, held with WAIT behind one that memory has not made ready, and none while
one is held; or a level of M_READY, which asserted ends the beat that memory has not made ready (R186, R192). -/
def plainEvent (s : State) (e : BusEvent) : State :=
  match e with
  | .access b =>
    if s.arb.held.isSome then s
    else if s.arb.busy.isSome then { s with arb.held := some b }
    else plainBeat b s
  | .ready level =>
    if level then plainRelease { s with arb.ready := true, arb.busy := none } else { s with arb.ready := false }

/-- HARDWARE_RESET: RESET_N is asserted, what comes in its assertion comes, and it is released (R192). Every block is
reset, with the straps and the input levels of the release. A burst then still in progress, a beat that memory has not
made ready and a beat held behind it are carried through. The reset leaves no patience window, and the owned-word writer
requests from the release on, so behind such an access a window starts there (R189, R191, log entry 21). -/
def execHardwareReset (straps : BitVec 8) (levels : Levels) (during : List BusEvent) (s : State) :
    Host.Outcome State Fault Refusal :=
  let s1 := during.foldl plainEvent (assertReset s)
  .next (watchPatience { State.reset with
    pending := s.pending
    mem := s1.mem
    readData := s1.readData
    straps
    inputs := { mainsFail := levels.mainsFail, maintAll := levels.maintAll, sample := levels, sampled := false }
    arb := { Arbiter.idle with
      ready := s1.arb.ready
      busy := s1.arb.busy
      held := s1.arb.held
      beatsLeft := s1.arb.beatsLeft
      plain := decide (s1.arb.beatsLeft ≠ 0) } })

end Sys2Proof.Machine
end

