-- ==== Sys2Proof/Machine/Dispatch.lean ====
section
/-! DEFINITION. One arm per command: each calls its meaning. -/

namespace Sys2Proof.Machine

def exec (i : Instr) (s : State) : Host.Outcome State Fault Refusal :=
  match i with
  | .hardwareReset straps levels during => Sys2Proof.Machine.execHardwareReset straps levels during s
  | .mainsFailEdge => Sys2Proof.Machine.execMainsFailEdge s
  | .maintAllEdge => Sys2Proof.Machine.execMaintAllEdge s
  | .passingWrite b => Sys2Proof.Machine.execPassingWrite b s
  | .intakeWord0Write b => Sys2Proof.Machine.execIntakeWord0Write b s
  | .intakeWord1Write b => Sys2Proof.Machine.execIntakeWord1Write b s
  | .intakePartialWrite b => Sys2Proof.Machine.execIntakePartialWrite b s
  | .intakePartialWord3Write b => Sys2Proof.Machine.execIntakePartialWord3Write b s
  | .emptyRecord b => Sys2Proof.Machine.execEmpty b s
  | .malformedRecord b => Sys2Proof.Machine.execMalformed b s
  | .statusRecord b => Sys2Proof.Machine.execStatus b s
  | .missRecord b => Sys2Proof.Machine.execMiss b s
  | .gaspRecord b => Sys2Proof.Machine.execGasp b s
  | .linkRecord b => Sys2Proof.Machine.execLink b s
  | .treeDown b => Sys2Proof.Machine.execTreeDown b s
  | .treeUp b => Sys2Proof.Machine.execTreeUp b s
  | .millisecondCarry => Sys2Proof.Machine.execMillisecondCarry s
  | .silenceCarry => Sys2Proof.Machine.execSilenceCarry s
  | .stormLeak => Sys2Proof.Machine.execStormLeak s
  | .settleExpiry => Sys2Proof.Machine.execSettleExpiry s
  | .passReading => Sys2Proof.Machine.execPassReading s
  | .passMatching => Sys2Proof.Machine.execPassMatching s
  | .attackExpiry slot => Sys2Proof.Machine.execAttackExpiry slot s
  | .releaseExpiry slot => Sys2Proof.Machine.execReleaseExpiry slot s
  | .extendCmd tag arg burst => Sys2Proof.Machine.execExtend tag arg burst s
  | .editCmd tag arg burst => Sys2Proof.Machine.execEdit tag arg burst s
  | .commitCmd tag arg burst => Sys2Proof.Machine.execCommit tag arg burst s
  | .abandonCmd tag arg burst => Sys2Proof.Machine.execAbandon tag arg burst s
  | .settimeCmd tag arg burst => Sys2Proof.Machine.execSettime tag arg burst s
  | .forgetCmd tag arg burst => Sys2Proof.Machine.execForget tag arg burst s
  | .maintCmd tag arg burst => Sys2Proof.Machine.execMaint tag arg burst s
  | .censusCmd tag arg burst => Sys2Proof.Machine.execCensus tag arg burst s
  | .resetCmd tag arg burst => Sys2Proof.Machine.execReset tag arg burst s
  | .badOpcode b => Sys2Proof.Machine.execBadOpcode b s
  | .ownedWordWrite b => Sys2Proof.Machine.execOwnedWordWrite b s
  | .disturbingWrite b => Sys2Proof.Machine.execDisturbingWrite b s
  | .consumerIndexWrite b => Sys2Proof.Machine.execConsumerIndexWrite b s
  | .loaderCheckRead => Sys2Proof.Machine.execLoaderCheckRead s
  | .terminalWordApply => Sys2Proof.Machine.execTerminalWordApply s
  | .commitCompletion => Sys2Proof.Machine.execCommitCompletion s
  | .editLimitExpiry => Sys2Proof.Machine.execEditLimitExpiry s
  | .noticeWordWrite => Sys2Proof.Machine.execNoticeWordWrite s
  | .producerWrite => Sys2Proof.Machine.execProducerWrite s
  | .ringHeaderInitWrite => Sys2Proof.Machine.execRingHeaderInitWrite s
  | .ownedWordWriterGrant => Sys2Proof.Machine.execOwnedWordWriterGrant s
  | .censusWordWrite => Sys2Proof.Machine.execCensusWordWrite s
  | .censusDoneWrite => Sys2Proof.Machine.execCensusDoneWrite s
  | .censusCutWrite => Sys2Proof.Machine.execCensusCutWrite s
  | .patienceExpiry => Sys2Proof.Machine.execPatienceExpiry s
  | .microsecondCarry levels run => Sys2Proof.Machine.execMicrosecondCarry levels run s

end Sys2Proof.Machine
end

