-- ==== Sys2Proof/Machine/Step.lean ====
section
/-! DEFINITION. One step: the command at the front of the queue is run on the queue's rest; on an empty queue an event of
this moment that waits is taken, or one REFCLK cycle passes (R81, R83, log entries 6 and 7). -/

namespace Sys2Proof.Machine

/-- The step of an empty queue: the event that waits comes; with none, a REFCLK cycle passes (R81, log entry 7). -/
def idle (s : State) : Host.Outcome State Fault Refusal :=
  match s.waiting with
  | some c => exec c s
  | none => .next (refclk s)

/-- One step of the block. -/
def step (s : State) : Host.Outcome State Fault Refusal :=
  match s.pending with
  | [] => idle s
  | c :: rest => exec c { s with pending := rest }

/-- The state with the command that a word spells put at the front of the queue; no word spells one (Decode.lean). -/
def State.withFetchWord (s : State) (nbits w : Nat) : State :=
  match decodeTableWord nbits w with
  | none => s
  | some c => { s with pending := c :: s.pending }

end Sys2Proof.Machine
end

