-- ==== Sys2Proof/Safety.lean ====
section
/-! DEFINITION. What a safe run keeps: the laws the spec states over the whole state (R23, R51, R66, R131, R132, R159,
R170, R189), and the conditions under which the bus side and the memory side serve an access. -/

namespace Sys2Proof.Machine

/-! ## When an access is served -/

/-- A passing access that is presented now is forwarded at once: none is held with WAIT, none has the memory side, and the
arbiter does not hold this one (R186, R190, R191). An impatient arbiter with no internal request waiting forwards: that is
the model's reading (log entry 31). -/
def State.forwards (s : State) : Bool := s.arb.held.isNone && s.arb.busy.isNone && !s.holdsPassing

/-- A command written to the mailbox now is taken: its beat is forwarded at once, and it is no beat of a burst carried
through a hardware reset (R171, R186, R192; log entry 31). -/
def State.takesCommands (s : State) : Bool := s.forwards && !s.arb.plain

/-- The byte of memory at an address after a beat that carries `w` to memory (R194): the enabled bytes of the beat's
word are those of `w`, every other byte is as before. -/
def byteAfterBeat (s : State) (b : Beat) (w : Word) (a : Nat) : Byte :=
  if a / 4 * 4 = wordAddr b.addr.toNat ∧ b.be.getLsbD (a % 4) = true then wordByte w (a % 4) else readByte s.mem a

/-- The byte of memory at an address after the part's own write of `w` to the word at `x`. -/
def byteAfterStore (s : State) (x : Nat) (w : Word) (a : Nat) : Byte :=
  if a / 4 * 4 = wordAddr x then wordByte w (a % 4) else readByte s.mem a

/-! ## Windows -/

/-- A window of `d` millisecond carries as it starts. It does not count the carry of its own moment: if the REFCLK cycle
that stands gives the millisecond carry, that carry is still to come (R81, R88; log entry 34). -/
def State.msStart (s : State) (d : Nat) : Window :=
  { left := d, due := false, fresh := decide (24 ≤ s.time.prescaler ∧ 999 ≤ s.time.divider) }

/-- A window of `d` microsecond carries as it starts (R81, R88; log entry 34). -/
def State.usStart (s : State) (d : Nat) : Window := { left := d, due := false, fresh := decide (24 ≤ s.time.prescaler) }

/-- A window after a carry of its period that it does not count: the moment of its start is past (R88, R90). -/
def windowPassed (w : Window) : Window := { left := w.left, due := w.due, fresh := false }

/-- A window after a carry of its period (R88): the carry of the moment of its start is not counted; at another the count
falls by one, and the last carry waits for the window's block to take it. -/
def windowCounted (w : Window) : Window :=
  if w.fresh then windowPassed w
  else if w.left ≤ 1 then { left := w.left, due := true, fresh := false }
  else { left := w.left - 1, due := w.due, fresh := false }

/-! ## What every event leaves to the arbiter, the write-pending marks and the Settle Timer -/

/-- The Settle Timer after one dirty mark of an event that leaves STORM as `storm` (R101, R102). -/
def State.settleAfterMark (s : State) (storm : Bool) : Option Window :=
  match s.settle with
  | some w => some w
  | none =>
    if s.setupInUse then some (s.msStart (duration (if storm then s.par.settleStorm else s.par.settleCalm)))
    else none

/-- The write-pending marks after an event that recorded no outcome (R185, R189). -/
def State.marksAfter (s t : State) : WriteMarks :=
  { status := s.writeMarks.status
    partA := s.writeMarks.partA || t.partStatusA != s.partStatusA
    partB := s.writeMarks.partB || t.partStatusB != s.partStatusB }

/-- The patience window after an event that a passing access ends with or goes on through (R191). -/
def State.windowAfter (s t : State) : Option Window :=
  if t.head.isSome && s.arb.window.isNone && !s.arb.impatient then some (t.usStart 5) else s.arb.window

/-- How many beats of the access in progress are to come after one beat more (R186). -/
def State.beatsAfter (s : State) (b : Beat) : Nat :=
  if s.arb.beatsLeft = 0 then (if b.burst then 3 else 0) else s.arb.beatsLeft - 1

/-- The arbiter after a forwarded beat: the access's beats are counted, a memory that is not ready is held by it, and a
waiting request starts the window (R186, R191, R192). -/
def State.arbAfterBeat (s t : State) (b : Beat) : Arbiter :=
  { s.arb with
    busy := if s.arb.ready then none else some .passing
    beatsLeft := s.beatsAfter b
    plain := s.arb.plain && decide (s.beatsAfter b ≠ 0)
    window := s.windowAfter t }

/-- The arbiter after an event away from the bus: a passing access that has the memory side lets a new request start the
window (R191). -/
def State.arbAfterEvent (s t : State) : Arbiter :=
  if s.arb.beatsLeft = 0 ∧ s.arb.busy ≠ some .passing then s.arb else { s.arb with window := s.windowAfter t }

/-! ## When a command has its own effect, and what a served access leaves -/

/-- A passing beat that the part takes as a row of the table is forwarded at once (R186, R187; log entry 31). -/
def State.serves (s : State) (row : BeatRow) (b : Beat) : Prop :=
  s.forwards = true ∧ s.rowOf b = row ∧ Memory.wf s.mem = true

/-- What a forwarded beat that carries `w` leaves of memory and of the arbiter (R186, R191, R194). -/
def State.beatDone (s t : State) (b : Beat) (w : Word) : Prop :=
  (∀ a, readByte t.mem a = byteAfterBeat s b w a) ∧ t.arb = s.arbAfterBeat t b

/-- The forwarding of a beat while RESET_N is asserted (R192): a write reaches memory unchanged, a read returns the word of
memory, and its access has the memory side until memory makes the beat ready. The patience
window is left open: it is that of the release. -/
def State.plainly (s t : State) (b : Beat) : Prop :=
  (b.read = false → t.readData = s.readData ∧ ∀ a, readByte t.mem a = byteAfterBeat s b b.data a) ∧
  (b.read = true → t.readData = readWord s.mem b.addr.toNat ∧ t.mem = s.mem) ∧
  t.arb = { ready := s.arb.ready, busy := if s.arb.ready then none else some .passing, beatsLeft := s.beatsAfter b
            plain := decide (s.beatsAfter b ≠ 0), window := t.arb.window, impatient := false, held := none }

/-- The mark table differs at one slot alone (1.2). -/
def State.markSet (s t : State) (k : Nat) (m : Mark) : Prop := ∀ j, t.mark j = if j = k then m else s.mark j

/-- A requester's next access is granted, memory makes it ready, and no beat is held with WAIT behind it (R186, R190,
R191). The forms with a slow memory and with a held beat are those of `SlowMemoryHoldsTheAccess` and
`GrantsServeTheHeadRequest`. -/
def State.servesRequest (s : State) (r : Requester) : Prop :=
  s.grants r = true ∧ s.arb.held = none ∧ s.arb.ready = true ∧ Memory.wf s.mem = true

/-- The arbiter after a grant to an internal request: the window and the impatience end (R191). -/
def State.arbAfterGrant (s : State) : Arbiter := { s.arb with window := none, impatient := false }

/-- What a granted write of `w` to the word at `x` leaves of memory and of the arbiter (R190, R191). -/
def State.storeDone (s t : State) (x : Nat) (w : Word) : Prop :=
  (∀ a, readByte t.mem a = byteAfterStore s x w a) ∧ t.arb = s.arbAfterGrant

/-- The internal access that the head request asks for, as its row of the table (R178, R181, R163, R164, R189, R166,
R168, R190). -/
def State.nextAccess (s : State) : Option Instr :=
  match s.head with
  | none => none
  | some .loader => s.load.map (fun l => if l.applying then .terminalWordApply else .loaderCheckRead)
  | some .noticeWriter =>
    s.noticeRing.map (fun _ => match s.notice with
      | some n => if n.written < 8 then .noticeWordWrite else .producerWrite
      | none => .ringHeaderInitWrite)
  | some .ownedWords => some .ownedWordWriterGrant
  | some .census =>
    s.census.map (fun c => if c.cut then .censusCutWrite else if c.written < 642 then .censusWordWrite
      else .censusDoneWrite)

/-- A record of terminal `k` is taken with its entry left as `new` and the disposition `d`: the counts, the gauge, the
Settle Timer, the slot's mark, the disposition word, and nothing else (R11, R17, R35 to R38, R94, R96). -/
def State.recordTaken (s t : State) (b : Beat) (k : Fin 512) (new : Entry) (d : Disposition) : Prop :=
  t.entries = s.entries.set k new ∧
  t.nodes = (if s.applyPass then s.nodes else adjustNodes (s.entry k) new s.nodes) ∧
  t.gauge = (if ((s.entry k).link = .lit ∧ new.link = .dark) ∨
      (((s.entry k).link = .unheard ∨ (s.entry k).link = .lit) ∧ new.link = .fading) then min 1023 (s.gauge + 1)
    else s.gauge) ∧
  t.storm = (if t.gauge = s.gauge then s.storm
    else stormTest s.par.stormEnter s.par.stormExit t.gauge s.storm) ∧
  t.settle = (if new.link ≠ (s.entry k).link ∨ new.dim ≠ (s.entry k).dim ∨ t.storm ≠ s.storm then
    s.settleAfterMark t.storm else s.settle) ∧
  s.markSet t (s.intakeSlot b) Mark.clear ∧
  s.beatDone t b (dispositionWord d (some new.link) s.time.clock) ∧
  t.writeMarks = s.marksAfter t ∧
  { t with entries := s.entries, nodes := s.nodes, gauge := s.gauge, storm := s.storm, settle := s.settle,
           marks := s.marks, mem := s.mem, arb := s.arb, writeMarks := s.writeMarks } = s

/-- A command is dealt with at the mailbox by the beat `b`: its write passes unchanged and its outcome is recorded
(R171, R172). The other effects are the command's. -/
def State.commandDone (s t : State) (b : Beat) (tag : Byte) (o : CmdOutcome) (detail : Nat) : Prop :=
  s.beatDone t b b.data ∧ t.status = { tag, outcome := o, detail } ∧
  t.writeMarks = { s.marksAfter t with status := true }

/-- A command is refused: its outcome is recorded with detail 0, the latch is consumed, and nothing else changes (R171,
R173). -/
def State.refuses (s : State) (c : Instr) (b : Beat) (tag : Byte) (o : CmdOutcome) : Prop :=
  ∃ t, exec c s = .next t ∧ s.commandDone t b tag o 0 ∧ t.latch = none ∧
    { t with mem := s.mem, arb := s.arb, status := s.status, writeMarks := s.writeMarks, latch := s.latch } = s

/-- The entering incident `i` of slot `k` absorbs the incident of slot `j` (R125): of the same family, not close-due, and
its subject a node of the subtree of `i`'s subject other than that subject, or a terminal whose parent in the family's
tree lies in that subtree. -/
def State.absorbs (s : State) (k : Fin 32) (i : Incident) (j : Fin 32) (other : Incident) : Prop :=
  j ≠ k ∧ other.close = none ∧ ∃ f m, i.kind.family = some f ∧ other.kind.family = some f ∧ i.subject = .node m ∧
    ((∃ n, other.subject = .node n ∧ n ≠ m ∧ m ∈ chain s.nodes n) ∨
      ∃ x, other.subject = .terminal x ∧ m ∈ chain s.nodes ((s.entry x).parentIn f.tree))

/-- The entering incident `i` of slot `k` frees slot `j` by an absorption: the absorbed incident is not announced
(R125). -/
def State.freesAt (s : State) (k : Fin 32) (i : Incident) (j : Fin 32) : Prop :=
  ∃ other, s.slot j = some other ∧ s.absorbs k i j other ∧ other.announced = false

/-! ## What a matching finds -/

/-- A cause that the matching keeps at its start has the incident's kind and subject (R119, R121). -/
def State.causePresent (s : State) (causes : List Cause) (i : Incident) : Bool :=
  causes.any (fun c => !s.causeCovered c && c.fits i)

/-- The incident of slot `k` recurs at the matching (R119, R140). -/
def State.recurs (s : State) (causes : List Cause) (k : Fin 32) : Prop :=
  ∃ i, k ≠ 0 ∧ s.slot k = some i ∧ i.phase = .clearing ∧ i.close = none ∧ s.causePresent causes i = true

/-- The new causes of a matching, in the order of the cause list (R121, R122). -/
def State.newCauses (s : State) (causes : List Cause) : List Cause :=
  causes.filter (fun c => !s.causeCovered c && !s.matched c)

/-- The new causes that no close-due incident keeps from being placed (R122). -/
def State.placeable (s : State) (causes : List Cause) : List Cause :=
  (s.newCauses causes).filter (fun c => !s.leaving c)

/-- The ordinary slots that are free when the causes are placed, ascending, where nothing recurs: those free before, and
those whose PENDING incident's cause is absent (R119, R122). -/
def State.freeAtPlacing (s : State) (causes : List Cause) : List (Fin 32) :=
  (indices 32).filter (fun k => decide (k ≠ 0) &&
    match s.slot k with
    | none => true
    | some i => decide (i.phase = .waiting) && i.close.isNone && !s.causePresent causes i)

/-- The causes that find no place, where nothing recurs (R122). -/
def State.unplacedCauses (s : State) (causes : List Cause) : List Cause :=
  (s.placeable causes).drop (s.freeAtPlacing causes).length ++ (s.newCauses causes).filter s.leaving

/-- The slot was freed, and is free or holds the new incident of a cause of the same matching (R119, R122, R125). -/
def State.freedOrTaken (s u : State) (causes : List Cause) (k : Fin 32) : Prop :=
  u.slot k = none ∨
    ∃ c ∈ s.newCauses causes, ∃ i, u.slot k = some i ∧ c.fits i = true ∧ i.phase = .waiting ∧ i.created = s.time.clock

/-- The rank of a cause in the order of R118: node causes before terminal causes, by kind code, then by number. -/
def Cause.rank (c : Cause) : Nat :=
  (match c.subject with
    | .node n => n.val
    | .terminal t => 65536 + t.val
    | .nothing => 0) +
  4096 * (match c.kind with
    | .trunkLoss => 1 | .branchDark => 2 | .terminalDark => 3 | .mainsLoss => 4 | .terminalPower => 5 | .branchDim => 6
    | .terminalDim => 7 | .residue => 8)

/-- An event's state `u` before its closing take, and the answer `t` after it (R161): the take's own changes, and the
write-pending marks and the arbiter that every event closes with. -/
def State.takesInto (u t : State) : Prop := { t with writeMarks := u.writeMarks, arb := u.arb } = takeNotice u

/-- Two regions share no byte (R179). -/
def apart (a len a' len' : Nat) : Prop := ∀ x, ¬ (a ≤ x ∧ x < a + len ∧ a' ≤ x ∧ x < a' + len')

/-! ## Laws -/

/-- The assembly marks are in their canonical form, for slots 0..4095 (1.2). -/
def State.marksWf (s : State) : Bool := Sparse.wfFrom Mark.clear 4096 0 s.marks

/-- The Intake Parser's law (R1, 1.2): the marks are canonical, and a ring in use has at most 4096 slots. -/
def State.intakeLaw (s : State) : Prop := s.marksWf = true ∧ ∀ r, s.intakeRing = some r → r.count ≤ 4096

/-- The Command Unit's law (R170): a load is in progress exactly in LOADING, and there is an edit origin, UNCONFIGURED
or RUNNING, exactly in EDIT and LOADING. -/
def State.loadLaw (s : State) : Prop :=
  (s.part = .loading ↔ s.load.isSome = true) ∧
  (s.part = .edit ∨ s.part = .loading ↔ s.origin.isSome = true) ∧
  ∀ o, s.origin = some o → o = .unconfigured ∨ o = .running

/-- Outside an apply pass every count of every node is the number of terminals below it that it counts (R66). -/
def State.countsLaw (s : State) : Prop := s.applyPass = false → recountNodes s.nodes s.entries = s.nodes

/-- A capacity that the clamps allow (R158, R180). -/
def Ring.capacityOk (r : Ring) : Prop := 8 ≤ r.count ∧ r.count ≤ 1024

/-- The Notice Writer's law (R159): without a ring there is no notice, no initialisation and nothing unconsumed; with
one, the unconsumed count is at most the capacity, and below it while a notice is in progress. A notice word that memory
has not made ready is one of its eight (R163). -/
def State.ringLaw (s : State) : Prop :=
  (∀ r, s.ringWaiting = some r → r.capacityOk) ∧
  (s.headerDue = true → s.notice = none) ∧
  (∀ n, s.notice = some n → n.words.length = 8 ∧ n.written ≤ 8) ∧
  (∀ w, s.arb.busy = some (.internal w (some .noticeWord)) → ∃ n, s.notice = some n ∧ n.written < 8) ∧
  match s.noticeRing with
  | none => s.notice = none ∧ s.headerDue = false ∧ s.ringWaiting = none ∧ s.producer = s.consumer
  | some r => r.capacityOk ∧ s.unconsumed ≤ r.count ∧ (s.notice ≠ none → s.unconsumed < r.count)

/-- The settings that a reader meets lie in their applied ranges (R30, R60, R98, R180). -/
def Settings.inRange (p : Settings) : Prop :=
  p.filterShift ≤ 4 ∧ -500 ≤ p.dimSet ∧ p.dimSet < p.dimClear ∧ p.dimClear ≤ 100 ∧ p.silenceTap ≤ 3 ∧
  2 ≤ p.silenceLimit ∧ p.silenceLimit ≤ 7 ∧ p.missLimit ≤ 15 ∧ 1 ≤ p.qDark ∧ p.qDark ≤ 16 ∧ 1 ≤ p.qDim ∧
  p.qDim ≤ 16 ∧ 1 ≤ p.qPower ∧ p.qPower ≤ 16 ∧ 1 ≤ p.qMains ∧ p.qMains ≤ 16 ∧ 1 ≤ p.minAffected ∧
  p.minAffected ≤ 16 ∧ p.stormLeak ≤ 15 ∧ 1 ≤ p.stormEnter ∧ p.stormEnter ≤ 1023 ∧ p.stormExit < p.stormEnter

/-- The law of one terminal entry under a SILENCE_LIMIT (R22, R23, R34, R51). -/
def Entry.law (limit : Nat) (e : Entry) : Prop :=
  (e.provisioned = false → e.link = .unheard ∧ e.lastRound = none ∧ e.covering = none) ∧
  (e.link ≠ .lit ∧ e.link ≠ .fading → e.filter = none ∧ e.dim = false ∧ e.silence = 0 ∧ e.missRun = 0) ∧
  (∀ f, e.filter = some f → -8000 ≤ f ∧ f ≤ 1600) ∧ e.missRun ≤ 15 ∧ e.silence < limit

/-- The settings are in range and every terminal entry keeps its law. -/
def State.entryLaw (s : State) : Prop := s.par.inRange ∧ ∀ t, (s.entry t).law s.par.silenceLimit

/-- The creation-order list holds each non-free slot once (R132). -/
def State.orderLaw (s : State) : Prop := s.order.Nodup ∧ ∀ k, k ∈ s.order ↔ (s.slot k).isSome = true

/-- Incident numbers lie in 1..65535, and no two incidents in the table share one (R133). -/
def State.numberLaw (s : State) : Prop :=
  1 ≤ s.nextNumber ∧ s.nextNumber ≤ 65535 ∧
  (∀ k i, s.slot k = some i → 1 ≤ i.number ∧ i.number ≤ 65535) ∧
  ∀ j k i i', s.slot j = some i → s.slot k = some i' → i.number = i'.number → j = k

/-- The law of one incident in slot `k` (R131, R135, R142, R150): slot 0 holds the residue, which is OPEN; a soak runs in
PENDING and CLEARING until close-due; a PENDING incident has no mark; an announced or open-due one is not withheld. -/
def Incident.law (k : Fin 32) (i : Incident) : Prop :=
  (i.kind = .residue ↔ k = 0) ∧
  (k = 0 → i.phase = .opened ∧ i.subject = .nothing) ∧
  (i.soak.isSome = true ↔ i.phase ≠ .opened ∧ i.close = none) ∧
  (i.phase = .waiting → i.announced = false ∧ i.openDue = false ∧ i.updateDue = false ∧ i.withheld = false ∧
    i.recurred = false ∧ i.close = none) ∧
  (i.announced = true → i.openDue = false ∧ i.withheld = false) ∧
  (i.openDue = true → i.withheld = false) ∧
  (i.close ≠ none → i.announced = true)

/-- The Incident Table's law (R118, R131): every incident keeps its law, no two share kind and subject, and the cause
list of a pass in progress holds no cause twice and no residue. -/
def State.incidentLaw (s : State) : Prop :=
  (∀ k i, s.slot k = some i → i.law k) ∧
  (∀ j k i i', s.slot j = some i → s.slot k = some i' → i.kind = i'.kind → i.subject = i'.subject → j = k) ∧
  ∀ causes, s.pass = some causes →
    (∀ c ∈ causes, c.kind ≠ .residue) ∧ (causes.map (fun c => (c.kind, c.subject))).Nodup

/-- The storm gauge, the counters, the counting chain and the beats of a burst keep within their ceilings (R20, R81, R82,
R94, R183, R186); a burst carried through a hardware reset has beats to come (R192). -/
def State.counterLaw (s : State) : Prop :=
  s.gauge ≤ 1023 ∧ s.malformed ≤ 255 ∧ s.unknown ≤ 255 ∧ s.disturbed ≤ 255 ∧ s.clamped ≤ 255 ∧
  s.time.prescaler ≤ 24 ∧ s.time.divider ≤ 999 ∧ s.time.counter ≤ 1023 ∧ s.arb.beatsLeft ≤ 3 ∧
  (s.arb.plain = true → s.arb.beatsLeft ≠ 0)

/-- A window runs with at least one carry to come (R88): the carry that ends it is its last, and a window that has not met
the carry of its start's moment stands in the cycle that gives it. -/
def windowOk (atCarry : Prop) (w : Option Window) : Prop :=
  ∀ x, w = some x → 1 ≤ x.left ∧ (x.due = true → x.left = 1 ∧ x.fresh = false) ∧ (x.fresh = true → atCarry)

/-- Every window keeps its law, and no carry waits for a window that is frozen (R81, R88, R90, R104, R141). -/
def State.windowLaw (s : State) : Prop :=
  windowOk (24 ≤ s.time.prescaler ∧ 999 ≤ s.time.divider) s.settle ∧
  windowOk (24 ≤ s.time.prescaler ∧ 999 ≤ s.time.divider) s.editLimit ∧
  windowOk (24 ≤ s.time.prescaler) s.arb.window ∧
  (∀ k i, s.slot k = some i → windowOk (24 ≤ s.time.prescaler ∧ 999 ≤ s.time.divider) i.soak) ∧
  (s.frozen = true → isDue s.settle = false ∧ ∀ k i, s.slot k = some i → isDue i.soak = false)

end Sys2Proof.Machine
end

