-- ==== Sys2Proof/Certificates/Slice0/Obligations.lean ====
section
/-! DEFINITION. The statements for the provers, in four groups: what every step does, the laws every step keeps, what
the shared operations do, and what each command does. Each docstring names the rules of spec/ it rests on. -/

open Sys2Proof Sys2Proof.Machine

/-! ## Every step -/

/-- The queue is served first in, first out: a step runs the front command on the state with the queue's rest. On an
empty queue the event of this moment that waits comes, if there is one; else one REFCLK cycle passes (R81): the
prescaler counts 0..24, and the cycle that would take it past 24 gives the microsecond carry, with the inputs as last
sampled. The queue, the events that wait and what an empty queue does are the model's form of the order of events (log
entries 6 and 7). -/
def Obligations.StepServesTheQueue : Prop :=
  (∀ (c : Instr) (rest : List Instr) (s : State), s.pending = c :: rest →
    step s = exec c { s with pending := rest }) ∧
  ∀ s : State, s.pending = [] →
    (∀ c, s.waiting = some c → step s = exec c s) ∧
    (s.waiting = none → s.time.prescaler < 24 →
      step s = .next { s with time := { s.time with prescaler := s.time.prescaler + 1 } }) ∧
    (s.waiting = none → 24 ≤ s.time.prescaler →
      step s = exec (.microsecondCarry s.inputs.sample { ready := s.arb.ready, upTo := false }) s)

/-- No command stops the part, and none touches the queue of waiting commands. The spec names no event that stops the
part (00_scope.md 1.5). That a command which the state does not make due answers next, and that there is a queue, are
the model's choices (log entries 4 and 7). -/
def Obligations.NoCommandStops : Prop :=
  ∀ (c : Instr) (s : State), ∃ t, exec c s = .next t ∧ t.pending = s.pending

/-! ## The laws every step keeps -/

/-- Three laws of form, each kept by every step by itself: record memory is canonical; the assembly marks are canonical,
on a ring of at most 4096 slots (R1, 1.2, R180); the gauge, the counters, the stages of the counting chain and the beats
of a burst keep within their ceilings (R20, R81, R82, R94, R183, R186). -/
def Obligations.StepKeepsFormsAndCeilings : Prop :=
  ∀ s t : State, step s = .next t →
    (Memory.wf s.mem = true → Memory.wf t.mem = true) ∧ (s.intakeLaw → t.intakeLaw) ∧
    (s.counterLaw → t.counterLaw)

/-- The Notice Writer's law (R159): the unconsumed count never exceeds the capacity. -/
def Obligations.StepKeepsRingLaw : Prop :=
  ∀ s t : State, s.ringLaw → step s = .next t → t.ringLaw

/-- The applied settings stay in range (R60, R98, R180) and every terminal entry keeps its law (R22, R23, R34, R51,
R54). -/
def Obligations.StepKeepsEntryLaw : Prop :=
  ∀ s t : State, s.entryLaw → step s = .next t → t.entryLaw

/-- Outside an apply pass every count of every node agrees with the terminal entries (R66, R67, R68), and the Command
Unit keeps its law (R170). -/
def Obligations.StepKeepsCountsLaw : Prop :=
  ∀ s t : State, s.loadLaw → s.countsLaw → step s = .next t → t.loadLaw ∧ t.countsLaw

/-- The creation-order list keeps each non-free slot once (R132), and no two incidents in the table share a number, nor
has one number 0 (R133). -/
def Obligations.StepKeepsOrderAndNumbers : Prop :=
  ∀ s t : State, step s = .next t → (s.orderLaw → t.orderLaw) ∧ (s.numberLaw → t.numberLaw)

/-- Every incident keeps its law, and no two share kind and subject (R118, R122, R131, R135, R142, R150). Every window
runs with a carry to come, none that is frozen has one to take, and one that has not met the carry of its start's moment
stands in the cycle that gives it (R81, R88, R90). -/
def Obligations.StepKeepsIncidentLaw : Prop :=
  ∀ s t : State, s.incidentLaw → step s = .next t →
    t.incidentLaw ∧ (s.loadLaw → s.windowLaw → t.windowLaw)

/-- The state after reset meets every law that the steps keep. -/
def Obligations.ResetMeetsTheLaws : Prop :=
  Memory.wf State.reset.mem = true ∧ State.reset.intakeLaw ∧ State.reset.ringLaw ∧ State.reset.entryLaw ∧
  State.reset.loadLaw ∧ State.reset.countsLaw ∧ State.reset.orderLaw ∧ State.reset.counterLaw ∧
  State.reset.numberLaw ∧ State.reset.incidentLaw ∧ State.reset.windowLaw

/-- A changed field of a status word, or a recorded outcome, leaves the word's write-pending mark set (R172, R185,
R189). -/
def Obligations.StatusChangesAreMarked : Prop :=
  ∀ (c : Instr) (s t : State), exec c s = .next t →
    (t.status ≠ s.status → t.writeMarks.status = true) ∧
    (t.partStatusA ≠ s.partStatusA → t.writeMarks.partA = true) ∧
    (t.partStatusB ≠ s.partStatusB → t.writeMarks.partB = true)

/-- Which commands change the straps, the settings, the regions in use, the nodes' structure and the provisioning: the
straps and nothing else of these at hardware reset alone (R169, R192); the settings and the nodes' enabled flags, trees,
parents, tags and depths at the end of a check pass (R71, R181); provisioning and parents at a terminal word (R22, R42);
the intake ring and the census base at the completion (R1, R19, R183), the notice ring there or at the producer write
(R164), which comes with its own row or, before a slow memory, with the ready of its access (log entry 32). -/
def Obligations.SetupChangesOnlyByItsCommands : Prop :=
  ∀ (c : Instr) (s t : State), exec c s = .next t → (∀ p l d, c ≠ .hardwareReset p l d) →
    t.straps = s.straps ∧
    (c ≠ .loaderCheckRead → t.settings = s.settings ∧
      ∀ n : Fin 128, t.nodes[n].enabled = s.nodes[n].enabled ∧ t.nodes[n].tree = s.nodes[n].tree ∧
        t.nodes[n].parent = s.nodes[n].parent ∧ t.nodes[n].tag = s.nodes[n].tag ∧ t.nodes[n].depth = s.nodes[n].depth) ∧
    (c ≠ .terminalWordApply → ∀ k, (t.entry k).provisioned = (s.entry k).provisioned ∧
      (t.entry k).fibreParent = (s.entry k).fibreParent ∧ (t.entry k).powerParent = (s.entry k).powerParent) ∧
    (c ≠ .commitCompletion → t.intakeRing = s.intakeRing ∧ t.censusBase = s.censusBase ∧
      (c ≠ .producerWrite → (∀ w, s.arb.busy ≠ some (.internal w (some .producer))) → t.noticeRing = s.noticeRing))

/-- None of the events between the take of a notice and its producer write changes the values being written (R163): the
notice stays in progress with the same words. Hardware reset alone stops it. A producer write that a slow memory holds
comes with the ready of its access (log entry 32). -/
def Obligations.NoticeWordsStayFixed : Prop :=
  ∀ (c : Instr) (s t : State) (n : Notice), exec c s = .next t → s.notice = some n →
    (∀ p l d, c ≠ .hardwareReset p l d) → c ≠ .producerWrite →
    (∀ w, s.arb.busy ≠ some (.internal w (some .producer))) → ∃ n', t.notice = some n' ∧ n'.words = n.words

/-! ## The shared operations -/

/-- How the part takes a passing beat (R187). A read is handed to no block, and a beat of a burst carried through a
hardware reset passes plainly (R192). A write goes by the region it falls in (R1, R4 to R7, R169, R171, R175, R182,
R187): the mailbox by its command code, the owned words, the other words of the Setup Block in LOADING, else the intake
ring, else the notice ring's header; outside every watched region it passes unseen. A completion is decided from the
slot's mark in the order of R6. That a beat with no byte enable to words 4..655 in LOADING passes is the model's
reading (log entry 8), and the row of a read is its choice (log entry 12). -/
def Obligations.RegionsDecideTheRow : Prop :=
  (∀ (b : Beat) (s : State) (a : Nat), a = wordAddr b.addr.toNat →
    (b.read = true ∨ s.arb.plain = true → s.rowOf b = .passingWrite) ∧
    (b.read = false → s.arb.plain = false →
      (a = s.setupBase → ∀ code, code = b.data.toNat / 16777216 →
        (b.be ≠ 15 ∨ code = 0 ∨ 10 ≤ code → s.rowOf b = .badOpcode) ∧
        (b.be = 15 →
          (code = 1 → s.rowOf b = .extend) ∧ (code = 2 → s.rowOf b = .edit) ∧ (code = 3 → s.rowOf b = .commit) ∧
          (code = 4 → s.rowOf b = .abandon) ∧ (code = 5 → s.rowOf b = .settime) ∧ (code = 6 → s.rowOf b = .forget) ∧
          (code = 7 → s.rowOf b = .maint) ∧ (code = 8 → s.rowOf b = .census) ∧ (code = 9 → s.rowOf b = .reset))) ∧
      (∀ w, 1 ≤ w → w ≤ 3 → a = s.setupBase + 4 * w → s.rowOf b = .ownedWord) ∧
      (∀ w, 4 ≤ w → w < 656 → a = s.setupBase + 4 * w →
        (s.part = .loading → b.be ≠ 0 → s.rowOf b = .disturbing) ∧
        (s.part ≠ .loading ∨ b.be = 0 →
          (∀ r, s.intakeRing = some r → a < r.base ∨ r.base + 16 * r.count ≤ a) →
          (∀ r, s.noticeRing = some r → a ≠ r.base ∧ a ≠ r.base + 4) → s.rowOf b = .passingWrite)) ∧
      ((a < s.setupBase ∨ s.setupBase + 2624 ≤ a) →
        (∀ r k w, s.setupInUse = true → s.intakeRing = some r → k < r.count → w < 4 → a = r.base + 16 * k + 4 * w →
          (b.be = 0 ∨ w = 2 → s.rowOf b = .passingWrite) ∧
          (b.be = 15 → w = 0 → s.rowOf b = .intakeWord0) ∧ (b.be = 15 → w = 1 → s.rowOf b = .intakeWord1) ∧
          (b.be = 15 → w = 3 → s.rowOf b = (match (s.mark k).decision with
            | .empty => .empty | .malformed => .malformed | .treeDown => .treeDown | .treeUp => .treeUp
            | .status _ _ => .status | .miss _ => .miss | .gasp _ => .gasp | .link _ _ => .link)) ∧
          (b.be ≠ 0 → b.be ≠ 15 → w ≤ 1 → s.rowOf b = .intakePartial) ∧
          (b.be ≠ 0 → b.be ≠ 15 → w = 3 → s.rowOf b = .intakePartialWord3)) ∧
        (s.setupInUse = false ∨ (∀ r, s.intakeRing = some r → a < r.base ∨ r.base + 16 * r.count ≤ a) →
          (∀ r, s.noticeRing = some r → a = r.base → s.rowOf b = .ownedWord) ∧
          (∀ r, s.noticeRing = some r → a = r.base + 4 → s.rowOf b = .consumerIndex) ∧
          ((∀ r, s.noticeRing = some r → a ≠ r.base ∧ a ≠ r.base + 4) → s.rowOf b = .passingWrite))))) ∧
  ∀ m : Mark,
    (∀ c, m.word0 = some c → c.kind = 0 → m.decision = .empty) ∧
    ((∀ c, m.word0 = some c → c.kind ≠ 0) →
      (m.torn = true ∨ m.word0 = none ∨ m.word1 = none → m.decision = .malformed) ∧
      ∀ c p, m.torn = false → m.word0 = some c → m.word1 = some p →
        (7 ≤ c.kind.toNat → m.decision = .malformed) ∧ (c.kind = 5 → m.decision = .treeDown) ∧
        (c.kind = 6 → m.decision = .treeUp) ∧ (c.kind = 1 → m.decision = .status c p) ∧
        (c.kind = 2 → m.decision = .miss c) ∧ (c.kind = 3 → m.decision = .gasp c) ∧
        (c.kind = 4 → m.decision = .link c p))

/-- What the evidence leaves of a terminal entry: a STATUS or LINK taken as evidence (R25, R26, R27, R49 to R53, R58),
a MISS taken as evidence, a GASP and a carry of the silence tap (R28, R29, R31, R34). The two falls empty the filter,
clear DIM and both counters, and keep everything else. -/
def Obligations.EntriesFollowTheEvidence : Prop :=
  (∀ (p : Settings) (e : Entry) (round : Byte) (power : Int),
    (∀ e', e' = e.status p round power ∨ e' = e.linked p power →
      e'.link = .lit ∧ e'.silence = 0 ∧ e'.missRun = 0 ∧ e'.provisioned = e.provisioned ∧
      e'.fibreParent = e.fibreParent ∧ e'.powerParent = e.powerParent ∧ e'.covering = e.covering ∧
      (power = -32768 → e'.filter = e.filter ∧ e'.dim = e.dim)) ∧
    (e.status p round power).lastRound = some round ∧ (e.linked p power).lastRound = none ∧
    (power ≠ -32768 →
      (e.linked p power).filter = some (16 * max (-500) (min 100 power)) ∧
      (e.filter = none → (e.status p round power).filter = some (16 * max (-500) (min 100 power))) ∧
      (∀ f, e.filter = some f → (e.status p round power).filter =
        some (f + filterStep p.filterShift (max (-500) (min 100 power)) f)) ∧
      ∀ e', e' = e.status p round power ∨ e' = e.linked p power →
        ∀ f, e'.filter = some f → e'.dim = dimTest p.dimSet p.dimClear f e.dim)) ∧
  ∀ (p : Settings) (e : Entry) (round : Byte) (limit : Nat),
    (∀ link, e.fallTo link = { e with link, dim := false, filter := none, silence := 0, missRun := 0 }) ∧
    (e.link ≠ .lit → e.link ≠ .fading → e.missed p round = { e with lastRound := some round }) ∧
    (e.link = .lit ∨ e.link = .fading → ∀ run, run = min 15 (e.missRun + 1) →
      (p.missLimit = 0 ∨ run < p.missLimit →
        e.missed p round = { e with lastRound := some round, missRun := run }) ∧
      (p.missLimit ≠ 0 → p.missLimit ≤ run → e.missed p round =
        { e with lastRound := some round }.fallTo (if e.link = Link.lit then .dark else .spent))) ∧
    (e.link = .unheard ∨ e.link = .lit → e.gasped = { e with link := .fading }) ∧
    (e.link = .dark → e.gasped = e.fallTo .spent) ∧ (e.link = .fading ∨ e.link = .spent → e.gasped = e) ∧
    (e.provisioned = false ∨ (e.link ≠ .lit ∧ e.link ≠ .fading) → e.silent limit = e) ∧
    (e.provisioned = true → e.link = .lit ∨ e.link = .fading →
      (e.silence + 1 ≠ limit → e.silent limit = { e with silence := e.silence + 1 }) ∧
      (e.silence + 1 = limit → e.silent limit = e.fallTo (if e.link = .lit then .dark else .spent)))

/-- The Level Filter's arithmetic. The step is the difference divided by 2^k with the quotient rounded toward zero, and
one unit toward the reading where that quotient is 0 (R53). It has the sign of the difference and a magnitude between 1
and the difference's, so the filter moves toward 16 times the reading and never past it, and stays in −8000..1600
(R54). The level is the sixteenth part rounded toward zero (R55), and in filter values the DIM test sets and clears the
flag at the points of R56's second table, threshold by threshold. -/
def Obligations.FilterArithmetic : Prop :=
  (∀ (k : Nat) (p f d : Int), d = 16 * p - f →
    (d = 0 → filterStep k p f = 0) ∧
    (2 ^ k ≤ d → filterStep k p f = d / 2 ^ k) ∧ (0 < d → d < 2 ^ k → filterStep k p f = 1) ∧
    (d ≤ -2 ^ k → filterStep k p f = -(-d / 2 ^ k)) ∧ (-2 ^ k < d → d < 0 → filterStep k p f = -1)) ∧
  (∀ (k : Nat) (p f : Int), -500 ≤ p → p ≤ 100 → -8000 ≤ f → f ≤ 1600 →
    stepFilter k p f = f + filterStep k p f ∧
    (16 * p = f → filterStep k p f = 0) ∧
    (f < 16 * p → 1 ≤ filterStep k p f ∧ filterStep k p f ≤ 16 * p - f) ∧
    (16 * p < f → 16 * p - f ≤ filterStep k p f ∧ filterStep k p f ≤ -1) ∧
    -8000 ≤ stepFilter k p f ∧ stepFilter k p f ≤ 1600 ∧
    -500 ≤ level (stepFilter k p f) ∧ level (stepFilter k p f) ≤ 100) ∧
  (∀ f : Int, (0 ≤ f → level f = f / 16) ∧ (f < 0 → level f = -(-f / 16))) ∧
  ∀ (dimSet dimClear f : Int) (was : Bool), dimSet < dimClear →
    ((dimSet < 0 ∧ f ≤ 16 * dimSet) ∨ (dimSet = 0 ∧ f ≤ 15) ∨ (0 < dimSet ∧ f ≤ 16 * dimSet + 15) →
      dimTest dimSet dimClear f was = true) ∧
    ((dimClear < 0 ∧ 16 * dimClear - 15 ≤ f) ∨ (dimClear = 0 ∧ -15 ≤ f) ∨ (0 < dimClear ∧ 16 * dimClear ≤ f) →
      dimTest dimSet dimClear f was = false) ∧
    (¬ ((dimSet < 0 ∧ f ≤ 16 * dimSet) ∨ (dimSet = 0 ∧ f ≤ 15) ∨ (0 < dimSet ∧ f ≤ 16 * dimSet + 15)) →
      ¬ ((dimClear < 0 ∧ 16 * dimClear - 15 ≤ f) ∨ (dimClear = 0 ∧ -15 ≤ f) ∨ (0 < dimClear ∧ 16 * dimClear ≤ f)) →
      dimTest dimSet dimClear f was = was)

/-- The adjustments of a terminal event (R35, R67): a node on the terminal's chain in its tree has each count moved by
the terminal's membership of R24, by one or not at all, every other node is as before, and no node's place, mark or flag
changes. The chain of an enabled node is the node followed by its parent's chain, up to a root; a disabled node has none
(R63). -/
def Obligations.AdjustmentsFollowMemberships : Prop :=
  (∀ (nodes : Vector Node 128) (n : Fin 128),
    (nodes[n].enabled = false → chain nodes n = []) ∧
    (nodes[n].enabled = true → nodes[n].parent = none → chain nodes n = [n]) ∧
    (∀ p, nodes[n].enabled = true → nodes[n].parent = some p → (chain nodes p).length ≤ 7 →
      chain nodes n = n :: chain nodes p) ∧
    (chain nodes n).length ≤ 8) ∧
  (∀ c : Nat, bump false true c = c + 1 ∧ bump true false c = c - 1 ∧ bump false false c = c ∧ bump true true c = c) ∧
  ∀ (old new : Entry) (nodes : Vector Node 128) (n : Fin 128),
    (n ∉ chain nodes (old.parentIn nodes[n].tree) → (adjustNodes old new nodes)[n] = nodes[n]) ∧
    (n ∈ chain nodes (old.parentIn nodes[n].tree) → (adjustNodes old new nodes)[n] =
      { nodes[n] with
        monitored := bump old.monitored new.monitored nodes[n].monitored
        dark := if nodes[n].tree = .fibre then bump (old.afflicted .dark) (new.afflicted .dark) nodes[n].dark
          else nodes[n].dark
        dim := if nodes[n].tree = .fibre then bump (old.afflicted .dim) (new.afflicted .dim) nodes[n].dim
          else nodes[n].dim
        spent := if nodes[n].tree = .power then bump (old.afflicted .power) (new.afflicted .power) nodes[n].spent
          else nodes[n].spent }) ∧
    (old.monitored = true ↔ old.provisioned = true ∧ old.link ≠ .unheard) ∧
    (old.afflicted .dark = true ↔ old.provisioned = true ∧ old.link = .dark) ∧
    (old.afflicted .power = true ↔ old.provisioned = true ∧ old.link = .spent) ∧
    (old.afflicted .dim = true ↔ old.provisioned = true ∧ old.dim = true)

/-- The struck flags after a reading (R110 to R113). -/
def Obligations.StruckByQuorum : Prop :=
  ∀ (s : State) (i : Fin 128), ∀ n, n = s.nodes[i] →
    (n.enabled = false → s.struckNodes[i] = n) ∧
    (n.enabled = true → n.tree = .fibre →
      (s.struckNodes[i].struckDark = true ↔ (i = 0 ∧ s.trunk = true) ∨
        (1 ≤ n.monitored ∧ s.par.minAffected ≤ n.dark ∧ s.par.qDark * n.monitored ≤ 16 * n.dark)) ∧
      (s.struckNodes[i].struckDim = true ↔
        1 ≤ n.monitored ∧ s.par.minAffected ≤ n.dim ∧ s.par.qDim * n.monitored ≤ 16 * n.dim) ∧
      s.struckNodes[i].struckPower = false) ∧
    (n.enabled = true → n.tree = .power →
      (s.struckNodes[i].struckPower = true ↔ 1 ≤ n.monitored ∧ s.par.minAffected ≤ n.spent ∧
        (if i = 1 ∧ s.inputs.mainsFail = true then s.par.qMains else s.par.qPower) * n.monitored ≤ 16 * n.spent) ∧
      s.struckNodes[i].struckDark = false ∧ s.struckNodes[i].struckDim = false) ∧
    { s.struckNodes[i] with struckDark := n.struckDark, struckDim := n.struckDim, struckPower := n.struckPower } = n

/-- Which causes the reading finds once the struck flags are written (R112, R115, R117), in the order of R118: node
causes by kind code and node number, then terminal causes by kind code and terminal number, each once. The counts a
node cause carries (R115) and its exceptions (R116): the first four, ascending, of the monitored terminals of the
subtree that are not afflicted in the family; truncated exactly if there are more. -/
def Obligations.CausesAreTheTopmostStruck : Prop :=
  (∀ (s : State) (c : Cause), c ∈ s.causes ↔
    (∃ (f : Family) (n : Fin 128), s.nodes[n].enabled = true ∧ s.nodes[n].struck f = true ∧
      (∀ m ∈ (chain s.nodes n).tail, s.nodes[m].struck f = false) ∧
      (∀ k i, s.slot k = some i → i.coversNode s.nodes f n = false) ∧
      c = s.nodeCause (match f with
        | .dark => if n = 0 ∧ s.trunk = true then .trunkLoss else .branchDark
        | .power => .mainsLoss
        | .dim => .branchDim) f n) ∨
    (∃ (f : Family) (t : Fin 512), (s.entry t).afflicted f = true ∧
      (∀ m ∈ chain s.nodes ((s.entry t).parentIn f.tree), s.nodes[m].struck f = false) ∧
      (∀ k i, s.slot k = some i → i.coversTerminal s.nodes (s.entry t) = false) ∧
      c = terminalCause (match f with
        | .dark => .terminalDark
        | .power => .terminalPower
        | .dim => .terminalDim) t)) ∧
  (∀ s : State, s.causes.Pairwise (fun c d => c.rank < d.rank)) ∧
  (∀ (kind : CauseKind) (k : Fin 512), terminalCause kind k =
    { kind, subject := .terminal k, afflicted := 1, monitored := 1, exceptions := [], truncated := false }) ∧
  ∀ (s : State) (kind : CauseKind) (f : Family) (n : Fin 128), ∃ all : List (Fin 512),
    all.Pairwise (· < ·) ∧
    (∀ t, t ∈ all ↔ (s.entry t).monitored = true ∧ (s.entry t).afflicted f = false ∧
      n ∈ chain s.nodes ((s.entry t).parentIn f.tree)) ∧
    s.nodeCause kind f n =
      { kind, subject := .node n, monitored := s.nodes[n].monitored
        afflicted := (match f with | .dark => s.nodes[n].dark | .power => s.nodes[n].spent | .dim => s.nodes[n].dim)
        exceptions := all.take 4, truncated := decide (4 < all.length) }

/-- The take of a notice (R153, R161, R162): none without a ring, room and a free writer; else the RESTART, else the
first due incident of the creation-order list, with OPEN before UPDATE before CLOSE. -/
def Obligations.TakeChoosesTheOldestDue : Prop :=
  ∀ s : State,
    (s.canTake = true ↔ s.notice = none ∧ s.headerDue = false ∧
      ∃ r, s.noticeRing = some r ∧ s.unconsumed < r.count) ∧
    (s.canTake = false → takeNotice s = s) ∧
    (∀ r, s.canTake = true → s.restart = some r → takeNotice s =
      { s with restart := none, notice := some { words := restartNotice r s.time.clock, written := 0, frees := none } }) ∧
    (s.canTake = true → s.restart = none →
      ((∀ k ∈ s.order, ∀ i, s.slot k = some i → i.openDue = false ∧ i.updateDue = false ∧ i.close = none) →
        takeNotice s = s) ∧
      ∀ before k after i, s.order = before ++ k :: after → s.slot k = some i →
        (∀ j ∈ before, ∀ i', s.slot j = some i' → i'.openDue = false ∧ i'.updateDue = false ∧ i'.close = none) →
        (i.openDue = true → takeNotice s =
          { s with
            slots := s.slots.set k
              (some { i with announced := true, openDue := false, updateDue := false, recurred := false })
            notice := some { words := incidentNotice .opening i (s.subjectTag i) s.time.clock, written := 0,
                             frees := none } }) ∧
        (i.openDue = false → i.updateDue = true → takeNotice s =
          { s with
            slots := s.slots.set k (some { i with updateDue := false, recurred := false })
            notice := some { words := incidentNotice .updating i (s.subjectTag i) s.time.clock, written := 0,
                             frees := none } }) ∧
        (i.openDue = false → i.updateDue = false → i.close ≠ none → takeNotice s =
          { s with notice := some { words := incidentNotice .closing i (s.subjectTag i) s.time.clock, written := 0,
                                    frees := some k } }))

/-- The words the part forms for intake slots, owned words and the census (R10, R167, R185, R195, R196, 12.2, 12.4,
12.5), and the word of a mailbox command (12.4), as numbers, field by field; and the ATTN line (R159). -/
def Obligations.FormedWords : Prop :=
  (∀ (code tag : Byte) (arg : Half),
    (mailboxWord code tag arg).toNat = 16777216 * code.toNat + 65536 * tag.toNat + arg.toNat) ∧
  (∀ (d : Disposition) (link : Option Link) (clock : Word), (dispositionWord d link clock).toNat =
    16777216 * (match d with
      | .accepted => 1 | .repeated => 2 | .late => 3 | .flooded => 4 | .unknown => 5 | .malformed => 6
      | .withdrawn => 7) +
    65536 * (match link with
      | none => 0 | some .unheard => 1 | some .lit => 2 | some .fading => 3 | some .dark => 4 | some .spent => 5) +
    clock.toNat % 65536) ∧
  (∀ c : CommandStatus, c.detail < 65536 → (statusWord c).toNat = 16777216 * c.tag.toNat + c.detail +
    65536 * (match c.outcome with
      | .unset => 0 | .done => 1 | .clamped => 2 | .busy => 3 | .wrongState => 4 | .badArgument => 5 | .badOpcode => 6
      | .badSetup => 7 | .disturbed => 8 | .expired => 9 | .cut => 10 | .abandoned => 11)) ∧
  (∀ s : State, s.partStatusA.toNat =
    16777216 * (match s.part with | .unconfigured => 0 | .running => 1 | .edit => 2 | .loading => 3) +
    8388608 * s.storm.toNat + 4194304 * s.inputs.mainsFail.toNat + 2097152 * s.inputs.maintAll.toNat +
    1048576 * s.ringFault.toNat + 524288 * s.census.isSome.toNat + 262144 * (s.slot 0).isSome.toNat +
    (indices 32).countP (fun k => (s.slot k).isSome)) ∧
  (∀ s : State, s.counterLaw → s.partStatusB.toNat =
    16777216 * s.malformed + 65536 * s.unknown + 256 * s.disturbed + s.clamped) ∧
  (∀ s : State, s.attn = true ↔ s.noticeRing ≠ none ∧ s.producer ≠ s.consumer) ∧
  (∀ n : Node, n.monitored ≤ 512 → n.dark ≤ 512 → n.dim ≤ 512 → n.spent ≤ 512 →
    (n.enabled = true → (censusNodeWord n).toNat = 4194304 * n.monitored +
      4096 * (if n.tree = .fibre then n.dark else n.spent) + 4 * (if n.tree = .fibre then n.dim else 0) +
      2 * n.maint.toNat + 1) ∧
    (n.enabled = false → censusNodeWord n = 0)) ∧
  (∀ (limit : Nat) (e : Entry), e.law limit → limit ≤ 8 →
    (censusTerminalWord e).toNat = 536870912 * (match e.link with
        | .unheard => 1 | .lit => 2 | .fading => 3 | .dark => 4 | .spent => 5) + 268435456 * e.dim.toNat +
      4096 * (match e.filter with | none => 0 | some f => (level f % 65536).toNat) + 512 * e.silence + 32 * e.missRun +
      16 * e.filter.isSome.toNat ∧
    (e.provisioned = false → censusTerminalWord e = 0x20000000)) ∧
  ∀ tag : Byte, (censusStatusWord 1 tag).toNat = 16777216 + 65536 * tag.toNat ∧
    (censusStatusWord 2 tag).toNat = 33554432 + 65536 * tag.toNat ∧
    (censusStatusWord 3 tag).toNat = 50331648 + 65536 * tag.toNat

/-- The eight words of a notice (R162, R195, 12.3), as numbers: of an ordinary incident, of the residue, and of a
RESTART. The close reason and the absorbing number stand in a CLOSE alone, which is the model's reading (log entry 9). -/
def Obligations.NoticeWordsCarryTheRecord : Prop :=
  (∀ (kind : NoticeKind) (i : Incident) (tag : Byte) (clock : Word) (code cause reason absorber subject : Nat)
      (exception : Nat → Nat),
    kind ≠ .restarting →
    code = (match kind with | .opening => 1 | .updating => 2 | .closing => 3 | .restarting => 4) →
    cause = (match i.kind with
      | .trunkLoss => 1 | .branchDark => 2 | .terminalDark => 3 | .mainsLoss => 4 | .terminalPower => 5
      | .branchDim => 6 | .terminalDim => 7 | .residue => 8) →
    (kind ≠ .closing ∨ i.close = none → reason = 0 ∧ absorber = 0) →
    (∀ c, kind = .closing → i.close = some c → absorber = c.absorber ∧
      reason = (match c.reason with | .cleared => 1 | .absorbed => 2 | .reconfigured => 3)) →
    subject = (match i.subject with | .node n => n.val | .terminal k => k.val | .nothing => 65535) →
    (∀ k, exception k = match i.exceptions[k]? with | none => 0 | some m => m.val) →
    i.number < 65536 → i.afflicted < 65536 → i.monitored < 65536 → absorber < 65536 → i.exceptions.length ≤ 4 →
    i.unplaced.dark + i.unplaced.power + i.unplaced.dim < 65536 →
    (i.kind ≠ .residue → (incidentNotice kind i tag clock).map BitVec.toNat =
      [16777216 * code + 65536 * cause + i.number,
       16777216 * reason + 65536 * (i.storm.toNat + 2 * i.maint.toNat + 4 * i.truncated.toNat + 8 * i.recurred.toNat) +
         subject,
       65536 * i.afflicted + i.monitored, clock.toNat, i.created.toNat,
       65536 * absorber + 256 * tag.toNat + i.exceptions.length,
       65536 * exception 1 + exception 0, 65536 * exception 3 + exception 2]) ∧
    (i.kind = .residue → (incidentNotice kind i tag clock).map BitVec.toNat =
      [16777216 * code + 65536 * 8 + i.number,
       16777216 * reason + 65536 * (i.storm.toNat + 2 * i.maint.toNat) + 65535,
       65536 * (i.unplaced.dark + i.unplaced.power + i.unplaced.dim), clock.toNat, i.created.toNat, 0,
       65536 * i.unplaced.power + i.unplaced.dark, i.unplaced.dim])) ∧
  (∀ (r : RestartReason) (clock : Word), (restartNotice r clock).map BitVec.toNat =
    [67108864, 16777216 * (match r with | .hardReset => 1 | .softReset => 2 | .ringMoved => 3) + 65535, 0, clock.toNat,
     0, 0, 0, 0]) ∧
  ∀ (s : State) (i : Incident),
    (∀ n, i.subject = .node n → s.subjectTag i = s.nodes[n].tag) ∧
    ((∀ n, i.subject ≠ .node n) → s.subjectTag i = 0)

/-- The tests that the pass and the Incident Table make: covering (R114), a cause that is covered (R121), a cause that
an incident matches, or that a close-due one keeps out (R119, R122), the maintenance test (R73) and the emit predicate
(R149). That covering follows the trees as they stand, with no test of the tree that the subject is in now, is the
model's reading (log entry 26). -/
def Obligations.CoveringAndFlagTests : Prop :=
  (∀ (nodes : Vector Node 128) (i : Incident),
    (∀ (f : Family) (n : Fin 128), i.coversNode nodes f n = true ↔
      (i.phase = .opened ∨ i.phase = .clearing) ∧ i.kind.family = some f ∧
        ∃ m, i.subject = .node m ∧ m ≠ n ∧ m ∈ chain nodes n) ∧
    ∀ e : Entry, i.coversTerminal nodes e = true ↔
      (i.phase = .opened ∨ i.phase = .clearing) ∧
        ∃ m f, i.subject = .node m ∧ i.kind.family = some f ∧ e.afflicted f = true ∧
          m ∈ chain nodes (e.parentIn f.tree)) ∧
  (∀ kind : CauseKind, kind.family = (match kind with
    | .trunkLoss => some .dark | .branchDark => some .dark | .terminalDark => some .dark | .mainsLoss => some .power
    | .terminalPower => some .power | .branchDim => some .dim | .terminalDim => some .dim | .residue => none)) ∧
  (∀ (s : State) (c : Cause),
    (s.causeCovered c = true ↔ ∃ f k i, c.kind.family = some f ∧ s.slot k = some i ∧
      ((∃ n, c.subject = .node n ∧ i.coversNode s.nodes f n = true) ∨
        ∃ m, c.subject = .terminal m ∧ (s.entry m).afflicted f = true ∧
          i.coversTerminal s.nodes (s.entry m) = true)) ∧
    (s.matched c = true ↔ ∃ k i, s.slot k = some i ∧ i.close = none ∧ i.kind = c.kind ∧ i.subject = c.subject) ∧
    (s.leaving c = true ↔ ∃ k i, s.slot k = some i ∧ i.close ≠ none ∧ i.kind = c.kind ∧ i.subject = c.subject)) ∧
  ∀ (s : State) (i : Incident),
    (∀ n, i.subject = .node n → (s.subjectUnderMaint i = true ↔
      s.inputs.maintAll = true ∨ s.nodes[n].maint = true ∨ ∃ m ∈ chain s.nodes n, s.nodes[m].maint = true)) ∧
    (∀ m f, i.subject = .terminal m → i.kind.family = some f → (s.subjectUnderMaint i = true ↔
      ∃ n, n = (s.entry m).parentIn f.tree ∧ (s.inputs.maintAll = true ∨ s.nodes[n].maint = true ∨
        ∃ x ∈ chain s.nodes n, s.nodes[x].maint = true))) ∧
    (i.subject = .nothing → s.subjectUnderMaint i = s.inputs.maintAll) ∧
    ∀ k, k = (match i.kind with
      | .trunkLoss => 1 | .branchDark => 2 | .terminalDark => 3 | .mainsLoss => 4 | .terminalPower => 5 | .branchDim => 6
      | .terminalDim => 7 | .residue => 8) →
      s.permitted i = s.par.predicates.getLsbD (4 * k - 4 + 2 * i.storm.toNat + i.maint.toNat)

/-! ## Hardware reset -/

/-- HARDWARE_RESET (R21, R45, R78, R92, R99, R106, R154, R159, R170, R189, R192, R193): every register is at its reset
value, and the straps and the two levels are those at the release. While RESET_N is asserted no region is watched and
WAIT follows M_READY alone: an internal access in progress is lost, a beat that the arbiter held follows, and of what
comes then, event by event, a beat is forwarded unchanged if the memory side is free, and held behind one that memory
has not made ready, until M_READY ends it. What is then still in progress goes on after the release, a burst as a plain
passthrough. The reset leaves no patience window; since the owned-word writer requests from the release on, one starts
there if a passing access has the memory side (R189, R191), which is the model's reading (log entry 21). The reset
values of the straps and inputs in `State.reset` are the model's and do not show here; that the EDIT tag is 0 is the
model's choice (log entry 3), and so is one step for the assertion and the release, with what comes between them as its
operand (log entry 21). -/
def Obligations.HardwareResetCompletes : Prop :=
  ∀ (straps : BitVec 8) (levels : Levels) (during : List BusEvent) (s : State), Memory.wf s.mem = true →
    ∃ t, exec (.hardwareReset straps levels during) s = .next t ∧ t.straps = straps ∧
      t.inputs = { mainsFail := levels.mainsFail, maintAll := levels.maintAll, sample := levels, sampled := false } ∧
      t.pending = s.pending ∧
      { t with straps := State.reset.straps, inputs := State.reset.inputs, pending := State.reset.pending,
               mem := State.reset.mem, readData := State.reset.readData, arb := State.reset.arb } = State.reset ∧
      (t.arb.plain = true ↔ t.arb.beatsLeft ≠ 0) ∧ t.arb.impatient = false ∧
      t.arb.window = (if t.arb.beatsLeft ≠ 0 ∨ t.arb.busy = some .passing
        then some { left := 5, due := false, fresh := false } else none) ∧
      (during = [] →
        (s.arb.held = none ∨ s.arb.busy = some .passing → t.mem = s.mem ∧ t.readData = s.readData ∧
          t.arb = { s.arb with busy := if s.arb.busy = some .passing then some .passing else none
                               plain := decide (s.arb.beatsLeft ≠ 0), window := t.arb.window, impatient := false }) ∧
        ∀ b, s.arb.held = some b → s.arb.busy ≠ some .passing → s.plainly t b) ∧
      ∀ before e u, during = before ++ [e] → exec (.hardwareReset straps levels before) s = .next u →
        (∀ b, e = .access b →
          (u.arb.held ≠ none → t = u) ∧
          (u.arb.held = none → u.arb.busy ≠ none → t = { u with arb := { u.arb with held := some b } }) ∧
          (u.arb.held = none → u.arb.busy = none → u.plainly t b)) ∧
        (e = .ready false → t = { u with arb := { u.arb with ready := false } }) ∧
        (e = .ready true →
          (u.arb.held = none →
            t = { u with arb := { u.arb with ready := true, busy := none, window := t.arb.window } }) ∧
          ∀ b, u.arb.held = some b → State.plainly { u with arb := { u.arb with ready := true } } t b)

/-! ## Passing writes -/

/-- PASSING_WRITE, OWNED_WORD_WRITE and DISTURBING_WRITE (R182, R186, R188): the beat reaches memory, with the part's
value where the word is owned, and nothing but the arbiter and the disturbance count changes. A passing read, which is a
PASSING_WRITE row by the model's choice (log entry 12), returns the word of memory and changes no byte of it. -/
def Obligations.PlainOwnedAndDisturbingWrites : Prop :=
  ∀ (b : Beat) (s : State),
    (s.serves .passingWrite b → b.read = false → ∃ t, exec (.passingWrite b) s = .next t ∧ s.beatDone t b b.data ∧
      { t with mem := s.mem, arb := s.arb } = s) ∧
    (s.serves .passingWrite b → b.read = true → ∃ t, exec (.passingWrite b) s = .next t ∧
      (∀ i, i < 4 → wordByte t.readData i = readByte s.mem (wordAddr b.addr.toNat + i)) ∧ t.arb = s.arbAfterBeat t b ∧
      { t with readData := s.readData, arb := s.arb } = s) ∧
    (s.serves .ownedWord b → ∃ t v, exec (.ownedWordWrite b) s = .next t ∧ s.beatDone t b v ∧
      { t with mem := s.mem, arb := s.arb } = s ∧
      (wordAddr b.addr.toNat = s.setupAddr 1 → v = statusWord s.status) ∧
      (wordAddr b.addr.toNat = s.setupAddr 2 → v = s.partStatusA) ∧
      (wordAddr b.addr.toNat = s.setupAddr 3 → v = s.partStatusB) ∧
      ((∀ w, w < 4 → wordAddr b.addr.toNat ≠ s.setupAddr w) → v = s.producer.setWidth 32)) ∧
    (s.serves .disturbing b → ∃ t, exec (.disturbingWrite b) s = .next t ∧ s.beatDone t b b.data ∧
      t.load = s.load.map (fun l => { l with disturbances := min 65535 (l.disturbances + 1) }) ∧
      { t with mem := s.mem, arb := s.arb, load := s.load } = s)

/-- INTAKE_WORD0_WRITE, INTAKE_WORD1_WRITE, INTAKE_PARTIAL_WRITE and INTAKE_PARTIAL_WORD3_WRITE (R4, R5, R7, 12.2): the
slot's mark takes the capture, of the kind (bits 31..24), the round (bits 23..16) and the terminal number (bits 9..0),
or of the signed power (bits 15..0); or is torn with the capture of the word written removed, or loses both captures
and is counted as malformed. The write reaches memory unchanged. -/
def Obligations.IntakeMarksFollowTheWrites : Prop :=
  ∀ (b : Beat) (s : State) (k : Nat), s.intakeLaw → k = s.intakeSlot b →
    (s.serves .intakeWord0 b → ∃ t, exec (.intakeWord0Write b) s = .next t ∧ s.beatDone t b b.data ∧
      s.markSet t k { s.mark k with
        word0 := some { kind := BitVec.ofNat 8 (b.data.toNat / 16777216)
                        round := BitVec.ofNat 8 (b.data.toNat / 65536 % 256)
                        terminal := BitVec.ofNat 10 (b.data.toNat % 1024) } } ∧
      { t with mem := s.mem, arb := s.arb, marks := s.marks } = s) ∧
    (s.serves .intakeWord1 b → ∃ t, exec (.intakeWord1Write b) s = .next t ∧ s.beatDone t b b.data ∧
      s.markSet t k { s.mark k with
        word1 := some (if b.data.toNat % 65536 < 32768 then ((b.data.toNat % 65536 : Nat) : Int)
                       else ((b.data.toNat % 65536 : Nat) : Int) - 65536) } ∧
      { t with mem := s.mem, arb := s.arb, marks := s.marks } = s) ∧
    (s.serves .intakePartial b → ∃ t w, exec (.intakePartialWrite b) s = .next t ∧ s.beatDone t b b.data ∧
      s.intakeWord b = some (k, w) ∧
      s.markSet t k (if w = 0 then { s.mark k with word0 := none, torn := true }
        else { s.mark k with word1 := none, torn := true }) ∧
      { t with mem := s.mem, arb := s.arb, marks := s.marks } = s) ∧
    (s.serves .intakePartialWord3 b → ∃ t, exec (.intakePartialWord3Write b) s = .next t ∧ s.beatDone t b b.data ∧
      s.markSet t k { word0 := none, word1 := none, torn := true } ∧ t.malformed = min 255 (s.malformed + 1) ∧
      t.writeMarks = s.marksAfter t ∧
      { t with mem := s.mem, arb := s.arb, marks := s.marks, malformed := s.malformed, writeMarks := s.writeMarks } =
        s)

/-- EMPTY, MALFORMED and UNKNOWN completions (R6, R11, R12, R13, R20): the mark is cleared; an EMPTY passes unchanged, a
MALFORMED and an UNKNOWN carry their disposition word and are counted. A record is UNKNOWN, whatever its kind of the
four, if its terminal number names no provisioned terminal. None touches an entry, the trunk flag or the gauge. -/
def Obligations.CompletionsThatNameNoTerminal : Prop :=
  ∀ (b : Beat) (s : State), s.intakeLaw →
    (s.serves .empty b → ∃ t, exec (.emptyRecord b) s = .next t ∧ s.beatDone t b b.data ∧
      s.markSet t (s.intakeSlot b) Mark.clear ∧ { t with mem := s.mem, arb := s.arb, marks := s.marks } = s) ∧
    (s.serves .malformed b → ∃ t, exec (.malformedRecord b) s = .next t ∧
      s.beatDone t b (dispositionWord .malformed none s.time.clock) ∧ s.markSet t (s.intakeSlot b) Mark.clear ∧
      t.malformed = min 255 (s.malformed + 1) ∧ t.writeMarks = s.marksAfter t ∧
      { t with mem := s.mem, arb := s.arb, marks := s.marks, malformed := s.malformed, writeMarks := s.writeMarks } =
        s) ∧
    ∀ (c : Word0Capture) (power : Int) (i : Instr),
      (∀ k : Fin 512, k.val = c.terminal.toNat → (s.entry k).provisioned = false) →
      (i = .statusRecord b ∧ s.serves .status b ∧ (s.mark (s.intakeSlot b)).decision = .status c power) ∨
      (i = .missRecord b ∧ s.serves .miss b ∧ (s.mark (s.intakeSlot b)).decision = .miss c) ∨
      (i = .gaspRecord b ∧ s.serves .gasp b ∧ (s.mark (s.intakeSlot b)).decision = .gasp c) ∨
      (i = .linkRecord b ∧ s.serves .link b ∧ (s.mark (s.intakeSlot b)).decision = .link c power) →
      ∃ t, exec i s = .next t ∧ s.beatDone t b (dispositionWord .unknown none s.time.clock) ∧
        s.markSet t (s.intakeSlot b) Mark.clear ∧ t.unknown = min 255 (s.unknown + 1) ∧
        t.writeMarks = s.marksAfter t ∧
        { t with mem := s.mem, arb := s.arb, marks := s.marks, unknown := s.unknown, writeMarks := s.writeMarks } = s

/-- STATUS, LINK, MISS and GASP completions for a provisioned terminal (R15, R16, R17, R25 to R29, R37). -/
def Obligations.TerminalCompletions : Prop :=
  (∀ (b : Beat) (s : State) (c : Word0Capture) (power : Int) (k : Fin 512) (e : Entry), s.intakeLaw →
    k.val = c.terminal.toNat → e = s.entry k → e.provisioned = true →
    (s.serves .status b → (s.mark (s.intakeSlot b)).decision = .status c power →
      ∃ t, exec (.statusRecord b) s = .next t ∧
        (e.lastRound = some c.round → s.recordTaken t b k e .repeated) ∧
        (e.lastRound ≠ some c.round → s.recordTaken t b k (e.status s.par c.round power)
          (if e.link = .fading then .withdrawn
           else if e.link = .lit ∧ s.storm = true ∧ (e.status s.par c.round power).dim = e.dim then .flooded
           else .accepted))) ∧
    (s.serves .link b → (s.mark (s.intakeSlot b)).decision = .link c power →
      ∃ t, exec (.linkRecord b) s = .next t ∧
        s.recordTaken t b k (e.linked s.par power) (if e.link = .fading then .withdrawn else .accepted))) ∧
  ∀ (b : Beat) (s : State) (c : Word0Capture) (k : Fin 512) (e : Entry), s.intakeLaw →
    k.val = c.terminal.toNat → e = s.entry k → e.provisioned = true →
    (s.serves .miss b → (s.mark (s.intakeSlot b)).decision = .miss c →
      ∃ t, exec (.missRecord b) s = .next t ∧
        (e.lastRound = some c.round → s.recordTaken t b k e .repeated) ∧
        (e.lastRound ≠ some c.round → s.recordTaken t b k (e.missed s.par c.round) .accepted)) ∧
    (s.serves .gasp b → (s.mark (s.intakeSlot b)).decision = .gasp c →
      ∃ t, exec (.gaspRecord b) s = .next t ∧
        s.recordTaken t b k e.gasped
          (if e.link = .unheard ∨ e.link = .lit then .accepted
           else if e.link = .dark then .late else .repeated))

/-- TREE_DOWN and TREE_UP completions (R14): the trunk flag, ACCEPTED with link state 0 and the time, one dirty mark if
the flag changed, no fall and no terminal entry touched, whatever the terminal number. -/
def Obligations.TreeRecordsSetTheTrunkFlag : Prop :=
  ∀ (b : Beat) (s : State) (down : Bool), s.intakeLaw →
    s.serves (if down then .treeDown else .treeUp) b →
    ∃ t, exec (if down then .treeDown b else .treeUp b) s = .next t ∧ t.trunk = down ∧
      s.beatDone t b (dispositionWord .accepted none s.time.clock) ∧ s.markSet t (s.intakeSlot b) Mark.clear ∧
      t.settle = (if s.trunk = down then s.settle else s.settleAfterMark s.storm) ∧
      { t with mem := s.mem, arb := s.arb, marks := s.marks, trunk := s.trunk, settle := s.settle } = s

/-! ## Time -/

/-- MILLISECOND_CARRY (R82, R83, R84, R88, R90, R102, R141, R175): the counter and the ms clock advance, the 16 ms and
the selected silence tap are given by the value the counter reaches, and the settle window, the soaks and the edit
limit count, the first two only while not frozen. The row lets REFCLK run on to the carry: the microsecond carries on
the way, which count the patience window and find the inputs as last sampled, and that nothing passes while an event of
this moment waits, are the model's choice (log entry 6). A window that starts in the REFCLK cycle of a carry does not
count that carry (R88); that commands in that cycle come before the carry is the model's form of the order (log entry
34), and so is that frozen windows meet the carry that ends the edit limit while they are frozen, and that the clock
advances before every event that the carry gives. That the patience window counts only while a request waits is its
reading of R191 (log entry 31). -/
def Obligations.MillisecondCarryCounts : Prop :=
  ∀ s : State,
    (s.waiting ≠ none → exec .millisecondCarry s = .next s) ∧
    (s.waiting = none → ∃ t counter way, exec .millisecondCarry s = .next t ∧
      counter = (s.time.counter + 1) % 1024 ∧ way = 1000 - s.time.divider ∧
      t.time =
        { prescaler := 0, divider := 0, counter, clock := s.time.clock + 1
          leakDue := decide (counter % 16 = 0)
          silenceDue := decide (s.settings ≠ none ∧ counter % tapPeriod s.par.silenceTap = 0) } ∧
      t.inputs = { s.inputs with sampled := true } ∧
      t.editLimit = s.editLimit.map windowCounted ∧
      t.settle = s.settle.map (if s.frozen then windowPassed else windowCounted) ∧
      (∀ k, t.slot k = (s.slot k).map (fun i =>
        { i with soak := i.soak.map (if s.frozen then windowPassed else windowCounted) })) ∧
      (s.head = none → t.arb = { s.arb with window := s.arb.window.map windowPassed }) ∧
      (s.head ≠ none → s.arb.window = none →
        t.arb = { s.arb with window := if s.arb.passing = true ∧ s.arb.impatient = false
                                       then some { left := 5, due := false, fresh := false } else none }) ∧
      (∀ w, s.head ≠ none → s.arb.window = some w →
        ∀ count, count = (if w.fresh then way - 1 else way) →
        (count < w.left → t.arb =
          { s.arb with window := some { left := w.left - count, due := w.due, fresh := false } }) ∧
        (count = w.left → t.arb = { s.arb with window := some { left := 1, due := true, fresh := false } }) ∧
        (w.left < count → t.arb = { s.arb with window := none, impatient := true })) ∧
      { t with time := s.time, inputs := s.inputs, editLimit := s.editLimit, settle := s.settle, slots := s.slots,
               arb := s.arb } = s)

/-- MICROSECOND_CARRY (R81, R191, R193): the prescaler returns to 0, the divider counts 0..999 and past 999 gives the
millisecond carry, with the counts of `MillisecondCarryCounts`; the patience window counts while an internal request
waits, and both inputs are sampled; the first sample after hardware reset is the level taken. The form in which M_READY
ends an access is that of `SlowMemoryHoldsTheAccess`. With `upTo` the row lets REFCLK run into the cycle of the carry
alone, and the whole row is that followed by the carry; a RESET command that was held behind an access and is taken
there clears the chain, and the carry does not come (R93). That form, and that an access which M_READY ends comes
before the carry, are the model's choice (log entries 32 and 34). That nothing passes while an event of this moment
waits is the model's choice (log entry 6), and a window that keeps its count while no request waits is its reading of
R191 (log entry 31). -/
def Obligations.MicrosecondCarryCounts : Prop :=
  ∀ (levels : Levels) (ready : Bool) (s : State),
    (∀ upTo, s.waiting ≠ none → exec (.microsecondCarry levels { ready, upTo }) s = .next s) ∧
    (s.waiting = none → ready = false ∨ s.arb.busy = none →
      exec (.microsecondCarry levels { ready, upTo := true }) s =
        .next { s with time := { s.time with prescaler := 24 }, arb := { s.arb with ready } }) ∧
    (∀ t, s.waiting = none → exec (.microsecondCarry levels { ready, upTo := true }) s = .next t → t.waiting = none →
      (24 ≤ t.time.prescaler → exec (.microsecondCarry levels { ready, upTo := false }) s =
        exec (.microsecondCarry levels { ready, upTo := false }) t) ∧
      (t.time.prescaler < 24 → exec (.microsecondCarry levels { ready, upTo := false }) s = .next t)) ∧
    (s.waiting = none → ready = false ∨ s.arb.busy = none →
      ∃ t window counter, exec (.microsecondCarry levels { ready, upTo := false }) s = .next t ∧
        counter = (s.time.counter + 1) % 1024 ∧
        t.time = (if s.time.divider < 999 then { s.time with prescaler := 0, divider := s.time.divider + 1 }
          else
            { prescaler := 0, divider := 0, counter, clock := s.time.clock + 1
              leakDue := decide (counter % 16 = 0)
              silenceDue := decide (s.settings ≠ none ∧ counter % tapPeriod s.par.silenceTap = 0) }) ∧
        t.editLimit = (if s.time.divider < 999 then s.editLimit else s.editLimit.map windowCounted) ∧
        t.settle = (if s.time.divider < 999 then s.settle
          else s.settle.map (if s.frozen then windowPassed else windowCounted)) ∧
        (∀ k, t.slot k = if s.time.divider < 999 then s.slot k
          else (s.slot k).map (fun i =>
            { i with soak := i.soak.map (if s.frozen then windowPassed else windowCounted) })) ∧
        t.inputs =
          { mainsFail := if s.inputs.sampled then s.inputs.mainsFail else levels.mainsFail
            maintAll := if s.inputs.sampled then s.inputs.maintAll else levels.maintAll
            sample := levels, sampled := true } ∧
        window = s.arb.window.map (if s.head ≠ none then windowCounted else windowPassed) ∧
        t.arb =
          { s.arb with
            ready
            window := if s.arb.passing = true ∧ t.head ≠ none ∧ window = none ∧ s.arb.impatient = false
                      then some { left := 5, due := false, fresh := false } else window } ∧
        t.writeMarks = s.marksAfter t ∧
        { t with time := s.time, editLimit := s.editLimit, settle := s.settle, slots := s.slots, inputs := s.inputs,
                 arb := s.arb, writeMarks := s.writeMarks } = s)

/-- SILENCE_CARRY (R31, R36, R37, R94, R96): every entry is advanced in one event, each LIT terminal that falls adds one
to the gauge, and one dirty mark is made if any link state, any DIM flag or STORM changed. -/
def Obligations.SilenceCarryIsOneEvent : Prop :=
  ∀ s : State, s.time.silenceDue = true → ∃ t falls, exec .silenceCarry s = .next t ∧
    t.time = { s.time with silenceDue := false } ∧
    (∀ k, t.entry k = (s.entry k).silent s.par.silenceLimit) ∧
    t.nodes = (if s.applyPass then s.nodes else adjustAll s.nodes (s.entries.toList.zip t.entries.toList)) ∧
    falls = (indices 512).countP (fun k => (s.entry k).link = .lit ∧ (t.entry k).link = .dark) ∧
    t.gauge = (if falls = 0 then s.gauge else min 1023 (s.gauge + falls)) ∧
    t.storm = (if t.gauge = s.gauge then s.storm else stormTest s.par.stormEnter s.par.stormExit t.gauge s.storm) ∧
    ((∃ k, (t.entry k).link ≠ (s.entry k).link ∨ (t.entry k).dim ≠ (s.entry k).dim) ∨ t.storm ≠ s.storm →
      t.settle = s.settleAfterMark t.storm) ∧
    ((∀ k, (t.entry k).link = (s.entry k).link ∧ (t.entry k).dim = (s.entry k).dim) → t.storm = s.storm →
      t.settle = s.settle) ∧
    t.writeMarks = s.marksAfter t ∧ t.arb = s.arbAfterEvent t ∧
    { t with time := s.time, entries := s.entries, nodes := s.nodes, gauge := s.gauge, storm := s.storm,
             settle := s.settle, writeMarks := s.writeMarks, arb := s.arb } = s

/-- STORM_LEAK (R95, R96): STORM_LEAK is taken from the gauge, which stops at 0; a changed gauge is followed by the
STORM test, and a change of STORM makes one dirty mark. -/
def Obligations.StormLeakDrainsTheGauge : Prop :=
  ∀ s : State, s.time.leakDue = true → ∃ t, exec .stormLeak s = .next t ∧
    t.time = { s.time with leakDue := false } ∧
    t.gauge = (if s.gauge < s.par.stormLeak then 0 else s.gauge - s.par.stormLeak) ∧
    t.storm = (if t.gauge = s.gauge then s.storm
      else if s.par.stormEnter ≤ t.gauge then true else if t.gauge ≤ s.par.stormExit then false else s.storm) ∧
    t.settle = (if t.storm = s.storm then s.settle else s.settleAfterMark t.storm) ∧
    t.writeMarks = s.marksAfter t ∧ t.arb = s.arbAfterEvent t ∧
    { t with time := s.time, gauge := s.gauge, storm := s.storm, settle := s.settle, writeMarks := s.writeMarks,
             arb := s.arb } = s

/-- MAINS_FAIL_EDGE and MAINT_ALL_EDGE (R76, R77, R101, R193): the level of the sample is taken, and one dirty mark is
made. SETTLE_EXPIRY (R102, R103, R104): the carry that brings the settle window to 0, while it is not frozen, leaves the
timer IDLE with one pass request; that it is an event of its own at the carry's moment is the model's choice (log entry
6). PATIENCE_EXPIRY (R191): the carry that ends the patience window leaves the arbiter impatient; a passing access that
starts then, between bursts and with an internal request waiting, is held with WAIT and changes nothing else. -/
def Obligations.EdgesAndExpiriesComplete : Prop :=
  ∀ s : State,
    (s.inputs.sample.mainsFail ≠ s.inputs.mainsFail → ∃ t, exec .mainsFailEdge s = .next t ∧
      t.inputs = { s.inputs with mainsFail := s.inputs.sample.mainsFail } ∧ t.settle = s.settleAfterMark s.storm ∧
      t.writeMarks = { s.writeMarks with partA := true } ∧ t.arb = s.arbAfterEvent t ∧
      { t with inputs := s.inputs, settle := s.settle, writeMarks := s.writeMarks, arb := s.arb } = s) ∧
    (s.inputs.sample.maintAll ≠ s.inputs.maintAll → ∃ t, exec .maintAllEdge s = .next t ∧
      t.inputs = { s.inputs with maintAll := s.inputs.sample.maintAll } ∧ t.settle = s.settleAfterMark s.storm ∧
      t.writeMarks = { s.writeMarks with partA := true } ∧ t.arb = s.arbAfterEvent t ∧
      { t with inputs := s.inputs, settle := s.settle, writeMarks := s.writeMarks, arb := s.arb } = s) ∧
    (∀ w, s.settle = some w → w.due = true → s.frozen = false → ∃ t, exec .settleExpiry s = .next t ∧
      t.settle = none ∧ t.passRequest = true ∧ t.arb = s.arbAfterEvent t ∧
      { t with settle := s.settle, passRequest := s.passRequest, arb := s.arb } = s) ∧
    (∀ w, s.arb.window = some w → w.due = true → ∃ t, exec .patienceExpiry s = .next t ∧
      t.arb = { s.arb with window := none, impatient := true } ∧ { t with arb := s.arb } = s) ∧
    ∀ b : Beat, s.arb.held = none → s.arb.impatient = true → s.arb.beatsLeft = 0 → s.head ≠ none →
      (∃ t, exec (.passingWrite b) s = .next t ∧ t.arb = { s.arb with held := some b } ∧ t.wait = true ∧
        { t with arb := s.arb } = s)

/-! ## Passes -/

/-- PASS_READING (R103, R108, R109, R113): the waiting request begins the pass, the struck flags are written and the
cause list is that of the table with its new flags; during an apply pass the request ends with no effect. -/
def Obligations.PassReadingFormsTheCauses : Prop :=
  ∀ s : State, s.passRequest = true → s.pass = none →
    (s.applyPass = false → ∃ t, exec .passReading s = .next t ∧ t.nodes = s.struckNodes ∧ t.passRequest = false ∧
      t.pass = some { s with nodes := s.struckNodes }.causes ∧ t.arb = s.arbAfterEvent t ∧
      { t with nodes := s.nodes, passRequest := s.passRequest, pass := s.pass, arb := s.arb } = s) ∧
    (s.applyPass = true → ∃ t, exec .passReading s = .next t ∧ t.passRequest = false ∧ t.arb = s.arbAfterEvent t ∧
      { t with passRequest := s.passRequest, arb := s.arb } = s)

/-- PASS_MATCHING, for every cause list (R108, R126, R128, R143): the pass ends; the incidents, the creation-order
list, the number counter, the covering fields and a notice taken change, and no dirty mark is made. A close-due
incident stays as it is but for the marks of a take. The covering field of every provisioned terminal names its
covering incident: of the incidents that cover it the nearest, and of two at one depth the earlier of the list (R114);
or none. -/
def Obligations.PassMatchingEndsThePass : Prop :=
  ∀ (s : State) (causes : List Cause), s.pass = some causes → ∃ t, exec .passMatching s = .next t ∧ t.pass = none ∧
    (∀ k, { t.entry k with covering := (s.entry k).covering } = s.entry k) ∧
    (∀ k i, s.slot k = some i → i.close ≠ none → ∃ i', t.slot k = some i' ∧
      { i' with updateDue := i.updateDue, openDue := i.openDue, announced := i.announced, recurred := i.recurred } =
        i) ∧
    (∀ m, (s.entry m).provisioned = true → (t.entry m).covering = none →
      ∀ k ∈ t.order, ∀ i, t.slot k = some i → i.coversTerminal s.nodes (s.entry m) = false) ∧
    (∀ m k, (s.entry m).provisioned = true → (t.entry m).covering = some k → ∃ before after i,
      t.order = before ++ k :: after ∧ t.slot k = some i ∧ i.coversTerminal s.nodes (s.entry m) = true ∧
      (∀ j ∈ before, ∀ i', t.slot j = some i' → i'.coversTerminal s.nodes (s.entry m) = true →
        i'.subjectDepth s.nodes < i.subjectDepth s.nodes) ∧
      ∀ j ∈ after, ∀ i', t.slot j = some i' → i'.coversTerminal s.nodes (s.entry m) = true →
        i'.subjectDepth s.nodes ≤ i.subjectDepth s.nodes) ∧
    (∀ m, (s.entry m).provisioned = false → (s.entry m).covering = none → (t.entry m).covering = none) ∧
    t.arb = s.arbAfterEvent t ∧
    { t with pass := s.pass, entries := s.entries, slots := s.slots, order := s.order, nextNumber := s.nextNumber,
             notice := s.notice, restart := s.restart, writeMarks := s.writeMarks, arb := s.arb } = s

/-- PASS_MATCHING, what it does to an ordinary incident that is not close-due and that no recurring incident absorbs
(R119, R135, R137, R138, R140, R148, R150, R152). With its cause present it is refreshed, and a CLEARING one recurs;
with its cause absent, PENDING is freed, OPEN enters CLEARING with its family's release soak, CLEARING stays. Its flags
are taken anew; a change makes an announced or open-due one update-due; then the predicate of an OPEN one that is
neither is tested (log entry 17). That one which recurs before it was announced takes no recurred mark is the model's
reading (log entry 36). `u` is the part before the take that may end the event (R161). -/
def Obligations.MatchingFollowsTheCauses : Prop :=
  ∀ (s : State) (causes : List Cause) (k : Fin 32) (i : Incident) (here : Bool), s.pass = some causes →
    s.incidentLaw → s.orderLaw → k ≠ 0 → s.slot k = some i → i.close = none → here = s.causePresent causes i →
    (∀ j other, s.slot j = some other → s.recurs causes j → ¬ s.absorbs j other k i) →
    ∃ u t : State, exec .passMatching s = .next t ∧ u.takesInto t ∧
      (i.phase = .waiting → here = false → s.freedOrTaken u causes k) ∧
      (i.phase ≠ .waiting ∨ here = true → ∃ i', u.slot k = some i' ∧
        i'.phase = (if here then (if i.phase = .waiting then .waiting else .opened) else .clearing) ∧
        i'.soak = (if here then (if i.phase = .clearing then none else i.soak)
          else if i.phase = .opened then some (s.msStart (match i.kind.family with
            | some .dark => duration s.par.releaseDark | some .power => duration s.par.releasePower
            | some .dim => duration s.par.releaseDim | none => 0)) else i.soak) ∧
        (here = true → ∀ c ∈ causes, s.causeCovered c = false → c.kind = i.kind → c.subject = i.subject →
          i'.afflicted = c.afflicted ∧ i'.monitored = c.monitored ∧ i'.exceptions = c.exceptions ∧
          i'.truncated = c.truncated) ∧
        (here = false → i'.afflicted = i.afflicted ∧ i'.monitored = i.monitored ∧ i'.exceptions = i.exceptions ∧
          i'.truncated = i.truncated) ∧
        i'.recurred = (i.recurred || (here && decide (i.phase = .clearing) && i.announced)) ∧
        i'.maint = s.subjectUnderMaint i ∧ i'.storm = s.storm ∧
        (i'.updateDue = true ↔ i.updateDue = true ∨ ((i.announced = true ∨ i.openDue = true) ∧
          (i'.afflicted ≠ i.afflicted ∨ i'.monitored ≠ i.monitored ∨ i'.exceptions ≠ i.exceptions ∨
            i'.truncated ≠ i.truncated ∨ i'.maint ≠ i.maint ∨ i'.storm ≠ i.storm ∨
            (i.phase = .clearing ∧ i'.phase = .opened)))) ∧
        (i'.phase = .opened → i.announced = false → i.openDue = false →
          i'.openDue = s.permitted i' ∧ i'.withheld = !s.permitted i') ∧
        (i'.phase ≠ .opened ∨ i.announced = true ∨ i.openDue = true →
          i'.openDue = i.openDue ∧ i'.withheld = i.withheld) ∧
        { i' with phase := i.phase, soak := i.soak, afflicted := i.afflicted, monitored := i.monitored,
                  exceptions := i.exceptions, truncated := i.truncated, recurred := i.recurred, maint := i.maint,
                  storm := i.storm, updateDue := i.updateDue, openDue := i.openDue, withheld := i.withheld } = i)

/-- PASS_MATCHING, what a recurring incident absorbs (R125, R140, R142, R144): an announced incident becomes close-due
with reason ABSORBED and the recurring one's number, keeping an update-due mark; another is freed, and its slot may
take a new cause of the same matching. `u` is the part before the take that may end the event (R161). -/
def Obligations.RecurrenceAbsorbs : Prop :=
  ∀ (s : State) (causes : List Cause) (k j : Fin 32) (i other : Incident), s.pass = some causes → s.incidentLaw →
    s.orderLaw → s.slot k = some i → s.recurs causes k → s.slot j = some other → s.absorbs k i j other →
    (∀ k' i', s.slot k' = some i' → s.recurs causes k' → k' ≠ k →
      ¬ s.absorbs k' i' j other ∧ ¬ s.absorbs k' i' k i) →
    ∃ u t : State, exec .passMatching s = .next t ∧ u.takesInto t ∧
      (other.announced = true → ∃ o, u.slot j = some o ∧
        o.close = some { reason := .absorbed, absorber := i.number } ∧ o.soak = none ∧
        { o with close := other.close, soak := other.soak, phase := other.phase, afflicted := other.afflicted,
                 monitored := other.monitored, exceptions := other.exceptions, truncated := other.truncated,
                 recurred := other.recurred } = other) ∧
      (other.announced = false → s.freedOrTaken u causes j)

/-- PASS_MATCHING, the placing of the new causes, where nothing recurs (R118, R122, R131, R132, R133, R135, R148): in
the order of the list each takes the lowest free ordinary slot, those freed in this matching included, as a PENDING
incident with its family's attack soak, a fresh number and the clock. The creation-order list keeps its order, loses
what was freed, and takes the new incidents and then a residue that opens. A number is the first from the counter on
that no incident holds. `u` is the part before the take that may end the event (R161). -/
def Obligations.MatchingPlacesNewCauses : Prop :=
  (∀ s : State, 1 ≤ s.nextNumber → s.nextNumber ≤ 65535 → ∃ d, d ≤ 32 ∧
    s.freshNumber = (s.nextNumber - 1 + d) % 65535 + 1 ∧ (∀ k i, s.slot k = some i → i.number ≠ s.freshNumber) ∧
    ∀ e, e < d → ∃ k i, s.slot k = some i ∧ i.number = (s.nextNumber - 1 + e) % 65535 + 1) ∧
  ∀ (s : State) (causes : List Cause) (free : List (Fin 32)) (placed : List Cause), s.pass = some causes →
    s.incidentLaw → s.orderLaw → s.numberLaw → (∀ k, ¬ s.recurs causes k) → free = s.freeAtPlacing causes →
    placed = s.placeable causes → ∃ (u t : State) (opens : Bool), exec .passMatching s = .next t ∧ u.takesInto t ∧
      (∀ n k c, free[n]? = some k → placed[n]? = some c → ∃ i, u.slot k = some i ∧
        i = { number := i.number, kind := c.kind, subject := c.subject, phase := .waiting
              soak := some (s.msStart (match c.kind.family with
                | some .dark => duration s.par.attackDark | some .power => duration s.par.attackPower
                | some .dim => duration s.par.attackDim | none => 0)), created := s.time.clock
              afflicted := c.afflicted, monitored := c.monitored, exceptions := c.exceptions
              truncated := c.truncated, unplaced := { dark := 0, power := 0, dim := 0 }
              maint := s.subjectUnderMaint i, storm := s.storm, announced := false, withheld := false
              recurred := false, openDue := false, updateDue := false, close := none } ∧
        ((∀ e, e ≤ n → ∀ j o, s.slot j = some o → o.number ≠ (s.nextNumber - 1 + e) % 65535 + 1) →
          i.number = (s.nextNumber - 1 + n) % 65535 + 1)) ∧
      (∀ n k, free[n]? = some k → placed.length ≤ n → u.slot k = none) ∧
      (opens = true ↔ s.slot 0 = none ∧ s.unplacedCauses causes ≠ []) ∧
      u.order = s.order.filter (fun k => !free.contains k && (k ≠ 0 || (u.slot 0).isSome)) ++
        free.take placed.length ++ (if opens then [0] else []) ∧
      u.settle = s.settle ∧ (u.slotsInUse ≠ s.slotsInUse → t.writeMarks.partA = true)

/-- PASS_MATCHING, the residue's recount, where nothing recurs (R123, R147, R150, R152): its counts are those of the
causes that found no place. A free slot 0 opens with counts above 0 and has its predicate tested; an open residue takes
the new counts, with an update due if one changed, or closes at counts of 0, close-due if announced and freed if not;
one that is close-due keeps its counts. That a residue which becomes open-due at this matching does not become
update-due at it is the model's reading (log entry 17). `u` is the part before the take that may end the event (R161). -/
def Obligations.ResidueCountsTheUnplaced : Prop :=
  ∀ (s : State) (causes : List Cause) (counts : Unplaced), s.pass = some causes → s.incidentLaw → s.orderLaw →
    (∀ k, ¬ s.recurs causes k) →
    counts.dark = (s.unplacedCauses causes).countP
      (fun c => c.kind = .trunkLoss ∨ c.kind = .branchDark ∨ c.kind = .terminalDark) →
    counts.power = (s.unplacedCauses causes).countP (fun c => c.kind = .mainsLoss ∨ c.kind = .terminalPower) →
    counts.dim = (s.unplacedCauses causes).countP (fun c => c.kind = .branchDim ∨ c.kind = .terminalDim) →
    ∃ u t : State, exec .passMatching s = .next t ∧ u.takesInto t ∧
      (s.slot 0 = none → counts = { dark := 0, power := 0, dim := 0 } → u.slot 0 = none) ∧
      (s.slot 0 = none → counts ≠ { dark := 0, power := 0, dim := 0 } → ∃ r, u.slot 0 = some r ∧
        r = { number := r.number, kind := .residue, subject := .nothing, phase := .opened, soak := none
              created := s.time.clock, afflicted := 0, monitored := 0, exceptions := [], truncated := false
              unplaced := counts, maint := s.inputs.maintAll, storm := s.storm, announced := false
              withheld := !s.permitted r, recurred := false, openDue := s.permitted r, updateDue := false
              close := none }) ∧
      (∀ r, s.slot 0 = some r → r.close ≠ none → u.slot 0 = some r) ∧
      (∀ r, s.slot 0 = some r → r.close = none → counts = { dark := 0, power := 0, dim := 0 } →
        (r.announced = true → u.slot 0 =
          some { r with unplaced := counts, close := some { reason := .cleared, absorber := 0 }, soak := none }) ∧
        (r.announced = false → u.slot 0 = none ∧ 0 ∉ u.order)) ∧
      (∀ r, s.slot 0 = some r → r.close = none → counts ≠ { dark := 0, power := 0, dim := 0 } →
        ∃ r', u.slot 0 = some r' ∧ r'.unplaced = counts ∧ r'.maint = s.inputs.maintAll ∧ r'.storm = s.storm ∧
          (r'.updateDue = true ↔ r.updateDue = true ∨ ((r.announced = true ∨ r.openDue = true) ∧
            (counts ≠ r.unplaced ∨ r'.maint ≠ r.maint ∨ r'.storm ≠ r.storm))) ∧
          (r.announced = false → r.openDue = false →
            r'.openDue = s.permitted r' ∧ r'.withheld = !s.permitted r') ∧
          (r.announced = true ∨ r.openDue = true → r'.openDue = r.openDue ∧ r'.withheld = r.withheld) ∧
          { r' with unplaced := r.unplaced, maint := r.maint, storm := r.storm, updateDue := r.updateDue,
                    openDue := r.openDue, withheld := r.withheld } = r)

/-- ATTACK_EXPIRY (R125, R126, R136, R146, R149, R150): the incident enters OPEN, open-due or withheld by its predicate;
a node incident absorbs what it covers, the announced ones close-due, the others freed with one dirty mark; the covering
fields follow. `u` is the table before the take that may end the event (R161). -/
def Obligations.AttackExpiryOpensTheIncident : Prop :=
  ∀ (s : State) (k : Fin 32) (i opened : Incident) (w : Window), k ≠ 0 → s.slot k = some i → i.phase = .waiting → i.close = none →
    i.soak = some w → w.due = true → s.frozen = false →
    opened = { i with phase := .opened, soak := none, openDue := i.openDue || s.permitted i,
                      withheld := !s.permitted i } →
    ∃ u t : State, exec (.attackExpiry k) s = .next t ∧ u.slot k = some opened ∧
      (∀ j other, s.slot j = some other → j ≠ k →
        (s.freesAt k opened j → u.slot j = none) ∧
        (s.absorbs k opened j other → other.announced = true → u.slot j =
          some { other with close := some { reason := .absorbed, absorber := i.number }, soak := none }) ∧
        (¬ s.absorbs k opened j other → u.slot j = some other)) ∧
      (∀ j, s.slot j = none → u.slot j = none) ∧
      u.order = s.order.filter (fun j => (s.slot j).isNone || (u.slot j).isSome) ∧
      (∀ m, { u.entry m with covering := (s.entry m).covering } = s.entry m) ∧
      (∀ m, opened.coversTerminal s.nodes (s.entry m) = false →
        (u.entry m).covering = (match (s.entry m).covering with
          | none => none
          | some j => if u.slot j = none ∧ s.slot j ≠ none then none else some j)) ∧
      (∀ m, opened.coversTerminal s.nodes (s.entry m) = true →
        (u.entry m).covering = (match (s.entry m).covering with
          | none => some k
          | some j => if (u.slot j = none ∧ s.slot j ≠ none) ∨ s.slotDepth j < opened.subjectDepth s.nodes then some k
            else some j)) ∧
      ((∀ j, ¬ s.freesAt k opened j) → u.settle = s.settle ∧ u.writeMarks = s.writeMarks) ∧
      ((∃ j, s.freesAt k opened j) → u.settle = s.settleAfterMark s.storm ∧
        u.writeMarks = { s.writeMarks with partA := true }) ∧
      { u with slots := s.slots, order := s.order, entries := s.entries, settle := s.settle,
               writeMarks := s.writeMarks } = s ∧
      u.takesInto t ∧
      t.arb = s.arbAfterEvent t

/-- RELEASE_EXPIRY (R139, R142, R146): an announced incident becomes close-due with reason CLEARED, another is freed
with one dirty mark. `u` is the table before the take that may end the event (R161). -/
def Obligations.ReleaseExpiryCloses : Prop :=
  ∀ (s : State) (k : Fin 32) (i : Incident) (w : Window), k ≠ 0 → s.slot k = some i → i.phase = .clearing → i.close = none →
    i.soak = some w → w.due = true → s.frozen = false → ∃ u t : State, exec (.releaseExpiry k) s = .next t ∧
      (i.announced = true →
        u = { s with slots := s.slots.set k
                       (some { i with close := some { reason := .cleared, absorber := 0 }, soak := none }) }) ∧
      (i.announced = false → u.slot k = none ∧ (∀ j, j ≠ k → u.slot j = s.slot j) ∧
        u.order = s.order.filter (· ≠ k) ∧
        (∀ m, u.entry m = if (s.entry m).covering = some k then { s.entry m with covering := none } else s.entry m) ∧
        u.settle = s.settleAfterMark s.storm ∧ u.writeMarks = { s.writeMarks with partA := true } ∧
        { u with slots := s.slots, order := s.order, entries := s.entries, settle := s.settle,
                 writeMarks := s.writeMarks } = s) ∧
      u.takesInto t ∧
      t.arb = s.arbAfterEvent t

/-! ## Mailbox commands -/

/-- EXTEND (R174) and SETTIME (R86), taken in every part state: EXTEND leaves its argument in the latch; SETTIME sets
the clock from the latched value, or 0, and its argument, and keeps the rest of the chain. -/
def Obligations.ExtendAndSettimeComplete : Prop :=
  ∀ (tag : Byte) (arg : Half) (burst : Bool) (s : State), s.takesCommands = true → Memory.wf s.mem = true →
    (∃ t, exec (.extendCmd tag arg burst) s = .next t ∧ s.commandDone t (s.mailboxBeat 1 tag arg burst) tag .done 0 ∧
      t.latch = some arg ∧
      { t with mem := s.mem, arb := s.arb, status := s.status, writeMarks := s.writeMarks, latch := s.latch } = s) ∧
    (∃ t, exec (.settimeCmd tag arg burst) s = .next t ∧
      s.commandDone t (s.mailboxBeat 5 tag arg burst) tag .done 0 ∧ t.latch = none ∧
      t.time = { s.time with clock := s.latch.getD 0 ++ arg } ∧
      { t with mem := s.mem, arb := s.arb, status := s.status, writeMarks := s.writeMarks, latch := s.latch,
               time := s.time } = s)

/-- EDIT in UNCONFIGURED or RUNNING (R90, R173, R175): the origin and the tag are recorded and the edit limit of 10,000
millisecond carries starts; the settle window and the soaks are frozen, and a last carry that they have not taken is
not counted. COMMIT in EDIT (R168, R173, R178): the check pass begins with nothing read and no disturbance, and a
census that is being written is cut with its outcome CUT; the COMMIT itself records no outcome. ABANDON in EDIT, and in
a check pass (R173, R177): the part returns to the edit origin, the edit limit ends and the load is gone; the detail is
1 if it stopped a check pass, whose outcome ABANDONED the ABANDON's own DONE replaces in the same event. -/
def Obligations.EditCommitAndAbandonComplete : Prop :=
  ∀ (tag : Byte) (arg : Half) (burst : Bool) (s : State), s.takesCommands = true → Memory.wf s.mem = true →
    (s.part = .unconfigured ∨ s.part = .running →
      ∃ t, exec (.editCmd tag arg burst) s = .next t ∧ s.commandDone t (s.mailboxBeat 2 tag arg burst) tag .done 0 ∧
        t.latch = none ∧ t.part = .edit ∧ t.origin = some s.part ∧ t.editTag = tag ∧
        t.editLimit = some (s.msStart 10000) ∧
        t.settle = s.settle.map (fun w => { w with due := false }) ∧
        (∀ k, t.slot k = (s.slot k).map (fun i => { i with soak := i.soak.map (fun w => { w with due := false }) })) ∧
        { t with mem := s.mem, arb := s.arb, status := s.status, writeMarks := s.writeMarks, latch := s.latch,
                 part := s.part, origin := s.origin, editTag := s.editTag, editLimit := s.editLimit,
                 settle := s.settle, slots := s.slots } = s) ∧
    (s.part = .edit → ∃ t cuts, exec (.commitCmd tag arg burst) s = .next t ∧
      s.beatDone t (s.mailboxBeat 3 tag arg burst) (mailboxWord 3 tag arg) ∧ t.latch = none ∧ t.part = .loading ∧
      t.load = some { tag, applying := false, staged := [], applied := 0, clamps := 0, disturbances := 0 } ∧
      t.census = s.census.map (fun c => { c with cut := true }) ∧
      (cuts = true ↔ ∃ c, s.census = some c ∧ c.cut = false) ∧
      (cuts = false → t.status = s.status ∧ t.writeMarks = s.marksAfter t) ∧
      (∀ c, cuts = true → s.census = some c → t.status = { tag := c.tag, outcome := .cut, detail := 0 } ∧
        t.writeMarks = { s.marksAfter t with status := true }) ∧
      { t with mem := s.mem, arb := s.arb, status := s.status, writeMarks := s.writeMarks, latch := s.latch,
               part := s.part, load := s.load, census := s.census } = s) ∧
    (s.loadLaw → s.part = .edit ∨ (s.part = .loading ∧ s.applyPass = false) →
      ∃ t, exec (.abandonCmd tag arg burst) s = .next t ∧
        s.commandDone t (s.mailboxBeat 4 tag arg burst) tag .done (if s.part = .loading then 1 else 0) ∧
        t.latch = none ∧ s.origin = some t.part ∧ t.origin = none ∧ t.editLimit = none ∧ t.load = none ∧
        { t with mem := s.mem, arb := s.arb, status := s.status, writeMarks := s.writeMarks, latch := s.latch,
                 part := s.part, origin := s.origin, editLimit := s.editLimit, load := s.load } = s)

/-- FORGET in RUNNING and EDIT (R39, R173): for a provisioned terminal the entry comes to rest with its provisioning,
parents and covering field kept, the counts follow, one dirty mark is made even if it was UNHEARD, and the gauge is not
touched; any other argument is refused with BAD_ARGUMENT. MAINT in RUNNING and EDIT (R74, R75, R173): the marks of the
enabled nodes that the mask names in the block take the polarity, the detail is the number changed, and one dirty mark
is made if it is above 0. -/
def Obligations.ForgetAndMaintComplete : Prop :=
  ∀ (tag : Byte) (arg : Half) (burst : Bool) (s : State), s.takesCommands = true → Memory.wf s.mem = true →
    s.part = .running ∨ s.part = .edit →
    (∀ (k : Fin 512) (e : Entry), k.val = arg.toNat → e = s.entry k → e.provisioned = true →
      ∃ t new, exec (.forgetCmd tag arg burst) s = .next t ∧
        s.commandDone t (s.mailboxBeat 6 tag arg burst) tag .done 0 ∧ t.latch = none ∧
        new = { e with link := .unheard, filter := none, dim := false, silence := 0, missRun := 0,
                       lastRound := none } ∧
        t.entries = s.entries.set k new ∧
        t.nodes = (if s.applyPass then s.nodes else adjustNodes e new s.nodes) ∧
        t.settle = s.settleAfterMark s.storm ∧
        { t with mem := s.mem, arb := s.arb, status := s.status, writeMarks := s.writeMarks, latch := s.latch,
                 entries := s.entries, nodes := s.nodes, settle := s.settle } = s) ∧
    ((∀ k : Fin 512, k.val = arg.toNat → (s.entry k).provisioned = false) →
      s.refuses (.forgetCmd tag arg burst) (s.mailboxBeat 6 tag arg burst) tag .badArgument) ∧
    ∃ t block polarity changed, exec (.maintCmd tag arg burst) s = .next t ∧
        s.commandDone t (s.mailboxBeat 7 tag arg burst) tag .done changed ∧ t.latch = none ∧
        (s.latch = none → block = 0 ∧ polarity = true) ∧
        (∀ v, s.latch = some v → block = v.toNat % 8 ∧ polarity = v.getLsbD 15) ∧
        (∀ n : Fin 128, t.nodes[n] = if n.val / 16 = block ∧ arg.getLsbD (n.val % 16) = true ∧ s.nodes[n].enabled = true
          then { s.nodes[n] with maint := polarity } else s.nodes[n]) ∧
        changed = (indices 128).countP (fun n => decide (t.nodes[n].maint ≠ s.nodes[n].maint)) ∧
        t.settle = (if changed = 0 then s.settle else s.settleAfterMark s.storm) ∧
        { t with mem := s.mem, arb := s.arb, status := s.status, writeMarks := s.writeMarks, latch := s.latch,
                 nodes := s.nodes, settle := s.settle } = s

/-- CENSUS in RUNNING, and in EDIT entered from RUNNING, while none is written (R166, R173): the census writer starts at
the census base in use, and no outcome is recorded at the take. While one is written it is refused with BUSY. -/
def Obligations.CensusStarts : Prop :=
  ∀ (tag : Byte) (arg : Half) (burst : Bool) (s : State), s.takesCommands = true → Memory.wf s.mem = true →
    s.part = .running ∨ (s.part = .edit ∧ s.origin = some .running) →
    (∀ base, s.census = none → s.censusBase = some base → ∃ t, exec (.censusCmd tag arg burst) s = .next t ∧
      s.beatDone t (s.mailboxBeat 8 tag arg burst) (mailboxWord 8 tag arg) ∧ t.latch = none ∧
      t.census = some { base, tag, written := 0, cut := false } ∧ t.writeMarks = { s.writeMarks with partA := true } ∧
      { t with mem := s.mem, arb := s.arb, writeMarks := s.writeMarks, latch := s.latch, census := s.census } = s) ∧
    (s.census ≠ none → s.refuses (.censusCmd tag arg burst) (s.mailboxBeat 8 tag arg burst) tag .busy)

/-- RESET in every part state (R21, R46, R79, R93, R99, R106, R155, R165, R168, R184): what the part keeps is named in
the last clause; a census being written is cut; the RESTART is due with SOFT_RESET unless HARD_RESET or RING_MOVED
stands, and the event ends with a take (R161) from `u`. That a tap carry which has been given stays given, and that the
patience window and a header write that is due are kept, is the model's reading (log entry 20). A carry whose cycle
stands when the chain is cleared does not come, so the patience window counts the next one (R93). -/
def Obligations.ResetCommandCompletes : Prop :=
  ∀ (tag : Byte) (arg : Half) (burst : Bool) (s : State), s.takesCommands = true → Memory.wf s.mem = true →
    ∃ u t : State, exec (.resetCmd tag arg burst) s = .next t ∧
      State.commandDone { s with arb := { s.arb with window := s.arb.window.map windowPassed } } t
        (s.mailboxBeat 9 tag arg burst) tag .done 0 ∧
      u.part = (match s.part with
        | .unconfigured => .unconfigured
        | .running => .running
        | .edit => if s.origin = some .running then .running else .unconfigured
        | .loading => .unconfigured) ∧
      u.configured = (s.configured && decide (s.part ≠ .loading)) ∧
      u.origin = none ∧ u.editLimit = none ∧ u.load = none ∧ u.latch = none ∧ u.marks = [] ∧
      u.malformed = 0 ∧ u.unknown = 0 ∧ u.disturbed = 0 ∧ u.trunk = false ∧ u.gauge = 0 ∧ u.storm = false ∧
      u.settle = none ∧ u.passRequest = false ∧ u.pass = none ∧ (∀ k, u.slot k = none) ∧ u.order = [] ∧
      (∀ k, u.entry k = { s.entry k with link := .unheard, filter := none, dim := false, silence := 0, missRun := 0,
                                         lastRound := none, covering := none }) ∧
      (∀ n : Fin 128, u.nodes[n] = { s.nodes[n] with monitored := 0, dark := 0, dim := 0, spent := 0, maint := false,
                                                     struckDark := false, struckDim := false, struckPower := false }) ∧
      u.time = { s.time with prescaler := 0, divider := 0, counter := 0 } ∧
      u.census = s.census.map (fun c => { c with cut := true }) ∧
      u.notice = s.notice.map (fun n => { n with frees := none }) ∧
      u.restart = some (if s.restart = some .hardReset then .hardReset
        else if s.restart = some .ringMoved then .ringMoved else .softReset) ∧
      { t with mem := u.mem, arb := u.arb, status := u.status, writeMarks := u.writeMarks } = takeNotice u ∧
      { u with part := s.part, configured := s.configured, origin := s.origin, editLimit := s.editLimit,
               load := s.load, latch := s.latch, marks := s.marks, malformed := s.malformed, unknown := s.unknown,
               disturbed := s.disturbed, trunk := s.trunk, gauge := s.gauge, storm := s.storm, settle := s.settle,
               passRequest := s.passRequest, pass := s.pass, slots := s.slots, order := s.order,
               entries := s.entries, nodes := s.nodes, time := s.time, census := s.census, notice := s.notice,
               restart := s.restart, mem := s.mem, arb := s.arb, status := s.status, writeMarks := s.writeMarks } = s

/-- The refusals by part state (R173): WRONG_STATE where the state does not take the command, BUSY in LOADING. And
BAD_OPCODE (R171): a partial mailbox write, with the tag of its byte if that byte is enabled and 0 otherwise, and a
full one whose code names no command, with its tag. That WRONG_STATE and not BUSY is recorded for a CENSUS in an EDIT
from UNCONFIGURED while a cut census waits is the model's reading (log entry 16), and so is BAD_OPCODE with tag 0 for a
mailbox beat with no byte enable (log entry 8). -/
def Obligations.CommandsAreRefused : Prop :=
  ∀ (tag : Byte) (arg : Half) (burst : Bool) (s : State), s.takesCommands = true → Memory.wf s.mem = true → s.loadLaw →
    (∀ b : Beat, b.read = false → wordAddr b.addr.toNat = s.setupBase →
      (b.be ≠ 15 ∨ b.data.toNat / 16777216 = 0 ∨ 10 ≤ b.data.toNat / 16777216) →
      s.refuses (.badOpcode b) b (if b.be.getLsbD 2 then BitVec.ofNat 8 (b.data.toNat / 65536 % 256) else 0)
        .badOpcode) ∧
    (s.part = .edit → s.refuses (.editCmd tag arg burst) (s.mailboxBeat 2 tag arg burst) tag .wrongState) ∧
    (s.part = .unconfigured ∨ s.part = .running →
      s.refuses (.commitCmd tag arg burst) (s.mailboxBeat 3 tag arg burst) tag .wrongState ∧
      s.refuses (.abandonCmd tag arg burst) (s.mailboxBeat 4 tag arg burst) tag .wrongState) ∧
    (s.part = .unconfigured →
      s.refuses (.forgetCmd tag arg burst) (s.mailboxBeat 6 tag arg burst) tag .wrongState ∧
      s.refuses (.maintCmd tag arg burst) (s.mailboxBeat 7 tag arg burst) tag .wrongState) ∧
    (s.part = .unconfigured ∨ (s.part = .edit ∧ s.origin = some .unconfigured) →
      s.refuses (.censusCmd tag arg burst) (s.mailboxBeat 8 tag arg burst) tag .wrongState) ∧
    (s.part = .loading →
      s.refuses (.editCmd tag arg burst) (s.mailboxBeat 2 tag arg burst) tag .busy ∧
      s.refuses (.commitCmd tag arg burst) (s.mailboxBeat 3 tag arg burst) tag .busy ∧
      s.refuses (.forgetCmd tag arg burst) (s.mailboxBeat 6 tag arg burst) tag .busy ∧
      s.refuses (.maintCmd tag arg burst) (s.mailboxBeat 7 tag arg burst) tag .busy ∧
      s.refuses (.censusCmd tag arg burst) (s.mailboxBeat 8 tag arg burst) tag .busy ∧
      (s.applyPass = true → s.refuses (.abandonCmd tag arg burst) (s.mailboxBeat 4 tag arg burst) tag .busy))

/-! ## The load -/

/-- The settings as the staged words give them (12.4), as applied (R60, R180), and the clamp count (R180): each setting
that a clamp changes counts once. Durations by code (R87) and the periods of the silence taps by code (R30). Bits of a
word that its row of 12.4 does not name do not count, which is the model's reading (log entry 18). -/
def Obligations.SettingsAreReadAndClamped : Prop :=
  (∀ (l : Load) (r : Settings) (w : Nat → Nat) (signed : Nat → Int), r = l.readSettings →
    (∀ k, w k = ((l.staged[k - 4]?).getD 0).toNat) → (∀ n, signed n = if n < 32768 then (n : Int) else n - 65536) →
    r.dimSet = signed (w 9 / 65536) ∧ r.dimClear = signed (w 9 % 65536) ∧ r.filterShift = w 10 / 16777216 ∧
    r.silenceTap = w 10 / 65536 % 256 ∧ r.silenceLimit = w 10 / 256 % 256 ∧ r.missLimit = w 10 % 256 ∧
    r.qDark = w 11 / 16777216 ∧ r.qDim = w 11 / 65536 % 256 ∧ r.qPower = w 11 / 256 % 256 ∧ r.qMains = w 11 % 256 ∧
    r.minAffected = w 12 / 134217728 ∧ r.stormLeak = w 12 / 4194304 % 32 ∧ r.stormEnter = w 12 / 2048 % 2048 ∧
    r.stormExit = w 12 % 2048 ∧ r.settleCalm = w 13 / 268435456 ∧ r.settleStorm = w 13 / 16777216 % 16 ∧
    r.attackDark = w 13 / 1048576 % 16 ∧ r.releaseDark = w 13 / 65536 % 16 ∧ r.attackPower = w 13 / 4096 % 16 ∧
    r.releasePower = w 13 / 256 % 16 ∧ r.attackDim = w 13 / 16 % 16 ∧ r.releaseDim = w 13 % 16 ∧
    r.predicates.toNat = w 14 ∧
    l.intake.base = w 4 % 16777216 / 16 * 16 ∧ l.notices.base = w 6 % 16777216 / 32 * 32 ∧
    l.census = w 8 % 16777216 / 4 * 4 ∧
    (∃ e, 4 ≤ e ∧ e ≤ 12 ∧ l.intake.count = 2 ^ e ∧ (16 ≤ w 5 % 65536 → 2 ^ e ≤ w 5 % 65536) ∧
      (e ≠ 12 → w 5 % 65536 < 2 ^ (e + 1)) ∧ (w 5 % 65536 < 16 → e = 4)) ∧
    (∃ e, 3 ≤ e ∧ e ≤ 10 ∧ l.notices.count = 2 ^ e ∧ (8 ≤ w 7 % 65536 → 2 ^ e ≤ w 7 % 65536) ∧
      (e ≠ 10 → w 7 % 65536 < 2 ^ (e + 1)) ∧ (w 7 % 65536 < 8 → e = 3)) ∧
    l.clampCount = [l.intake.base != w 4 % 16777216, l.intake.count != w 5 % 65536,
      l.notices.base != w 6 % 16777216, l.notices.count != w 7 % 65536, l.census != w 8 % 16777216].count true +
      r.clampCount) ∧
  (∀ r a : Settings, a = r.applied →
    a.filterShift = min 4 r.filterShift ∧ a.dimSet = max (-500) (min 99 r.dimSet) ∧
    a.dimClear = max (a.dimSet + 1) (min 100 r.dimClear) ∧
    a.silenceTap = min 3 r.silenceTap ∧ a.silenceLimit = max 2 (min 7 r.silenceLimit) ∧
    a.missLimit = min 15 r.missLimit ∧ a.stormLeak = min 15 r.stormLeak ∧ a.qDark = max 1 (min 16 r.qDark) ∧
    a.qDim = max 1 (min 16 r.qDim) ∧ a.qPower = max 1 (min 16 r.qPower) ∧ a.qMains = max 1 (min 16 r.qMains) ∧
    a.minAffected = max 1 (min 16 r.minAffected) ∧ a.stormEnter = max 1 (min 1023 r.stormEnter) ∧
    a.stormExit = (if a.stormEnter ≤ r.stormExit then a.stormEnter - 1 else r.stormExit) ∧
    { a with filterShift := r.filterShift, dimSet := r.dimSet, dimClear := r.dimClear, silenceTap := r.silenceTap,
             silenceLimit := r.silenceLimit, missLimit := r.missLimit, stormLeak := r.stormLeak, qDark := r.qDark,
             qDim := r.qDim, qPower := r.qPower, qMains := r.qMains, minAffected := r.minAffected,
             stormEnter := r.stormEnter, stormExit := r.stormExit } = r ∧
    r.clampCount = [a.filterShift != r.filterShift, a.dimSet != r.dimSet, a.dimClear != r.dimClear,
      a.silenceTap != r.silenceTap, a.silenceLimit != r.silenceLimit, a.missLimit != r.missLimit, a.qDark != r.qDark,
      a.qDim != r.qDim, a.qPower != r.qPower, a.qMains != r.qMains, a.minAffected != r.minAffected,
      a.stormLeak != r.stormLeak, a.stormEnter != r.stormEnter, a.stormExit != r.stormExit].count true) ∧
  (List.range 16).map duration =
    [1, 10, 25, 50, 100, 200, 400, 750, 1000, 1500, 2000, 3000, 5000, 10000, 20000, 60000] ∧
  (List.range 4).map tapPeriod = [4, 16, 64, 256]

/-- The structural checks of a staged setup, in their order, and the offset that the first failure gives (R179): the
regions as clamped, within the space and apart from the Setup Block, each other and the notice ring in use; then node by
node its parent and its way to a root. That the way follows the staged parents whether or not they are enabled is the
model's reading (log entry 19). -/
def Obligations.StructuralChecks : Prop :=
  ∀ (s : State) (l : Load), ∃ (intakeOk noticesOk censusOk : Prop) (nodeOk : Fin 128 → Prop) (tree : Fin 128 → Tree)
      (parent : Fin 128 → Fin 128),
    (intakeOk ↔ l.intake.base + 16 * l.intake.count ≤ 16777216 ∧
      apart l.intake.base (16 * l.intake.count) s.setupBase 2624 ∧
      ∀ r, s.noticeRing = some r → apart l.intake.base (16 * l.intake.count) r.base (32 * (r.count + 1))) ∧
    (noticesOk ↔ l.notices.base + 32 * (l.notices.count + 1) ≤ 16777216 ∧
      apart l.notices.base (32 * (l.notices.count + 1)) s.setupBase 2624 ∧
      apart l.notices.base (32 * (l.notices.count + 1)) l.intake.base (16 * l.intake.count)) ∧
    (censusOk ↔ l.census + 2568 ≤ 16777216 ∧ apart l.census 2568 s.setupBase 2624 ∧
      apart l.census 2568 l.intake.base (16 * l.intake.count) ∧
      apart l.census 2568 l.notices.base (32 * (l.notices.count + 1)) ∧
      ∀ r, s.noticeRing = some r → apart l.census 2568 r.base (32 * (r.count + 1))) ∧
    (∀ n, tree n = if n = 0 then .fibre else if n = 1 then .power
      else if (l.nodeWord n).getLsbD 30 then .power else .fibre) ∧
    (∀ n, (parent n).val = (l.nodeWord n).toNat / 256 % 128) ∧
    (∀ n, nodeOk n ↔ ((l.nodeWord n).getLsbD 31 = true →
      (parent n = 0 ∨ parent n = 1 ∨ (l.nodeWord (parent n)).getLsbD 31 = true) ∧ parent n ≠ n ∧
      tree (parent n) = tree n ∧ ∃ m, m ≤ 7 ∧ (parent^[m] n = 0 ∨ parent^[m] n = 1))) ∧
    (¬ intakeOk → s.setupFault l = some 4) ∧ (intakeOk → ¬ noticesOk → s.setupFault l = some 6) ∧
    (intakeOk → noticesOk → ¬ censusOk → s.setupFault l = some 8) ∧
    (intakeOk → noticesOk → censusOk →
      ((∀ n : Fin 128, 2 ≤ n.val → nodeOk n) → s.setupFault l = none) ∧
      ∀ n : Fin 128, 2 ≤ n.val → ¬ nodeOk n → (∀ m : Fin 128, 2 ≤ m.val → m < n → nodeOk m) →
        s.setupFault l = some (528 + n.val))

/-- LOADER_CHECK_READ (R178 to R181, R41, R71, R98, R190): before the last node word the word read is staged and
nothing else but the arbiter changes. The last one ends the check pass: BAD_SETUP back in EDIT with nothing applied; or
the apply pass, with the settings as clamped, the silence counters below the new limit, the STORM test against the new
thresholds and the staged node words in place. That the dirty mark of that test starts its window with the newly
applied code is the model's reading of R101 (log entry 25), and so is what becomes of a carry of the old silence tap
that the Terminal Table has not taken: it stands if it is a carry of the new tap too (log entry 35). The forms with a
beat held with WAIT and with a slow memory are those of `GrantsServeTheHeadRequest` and `SlowMemoryHoldsTheAccess`. -/
def Obligations.CheckReadsStageAndEndTheCheckPass : Prop :=
  ∀ (s : State) (l full : Load) (word : Nat), s.load = some l → l.applying = false → s.grants .loader = true →
    s.arb.held = none → s.arb.ready = true →
    word = (if l.staged.length < 11 then 4 + l.staged.length else 528 + (l.staged.length - 11)) →
    full = { l with staged := l.staged ++ [readWord s.mem (s.setupAddr word)] } →
    (l.staged.length < 138 → ∃ t, exec .loaderCheckRead s = .next t ∧ t.load = some full ∧ t.arb = s.arbAfterGrant ∧
      { t with load := s.load, arb := s.arb } = s) ∧
    (∀ offset, l.staged.length = 138 → s.setupFault full = some offset → ∃ t, exec .loaderCheckRead s = .next t ∧
      t.part = .edit ∧ t.load = none ∧ t.status = { tag := l.tag, outcome := .badSetup, detail := offset } ∧
      t.writeMarks = { s.marksAfter t with status := true } ∧ t.arb = s.arbAfterGrant ∧
      { t with part := s.part, load := s.load, status := s.status, writeMarks := s.writeMarks, arb := s.arb } = s) ∧
    (l.staged.length = 138 → s.setupFault full = none → ∃ t p, exec .loaderCheckRead s = .next t ∧
      p = full.readSettings.applied ∧ t.settings = some p ∧
      t.load = some { full with applying := true, clamps := full.clampCount } ∧
      (∀ k, t.entry k = if p.silenceLimit ≤ (s.entry k).silence then
        { s.entry k with silence := p.silenceLimit - 1 } else s.entry k) ∧
      (∀ n : Fin 128, t.nodes[n].tag = (full.nodeWord n).setWidth 8 ∧
        (n.val < 2 → { t.nodes[n] with tag := s.nodes[n].tag, depth := s.nodes[n].depth } = s.nodes[n]) ∧
        (2 ≤ n.val → t.nodes[n].enabled = (full.nodeWord n).getLsbD 31 ∧
          t.nodes[n].tree = (if (full.nodeWord n).getLsbD 30 then .power else .fibre) ∧
          t.nodes[n].parent = some (Fin.ofNat 128 ((full.nodeWord n).toNat / 256 % 128)) ∧
          { t.nodes[n] with enabled := s.nodes[n].enabled, tree := s.nodes[n].tree, parent := s.nodes[n].parent,
                            tag := s.nodes[n].tag, depth := s.nodes[n].depth } = s.nodes[n]) ∧
        t.nodes[n].depth = (chain t.nodes n).length - 1) ∧
      t.storm = (if p.stormEnter ≤ s.gauge then true else if s.gauge ≤ p.stormExit then false else s.storm) ∧
      (t.storm = s.storm → t.settle = s.settle) ∧
      (t.storm ≠ s.storm → t.settle = (match s.settle with
        | some w => some w
        | none => if s.setupInUse then
            some (s.msStart (duration (if t.storm then p.settleStorm else p.settleCalm))) else none)) ∧
      t.time = { s.time with
        silenceDue := s.time.silenceDue && decide (s.time.counter % tapPeriod p.silenceTap = 0) } ∧
      t.writeMarks = s.marksAfter t ∧ t.arb = s.arbAfterGrant ∧
      { t with settings := s.settings, load := s.load, entries := s.entries, nodes := s.nodes, storm := s.storm,
               settle := s.settle, time := s.time, writeMarks := s.writeMarks, arb := s.arb } = s)

/-- TERMINAL_WORD_APPLY (R42, R64, R181): the next terminal's word is applied; a word that names an invalid parent is
applied as not provisioned and counted as clamped. No count is adjusted and no dirty mark is made. -/
def Obligations.TerminalWordIsApplied : Prop :=
  ∀ (s : State) (l : Load) (k : Fin 512) (w : Word), s.load = some l → l.applying = true → k.val = l.applied →
    s.grants .loader = true → s.arb.held = none → s.arb.ready = true →
    w = readWord s.mem (s.setupAddr (16 + k.val)) →
    ∃ t e wanted valid, exec .terminalWordApply s = .next t ∧ e = s.entry k ∧ wanted = w.getLsbD 31 ∧
      (∀ f p, f = s.nodes[Fin.ofNat 128 (w.toNat / 256 % 128)] → p = s.nodes[Fin.ofNat 128 (w.toNat % 128)] →
        (valid = true ↔ f.enabled = true ∧ f.tree = .fibre ∧ p.enabled = true ∧ p.tree = .power)) ∧
      t.load = some { l with applied := l.applied + 1, clamps := l.clamps + (if wanted && !valid then 1 else 0) } ∧
      (∀ j, j ≠ k → t.entry j = s.entry j) ∧
      (t.entry k).provisioned = (wanted && valid) ∧
      (t.entry k).fibreParent = Fin.ofNat 128 (w.toNat / 256 % 128) ∧
      (t.entry k).powerParent = Fin.ofNat 128 (w.toNat % 128) ∧
      ((wanted && valid && e.provisioned) = true →
        { t.entry k with fibreParent := e.fibreParent, powerParent := e.powerParent } = e) ∧
      ((wanted && valid && e.provisioned) = false → (t.entry k).link = .unheard ∧ (t.entry k).filter = none ∧
        (t.entry k).dim = false ∧ (t.entry k).silence = 0 ∧ (t.entry k).missRun = 0 ∧
        (t.entry k).lastRound = none ∧ (t.entry k).covering = none) ∧
      t.arb = s.arbAfterGrant ∧ { t with load := s.load, entries := s.entries, arb := s.arb } = s

/-- COMMIT_COMPLETION (R19, R68, R72, R145, R164, R183): the counts are rebuilt and the disabled nodes cleared, the
incidents whose subject is gone, by the table of R145, are closed or freed, the staged regions are taken into use, a
pass is requested, the part is RUNNING and the outcome is recorded. `u` is the part before the take that may end the
event (R161). That a ring which an earlier completion left waiting is dropped, or gives way to the one applied, is the
model's reading (log entry 10). -/
def Obligations.CommitCompletionTakesTheSetupIntoUse : Prop :=
  ∀ (s : State) (l : Load), s.load = some l → l.applying = true → 512 ≤ l.applied →
    ∃ (u t : State) (gone : Incident → Prop), exec .commitCompletion s = .next t ∧
      (∀ i, gone i ↔
        (∃ n, i.subject = .node n ∧ (s.nodes[n].enabled = false ∨ ∀ f, i.kind.family = some f →
          s.nodes[n].tree = (match f with | .power => .fibre | .dark => .power | .dim => .power))) ∨
        ∃ m, i.subject = .terminal m ∧ (s.entry m).provisioned = false) ∧
      (∀ n : Fin 128, u.nodes[n] =
        if s.nodes[n].enabled then recountNode s.nodes s.entries n s.nodes[n]
        else { recountNode s.nodes s.entries n s.nodes[n] with
          maint := false, struckDark := false, struckDim := false, struckPower := false }) ∧
      (∀ k i, s.slot k = some i →
        (k = 0 ∨ i.close ≠ none ∨ ¬ gone i → u.slot k = some i) ∧
        (k ≠ 0 → i.close = none → gone i →
          (i.announced = false → u.slot k = none) ∧
          (i.announced = true → u.slot k =
            some { i with close := some { reason := .reconfigured, absorber := 0 }, soak := none }))) ∧
      (∀ k, s.slot k = none → u.slot k = none) ∧
      u.intakeRing = some l.intake ∧ u.censusBase = some l.census ∧
      (s.intakeRing = some l.intake → u.marks = s.marks) ∧ (s.intakeRing ≠ some l.intake → u.marks = []) ∧
      (s.noticeRing = some l.notices → u.noticeRing = s.noticeRing ∧ u.producer = s.producer ∧
        u.consumer = s.consumer ∧ u.ringFault = s.ringFault ∧ u.restart = s.restart ∧ u.headerDue = s.headerDue ∧
        u.ringWaiting = none) ∧
      (s.noticeRing ≠ some l.notices → s.notice = none → u.noticeRing = some l.notices ∧ u.producer = 0 ∧
        u.consumer = 0 ∧ u.ringFault = false ∧ u.headerDue = true ∧ u.ringWaiting = none ∧
        u.restart = some (if s.noticeRing = none then .hardReset else .ringMoved)) ∧
      (s.noticeRing ≠ some l.notices → s.notice ≠ none → u.noticeRing = s.noticeRing ∧ u.producer = s.producer ∧
        u.consumer = s.consumer ∧ u.ringFault = s.ringFault ∧ u.headerDue = s.headerDue ∧ u.restart = s.restart ∧
        u.ringWaiting = some l.notices) ∧
      u.settle = none ∧ u.passRequest = true ∧ u.editLimit = none ∧ u.load = none ∧ u.configured = true ∧
      u.part = .running ∧ u.origin = none ∧ u.clamped = min 255 l.clamps ∧
      u.disturbed = (if 0 < l.disturbances then min 255 (s.disturbed + 1) else s.disturbed) ∧
      u.status = { tag := l.tag,
                   outcome := if 0 < l.disturbances then .disturbed else if 0 < l.clamps then .clamped else .done,
                   detail := if 0 < l.disturbances then l.disturbances else l.clamps } ∧
      u.writeMarks.status = true ∧
      u.order = s.order.filter (fun j => (s.slot j).isNone || (u.slot j).isSome) ∧
      (∀ m, u.entry m = { s.entry m with covering := match (s.entry m).covering with
        | none => none
        | some j => if s.slot j ≠ none ∧ u.slot j = none then none else some j }) ∧
      { u with nodes := s.nodes, slots := s.slots, order := s.order, entries := s.entries, intakeRing := s.intakeRing,
               censusBase := s.censusBase, marks := s.marks, noticeRing := s.noticeRing, producer := s.producer,
               consumer := s.consumer, ringFault := s.ringFault, restart := s.restart, headerDue := s.headerDue,
               ringWaiting := s.ringWaiting, settle := s.settle, passRequest := s.passRequest,
               editLimit := s.editLimit, load := s.load, configured := s.configured, part := s.part,
               origin := s.origin, clamped := s.clamped, disturbed := s.disturbed, status := s.status,
               writeMarks := s.writeMarks } = s ∧
      u.takesInto t ∧ t.arb = s.arbAfterEvent t

/-- EDIT_LIMIT_EXPIRY (R176): EXPIRED in EDIT with the EDIT's tag and detail 0, in a check pass with the COMMIT's tag
and detail 1, the part back at the edit origin both times; no effect in an apply pass but that the window is spent. -/
def Obligations.EditLimitExpiryEndsTheEdit : Prop :=
  ∀ (s : State) (w : Window), s.editLimit = some w → w.due = true → s.part = .edit ∨ s.part = .loading → s.loadLaw →
    ∃ t, exec .editLimitExpiry s = .next t ∧ t.arb = s.arbAfterEvent t ∧ t.editLimit = none ∧
      (s.applyPass = false → s.origin = some t.part ∧ t.origin = none ∧ t.load = none ∧
        (s.load = none → t.status = { tag := s.editTag, outcome := .expired, detail := 0 }) ∧
        (∀ l, s.load = some l → t.status = { tag := l.tag, outcome := .expired, detail := 1 }) ∧
        t.writeMarks = { s.marksAfter t with status := true } ∧
        { t with part := s.part, origin := s.origin, load := s.load, editLimit := s.editLimit, status := s.status,
                 writeMarks := s.writeMarks, arb := s.arb } = s) ∧
      (s.applyPass = true → { t with editLimit := s.editLimit, arb := s.arb } = s)

/-! ## The memory side -/

/-- The head internal request, by the table of R190: the loader while a pass has reads left, the Notice Writer while a
notice is in progress or a header write is due, the owned-word writer while a mark is set, the census writer while a
census is written or cut. The memory side goes to the head internal request and to no other (R190): a row of an
internal access that is not the head request's, or that comes while an access holds the memory side or inside a burst,
does nothing (log entry 4). A passing beat held with WAIT takes the memory side at the end of the one internal access
granted (R191): the grant with the beat held is the grant without it, followed by the beat. -/
def Obligations.GrantsServeTheHeadRequest : Prop :=
  (∀ s : State, ∃ loader notices owned census : Prop,
    (loader ↔ ∃ l, s.load = some l ∧
      ((l.applying = false ∧ l.staged.length < 139) ∨ (l.applying = true ∧ l.applied < 512))) ∧
    (notices ↔ s.notice ≠ none ∨ s.headerDue = true) ∧
    (owned ↔ s.writeMarks.status = true ∨ s.writeMarks.partA = true ∨ s.writeMarks.partB = true) ∧
    (census ↔ s.census ≠ none) ∧
    (loader → s.head = some .loader) ∧ (¬ loader → notices → s.head = some .noticeWriter) ∧
    (¬ loader → ¬ notices → owned → s.head = some .ownedWords) ∧
    (¬ loader → ¬ notices → ¬ owned → census → s.head = some .census) ∧
    (¬ loader → ¬ notices → ¬ owned → ¬ census → s.head = none)) ∧
  (∀ (c : Instr) (s : State), c ∈ [Instr.loaderCheckRead, .terminalWordApply, .noticeWordWrite, .producerWrite,
      .ringHeaderInitWrite, .ownedWordWriterGrant, .censusWordWrite, .censusDoneWrite, .censusCutWrite] →
    s.nextAccess ≠ some c ∨ s.arb.busy ≠ none ∨ s.arb.beatsLeft ≠ 0 → exec c s = .next s) ∧
  ∀ (c : Instr) (b : Beat) (s u : State), s.nextAccess = some c → s.arb.busy = none → s.arb.beatsLeft = 0 →
    s.arb.ready = true → s.arb.held = some b →
    exec c { s with arb := { s.arb with held := none } } = .next u → exec c s = exec (.passingWrite b) u

/-- Memory that has not made an access ready (R186, R190): the access holds the memory side, a passing beat that starts
is held with WAIT behind it, and the ready that comes gives what a memory that was ready at once would have given, but
for the windows that start at its moment. An internal write reaches memory at that ready, and a beat held behind it
follows. Which part of an access comes at its grant and which at its ready, and that M_READY is a level which holds
until the next microsecond carry, is the model's choice (log entry 32). -/
def Obligations.SlowMemoryHoldsTheAccess : Prop :=
  (∀ (b : Beat) (s : State), s.forwards = true → s.arb.ready = false →
    ∃ t r, exec (.passingWrite b) s = .next t ∧
      exec (.passingWrite b) { s with arb := { s.arb with ready := true } } = .next r ∧
      t.arb.busy = some .passing ∧ t.wait = true ∧
      (∀ levels, t.waiting = none → exec (.microsecondCarry levels { ready := true, upTo := true }) t =
        exec (.microsecondCarry levels { ready := true, upTo := true }) r) ∧
      ∀ b', exec (.passingWrite b') t = .next { t with arb := { t.arb with held := some b' } } ∧
        ∀ levels v, t.waiting = none → exec (.microsecondCarry levels { ready := true, upTo := true }) r = .next v →
          exec (.microsecondCarry levels { ready := true, upTo := true })
            { t with arb := { t.arb with held := some b' } } = exec (.passingWrite b') v) ∧
  (∀ (c : Instr) (s : State), s.nextAccess = some c → s.arb.busy = none → s.arb.beatsLeft = 0 → s.arb.ready = false →
    ∃ t r, exec c s = .next t ∧ exec c { s with arb := { s.arb with ready := true } } = .next r ∧
      (∃ w e, t.arb.busy = some (.internal w e)) ∧ t.mem = s.mem ∧
      ∀ levels, t.waiting = none →
        (s.time.prescaler = 24 → exec (.microsecondCarry levels { ready := true, upTo := true }) t = .next r) ∧
        (s.arb.held = none → ∃ v, exec (.microsecondCarry levels { ready := true, upTo := true }) t = .next v ∧
          v.time = { r.time with prescaler := 24 } ∧ v.settle.map Window.left = r.settle.map Window.left ∧
          v.arb.busy = none ∧ { v with time := r.time, settle := r.settle, arb := r.arb } = r)) ∧
  ∀ (levels : Levels) (upTo : Bool) (s t : State),
    exec (.microsecondCarry levels { ready := false, upTo }) s = .next t → s.waiting = none →
    t.arb.busy = s.arb.busy ∧ t.arb.held = s.arb.held ∧ t.arb.ready = false

/-! ## The notice ring and the owned words -/

/-- CONSUMER_INDEX_WRITE (R160): it reaches memory unchanged; a full word's first half is accepted if the unconsumed
count it leaves, and the one that a notice in progress will leave, are at most the capacity; else it is held with the
ring fault flag. An accepted one may make room for a take (R161) from `u`. -/
def Obligations.ConsumerWritesAreAcceptedOrHeld : Prop :=
  ∀ (b : Beat) (s : State) (r : Ring) (v : Half), s.serves .consumerIndex b → s.noticeRing = some r →
    v = b.data.setWidth 16 → ∃ u t accepted, exec (.consumerIndexWrite b) s = .next t ∧ s.beatDone t b b.data ∧
      (accepted = true ↔ b.be = 15 ∧ (s.producer - v).toNat ≤ r.count ∧
        (s.notice ≠ none → (s.producer + 1 - v).toNat ≤ r.count)) ∧
      u.consumer = (if accepted then v else s.consumer) ∧ u.ringFault = !accepted ∧
      { u with consumer := s.consumer, ringFault := s.ringFault } = s ∧
      (accepted = false → { t with mem := u.mem, writeMarks := u.writeMarks, arb := u.arb } = u) ∧
      (accepted = true → { t with mem := u.mem, writeMarks := u.writeMarks, arb := u.arb } = takeNotice u) ∧
      t.writeMarks = s.marksAfter t

/-- NOTICE_WORD_WRITE and RING_HEADER_INIT_WRITE (R158, R163, R164): the next of the notice's eight words is written to
the slot that the producer index names; the new ring's header word 0 is written as 0, after which notices may be taken
(R161) from `u`. -/
def Obligations.NoticeAndHeaderWordsAreWritten : Prop :=
  ∀ (s : State) (r : Ring), s.noticeRing = some r → s.servesRequest .noticeWriter →
    (∀ n w, s.notice = some n → n.words[n.written]? = some w → n.written < 8 → ∃ t, exec .noticeWordWrite s = .next t ∧
      s.storeDone t (r.base + 32 + 32 * (s.producer.toNat % r.count) + 4 * n.written) w ∧
      t.notice = some { n with written := n.written + 1 } ∧
      { t with mem := s.mem, notice := s.notice, arb := s.arb } = s) ∧
    (s.notice = none → s.headerDue = true → ∃ u t : State, exec .ringHeaderInitWrite s = .next t ∧
      s.storeDone t r.base 0 ∧ u.headerDue = false ∧ { u with headerDue := s.headerDue } = s ∧
      { t with mem := u.mem, writeMarks := u.writeMarks, arb := u.arb } = takeNotice u ∧ t.writeMarks = s.marksAfter t)

/-- PRODUCER_WRITE (R146, R158, R163, R164): header word 0 takes the index plus one, the notice ends, a CLOSE frees its
slot with one dirty mark, a waiting ring is initialised, and the event ends with a take (R161) from `u`. -/
def Obligations.ProducerWriteEndsTheNotice : Prop :=
  ∀ (s : State) (r : Ring) (n : Notice), s.noticeRing = some r → s.servesRequest .noticeWriter → s.notice = some n →
    8 ≤ n.written → ∃ u t : State, exec .producerWrite s = .next t ∧
      s.storeDone t r.base ((s.producer + 1).setWidth 32) ∧ u.notice = none ∧
      (n.frees = none → u.slots = s.slots ∧ u.order = s.order ∧ u.entries = s.entries ∧ u.settle = s.settle ∧
        u.writeMarks = s.writeMarks) ∧
      (∀ k, n.frees = some k → u.slot k = none ∧ (∀ j, j ≠ k → u.slot j = s.slot j) ∧
        u.order = s.order.filter (· ≠ k) ∧
        (∀ m, u.entry m = if (s.entry m).covering = some k then { s.entry m with covering := none } else s.entry m) ∧
        u.settle = s.settleAfterMark s.storm ∧ u.writeMarks = { s.writeMarks with partA := true }) ∧
      (s.ringWaiting = none → u.noticeRing = s.noticeRing ∧ u.producer = s.producer + 1 ∧ u.consumer = s.consumer ∧
        u.ringFault = s.ringFault ∧ u.restart = s.restart ∧ u.headerDue = s.headerDue ∧ u.ringWaiting = none) ∧
      (∀ r', s.ringWaiting = some r' → u.noticeRing = some r' ∧ u.producer = 0 ∧ u.consumer = 0 ∧
        u.ringFault = false ∧ u.restart = some .ringMoved ∧ u.headerDue = true ∧ u.ringWaiting = none) ∧
      { u with notice := s.notice, slots := s.slots, order := s.order, entries := s.entries, settle := s.settle,
               writeMarks := s.writeMarks, noticeRing := s.noticeRing, producer := s.producer, consumer := s.consumer,
               ringFault := s.ringFault, restart := s.restart, headerDue := s.headerDue,
               ringWaiting := s.ringWaiting } = s ∧
      { t with mem := u.mem, writeMarks := u.writeMarks, arb := u.arb } = takeNotice u

/-- OWNED_WORD_WRITER_GRANT (R189): the lowest-numbered word whose mark is set is written with its value at the grant,
and its mark is cleared; the other marks and everything else are kept. -/
def Obligations.OwnedWordWriterWritesTheLowestMarked : Prop :=
  ∀ s : State, s.servesRequest .ownedWords → ∃ t, exec .ownedWordWriterGrant s = .next t ∧
    { t with mem := s.mem, writeMarks := s.writeMarks, arb := s.arb } = s ∧
    (s.writeMarks.status = true → s.storeDone t (s.setupAddr 1) (statusWord s.status) ∧
      t.writeMarks = { s.writeMarks with status := false }) ∧
    (s.writeMarks.status = false → s.writeMarks.partA = true → s.storeDone t (s.setupAddr 2) s.partStatusA ∧
      t.writeMarks = { s.writeMarks with partA := false }) ∧
    (s.writeMarks.status = false → s.writeMarks.partA = false → s.writeMarks.partB = true ∧
      s.storeDone t (s.setupAddr 3) s.partStatusB ∧ t.writeMarks = { s.writeMarks with partB := false })

/-- CENSUS_WORD_WRITE, CENSUS_DONE_WRITE and CENSUS_CUT_WRITE (R166, R167, R168): each word carries the live value at
its grant; DONE ends the census with its outcome, CUT ends a cut one with no outcome. -/
def Obligations.CensusWritesTheLiveValues : Prop :=
  ∀ (s : State) (c : Census), s.census = some c → s.servesRequest .census →
    (c.cut = false → c.written < 642 → ∃ t x w, exec .censusWordWrite s = .next t ∧ s.storeDone t (c.base + 4 * x) w ∧
      t.census = some { c with written := c.written + 1 } ∧ { t with mem := s.mem, census := s.census, arb := s.arb } = s ∧
      (c.written = 0 → x = 0 ∧ w = censusStatusWord 1 c.tag) ∧
      (∀ n : Fin 128, c.written = 1 + n.val → x = 2 + n.val ∧ w = censusNodeWord s.nodes[n]) ∧
      (∀ k : Fin 512, c.written = 129 + k.val → x = 130 + k.val ∧ w = censusTerminalWord (s.entry k)) ∧
      (c.written = 641 → x = 1 ∧ w = s.time.clock)) ∧
    (c.cut = false → 642 ≤ c.written → ∃ t, exec .censusDoneWrite s = .next t ∧
      s.storeDone t c.base (censusStatusWord 2 c.tag) ∧ t.census = none ∧
      t.status = { tag := c.tag, outcome := .done, detail := 0 } ∧
      t.writeMarks = { s.writeMarks with status := true, partA := true } ∧
      { t with mem := s.mem, census := s.census, status := s.status, writeMarks := s.writeMarks, arb := s.arb } = s) ∧
    (c.cut = true → ∃ t, exec .censusCutWrite s = .next t ∧ s.storeDone t c.base (censusStatusWord 3 c.tag) ∧
      t.census = none ∧ t.writeMarks = { s.writeMarks with partA := true } ∧
      { t with mem := s.mem, census := s.census, writeMarks := s.writeMarks, arb := s.arb } = s)
end

