-- ==== Sys2Proof/Laws/Sparse.lean ====
section
/-! SUPPORT. The laws of the sparse tables: reading after writing, and the canonical form that every write keeps. -/

namespace Sys2Proof.Machine.Sparse

variable {α : Type} [DecidableEq α] {d : α} {hi lo i j : Nat} {v x : α} {l rest : List (Nat × α)}

omit [DecidableEq α] in
@[simp] theorem get_nil : get d [] i = d := rfl

@[simp] theorem wfFrom_nil : wfFrom d hi lo [] = true := rfl

theorem wfFrom_cons :
    wfFrom d hi lo ((j, x) :: rest) = true ↔ lo ≤ j ∧ j < hi ∧ x ≠ d ∧ wfFrom d hi (j + 1) rest = true := by
  simp [wfFrom, and_assoc]

theorem wfFrom_mono {lo' : Nat} (h : wfFrom d hi lo l = true) (hl : lo' ≤ lo) : wfFrom d hi lo' l = true := by
  cases l with
  | nil => rfl
  | cons p rest =>
    obtain ⟨j, x⟩ := p
    obtain ⟨h1, h2, h3, h4⟩ := wfFrom_cons.mp h
    exact wfFrom_cons.mpr ⟨by omega, h2, h3, h4⟩

/-- An index below every listed one reads as the default. -/
theorem get_below (h : wfFrom d hi lo l = true) (hi' : i < lo) : get d l i = d := by
  induction l generalizing lo with
  | nil => rfl
  | cons p rest ih =>
    obtain ⟨j, x⟩ := p
    obtain ⟨h1, _, _, h4⟩ := wfFrom_cons.mp h
    have hji : j ≠ i := by omega
    simp [get, hji, ih h4 (by omega)]

/-- The written index reads as the written value. -/
theorem get_put_same (h : wfFrom d hi lo l = true) : get d (put d l i v) i = v := by
  induction l generalizing lo with
  | nil =>
    by_cases hv : v = d
    · simp [put, hv]
    · simp [put, hv, get]
  | cons p rest ih =>
    obtain ⟨j, x⟩ := p
    obtain ⟨_, _, _, h4⟩ := wfFrom_cons.mp h
    by_cases hj : j < i
    · have hne : j ≠ i := by omega
      simp [put, hj, get, hne, ih h4]
    · by_cases he : j = i
      · by_cases hv : v = d
        · subst he
          simp [put, hv, get_below h4]
        · simp [put, he, hv, get]
      · by_cases hv : v = d
        · simp [put, hj, he, hv, get, get_below h4 (show i < j + 1 by omega)]
        · simp [put, hj, he, hv, get]

/-- Every other index reads as before. -/
theorem get_put_other (hne : j ≠ i) : get d (put d l i v) j = get d l j := by
  induction l with
  | nil =>
    by_cases hv : v = d
    · simp [put, hv]
    · simp [put, hv, get, hne.symm]
  | cons p rest ih =>
    obtain ⟨k, x⟩ := p
    by_cases hk : k < i
    · simp [put, hk, get, ih]
    · by_cases he : k = i
      · subst he
        by_cases hv : v = d
        · simp [put, hv, get, hne.symm]
        · simp [put, hv, get, hne.symm]
      · by_cases hv : v = d
        · simp [put, hk, he, hv]
        · simp [put, hk, he, hv, get, hne.symm]

/-- A write below the ceiling keeps the canonical form. -/
theorem put_wf (h : wfFrom d hi lo l = true) (hlo : lo ≤ i) (hhi : i < hi) : wfFrom d hi lo (put d l i v) = true := by
  induction l generalizing lo with
  | nil =>
    by_cases hv : v = d
    · simp [put, hv]
    · simp [put, hv, wfFrom, hlo, hhi]
  | cons p rest ih =>
    obtain ⟨j, x⟩ := p
    obtain ⟨h1, h2, h3, h4⟩ := wfFrom_cons.mp h
    by_cases hj : j < i
    · simp only [put, hj, if_true]
      exact wfFrom_cons.mpr ⟨h1, h2, h3, ih h4 (by omega)⟩
    · by_cases he : j = i
      · subst he
        by_cases hv : v = d
        · simp only [put, hv, lt_irrefl, if_false, if_true]
          exact wfFrom_mono h4 (by omega)
        · simp only [put, hv, lt_irrefl, if_false, if_true]
          exact wfFrom_cons.mpr ⟨h1, h2, hv, h4⟩
      · by_cases hv : v = d
        · simp only [put, hj, he, hv, if_false, if_true]
          exact h
        · simp only [put, hj, he, hv, if_false]
          exact wfFrom_cons.mpr ⟨hlo, hhi, hv, wfFrom_cons.mpr ⟨by omega, h2, h3, h4⟩⟩

end Sys2Proof.Machine.Sparse
end

