-- ==== Sys2Proof/Laws/Memory.lean ====
section
/-! SUPPORT. The laws of record memory (R194): a byte after a write, and the canonical form, which every write keeps. -/

namespace Sys2Proof.Machine

theorem wordAddr_lt (a : Nat) : wordAddr a + 3 < Config.busBytes := by
  unfold wordAddr Config.busBytes; omega

theorem wordAddr_aligned (a : Nat) : wordAddr a % 4 = 0 := by
  unfold wordAddr; omega

/-! ## One byte -/

theorem readByte_writeByte_same {mem : List Host.Cell} (h : Memory.wf mem = true) (a : Nat) (v : Byte) :
    readByte (writeByte mem a v) a = v := Sparse.get_put_same h

theorem readByte_writeByte_other (mem : List Host.Cell) {a x : Nat} (v : Byte) (hne : x ≠ a) :
    readByte (writeByte mem a v) x = readByte mem x := Sparse.get_put_other hne

theorem writeByte_wf {mem : List Host.Cell} {a : Nat} (v : Byte) (h : Memory.wf mem = true) (ha : a < Config.busBytes) :
    Memory.wf (writeByte mem a v) = true := Sparse.put_wf h (Nat.zero_le _) ha

/-! ## One beat -/

/-- Memory after the enabled bytes of a list of positions of one word are written. -/
def writeBytes (base : Nat) (be : BitVec 4) (w : Word) (l : List Nat) (mem : List Host.Cell) : List Host.Cell :=
  l.foldl (fun m i => if be.getLsbD i then writeByte m (base + i) (wordByte w i) else m) mem

theorem writeBytes_wf {base : Nat} (be : BitVec 4) (w : Word) (l : List Nat) {mem : List Host.Cell}
    (hb : ∀ i ∈ l, base + i < Config.busBytes) (h : Memory.wf mem = true) :
    Memory.wf (writeBytes base be w l mem) = true := by
  induction l generalizing mem with
  | nil => exact h
  | cons i l ih =>
    refine ih (fun j hj => hb j (List.mem_cons_of_mem _ hj)) ?_
    show Memory.wf (if be.getLsbD i then writeByte mem (base + i) (wordByte w i) else mem) = true
    split
    · exact writeByte_wf _ h (hb i List.mem_cons_self)
    · exact h

theorem readByte_writeBytes {base : Nat} (be : BitVec 4) (w : Word) (l : List Nat) {mem : List Host.Cell}
    (hb : ∀ i ∈ l, base + i < Config.busBytes) (hn : l.Nodup) (h : Memory.wf mem = true) (x : Nat) :
    readByte (writeBytes base be w l mem) x =
      if base ≤ x ∧ x - base ∈ l ∧ be.getLsbD (x - base) = true then wordByte w (x - base) else readByte mem x := by
  induction l generalizing mem with
  | nil => simp [writeBytes]
  | cons i l ih =>
    obtain ⟨hi, hl⟩ := List.nodup_cons.mp hn
    have hb' : ∀ j ∈ l, base + j < Config.busBytes := fun j hj => hb j (List.mem_cons_of_mem _ hj)
    have hstep : writeBytes base be w (i :: l) mem =
        writeBytes base be w l (if be.getLsbD i then writeByte mem (base + i) (wordByte w i) else mem) := rfl
    have hwf : Memory.wf (if be.getLsbD i then writeByte mem (base + i) (wordByte w i) else mem) = true := by
      split
      · exact writeByte_wf _ h (hb i List.mem_cons_self)
      · exact h
    rw [hstep, ih hb' hl hwf]
    by_cases hx : base ≤ x ∧ x - base = i
    · obtain ⟨h1, h2⟩ := hx
      have hxi : x = base + i := by omega
      subst hxi
      have : base + i - base = i := by omega
      simp only [this, hi, List.mem_cons]
      by_cases he : be.getLsbD i = true
      · simp [he, readByte_writeByte_same h]
      · simp [he]
    · have hne : x ≠ base + i := by omega
      have hm : (base ≤ x ∧ x - base ∈ i :: l ∧ be.getLsbD (x - base) = true) ↔
          (base ≤ x ∧ x - base ∈ l ∧ be.getLsbD (x - base) = true) := by
        constructor
        · rintro ⟨h1, h2, h3⟩
          rcases List.mem_cons.mp h2 with h2 | h2
          · exact absurd ⟨h1, h2⟩ hx
          · exact ⟨h1, h2, h3⟩
        · rintro ⟨h1, h2, h3⟩
          exact ⟨h1, List.mem_cons_of_mem _ h2, h3⟩
      simp only [hm]
      by_cases he : be.getLsbD i = true
      · simp [he, readByte_writeByte_other _ _ hne]
      · simp [he]

theorem writeBeat_eq (mem : List Host.Cell) (a : Nat) (be : BitVec 4) (w : Word) :
    writeBeat mem a be w = writeBytes (wordAddr a) be w [0, 1, 2, 3] mem := rfl

/-- A beat keeps the canonical form. -/
theorem writeBeat_wf {mem : List Host.Cell} (a : Nat) (be : BitVec 4) (w : Word) (h : Memory.wf mem = true) :
    Memory.wf (writeBeat mem a be w) = true := by
  rw [writeBeat_eq]
  refine writeBytes_wf be w _ (fun i hi => ?_) h
  have := wordAddr_lt a
  simp at hi
  omega

/-- A byte after a beat (R194). -/
theorem readByte_writeBeat {mem : List Host.Cell} (a : Nat) (be : BitVec 4) (w : Word) (h : Memory.wf mem = true)
    (x : Nat) :
    readByte (writeBeat mem a be w) x =
      if x / 4 * 4 = wordAddr a ∧ be.getLsbD (x % 4) = true then wordByte w (x % 4) else readByte mem x := by
  have hlt := wordAddr_lt a
  have hal := wordAddr_aligned a
  rw [writeBeat_eq, readByte_writeBytes be w _ (fun i hi => by simp at hi; omega) (by decide) h]
  by_cases hx : x / 4 * 4 = wordAddr a
  · have hm : x - wordAddr a = x % 4 := by omega
    have hle : wordAddr a ≤ x := by omega
    have hin : x % 4 ∈ [0, 1, 2, 3] := by
      have : x % 4 < 4 := Nat.mod_lt _ (by decide)
      simp; omega
    simp [hx, hm, hle, hin]
  · have hno : ¬ (wordAddr a ≤ x ∧ x - wordAddr a ∈ [0, 1, 2, 3] ∧ be.getLsbD (x - wordAddr a) = true) := by
      rintro ⟨h1, h2, -⟩
      simp at h2
      omega
    rw [if_neg hno, if_neg (fun hc => hx hc.1)]

/-! ## The part's own accesses and passing beats -/

theorem writeWord_wf {mem : List Host.Cell} (a : Nat) (w : Word) (h : Memory.wf mem = true) :
    Memory.wf (writeWord mem a w) = true := writeBeat_wf a 15 w h

theorem State.store_wf {s : State} (a : Nat) (w : Word) (h : Memory.wf s.mem = true) :
    Memory.wf (s.store a w).mem = true := writeWord_wf a w h

theorem State.passBeat_wf {s : State} (b : Beat) (w : Word) (h : Memory.wf s.mem = true) :
    Memory.wf (s.passBeat b w).mem = true := writeBeat_wf _ _ w h

/-- A byte after a passing beat (R186, R188, R194). -/
theorem State.passBeat_byte {s : State} (b : Beat) (w : Word) (h : Memory.wf s.mem = true) (x : Nat) :
    readByte (s.passBeat b w).mem x = byteAfterBeat s b w x := readByte_writeBeat _ _ w h x

/-- A byte after the part's own write (R190, R194). -/
theorem State.store_byte {s : State} (a : Nat) (w : Word) (h : Memory.wf s.mem = true) (x : Nat) :
    readByte (s.store a w).mem x = byteAfterStore s a w x := by
  refine (readByte_writeBeat a 15 w h x).trans ?_
  have hb : ∀ k : Fin 4, (15 : BitVec 4).getLsbD k.val = true := by decide
  have hall : (15 : BitVec 4).getLsbD (x % 4) = true := hb ⟨x % 4, Nat.mod_lt _ (by decide)⟩
  rw [byteAfterStore, hall]
  simp

theorem reset_memory_wf : Memory.wf State.reset.mem = true := rfl

end Sys2Proof.Machine
end

