-- ==== Sys2Proof/Laws/Tables.lean ====
section
/-! SUPPORT. The laws of the fixed tables: an entry of a mapped table, and the indices of a table. -/

namespace Sys2Proof.Machine

theorem getElem_mapFrom {α β : Type} (f : Nat → α → β) (k : Nat) (l : List α) (i : Nat)
    (h : i < (mapFrom f k l).length) :
    (mapFrom f k l)[i] = f (k + i) (l[i]'(by simpa [length_mapFrom] using h)) := by
  induction l generalizing k i with
  | nil => simp [mapFrom] at h
  | cons x xs ih =>
    cases i with
    | zero => simp [mapFrom]
    | succ i => simp [mapFrom, ih, Nat.add_assoc, Nat.add_comm 1 i]

/-- An entry of a mapped table is the function of its index and the entry. -/
@[simp] theorem mapTable_getElem {α β : Type} {n : Nat} (f : Nat → α → β) (v : Vector α n) (i : Nat) (h : i < n) :
    (mapTable f v)[i] = f i v[i] := by
  have h' : i < (mapFrom f 0 v.toList).length := by simp [length_mapFrom, h]
  have := getElem_mapFrom f 0 v.toList i h'
  simpa [mapTable] using this

@[simp] theorem mapTable_getElem_fin {α β : Type} {n : Nat} (f : Nat → α → β) (v : Vector α n) (i : Fin n) :
    (mapTable f v)[i] = f i.val v[i] := mapTable_getElem f v i.val i.isLt

/-- Two tables are equal when their entries are. -/
theorem table_ext {α : Type} {n : Nat} {v w : Vector α n} (h : ∀ i : Fin n, v[i] = w[i]) : v = w :=
  Vector.ext fun i hi => h ⟨i, hi⟩

/-- A map that changes no entry changes no table. -/
theorem mapTable_id {α : Type} {n : Nat} (f : Nat → α → α) (v : Vector α n) (h : ∀ i : Fin n, f i.val v[i] = v[i]) :
    mapTable f v = v :=
  table_ext fun i => by rw [mapTable_getElem_fin, h i]

@[simp] theorem set_getElem_fin {α : Type} {n : Nat} (v : Vector α n) (k i : Fin n) (x : α) :
    (v.set k.val x k.isLt)[i] = if k = i then x else v[i] := by
  have := Vector.getElem_set (xs := v) (i := k.val) (x := x) (hi := k.isLt) (j := i.val) i.isLt
  simpa [Fin.ext_iff] using this

/-- The indices of a table are all its indices. -/
@[simp] theorem mem_indices {n : Nat} [NeZero n] (i : Fin n) : i ∈ indices n := by
  refine List.mem_map.mpr ⟨i.val, List.mem_range.mpr i.isLt, ?_⟩
  exact Fin.ext (by simp [Fin.ofNat, Nat.mod_eq_of_lt i.isLt])

theorem indices_nodup {n : Nat} [NeZero n] : (indices n).Nodup := by
  refine List.Nodup.map_on ?_ List.nodup_range
  intro a ha b hb h
  have ha := List.mem_range.mp ha
  have hb := List.mem_range.mp hb
  have := congrArg Fin.val h
  simpa [Fin.ofNat, Nat.mod_eq_of_lt ha, Nat.mod_eq_of_lt hb] using this

end Sys2Proof.Machine
end

