-- ==== Sys2Proof/Laws/Events.lean ====
section
/-! SUPPORT. One law per shared operation of Machine/Events.lean: each is one record update of the fields it may
change. -/

namespace Sys2Proof.Machine

/-- A settle window, a soak or an edit limit as it starts (R88). -/
theorem msWindow_eq (s : State) (d : Nat) : s.msWindow d = s.msStart d := by
  simp [State.msWindow, State.msStart, Window.start, State.atMillisecond, State.atMicrosecond, Bool.decide_and]

/-- The patience window as it starts (R88). -/
theorem usWindow_eq (s : State) (d : Nat) : s.usWindow d = s.usStart d := rfl

theorem passed_eq (w : Window) : w.passed = windowPassed w := rfl

/-- What a carry of its period leaves of a window (R88). -/
theorem carried_eq (w : Window) : w.carried = windowCounted w := by
  unfold Window.carried windowCounted
  cases h : w.fresh <;> simp [passed_eq, ← h]

/-- A dirty mark changes the Settle Timer alone (R101, R102). -/
theorem dirtyMark_eq (s : State) : dirtyMark s = { s with settle := s.settleAfterMark s.storm } := by
  unfold dirtyMark State.settleAfterMark
  cases h : s.settle with
  | some w =>
    rw [if_neg (by simp)]
    show s = { s with settle := some w }
    rw [← h]
  | none =>
    cases hs : s.setupInUse
    · simp [← h]
    · simp [msWindow_eq]

theorem markIf_eq (m : Bool) (s : State) :
    markIf m s = { s with settle := if m then s.settleAfterMark s.storm else s.settle } := by
  cases m
  · rfl
  · exact dirtyMark_eq s

/-- A change of the gauge is followed by the STORM test (R96). -/
theorem setGauge_eq (g : Nat) (s : State) :
    setGauge g s = { s with
      gauge := g
      storm := if g = s.gauge then s.storm else stormTest s.par.stormEnter s.par.stormExit g s.storm } := by
  unfold setGauge
  by_cases h : g = s.gauge
  · simp [h]
  · simp [h]

/-- The falls of an event change the gauge and STORM alone (R94, R96). -/
theorem addFalls_eq (n : Nat) (s : State) :
    addFalls n s = { s with
      gauge := if n = 0 then s.gauge else min Config.gaugeMax (s.gauge + n)
      storm := if n = 0 ∨ min Config.gaugeMax (s.gauge + n) = s.gauge then s.storm
        else stormTest s.par.stormEnter s.par.stormExit (min Config.gaugeMax (s.gauge + n)) s.storm } := by
  unfold addFalls
  by_cases h : n = 0
  · simp [h]
  · simp [h, setGauge_eq]

theorem record_eq (tag : Byte) (o : CmdOutcome) (d : Nat) (s : State) :
    record tag o d s = { s with status := { tag, outcome := o, detail := d },
                                writeMarks := { s.writeMarks with status := true } } := rfl

theorem markStatusWords_eq (s0 s : State) :
    markStatusWords s0 s = { s with writeMarks :=
      { status := s.writeMarks.status
        partA := s.writeMarks.partA || s.partStatusA != s0.partStatusA
        partB := s.writeMarks.partB || s.partStatusB != s0.partStatusB } } := rfl

/-- The window starts, or nothing changes (R191). -/
theorem startWindow_eq (s : State) : startWindow s = { s with arb := { s.arb with window := s.windowAfter s } } := by
  unfold startWindow State.windowAfter
  split
  · rfl
  · rfl

/-- The window starts behind a passing access, or nothing changes (R191). -/
theorem watchPatience_eq (s : State) : watchPatience s = { s with
    arb := if s.arb.passing = true then { s.arb with window := s.windowAfter s } else s.arb } := by
  unfold watchPatience
  split <;> simp_all [startWindow_eq]

/-- What closes an event away from the bus changes the write-pending marks and the window alone. -/
theorem finish_eq (s0 s : State) :
    finish s0 s = { s with
      writeMarks :=
        { status := s.writeMarks.status
          partA := s.writeMarks.partA || s.partStatusA != s0.partStatusA
          partB := s.writeMarks.partB || s.partStatusB != s0.partStatusB }
      arb := if s.arb.passing = true then
          { s.arb with window := (markStatusWords s0 s).windowAfter (markStatusWords s0 s) }
        else s.arb } := by
  rw [finish, watchPatience_eq]
  rfl

theorem finishBeat_eq (b : Beat) (s0 s : State) :
    finishBeat b s0 s = startWindow { markStatusWords s0 s with arb := s.arb.afterBeat b } := rfl

theorem endWindow_eq (s : State) : endWindow s = { s with arb := { s.arb with window := none, impatient := false } } :=
  rfl

end Sys2Proof.Machine
end

