-- ==== Sys2Proof/Laws/Path.lean ====
section
/-! SUPPORT. The laws of the memory path: a forwarded beat, a held one, a grant, and what the closing of an event leaves
of the write-pending marks and the arbiter (R186, R189 to R191). -/

namespace Sys2Proof.Machine

theorem forwards_iff (s : State) :
    s.forwards = true ↔ s.arb.held = none ∧ s.arb.busy = none ∧ s.holdsPassing = false := by
  unfold State.forwards
  cases s.arb.held <;> cases s.arb.busy <;> simp

theorem takesCommands_iff (s : State) : s.takesCommands = true ↔ s.forwards = true ∧ s.arb.plain = false := by
  simp [State.takesCommands]

theorem grants_iff (s : State) (r : Requester) :
    s.grants r = true ↔ s.arb.busy = none ∧ s.arb.beatsLeft = 0 ∧ s.head = some r := by
  simp [State.grants, and_assoc]

theorem passing_iff (a : Arbiter) : a.passing = true ↔ a.beatsLeft ≠ 0 ∨ a.busy = some .passing := by
  simp [Arbiter.passing]

/-- A beat that is forwarded has its row's effect (R186, R187). -/
theorem present_forwards {s : State} {row : BeatRow} {eff : Beat → State → State} {b : Beat}
    (h : s.forwards = true) (hr : s.rowOf b = row) : present row eff b s = .next (finishBeat b s (eff b s)) := by
  obtain ⟨h1, h2, h3⟩ := (forwards_iff s).mp h
  unfold present
  rw [if_neg (by simp [h1]), if_neg (by simp [h2, h3]), if_pos hr]

/-- What a presented beat does (R186, R190, R191): nothing while another is held; a hold behind another access or while the
arbiter is impatient; else its forwarding with its effect. -/
theorem present_cases (row : BeatRow) (eff : Beat → State → State) (b : Beat) (s : State) :
    (s.arb.held.isSome = true ∧ present row eff b s = .next s) ∨
    (s.arb.held = none ∧ s.forwards = false ∧
      present row eff b s = .next { s with arb := { s.arb with held := some b } }) ∨
    (s.forwards = true ∧ s.rowOf b = row ∧ present row eff b s = .next (finishBeat b s (eff b s))) ∨
    (s.forwards = true ∧ s.rowOf b ≠ row ∧ present row eff b s = .next (finishBeat b s (takeBeat b s))) := by
  unfold present State.forwards
  cases s.arb.held with
  | some x => simp
  | none =>
    cases s.arb.busy with
    | some y => simp
    | none => cases s.holdsPassing <;> by_cases hr : s.rowOf b = row <;> simp [hr]

/-- A grant that is served by a memory that is ready (R190, R191). -/
theorem grant_served {s : State} {r : Requester} {w : Option Store} {event : State → State} {ending : Option Ending}
    (h : s.grants r = true) (hm : s.arb.ready = true) :
    grant r w event ending s = .next (releaseHeld (endAccess w ending (finish s (event (endWindow s))))) := by
  unfold grant
  rw [if_pos h]
  simp only [hm, if_true]

/-- A grant before a memory that is not ready: the access holds the memory side (R186, R190). -/
theorem grant_slow {s : State} {r : Requester} {w : Option Store} {event : State → State} {ending : Option Ending}
    (h : s.grants r = true) (hm : s.arb.ready = false) :
    grant r w event ending s = .next { finish s (event (endWindow s)) with
      arb := { (finish s (event (endWindow s))).arb with busy := some (.internal w ending) } } := by
  unfold grant
  rw [if_pos h]
  simp [hm]

/-- What M_READY does (R186, R190, R191): its level is taken, and asserted it ends the access that holds the memory side,
with the beat held behind it unless the head internal request goes first. -/
theorem memoryReady_cases (ready : Bool) (s : State) :
    ((ready = false ∨ s.arb.busy = none) ∧ memoryReady ready s = { s with arb := { s.arb with ready } }) ∨
    (ready = true ∧ s.arb.busy = some .passing ∧
      ((s.holdsPassing = true ∧ memoryReady ready s = { s with arb := { s.arb with ready := true, busy := none } }) ∨
        (s.holdsPassing = false ∧
          memoryReady ready s = releaseHeld { s with arb := { s.arb with ready := true, busy := none } }))) ∨
    ∃ w e, ready = true ∧ s.arb.busy = some (.internal w e) ∧
      memoryReady ready s = releaseHeld (endAccess w e { s with arb := { s.arb with ready := true, busy := none } }) := by
  unfold memoryReady
  cases ready with
  | false => exact .inl ⟨.inl rfl, rfl⟩
  | true =>
    cases hb : s.arb.busy with
    | none => exact .inl ⟨.inr rfl, by simp⟩
    | some x =>
      cases x with
      | passing =>
        refine .inr (.inl ⟨rfl, rfl, ?_⟩)
        have hh : State.holdsPassing { s with arb := { s.arb with ready := true, busy := none } } = s.holdsPassing := rfl
        cases hp : s.holdsPassing
        · refine .inr ⟨rfl, ?_⟩
          simp [hh, hp]
        · refine .inl ⟨rfl, ?_⟩
          simp [hh, hp]
      | internal w e => exact .inr (.inr ⟨w, e, rfl, rfl, by simp⟩)

theorem releaseHeld_none {s : State} (h : s.arb.held = none) : releaseHeld s = s := by
  unfold releaseHeld
  rw [h]

/-- The closing of a forwarded beat's event, as one update. -/
theorem finishBeat_update (b : Beat) (s0 s : State) :
    ∃ A, finishBeat b s0 s = { s with writeMarks := (markStatusWords s0 s).writeMarks, arb := A } ∧
      (s.arb = s0.arb → A = s0.arbAfterBeat (finishBeat b s0 s) b) := by
  refine ⟨(finishBeat b s0 s).arb, ?_, ?_⟩
  · rw [finishBeat_eq, startWindow_eq]
    rfl
  · intro h
    rw [finishBeat_eq, startWindow_eq]
    simp only [State.arbAfterBeat, State.beatsAfter, State.windowAfter, markStatusWords_eq, h]
    rfl

/-- The closing of an event away from the bus, as one update. -/
theorem finish_update (s0 s : State) :
    ∃ A, finish s0 s = { s with writeMarks := (markStatusWords s0 s).writeMarks, arb := A } ∧
      (s.arb = s0.arb → A = s0.arbAfterEvent (finish s0 s)) ∧ (s.arb.passing = false → A = s.arb) := by
  refine ⟨(finish s0 s).arb, ?_, ?_, ?_⟩
  · rw [finish_eq]
    rfl
  · intro h
    have hh : (finish s0 s).head = (markStatusWords s0 s).head := by
      rw [finish_eq, markStatusWords_eq]
      rfl
    have hiff : (s0.arb.beatsLeft = 0 ∧ s0.arb.busy ≠ some .passing) ↔ s.arb.passing = false := by
      rw [← h]
      simp [Arbiter.passing]
    have hu : (finish s0 s).usStart 5 = (markStatusWords s0 s).usStart 5 := by
      rw [finish_eq, markStatusWords_eq]
      rfl
    have harb : (markStatusWords s0 s).arb = s.arb := by rw [markStatusWords_eq]
    have hf : (finish s0 s).arb = if s.arb.passing = true then
        { s.arb with window := (markStatusWords s0 s).windowAfter (markStatusWords s0 s) } else s.arb := by
      rw [finish_eq]
    rw [hf]
    simp only [State.arbAfterEvent, State.windowAfter, hh, hu, harb]
    by_cases hb : s.arb.passing = true
    · have hn : ¬ (s0.arb.beatsLeft = 0 ∧ s0.arb.busy ≠ some .passing) := fun hc => by
        have := hiff.mp hc
        simp [this] at hb
      rw [if_neg hn, if_pos hb, h]
    · have hb' : s.arb.passing = false := by simpa using hb
      rw [if_pos (hiff.mpr hb'), if_neg hb, h]
  · intro hb
    rw [finish_eq]
    simp [hb]

theorem land_arb (w : Option Store) (s : State) : (land w s).arb = s.arb := by
  cases w <;> rfl

/-- The end of an internal access, as one update of what its event leaves. -/
theorem endAccess_update (w : Option Store) (e : Ending) {s : State} (hp : s.arb.passing = false)
    (ha : (endingEvent e (land w s)).arb = s.arb) :
    endAccess w (some e) s = { endingEvent e (land w s) with
      writeMarks := (markStatusWords (land w s) (endingEvent e (land w s))).writeMarks } := by
  obtain ⟨A, hA, -, hA'⟩ := finish_update (land w s) (endingEvent e (land w s))
  show finish (land w s) (endingEvent e (land w s)) = _
  rw [hA, hA' (by rw [ha]; exact hp)]

/-- The grant of an access whose event comes at the grant, with no beat held behind it, before a memory that is ready. -/
theorem grant_update {s : State} {r : Requester} {w : Option Store} {event : State → State} (h : s.grants r = true)
    (hh : s.arb.held = none) (hm : s.arb.ready = true) (ha : (event (endWindow s)).arb = (endWindow s).arb) :
    grant r w event none s = .next (land w { event (endWindow s) with
      writeMarks := (markStatusWords s (event (endWindow s))).writeMarks, arb := s.arbAfterGrant }) := by
  obtain ⟨h1, h2, -⟩ := (grants_iff s r).mp h
  have he : (endWindow s).arb = s.arbAfterGrant := rfl
  obtain ⟨A, hA, -, hA'⟩ := finish_update s (event (endWindow s))
  have : A = s.arbAfterGrant := by
    rw [hA' (by rw [ha, he]; simp [Arbiter.passing, State.arbAfterGrant, h1, h2]), ha, he]
  subst this
  rw [grant_served h hm, hA]
  show Host.Outcome.next (releaseHeld (land w _)) = _
  rw [releaseHeld_none]
  rw [land_arb]
  exact hh

/-- The end of a window leaves nothing to mark. -/
theorem finish_endWindow {s : State} (hp : s.arb.passing = false) : finish s (endWindow s) = endWindow s := by
  obtain ⟨A, hA, -, hA'⟩ := finish_update s (endWindow s)
  rw [hA, hA' hp]
  simp [markStatusWords_eq, endWindow, State.partStatusA, State.partStatusB, State.slot, State.slotsInUse]

/-- The grant of a write whose event comes when it has been made, with no beat held behind it, before a memory that is
ready. -/
theorem grantWrite_update {s : State} {r : Requester} {w : Store} {e : Ending} (h : s.grants r = true)
    (hh : s.arb.held = none) (hm : s.arb.ready = true)
    (ha : (endingEvent e (land (some w) (endWindow s))).arb = (endWindow s).arb) :
    grantWrite r w e s = .next { endingEvent e (land (some w) (endWindow s)) with
      writeMarks := (markStatusWords (land (some w) (endWindow s))
        (endingEvent e (land (some w) (endWindow s)))).writeMarks } := by
  obtain ⟨h1, h2, -⟩ := (grants_iff s r).mp h
  have hp : s.arb.passing = false := by simp [Arbiter.passing, h1, h2]
  rw [grantWrite, grant_served h hm, id, finish_endWindow hp, endAccess_update (s := endWindow s) (some w) e hp ha, releaseHeld_none]
  show (endingEvent e (land (some w) (endWindow s))).arb.held = none
  rw [ha]
  exact hh

/-- A forwarded beat with its row's effect `s1`, as one update: the effect, the write-pending marks, the arbiter. -/
theorem present_update {s s1 : State} {row : BeatRow} {eff : Beat → State → State} {b : Beat} (hf : s.forwards = true)
    (hr : s.rowOf b = row) (he : eff b s = s1) (ha : s1.arb = s.arb) :
    ∃ A, present row eff b s = .next { s1 with writeMarks := (markStatusWords s s1).writeMarks, arb := A } ∧
      A = s.arbAfterBeat { s1 with writeMarks := (markStatusWords s s1).writeMarks, arb := A } b := by
  obtain ⟨A, h1, h2⟩ := finishBeat_update b s s1
  refine ⟨A, ?_, ?_⟩
  · rw [present_forwards hf hr, he, h1]
  · have := h2 ha
    rwa [h1] at this

/-- An event that leaves both part status words as they stand leaves the write-pending marks (R185). -/
theorem markStatusWords_same {s s1 : State} (hA : s1.partStatusA = s.partStatusA) (hB : s1.partStatusB = s.partStatusB)
    (hw : s1.writeMarks = s.writeMarks) : (markStatusWords s s1).writeMarks = s.writeMarks := by
  simp [markStatusWords_eq, hA, hB, hw]

/-- A forwarded beat whose effect touches no part status word, as one update. -/
theorem present_quiet {s s1 : State} {row : BeatRow} {eff : Beat → State → State} {b : Beat} (hf : s.forwards = true)
    (hr : s.rowOf b = row) (he : eff b s = s1) (ha : s1.arb = s.arb) (hA : s1.partStatusA = s.partStatusA)
    (hB : s1.partStatusB = s.partStatusB) (hw : s1.writeMarks = s.writeMarks) :
    ∃ A, present row eff b s = .next { s1 with arb := A } ∧ A = s.arbAfterBeat { s1 with arb := A } b := by
  obtain ⟨A, h1, h2⟩ := present_update hf hr he ha
  rw [markStatusWords_same hA hB hw, ← hw] at h1 h2
  exact ⟨A, h1, h2⟩

end Sys2Proof.Machine
end

