-- ==== Sys2Proof/Laws/Commands.lean ====
section
/-! SUPPORT. The laws of the mailbox: the beat of a command reaches the mailbox with its code, tag and argument, and is
taken as its row (R169, R171); the cut of a census (R168). -/

namespace Sys2Proof.Machine

/-- The Setup Block's page lies in the 24-bit space (R169). -/
theorem setupBase_le (s : State) : s.setupBase + 65536 ≤ 16777216 := by
  have := s.straps.isLt
  simp only [State.setupBase, Config.setupPage]
  omega

theorem setupBase_aligned (s : State) : s.setupBase % 65536 = 0 := by
  simp [State.setupBase, Config.setupPage]

/-- A command's beat is written to the mailbox (R171). -/
theorem wordAddr_mailboxBeat (s : State) (code tag : Byte) (arg : Half) (burst : Bool) :
    wordAddr (s.mailboxBeat code tag arg burst).addr.toNat = s.setupBase := by
  have h1 := setupBase_le s
  have h2 := setupBase_aligned s
  simp only [State.mailboxBeat, wordAddr, Config.busBytes, BitVec.toNat_ofNat]
  omega

/-- The fields of a mailbox word (12.4). -/
theorem mailboxWord_fields (code tag : Byte) (arg : Half) :
    mailboxCode (mailboxWord code tag arg) = code.toNat ∧ mailboxTag (mailboxWord code tag arg) = tag ∧
      mailboxArg (mailboxWord code tag arg) = arg := by
  refine ⟨?_, ?_, ?_⟩
  · rw [mailboxCode]
    congr 1
    ext i hi
    simp only [byteAt, mailboxWord, BitVec.getElem_setWidth, BitVec.getLsbD_ushiftRight, BitVec.getLsbD_append]
    have h1 : ¬ (8 * 3 + i < 16) := by omega
    have h2 : ¬ (8 * 3 + i - 16 < 8) := by omega
    have h3 : 8 * 3 + i - 16 - 8 = i := by omega
    simp [h1, h2, h3, BitVec.getLsbD_eq_getElem hi]
  · ext i hi
    simp only [mailboxTag, byteAt, mailboxWord, BitVec.getElem_setWidth, BitVec.getLsbD_ushiftRight,
      BitVec.getLsbD_append]
    have h1 : ¬ (8 * 2 + i < 16) := by omega
    have h2 : 8 * 2 + i - 16 = i := by omega
    simp [h1, h2, hi]
  · ext i hi
    simp only [mailboxArg, firstHalf, mailboxWord, BitVec.getElem_setWidth, BitVec.getLsbD_append]
    simp [hi]

/-- The tag that a command's beat carries is the command's (R171). -/
theorem beatTag_mailboxBeat (s : State) (code tag : Byte) (arg : Half) (burst : Bool) :
    beatTag (s.mailboxBeat code tag arg burst) = tag := by
  unfold beatTag
  rw [if_pos (by simp [State.mailboxBeat])]
  exact (mailboxWord_fields code tag arg).2.1

theorem mailboxArg_mailboxBeat (s : State) (code tag : Byte) (arg : Half) (burst : Bool) :
    mailboxArg (s.mailboxBeat code tag arg burst).data = arg := (mailboxWord_fields code tag arg).2.2

/-- A command's beat is taken as the row of its code (R171, R187). -/
theorem rowOf_mailboxBeat (s : State) (code tag : Byte) (arg : Half) (burst : Bool) (hp : s.arb.plain = false) :
    s.rowOf (s.mailboxBeat code tag arg burst) = match code.toNat with
      | 1 => .extend | 2 => .edit | 3 => .commit | 4 => .abandon | 5 => .settime | 6 => .forget | 7 => .maint
      | 8 => .census | 9 => .reset
      | _ => .badOpcode := by
  have hc : mailboxCode (s.mailboxBeat code tag arg burst).data = code.toNat := (mailboxWord_fields code tag arg).1
  have hf : (s.mailboxBeat code tag arg burst).full = true := rfl
  unfold State.rowOf
  rw [if_neg (by simp [hp, State.mailboxBeat])]
  unfold State.writeRow
  rw [wordAddr_mailboxBeat]
  have h0 : s.setupWordOf s.setupBase = some 0 := by
    simp [State.setupWordOf, Config.setupWords]
  rw [h0]
  simp only [mailboxRow, hf, if_true, hc] <;> rfl

/-- The cut of a census (R168): nothing without one or with one cut already, else the cut with its outcome. -/
theorem cutCensus_cases (s : State) :
    (cutCensus s = s ∧ ∀ c, s.census = some c → c.cut = true) ∨
    ∃ c, s.census = some c ∧ c.cut = false ∧
      cutCensus s = record c.tag .cut 0 { s with census := some { c with cut := true } } := by
  unfold cutCensus
  cases hs : s.census with
  | none => exact .inl ⟨rfl, by simp⟩
  | some c =>
    cases hc : c.cut with
    | true => exact .inl ⟨by simp only [hc, if_true], by simp [hc]⟩
    | false => exact .inr ⟨c, rfl, hc, by simp [hc]⟩

end Sys2Proof.Machine
end

