-- ==== Sys2Proof/Laws/State.lean ====
section
/-! SUPPORT. What each named update of State leaves in each field: one simp lemma per field per update, true by `rfl`,
so that no later proof unfolds a record update. -/

namespace Sys2Proof.Machine

@[simp] theorem State.store_pending (s : State) (a : Nat) (w : Word) : (s.store a w).pending = s.pending := rfl
@[simp] theorem State.store_mem (s : State) (a : Nat) (w : Word) : (s.store a w).mem = writeWord s.mem a w := rfl
@[simp] theorem State.store_straps (s : State) (a : Nat) (w : Word) : (s.store a w).straps = s.straps := rfl
@[simp] theorem State.store_arb (s : State) (a : Nat) (w : Word) : (s.store a w).arb = s.arb := rfl
@[simp] theorem State.store_readData (s : State) (a : Nat) (w : Word) : (s.store a w).readData = s.readData := rfl
@[simp] theorem State.store_writeMarks (s : State) (a : Nat) (w : Word) : (s.store a w).writeMarks = s.writeMarks := rfl
@[simp] theorem State.store_inputs (s : State) (a : Nat) (w : Word) : (s.store a w).inputs = s.inputs := rfl
@[simp] theorem State.store_time (s : State) (a : Nat) (w : Word) : (s.store a w).time = s.time := rfl
@[simp] theorem State.store_marks (s : State) (a : Nat) (w : Word) : (s.store a w).marks = s.marks := rfl
@[simp] theorem State.store_malformed (s : State) (a : Nat) (w : Word) : (s.store a w).malformed = s.malformed := rfl
@[simp] theorem State.store_unknown (s : State) (a : Nat) (w : Word) : (s.store a w).unknown = s.unknown := rfl
@[simp] theorem State.store_intakeRing (s : State) (a : Nat) (w : Word) : (s.store a w).intakeRing = s.intakeRing := rfl
@[simp] theorem State.store_entries (s : State) (a : Nat) (w : Word) : (s.store a w).entries = s.entries := rfl
@[simp] theorem State.store_nodes (s : State) (a : Nat) (w : Word) : (s.store a w).nodes = s.nodes := rfl
@[simp] theorem State.store_trunk (s : State) (a : Nat) (w : Word) : (s.store a w).trunk = s.trunk := rfl
@[simp] theorem State.store_gauge (s : State) (a : Nat) (w : Word) : (s.store a w).gauge = s.gauge := rfl
@[simp] theorem State.store_storm (s : State) (a : Nat) (w : Word) : (s.store a w).storm = s.storm := rfl
@[simp] theorem State.store_settle (s : State) (a : Nat) (w : Word) : (s.store a w).settle = s.settle := rfl
@[simp] theorem State.store_passRequest (s : State) (a : Nat) (w : Word) :
    (s.store a w).passRequest = s.passRequest := rfl
@[simp] theorem State.store_pass (s : State) (a : Nat) (w : Word) : (s.store a w).pass = s.pass := rfl
@[simp] theorem State.store_slots (s : State) (a : Nat) (w : Word) : (s.store a w).slots = s.slots := rfl
@[simp] theorem State.store_order (s : State) (a : Nat) (w : Word) : (s.store a w).order = s.order := rfl
@[simp] theorem State.store_nextNumber (s : State) (a : Nat) (w : Word) : (s.store a w).nextNumber = s.nextNumber := rfl
@[simp] theorem State.store_noticeRing (s : State) (a : Nat) (w : Word) : (s.store a w).noticeRing = s.noticeRing := rfl
@[simp] theorem State.store_producer (s : State) (a : Nat) (w : Word) : (s.store a w).producer = s.producer := rfl
@[simp] theorem State.store_consumer (s : State) (a : Nat) (w : Word) : (s.store a w).consumer = s.consumer := rfl
@[simp] theorem State.store_ringFault (s : State) (a : Nat) (w : Word) : (s.store a w).ringFault = s.ringFault := rfl
@[simp] theorem State.store_restart (s : State) (a : Nat) (w : Word) : (s.store a w).restart = s.restart := rfl
@[simp] theorem State.store_notice (s : State) (a : Nat) (w : Word) : (s.store a w).notice = s.notice := rfl
@[simp] theorem State.store_ringWaiting (s : State) (a : Nat) (w : Word) :
    (s.store a w).ringWaiting = s.ringWaiting := rfl
@[simp] theorem State.store_headerDue (s : State) (a : Nat) (w : Word) : (s.store a w).headerDue = s.headerDue := rfl
@[simp] theorem State.store_censusBase (s : State) (a : Nat) (w : Word) : (s.store a w).censusBase = s.censusBase := rfl
@[simp] theorem State.store_census (s : State) (a : Nat) (w : Word) : (s.store a w).census = s.census := rfl
@[simp] theorem State.store_part (s : State) (a : Nat) (w : Word) : (s.store a w).part = s.part := rfl
@[simp] theorem State.store_configured (s : State) (a : Nat) (w : Word) : (s.store a w).configured = s.configured := rfl
@[simp] theorem State.store_origin (s : State) (a : Nat) (w : Word) : (s.store a w).origin = s.origin := rfl
@[simp] theorem State.store_editTag (s : State) (a : Nat) (w : Word) : (s.store a w).editTag = s.editTag := rfl
@[simp] theorem State.store_editLimit (s : State) (a : Nat) (w : Word) : (s.store a w).editLimit = s.editLimit := rfl
@[simp] theorem State.store_latch (s : State) (a : Nat) (w : Word) : (s.store a w).latch = s.latch := rfl
@[simp] theorem State.store_load (s : State) (a : Nat) (w : Word) : (s.store a w).load = s.load := rfl
@[simp] theorem State.store_settings (s : State) (a : Nat) (w : Word) : (s.store a w).settings = s.settings := rfl
@[simp] theorem State.store_status (s : State) (a : Nat) (w : Word) : (s.store a w).status = s.status := rfl
@[simp] theorem State.store_disturbed (s : State) (a : Nat) (w : Word) : (s.store a w).disturbed = s.disturbed := rfl
@[simp] theorem State.store_clamped (s : State) (a : Nat) (w : Word) : (s.store a w).clamped = s.clamped := rfl

@[simp] theorem State.passBeat_pending (s : State) (b : Beat) (w : Word) : (s.passBeat b w).pending = s.pending := rfl
@[simp] theorem State.passBeat_mem (s : State) (b : Beat) (w : Word) :
    (s.passBeat b w).mem = writeBeat s.mem b.addr.toNat b.be w := rfl
@[simp] theorem State.passBeat_straps (s : State) (b : Beat) (w : Word) : (s.passBeat b w).straps = s.straps := rfl
@[simp] theorem State.passBeat_arb (s : State) (b : Beat) (w : Word) : (s.passBeat b w).arb = s.arb := rfl
@[simp] theorem State.passBeat_readData (s : State) (b : Beat) (w : Word) :
    (s.passBeat b w).readData = s.readData := rfl
@[simp] theorem State.passBeat_writeMarks (s : State) (b : Beat) (w : Word) :
    (s.passBeat b w).writeMarks = s.writeMarks := rfl
@[simp] theorem State.passBeat_inputs (s : State) (b : Beat) (w : Word) : (s.passBeat b w).inputs = s.inputs := rfl
@[simp] theorem State.passBeat_time (s : State) (b : Beat) (w : Word) : (s.passBeat b w).time = s.time := rfl
@[simp] theorem State.passBeat_marks (s : State) (b : Beat) (w : Word) : (s.passBeat b w).marks = s.marks := rfl
@[simp] theorem State.passBeat_malformed (s : State) (b : Beat) (w : Word) :
    (s.passBeat b w).malformed = s.malformed := rfl
@[simp] theorem State.passBeat_unknown (s : State) (b : Beat) (w : Word) : (s.passBeat b w).unknown = s.unknown := rfl
@[simp] theorem State.passBeat_intakeRing (s : State) (b : Beat) (w : Word) :
    (s.passBeat b w).intakeRing = s.intakeRing := rfl
@[simp] theorem State.passBeat_entries (s : State) (b : Beat) (w : Word) : (s.passBeat b w).entries = s.entries := rfl
@[simp] theorem State.passBeat_nodes (s : State) (b : Beat) (w : Word) : (s.passBeat b w).nodes = s.nodes := rfl
@[simp] theorem State.passBeat_trunk (s : State) (b : Beat) (w : Word) : (s.passBeat b w).trunk = s.trunk := rfl
@[simp] theorem State.passBeat_gauge (s : State) (b : Beat) (w : Word) : (s.passBeat b w).gauge = s.gauge := rfl
@[simp] theorem State.passBeat_storm (s : State) (b : Beat) (w : Word) : (s.passBeat b w).storm = s.storm := rfl
@[simp] theorem State.passBeat_settle (s : State) (b : Beat) (w : Word) : (s.passBeat b w).settle = s.settle := rfl
@[simp] theorem State.passBeat_passRequest (s : State) (b : Beat) (w : Word) :
    (s.passBeat b w).passRequest = s.passRequest := rfl
@[simp] theorem State.passBeat_pass (s : State) (b : Beat) (w : Word) : (s.passBeat b w).pass = s.pass := rfl
@[simp] theorem State.passBeat_slots (s : State) (b : Beat) (w : Word) : (s.passBeat b w).slots = s.slots := rfl
@[simp] theorem State.passBeat_order (s : State) (b : Beat) (w : Word) : (s.passBeat b w).order = s.order := rfl
@[simp] theorem State.passBeat_nextNumber (s : State) (b : Beat) (w : Word) :
    (s.passBeat b w).nextNumber = s.nextNumber := rfl
@[simp] theorem State.passBeat_noticeRing (s : State) (b : Beat) (w : Word) :
    (s.passBeat b w).noticeRing = s.noticeRing := rfl
@[simp] theorem State.passBeat_producer (s : State) (b : Beat) (w : Word) :
    (s.passBeat b w).producer = s.producer := rfl
@[simp] theorem State.passBeat_consumer (s : State) (b : Beat) (w : Word) :
    (s.passBeat b w).consumer = s.consumer := rfl
@[simp] theorem State.passBeat_ringFault (s : State) (b : Beat) (w : Word) :
    (s.passBeat b w).ringFault = s.ringFault := rfl
@[simp] theorem State.passBeat_restart (s : State) (b : Beat) (w : Word) : (s.passBeat b w).restart = s.restart := rfl
@[simp] theorem State.passBeat_notice (s : State) (b : Beat) (w : Word) : (s.passBeat b w).notice = s.notice := rfl
@[simp] theorem State.passBeat_ringWaiting (s : State) (b : Beat) (w : Word) :
    (s.passBeat b w).ringWaiting = s.ringWaiting := rfl
@[simp] theorem State.passBeat_headerDue (s : State) (b : Beat) (w : Word) :
    (s.passBeat b w).headerDue = s.headerDue := rfl
@[simp] theorem State.passBeat_censusBase (s : State) (b : Beat) (w : Word) :
    (s.passBeat b w).censusBase = s.censusBase := rfl
@[simp] theorem State.passBeat_census (s : State) (b : Beat) (w : Word) : (s.passBeat b w).census = s.census := rfl
@[simp] theorem State.passBeat_part (s : State) (b : Beat) (w : Word) : (s.passBeat b w).part = s.part := rfl
@[simp] theorem State.passBeat_configured (s : State) (b : Beat) (w : Word) :
    (s.passBeat b w).configured = s.configured := rfl
@[simp] theorem State.passBeat_origin (s : State) (b : Beat) (w : Word) : (s.passBeat b w).origin = s.origin := rfl
@[simp] theorem State.passBeat_editTag (s : State) (b : Beat) (w : Word) : (s.passBeat b w).editTag = s.editTag := rfl
@[simp] theorem State.passBeat_editLimit (s : State) (b : Beat) (w : Word) :
    (s.passBeat b w).editLimit = s.editLimit := rfl
@[simp] theorem State.passBeat_latch (s : State) (b : Beat) (w : Word) : (s.passBeat b w).latch = s.latch := rfl
@[simp] theorem State.passBeat_load (s : State) (b : Beat) (w : Word) : (s.passBeat b w).load = s.load := rfl
@[simp] theorem State.passBeat_settings (s : State) (b : Beat) (w : Word) :
    (s.passBeat b w).settings = s.settings := rfl
@[simp] theorem State.passBeat_status (s : State) (b : Beat) (w : Word) : (s.passBeat b w).status = s.status := rfl
@[simp] theorem State.passBeat_disturbed (s : State) (b : Beat) (w : Word) :
    (s.passBeat b w).disturbed = s.disturbed := rfl
@[simp] theorem State.passBeat_clamped (s : State) (b : Beat) (w : Word) : (s.passBeat b w).clamped = s.clamped := rfl

@[simp] theorem State.putEntry_pending (s : State) (t : Fin 512) (e : Entry) :
    (s.putEntry t e).pending = s.pending := rfl
@[simp] theorem State.putEntry_mem (s : State) (t : Fin 512) (e : Entry) : (s.putEntry t e).mem = s.mem := rfl
@[simp] theorem State.putEntry_straps (s : State) (t : Fin 512) (e : Entry) : (s.putEntry t e).straps = s.straps := rfl
@[simp] theorem State.putEntry_arb (s : State) (t : Fin 512) (e : Entry) : (s.putEntry t e).arb = s.arb := rfl
@[simp] theorem State.putEntry_readData (s : State) (t : Fin 512) (e : Entry) :
    (s.putEntry t e).readData = s.readData := rfl
@[simp] theorem State.putEntry_writeMarks (s : State) (t : Fin 512) (e : Entry) :
    (s.putEntry t e).writeMarks = s.writeMarks := rfl
@[simp] theorem State.putEntry_inputs (s : State) (t : Fin 512) (e : Entry) : (s.putEntry t e).inputs = s.inputs := rfl
@[simp] theorem State.putEntry_time (s : State) (t : Fin 512) (e : Entry) : (s.putEntry t e).time = s.time := rfl
@[simp] theorem State.putEntry_marks (s : State) (t : Fin 512) (e : Entry) : (s.putEntry t e).marks = s.marks := rfl
@[simp] theorem State.putEntry_malformed (s : State) (t : Fin 512) (e : Entry) :
    (s.putEntry t e).malformed = s.malformed := rfl
@[simp] theorem State.putEntry_unknown (s : State) (t : Fin 512) (e : Entry) :
    (s.putEntry t e).unknown = s.unknown := rfl
@[simp] theorem State.putEntry_intakeRing (s : State) (t : Fin 512) (e : Entry) :
    (s.putEntry t e).intakeRing = s.intakeRing := rfl
@[simp] theorem State.putEntry_entries (s : State) (t : Fin 512) (e : Entry) :
    (s.putEntry t e).entries = s.entries.set t e := rfl
@[simp] theorem State.putEntry_nodes (s : State) (t : Fin 512) (e : Entry) : (s.putEntry t e).nodes = s.nodes := rfl
@[simp] theorem State.putEntry_trunk (s : State) (t : Fin 512) (e : Entry) : (s.putEntry t e).trunk = s.trunk := rfl
@[simp] theorem State.putEntry_gauge (s : State) (t : Fin 512) (e : Entry) : (s.putEntry t e).gauge = s.gauge := rfl
@[simp] theorem State.putEntry_storm (s : State) (t : Fin 512) (e : Entry) : (s.putEntry t e).storm = s.storm := rfl
@[simp] theorem State.putEntry_settle (s : State) (t : Fin 512) (e : Entry) : (s.putEntry t e).settle = s.settle := rfl
@[simp] theorem State.putEntry_passRequest (s : State) (t : Fin 512) (e : Entry) :
    (s.putEntry t e).passRequest = s.passRequest := rfl
@[simp] theorem State.putEntry_pass (s : State) (t : Fin 512) (e : Entry) : (s.putEntry t e).pass = s.pass := rfl
@[simp] theorem State.putEntry_slots (s : State) (t : Fin 512) (e : Entry) : (s.putEntry t e).slots = s.slots := rfl
@[simp] theorem State.putEntry_order (s : State) (t : Fin 512) (e : Entry) : (s.putEntry t e).order = s.order := rfl
@[simp] theorem State.putEntry_nextNumber (s : State) (t : Fin 512) (e : Entry) :
    (s.putEntry t e).nextNumber = s.nextNumber := rfl
@[simp] theorem State.putEntry_noticeRing (s : State) (t : Fin 512) (e : Entry) :
    (s.putEntry t e).noticeRing = s.noticeRing := rfl
@[simp] theorem State.putEntry_producer (s : State) (t : Fin 512) (e : Entry) :
    (s.putEntry t e).producer = s.producer := rfl
@[simp] theorem State.putEntry_consumer (s : State) (t : Fin 512) (e : Entry) :
    (s.putEntry t e).consumer = s.consumer := rfl
@[simp] theorem State.putEntry_ringFault (s : State) (t : Fin 512) (e : Entry) :
    (s.putEntry t e).ringFault = s.ringFault := rfl
@[simp] theorem State.putEntry_restart (s : State) (t : Fin 512) (e : Entry) :
    (s.putEntry t e).restart = s.restart := rfl
@[simp] theorem State.putEntry_notice (s : State) (t : Fin 512) (e : Entry) : (s.putEntry t e).notice = s.notice := rfl
@[simp] theorem State.putEntry_ringWaiting (s : State) (t : Fin 512) (e : Entry) :
    (s.putEntry t e).ringWaiting = s.ringWaiting := rfl
@[simp] theorem State.putEntry_headerDue (s : State) (t : Fin 512) (e : Entry) :
    (s.putEntry t e).headerDue = s.headerDue := rfl
@[simp] theorem State.putEntry_censusBase (s : State) (t : Fin 512) (e : Entry) :
    (s.putEntry t e).censusBase = s.censusBase := rfl
@[simp] theorem State.putEntry_census (s : State) (t : Fin 512) (e : Entry) : (s.putEntry t e).census = s.census := rfl
@[simp] theorem State.putEntry_part (s : State) (t : Fin 512) (e : Entry) : (s.putEntry t e).part = s.part := rfl
@[simp] theorem State.putEntry_configured (s : State) (t : Fin 512) (e : Entry) :
    (s.putEntry t e).configured = s.configured := rfl
@[simp] theorem State.putEntry_origin (s : State) (t : Fin 512) (e : Entry) : (s.putEntry t e).origin = s.origin := rfl
@[simp] theorem State.putEntry_editTag (s : State) (t : Fin 512) (e : Entry) :
    (s.putEntry t e).editTag = s.editTag := rfl
@[simp] theorem State.putEntry_editLimit (s : State) (t : Fin 512) (e : Entry) :
    (s.putEntry t e).editLimit = s.editLimit := rfl
@[simp] theorem State.putEntry_latch (s : State) (t : Fin 512) (e : Entry) : (s.putEntry t e).latch = s.latch := rfl
@[simp] theorem State.putEntry_load (s : State) (t : Fin 512) (e : Entry) : (s.putEntry t e).load = s.load := rfl
@[simp] theorem State.putEntry_settings (s : State) (t : Fin 512) (e : Entry) :
    (s.putEntry t e).settings = s.settings := rfl
@[simp] theorem State.putEntry_status (s : State) (t : Fin 512) (e : Entry) : (s.putEntry t e).status = s.status := rfl
@[simp] theorem State.putEntry_disturbed (s : State) (t : Fin 512) (e : Entry) :
    (s.putEntry t e).disturbed = s.disturbed := rfl
@[simp] theorem State.putEntry_clamped (s : State) (t : Fin 512) (e : Entry) :
    (s.putEntry t e).clamped = s.clamped := rfl

@[simp] theorem State.putSlot_pending (s : State) (k : Fin 32) (i : Incident) :
    (s.putSlot k i).pending = s.pending := rfl
@[simp] theorem State.putSlot_mem (s : State) (k : Fin 32) (i : Incident) : (s.putSlot k i).mem = s.mem := rfl
@[simp] theorem State.putSlot_straps (s : State) (k : Fin 32) (i : Incident) : (s.putSlot k i).straps = s.straps := rfl
@[simp] theorem State.putSlot_arb (s : State) (k : Fin 32) (i : Incident) : (s.putSlot k i).arb = s.arb := rfl
@[simp] theorem State.putSlot_readData (s : State) (k : Fin 32) (i : Incident) :
    (s.putSlot k i).readData = s.readData := rfl
@[simp] theorem State.putSlot_writeMarks (s : State) (k : Fin 32) (i : Incident) :
    (s.putSlot k i).writeMarks = s.writeMarks := rfl
@[simp] theorem State.putSlot_inputs (s : State) (k : Fin 32) (i : Incident) : (s.putSlot k i).inputs = s.inputs := rfl
@[simp] theorem State.putSlot_time (s : State) (k : Fin 32) (i : Incident) : (s.putSlot k i).time = s.time := rfl
@[simp] theorem State.putSlot_marks (s : State) (k : Fin 32) (i : Incident) : (s.putSlot k i).marks = s.marks := rfl
@[simp] theorem State.putSlot_malformed (s : State) (k : Fin 32) (i : Incident) :
    (s.putSlot k i).malformed = s.malformed := rfl
@[simp] theorem State.putSlot_unknown (s : State) (k : Fin 32) (i : Incident) :
    (s.putSlot k i).unknown = s.unknown := rfl
@[simp] theorem State.putSlot_intakeRing (s : State) (k : Fin 32) (i : Incident) :
    (s.putSlot k i).intakeRing = s.intakeRing := rfl
@[simp] theorem State.putSlot_entries (s : State) (k : Fin 32) (i : Incident) :
    (s.putSlot k i).entries = s.entries := rfl
@[simp] theorem State.putSlot_nodes (s : State) (k : Fin 32) (i : Incident) : (s.putSlot k i).nodes = s.nodes := rfl
@[simp] theorem State.putSlot_trunk (s : State) (k : Fin 32) (i : Incident) : (s.putSlot k i).trunk = s.trunk := rfl
@[simp] theorem State.putSlot_gauge (s : State) (k : Fin 32) (i : Incident) : (s.putSlot k i).gauge = s.gauge := rfl
@[simp] theorem State.putSlot_storm (s : State) (k : Fin 32) (i : Incident) : (s.putSlot k i).storm = s.storm := rfl
@[simp] theorem State.putSlot_settle (s : State) (k : Fin 32) (i : Incident) : (s.putSlot k i).settle = s.settle := rfl
@[simp] theorem State.putSlot_passRequest (s : State) (k : Fin 32) (i : Incident) :
    (s.putSlot k i).passRequest = s.passRequest := rfl
@[simp] theorem State.putSlot_pass (s : State) (k : Fin 32) (i : Incident) : (s.putSlot k i).pass = s.pass := rfl
@[simp] theorem State.putSlot_slots (s : State) (k : Fin 32) (i : Incident) :
    (s.putSlot k i).slots = s.slots.set k (some i) := rfl
@[simp] theorem State.putSlot_order (s : State) (k : Fin 32) (i : Incident) : (s.putSlot k i).order = s.order := rfl
@[simp] theorem State.putSlot_nextNumber (s : State) (k : Fin 32) (i : Incident) :
    (s.putSlot k i).nextNumber = s.nextNumber := rfl
@[simp] theorem State.putSlot_noticeRing (s : State) (k : Fin 32) (i : Incident) :
    (s.putSlot k i).noticeRing = s.noticeRing := rfl
@[simp] theorem State.putSlot_producer (s : State) (k : Fin 32) (i : Incident) :
    (s.putSlot k i).producer = s.producer := rfl
@[simp] theorem State.putSlot_consumer (s : State) (k : Fin 32) (i : Incident) :
    (s.putSlot k i).consumer = s.consumer := rfl
@[simp] theorem State.putSlot_ringFault (s : State) (k : Fin 32) (i : Incident) :
    (s.putSlot k i).ringFault = s.ringFault := rfl
@[simp] theorem State.putSlot_restart (s : State) (k : Fin 32) (i : Incident) :
    (s.putSlot k i).restart = s.restart := rfl
@[simp] theorem State.putSlot_notice (s : State) (k : Fin 32) (i : Incident) : (s.putSlot k i).notice = s.notice := rfl
@[simp] theorem State.putSlot_ringWaiting (s : State) (k : Fin 32) (i : Incident) :
    (s.putSlot k i).ringWaiting = s.ringWaiting := rfl
@[simp] theorem State.putSlot_headerDue (s : State) (k : Fin 32) (i : Incident) :
    (s.putSlot k i).headerDue = s.headerDue := rfl
@[simp] theorem State.putSlot_censusBase (s : State) (k : Fin 32) (i : Incident) :
    (s.putSlot k i).censusBase = s.censusBase := rfl
@[simp] theorem State.putSlot_census (s : State) (k : Fin 32) (i : Incident) : (s.putSlot k i).census = s.census := rfl
@[simp] theorem State.putSlot_part (s : State) (k : Fin 32) (i : Incident) : (s.putSlot k i).part = s.part := rfl
@[simp] theorem State.putSlot_configured (s : State) (k : Fin 32) (i : Incident) :
    (s.putSlot k i).configured = s.configured := rfl
@[simp] theorem State.putSlot_origin (s : State) (k : Fin 32) (i : Incident) : (s.putSlot k i).origin = s.origin := rfl
@[simp] theorem State.putSlot_editTag (s : State) (k : Fin 32) (i : Incident) :
    (s.putSlot k i).editTag = s.editTag := rfl
@[simp] theorem State.putSlot_editLimit (s : State) (k : Fin 32) (i : Incident) :
    (s.putSlot k i).editLimit = s.editLimit := rfl
@[simp] theorem State.putSlot_latch (s : State) (k : Fin 32) (i : Incident) : (s.putSlot k i).latch = s.latch := rfl
@[simp] theorem State.putSlot_load (s : State) (k : Fin 32) (i : Incident) : (s.putSlot k i).load = s.load := rfl
@[simp] theorem State.putSlot_settings (s : State) (k : Fin 32) (i : Incident) :
    (s.putSlot k i).settings = s.settings := rfl
@[simp] theorem State.putSlot_status (s : State) (k : Fin 32) (i : Incident) : (s.putSlot k i).status = s.status := rfl
@[simp] theorem State.putSlot_disturbed (s : State) (k : Fin 32) (i : Incident) :
    (s.putSlot k i).disturbed = s.disturbed := rfl
@[simp] theorem State.putSlot_clamped (s : State) (k : Fin 32) (i : Incident) :
    (s.putSlot k i).clamped = s.clamped := rfl

@[simp] theorem record_pending (tag : Byte) (o : CmdOutcome) (d : Nat) (s : State) :
    (record tag o d s).pending = s.pending := rfl
@[simp] theorem record_mem (tag : Byte) (o : CmdOutcome) (d : Nat) (s : State) : (record tag o d s).mem = s.mem := rfl
@[simp] theorem record_straps (tag : Byte) (o : CmdOutcome) (d : Nat) (s : State) :
    (record tag o d s).straps = s.straps := rfl
@[simp] theorem record_arb (tag : Byte) (o : CmdOutcome) (d : Nat) (s : State) : (record tag o d s).arb = s.arb := rfl
@[simp] theorem record_readData (tag : Byte) (o : CmdOutcome) (d : Nat) (s : State) :
    (record tag o d s).readData = s.readData := rfl
@[simp] theorem record_writeMarks (tag : Byte) (o : CmdOutcome) (d : Nat) (s : State) :
    (record tag o d s).writeMarks = { s.writeMarks with status := true } := rfl
@[simp] theorem record_inputs (tag : Byte) (o : CmdOutcome) (d : Nat) (s : State) :
    (record tag o d s).inputs = s.inputs := rfl
@[simp] theorem record_time (tag : Byte) (o : CmdOutcome) (d : Nat) (s : State) :
    (record tag o d s).time = s.time := rfl
@[simp] theorem record_marks (tag : Byte) (o : CmdOutcome) (d : Nat) (s : State) :
    (record tag o d s).marks = s.marks := rfl
@[simp] theorem record_malformed (tag : Byte) (o : CmdOutcome) (d : Nat) (s : State) :
    (record tag o d s).malformed = s.malformed := rfl
@[simp] theorem record_unknown (tag : Byte) (o : CmdOutcome) (d : Nat) (s : State) :
    (record tag o d s).unknown = s.unknown := rfl
@[simp] theorem record_intakeRing (tag : Byte) (o : CmdOutcome) (d : Nat) (s : State) :
    (record tag o d s).intakeRing = s.intakeRing := rfl
@[simp] theorem record_entries (tag : Byte) (o : CmdOutcome) (d : Nat) (s : State) :
    (record tag o d s).entries = s.entries := rfl
@[simp] theorem record_nodes (tag : Byte) (o : CmdOutcome) (d : Nat) (s : State) :
    (record tag o d s).nodes = s.nodes := rfl
@[simp] theorem record_trunk (tag : Byte) (o : CmdOutcome) (d : Nat) (s : State) :
    (record tag o d s).trunk = s.trunk := rfl
@[simp] theorem record_gauge (tag : Byte) (o : CmdOutcome) (d : Nat) (s : State) :
    (record tag o d s).gauge = s.gauge := rfl
@[simp] theorem record_storm (tag : Byte) (o : CmdOutcome) (d : Nat) (s : State) :
    (record tag o d s).storm = s.storm := rfl
@[simp] theorem record_settle (tag : Byte) (o : CmdOutcome) (d : Nat) (s : State) :
    (record tag o d s).settle = s.settle := rfl
@[simp] theorem record_passRequest (tag : Byte) (o : CmdOutcome) (d : Nat) (s : State) :
    (record tag o d s).passRequest = s.passRequest := rfl
@[simp] theorem record_pass (tag : Byte) (o : CmdOutcome) (d : Nat) (s : State) :
    (record tag o d s).pass = s.pass := rfl
@[simp] theorem record_slots (tag : Byte) (o : CmdOutcome) (d : Nat) (s : State) :
    (record tag o d s).slots = s.slots := rfl
@[simp] theorem record_order (tag : Byte) (o : CmdOutcome) (d : Nat) (s : State) :
    (record tag o d s).order = s.order := rfl
@[simp] theorem record_nextNumber (tag : Byte) (o : CmdOutcome) (d : Nat) (s : State) :
    (record tag o d s).nextNumber = s.nextNumber := rfl
@[simp] theorem record_noticeRing (tag : Byte) (o : CmdOutcome) (d : Nat) (s : State) :
    (record tag o d s).noticeRing = s.noticeRing := rfl
@[simp] theorem record_producer (tag : Byte) (o : CmdOutcome) (d : Nat) (s : State) :
    (record tag o d s).producer = s.producer := rfl
@[simp] theorem record_consumer (tag : Byte) (o : CmdOutcome) (d : Nat) (s : State) :
    (record tag o d s).consumer = s.consumer := rfl
@[simp] theorem record_ringFault (tag : Byte) (o : CmdOutcome) (d : Nat) (s : State) :
    (record tag o d s).ringFault = s.ringFault := rfl
@[simp] theorem record_restart (tag : Byte) (o : CmdOutcome) (d : Nat) (s : State) :
    (record tag o d s).restart = s.restart := rfl
@[simp] theorem record_notice (tag : Byte) (o : CmdOutcome) (d : Nat) (s : State) :
    (record tag o d s).notice = s.notice := rfl
@[simp] theorem record_ringWaiting (tag : Byte) (o : CmdOutcome) (d : Nat) (s : State) :
    (record tag o d s).ringWaiting = s.ringWaiting := rfl
@[simp] theorem record_headerDue (tag : Byte) (o : CmdOutcome) (d : Nat) (s : State) :
    (record tag o d s).headerDue = s.headerDue := rfl
@[simp] theorem record_censusBase (tag : Byte) (o : CmdOutcome) (d : Nat) (s : State) :
    (record tag o d s).censusBase = s.censusBase := rfl
@[simp] theorem record_census (tag : Byte) (o : CmdOutcome) (d : Nat) (s : State) :
    (record tag o d s).census = s.census := rfl
@[simp] theorem record_part (tag : Byte) (o : CmdOutcome) (d : Nat) (s : State) :
    (record tag o d s).part = s.part := rfl
@[simp] theorem record_configured (tag : Byte) (o : CmdOutcome) (d : Nat) (s : State) :
    (record tag o d s).configured = s.configured := rfl
@[simp] theorem record_origin (tag : Byte) (o : CmdOutcome) (d : Nat) (s : State) :
    (record tag o d s).origin = s.origin := rfl
@[simp] theorem record_editTag (tag : Byte) (o : CmdOutcome) (d : Nat) (s : State) :
    (record tag o d s).editTag = s.editTag := rfl
@[simp] theorem record_editLimit (tag : Byte) (o : CmdOutcome) (d : Nat) (s : State) :
    (record tag o d s).editLimit = s.editLimit := rfl
@[simp] theorem record_latch (tag : Byte) (o : CmdOutcome) (d : Nat) (s : State) :
    (record tag o d s).latch = s.latch := rfl
@[simp] theorem record_load (tag : Byte) (o : CmdOutcome) (d : Nat) (s : State) :
    (record tag o d s).load = s.load := rfl
@[simp] theorem record_settings (tag : Byte) (o : CmdOutcome) (d : Nat) (s : State) :
    (record tag o d s).settings = s.settings := rfl
@[simp] theorem record_status (tag : Byte) (o : CmdOutcome) (d : Nat) (s : State) :
    (record tag o d s).status = { tag, outcome := o, detail := d } := rfl
@[simp] theorem record_disturbed (tag : Byte) (o : CmdOutcome) (d : Nat) (s : State) :
    (record tag o d s).disturbed = s.disturbed := rfl
@[simp] theorem record_clamped (tag : Byte) (o : CmdOutcome) (d : Nat) (s : State) :
    (record tag o d s).clamped = s.clamped := rfl

@[simp] theorem endWindow_pending (s : State) : (endWindow s).pending = s.pending := rfl
@[simp] theorem endWindow_mem (s : State) : (endWindow s).mem = s.mem := rfl
@[simp] theorem endWindow_straps (s : State) : (endWindow s).straps = s.straps := rfl
@[simp] theorem endWindow_arb (s : State) : (endWindow s).arb = { s.arb with window := none, impatient := false } := rfl
@[simp] theorem endWindow_readData (s : State) : (endWindow s).readData = s.readData := rfl
@[simp] theorem endWindow_writeMarks (s : State) : (endWindow s).writeMarks = s.writeMarks := rfl
@[simp] theorem endWindow_inputs (s : State) : (endWindow s).inputs = s.inputs := rfl
@[simp] theorem endWindow_time (s : State) : (endWindow s).time = s.time := rfl
@[simp] theorem endWindow_marks (s : State) : (endWindow s).marks = s.marks := rfl
@[simp] theorem endWindow_malformed (s : State) : (endWindow s).malformed = s.malformed := rfl
@[simp] theorem endWindow_unknown (s : State) : (endWindow s).unknown = s.unknown := rfl
@[simp] theorem endWindow_intakeRing (s : State) : (endWindow s).intakeRing = s.intakeRing := rfl
@[simp] theorem endWindow_entries (s : State) : (endWindow s).entries = s.entries := rfl
@[simp] theorem endWindow_nodes (s : State) : (endWindow s).nodes = s.nodes := rfl
@[simp] theorem endWindow_trunk (s : State) : (endWindow s).trunk = s.trunk := rfl
@[simp] theorem endWindow_gauge (s : State) : (endWindow s).gauge = s.gauge := rfl
@[simp] theorem endWindow_storm (s : State) : (endWindow s).storm = s.storm := rfl
@[simp] theorem endWindow_settle (s : State) : (endWindow s).settle = s.settle := rfl
@[simp] theorem endWindow_passRequest (s : State) : (endWindow s).passRequest = s.passRequest := rfl
@[simp] theorem endWindow_pass (s : State) : (endWindow s).pass = s.pass := rfl
@[simp] theorem endWindow_slots (s : State) : (endWindow s).slots = s.slots := rfl
@[simp] theorem endWindow_order (s : State) : (endWindow s).order = s.order := rfl
@[simp] theorem endWindow_nextNumber (s : State) : (endWindow s).nextNumber = s.nextNumber := rfl
@[simp] theorem endWindow_noticeRing (s : State) : (endWindow s).noticeRing = s.noticeRing := rfl
@[simp] theorem endWindow_producer (s : State) : (endWindow s).producer = s.producer := rfl
@[simp] theorem endWindow_consumer (s : State) : (endWindow s).consumer = s.consumer := rfl
@[simp] theorem endWindow_ringFault (s : State) : (endWindow s).ringFault = s.ringFault := rfl
@[simp] theorem endWindow_restart (s : State) : (endWindow s).restart = s.restart := rfl
@[simp] theorem endWindow_notice (s : State) : (endWindow s).notice = s.notice := rfl
@[simp] theorem endWindow_ringWaiting (s : State) : (endWindow s).ringWaiting = s.ringWaiting := rfl
@[simp] theorem endWindow_headerDue (s : State) : (endWindow s).headerDue = s.headerDue := rfl
@[simp] theorem endWindow_censusBase (s : State) : (endWindow s).censusBase = s.censusBase := rfl
@[simp] theorem endWindow_census (s : State) : (endWindow s).census = s.census := rfl
@[simp] theorem endWindow_part (s : State) : (endWindow s).part = s.part := rfl
@[simp] theorem endWindow_configured (s : State) : (endWindow s).configured = s.configured := rfl
@[simp] theorem endWindow_origin (s : State) : (endWindow s).origin = s.origin := rfl
@[simp] theorem endWindow_editTag (s : State) : (endWindow s).editTag = s.editTag := rfl
@[simp] theorem endWindow_editLimit (s : State) : (endWindow s).editLimit = s.editLimit := rfl
@[simp] theorem endWindow_latch (s : State) : (endWindow s).latch = s.latch := rfl
@[simp] theorem endWindow_load (s : State) : (endWindow s).load = s.load := rfl
@[simp] theorem endWindow_settings (s : State) : (endWindow s).settings = s.settings := rfl
@[simp] theorem endWindow_status (s : State) : (endWindow s).status = s.status := rfl
@[simp] theorem endWindow_disturbed (s : State) : (endWindow s).disturbed = s.disturbed := rfl
@[simp] theorem endWindow_clamped (s : State) : (endWindow s).clamped = s.clamped := rfl

@[simp] theorem markStatusWords_pending (s0 s : State) : (markStatusWords s0 s).pending = s.pending := rfl
@[simp] theorem markStatusWords_mem (s0 s : State) : (markStatusWords s0 s).mem = s.mem := rfl
@[simp] theorem markStatusWords_straps (s0 s : State) : (markStatusWords s0 s).straps = s.straps := rfl
@[simp] theorem markStatusWords_arb (s0 s : State) : (markStatusWords s0 s).arb = s.arb := rfl
@[simp] theorem markStatusWords_readData (s0 s : State) : (markStatusWords s0 s).readData = s.readData := rfl
@[simp] theorem markStatusWords_writeMarks (s0 s : State) : (markStatusWords s0 s).writeMarks =
    { status := s.writeMarks.status
      partA := s.writeMarks.partA || s.partStatusA != s0.partStatusA
      partB := s.writeMarks.partB || s.partStatusB != s0.partStatusB } := rfl
@[simp] theorem markStatusWords_inputs (s0 s : State) : (markStatusWords s0 s).inputs = s.inputs := rfl
@[simp] theorem markStatusWords_time (s0 s : State) : (markStatusWords s0 s).time = s.time := rfl
@[simp] theorem markStatusWords_marks (s0 s : State) : (markStatusWords s0 s).marks = s.marks := rfl
@[simp] theorem markStatusWords_malformed (s0 s : State) : (markStatusWords s0 s).malformed = s.malformed := rfl
@[simp] theorem markStatusWords_unknown (s0 s : State) : (markStatusWords s0 s).unknown = s.unknown := rfl
@[simp] theorem markStatusWords_intakeRing (s0 s : State) : (markStatusWords s0 s).intakeRing = s.intakeRing := rfl
@[simp] theorem markStatusWords_entries (s0 s : State) : (markStatusWords s0 s).entries = s.entries := rfl
@[simp] theorem markStatusWords_nodes (s0 s : State) : (markStatusWords s0 s).nodes = s.nodes := rfl
@[simp] theorem markStatusWords_trunk (s0 s : State) : (markStatusWords s0 s).trunk = s.trunk := rfl
@[simp] theorem markStatusWords_gauge (s0 s : State) : (markStatusWords s0 s).gauge = s.gauge := rfl
@[simp] theorem markStatusWords_storm (s0 s : State) : (markStatusWords s0 s).storm = s.storm := rfl
@[simp] theorem markStatusWords_settle (s0 s : State) : (markStatusWords s0 s).settle = s.settle := rfl
@[simp] theorem markStatusWords_passRequest (s0 s : State) : (markStatusWords s0 s).passRequest = s.passRequest := rfl
@[simp] theorem markStatusWords_pass (s0 s : State) : (markStatusWords s0 s).pass = s.pass := rfl
@[simp] theorem markStatusWords_slots (s0 s : State) : (markStatusWords s0 s).slots = s.slots := rfl
@[simp] theorem markStatusWords_order (s0 s : State) : (markStatusWords s0 s).order = s.order := rfl
@[simp] theorem markStatusWords_nextNumber (s0 s : State) : (markStatusWords s0 s).nextNumber = s.nextNumber := rfl
@[simp] theorem markStatusWords_noticeRing (s0 s : State) : (markStatusWords s0 s).noticeRing = s.noticeRing := rfl
@[simp] theorem markStatusWords_producer (s0 s : State) : (markStatusWords s0 s).producer = s.producer := rfl
@[simp] theorem markStatusWords_consumer (s0 s : State) : (markStatusWords s0 s).consumer = s.consumer := rfl
@[simp] theorem markStatusWords_ringFault (s0 s : State) : (markStatusWords s0 s).ringFault = s.ringFault := rfl
@[simp] theorem markStatusWords_restart (s0 s : State) : (markStatusWords s0 s).restart = s.restart := rfl
@[simp] theorem markStatusWords_notice (s0 s : State) : (markStatusWords s0 s).notice = s.notice := rfl
@[simp] theorem markStatusWords_ringWaiting (s0 s : State) : (markStatusWords s0 s).ringWaiting = s.ringWaiting := rfl
@[simp] theorem markStatusWords_headerDue (s0 s : State) : (markStatusWords s0 s).headerDue = s.headerDue := rfl
@[simp] theorem markStatusWords_censusBase (s0 s : State) : (markStatusWords s0 s).censusBase = s.censusBase := rfl
@[simp] theorem markStatusWords_census (s0 s : State) : (markStatusWords s0 s).census = s.census := rfl
@[simp] theorem markStatusWords_part (s0 s : State) : (markStatusWords s0 s).part = s.part := rfl
@[simp] theorem markStatusWords_configured (s0 s : State) : (markStatusWords s0 s).configured = s.configured := rfl
@[simp] theorem markStatusWords_origin (s0 s : State) : (markStatusWords s0 s).origin = s.origin := rfl
@[simp] theorem markStatusWords_editTag (s0 s : State) : (markStatusWords s0 s).editTag = s.editTag := rfl
@[simp] theorem markStatusWords_editLimit (s0 s : State) : (markStatusWords s0 s).editLimit = s.editLimit := rfl
@[simp] theorem markStatusWords_latch (s0 s : State) : (markStatusWords s0 s).latch = s.latch := rfl
@[simp] theorem markStatusWords_load (s0 s : State) : (markStatusWords s0 s).load = s.load := rfl
@[simp] theorem markStatusWords_settings (s0 s : State) : (markStatusWords s0 s).settings = s.settings := rfl
@[simp] theorem markStatusWords_status (s0 s : State) : (markStatusWords s0 s).status = s.status := rfl
@[simp] theorem markStatusWords_disturbed (s0 s : State) : (markStatusWords s0 s).disturbed = s.disturbed := rfl
@[simp] theorem markStatusWords_clamped (s0 s : State) : (markStatusWords s0 s).clamped = s.clamped := rfl

@[simp] theorem freeSlot_pending (k : Fin 32) (s : State) : (freeSlot k s).pending = s.pending := rfl
@[simp] theorem freeSlot_mem (k : Fin 32) (s : State) : (freeSlot k s).mem = s.mem := rfl
@[simp] theorem freeSlot_straps (k : Fin 32) (s : State) : (freeSlot k s).straps = s.straps := rfl
@[simp] theorem freeSlot_arb (k : Fin 32) (s : State) : (freeSlot k s).arb = s.arb := rfl
@[simp] theorem freeSlot_readData (k : Fin 32) (s : State) : (freeSlot k s).readData = s.readData := rfl
@[simp] theorem freeSlot_writeMarks (k : Fin 32) (s : State) :
    (freeSlot k s).writeMarks = { s.writeMarks with partA := true } := rfl
@[simp] theorem freeSlot_inputs (k : Fin 32) (s : State) : (freeSlot k s).inputs = s.inputs := rfl
@[simp] theorem freeSlot_time (k : Fin 32) (s : State) : (freeSlot k s).time = s.time := rfl
@[simp] theorem freeSlot_marks (k : Fin 32) (s : State) : (freeSlot k s).marks = s.marks := rfl
@[simp] theorem freeSlot_malformed (k : Fin 32) (s : State) : (freeSlot k s).malformed = s.malformed := rfl
@[simp] theorem freeSlot_unknown (k : Fin 32) (s : State) : (freeSlot k s).unknown = s.unknown := rfl
@[simp] theorem freeSlot_intakeRing (k : Fin 32) (s : State) : (freeSlot k s).intakeRing = s.intakeRing := rfl
@[simp] theorem freeSlot_entries (k : Fin 32) (s : State) : (freeSlot k s).entries =
    mapTable (fun _ e => if e.covering = some k then { e with covering := none } else e) s.entries := rfl
@[simp] theorem freeSlot_nodes (k : Fin 32) (s : State) : (freeSlot k s).nodes = s.nodes := rfl
@[simp] theorem freeSlot_trunk (k : Fin 32) (s : State) : (freeSlot k s).trunk = s.trunk := rfl
@[simp] theorem freeSlot_gauge (k : Fin 32) (s : State) : (freeSlot k s).gauge = s.gauge := rfl
@[simp] theorem freeSlot_storm (k : Fin 32) (s : State) : (freeSlot k s).storm = s.storm := rfl
@[simp] theorem freeSlot_settle (k : Fin 32) (s : State) : (freeSlot k s).settle = s.settle := rfl
@[simp] theorem freeSlot_passRequest (k : Fin 32) (s : State) : (freeSlot k s).passRequest = s.passRequest := rfl
@[simp] theorem freeSlot_pass (k : Fin 32) (s : State) : (freeSlot k s).pass = s.pass := rfl
@[simp] theorem freeSlot_slots (k : Fin 32) (s : State) : (freeSlot k s).slots = s.slots.set k none := rfl
@[simp] theorem freeSlot_order (k : Fin 32) (s : State) : (freeSlot k s).order = s.order.filter (· ≠ k) := rfl
@[simp] theorem freeSlot_nextNumber (k : Fin 32) (s : State) : (freeSlot k s).nextNumber = s.nextNumber := rfl
@[simp] theorem freeSlot_noticeRing (k : Fin 32) (s : State) : (freeSlot k s).noticeRing = s.noticeRing := rfl
@[simp] theorem freeSlot_producer (k : Fin 32) (s : State) : (freeSlot k s).producer = s.producer := rfl
@[simp] theorem freeSlot_consumer (k : Fin 32) (s : State) : (freeSlot k s).consumer = s.consumer := rfl
@[simp] theorem freeSlot_ringFault (k : Fin 32) (s : State) : (freeSlot k s).ringFault = s.ringFault := rfl
@[simp] theorem freeSlot_restart (k : Fin 32) (s : State) : (freeSlot k s).restart = s.restart := rfl
@[simp] theorem freeSlot_notice (k : Fin 32) (s : State) : (freeSlot k s).notice = s.notice := rfl
@[simp] theorem freeSlot_ringWaiting (k : Fin 32) (s : State) : (freeSlot k s).ringWaiting = s.ringWaiting := rfl
@[simp] theorem freeSlot_headerDue (k : Fin 32) (s : State) : (freeSlot k s).headerDue = s.headerDue := rfl
@[simp] theorem freeSlot_censusBase (k : Fin 32) (s : State) : (freeSlot k s).censusBase = s.censusBase := rfl
@[simp] theorem freeSlot_census (k : Fin 32) (s : State) : (freeSlot k s).census = s.census := rfl
@[simp] theorem freeSlot_part (k : Fin 32) (s : State) : (freeSlot k s).part = s.part := rfl
@[simp] theorem freeSlot_configured (k : Fin 32) (s : State) : (freeSlot k s).configured = s.configured := rfl
@[simp] theorem freeSlot_origin (k : Fin 32) (s : State) : (freeSlot k s).origin = s.origin := rfl
@[simp] theorem freeSlot_editTag (k : Fin 32) (s : State) : (freeSlot k s).editTag = s.editTag := rfl
@[simp] theorem freeSlot_editLimit (k : Fin 32) (s : State) : (freeSlot k s).editLimit = s.editLimit := rfl
@[simp] theorem freeSlot_latch (k : Fin 32) (s : State) : (freeSlot k s).latch = s.latch := rfl
@[simp] theorem freeSlot_load (k : Fin 32) (s : State) : (freeSlot k s).load = s.load := rfl
@[simp] theorem freeSlot_settings (k : Fin 32) (s : State) : (freeSlot k s).settings = s.settings := rfl
@[simp] theorem freeSlot_status (k : Fin 32) (s : State) : (freeSlot k s).status = s.status := rfl
@[simp] theorem freeSlot_disturbed (k : Fin 32) (s : State) : (freeSlot k s).disturbed = s.disturbed := rfl
@[simp] theorem freeSlot_clamped (k : Fin 32) (s : State) : (freeSlot k s).clamped = s.clamped := rfl

@[simp] theorem createIncident_pending (k : Fin 32) (i : Incident) (s : State) :
    (createIncident k i s).pending = s.pending := rfl
@[simp] theorem createIncident_mem (k : Fin 32) (i : Incident) (s : State) : (createIncident k i s).mem = s.mem := rfl
@[simp] theorem createIncident_straps (k : Fin 32) (i : Incident) (s : State) :
    (createIncident k i s).straps = s.straps := rfl
@[simp] theorem createIncident_arb (k : Fin 32) (i : Incident) (s : State) : (createIncident k i s).arb = s.arb := rfl
@[simp] theorem createIncident_readData (k : Fin 32) (i : Incident) (s : State) :
    (createIncident k i s).readData = s.readData := rfl
@[simp] theorem createIncident_writeMarks (k : Fin 32) (i : Incident) (s : State) :
    (createIncident k i s).writeMarks = s.writeMarks := rfl
@[simp] theorem createIncident_inputs (k : Fin 32) (i : Incident) (s : State) :
    (createIncident k i s).inputs = s.inputs := rfl
@[simp] theorem createIncident_time (k : Fin 32) (i : Incident) (s : State) :
    (createIncident k i s).time = s.time := rfl
@[simp] theorem createIncident_marks (k : Fin 32) (i : Incident) (s : State) :
    (createIncident k i s).marks = s.marks := rfl
@[simp] theorem createIncident_malformed (k : Fin 32) (i : Incident) (s : State) :
    (createIncident k i s).malformed = s.malformed := rfl
@[simp] theorem createIncident_unknown (k : Fin 32) (i : Incident) (s : State) :
    (createIncident k i s).unknown = s.unknown := rfl
@[simp] theorem createIncident_intakeRing (k : Fin 32) (i : Incident) (s : State) :
    (createIncident k i s).intakeRing = s.intakeRing := rfl
@[simp] theorem createIncident_entries (k : Fin 32) (i : Incident) (s : State) :
    (createIncident k i s).entries = s.entries := rfl
@[simp] theorem createIncident_nodes (k : Fin 32) (i : Incident) (s : State) :
    (createIncident k i s).nodes = s.nodes := rfl
@[simp] theorem createIncident_trunk (k : Fin 32) (i : Incident) (s : State) :
    (createIncident k i s).trunk = s.trunk := rfl
@[simp] theorem createIncident_gauge (k : Fin 32) (i : Incident) (s : State) :
    (createIncident k i s).gauge = s.gauge := rfl
@[simp] theorem createIncident_storm (k : Fin 32) (i : Incident) (s : State) :
    (createIncident k i s).storm = s.storm := rfl
@[simp] theorem createIncident_settle (k : Fin 32) (i : Incident) (s : State) :
    (createIncident k i s).settle = s.settle := rfl
@[simp] theorem createIncident_passRequest (k : Fin 32) (i : Incident) (s : State) :
    (createIncident k i s).passRequest = s.passRequest := rfl
@[simp] theorem createIncident_pass (k : Fin 32) (i : Incident) (s : State) :
    (createIncident k i s).pass = s.pass := rfl
@[simp] theorem createIncident_slots (k : Fin 32) (i : Incident) (s : State) :
    (createIncident k i s).slots = s.slots.set k (some i) := rfl
@[simp] theorem createIncident_order (k : Fin 32) (i : Incident) (s : State) :
    (createIncident k i s).order = s.order ++ [k] := rfl
@[simp] theorem createIncident_nextNumber (k : Fin 32) (i : Incident) (s : State) :
    (createIncident k i s).nextNumber = nextNumberAfter i.number := rfl
@[simp] theorem createIncident_noticeRing (k : Fin 32) (i : Incident) (s : State) :
    (createIncident k i s).noticeRing = s.noticeRing := rfl
@[simp] theorem createIncident_producer (k : Fin 32) (i : Incident) (s : State) :
    (createIncident k i s).producer = s.producer := rfl
@[simp] theorem createIncident_consumer (k : Fin 32) (i : Incident) (s : State) :
    (createIncident k i s).consumer = s.consumer := rfl
@[simp] theorem createIncident_ringFault (k : Fin 32) (i : Incident) (s : State) :
    (createIncident k i s).ringFault = s.ringFault := rfl
@[simp] theorem createIncident_restart (k : Fin 32) (i : Incident) (s : State) :
    (createIncident k i s).restart = s.restart := rfl
@[simp] theorem createIncident_notice (k : Fin 32) (i : Incident) (s : State) :
    (createIncident k i s).notice = s.notice := rfl
@[simp] theorem createIncident_ringWaiting (k : Fin 32) (i : Incident) (s : State) :
    (createIncident k i s).ringWaiting = s.ringWaiting := rfl
@[simp] theorem createIncident_headerDue (k : Fin 32) (i : Incident) (s : State) :
    (createIncident k i s).headerDue = s.headerDue := rfl
@[simp] theorem createIncident_censusBase (k : Fin 32) (i : Incident) (s : State) :
    (createIncident k i s).censusBase = s.censusBase := rfl
@[simp] theorem createIncident_census (k : Fin 32) (i : Incident) (s : State) :
    (createIncident k i s).census = s.census := rfl
@[simp] theorem createIncident_part (k : Fin 32) (i : Incident) (s : State) :
    (createIncident k i s).part = s.part := rfl
@[simp] theorem createIncident_configured (k : Fin 32) (i : Incident) (s : State) :
    (createIncident k i s).configured = s.configured := rfl
@[simp] theorem createIncident_origin (k : Fin 32) (i : Incident) (s : State) :
    (createIncident k i s).origin = s.origin := rfl
@[simp] theorem createIncident_editTag (k : Fin 32) (i : Incident) (s : State) :
    (createIncident k i s).editTag = s.editTag := rfl
@[simp] theorem createIncident_editLimit (k : Fin 32) (i : Incident) (s : State) :
    (createIncident k i s).editLimit = s.editLimit := rfl
@[simp] theorem createIncident_latch (k : Fin 32) (i : Incident) (s : State) :
    (createIncident k i s).latch = s.latch := rfl
@[simp] theorem createIncident_load (k : Fin 32) (i : Incident) (s : State) :
    (createIncident k i s).load = s.load := rfl
@[simp] theorem createIncident_settings (k : Fin 32) (i : Incident) (s : State) :
    (createIncident k i s).settings = s.settings := rfl
@[simp] theorem createIncident_status (k : Fin 32) (i : Incident) (s : State) :
    (createIncident k i s).status = s.status := rfl
@[simp] theorem createIncident_disturbed (k : Fin 32) (i : Incident) (s : State) :
    (createIncident k i s).disturbed = s.disturbed := rfl
@[simp] theorem createIncident_clamped (k : Fin 32) (i : Incident) (s : State) :
    (createIncident k i s).clamped = s.clamped := rfl

@[simp] theorem rewriteCovering_pending (s : State) : (rewriteCovering s).pending = s.pending := rfl
@[simp] theorem rewriteCovering_mem (s : State) : (rewriteCovering s).mem = s.mem := rfl
@[simp] theorem rewriteCovering_straps (s : State) : (rewriteCovering s).straps = s.straps := rfl
@[simp] theorem rewriteCovering_arb (s : State) : (rewriteCovering s).arb = s.arb := rfl
@[simp] theorem rewriteCovering_readData (s : State) : (rewriteCovering s).readData = s.readData := rfl
@[simp] theorem rewriteCovering_writeMarks (s : State) : (rewriteCovering s).writeMarks = s.writeMarks := rfl
@[simp] theorem rewriteCovering_inputs (s : State) : (rewriteCovering s).inputs = s.inputs := rfl
@[simp] theorem rewriteCovering_time (s : State) : (rewriteCovering s).time = s.time := rfl
@[simp] theorem rewriteCovering_marks (s : State) : (rewriteCovering s).marks = s.marks := rfl
@[simp] theorem rewriteCovering_malformed (s : State) : (rewriteCovering s).malformed = s.malformed := rfl
@[simp] theorem rewriteCovering_unknown (s : State) : (rewriteCovering s).unknown = s.unknown := rfl
@[simp] theorem rewriteCovering_intakeRing (s : State) : (rewriteCovering s).intakeRing = s.intakeRing := rfl
@[simp] theorem rewriteCovering_entries (s : State) :
    (rewriteCovering s).entries = mapTable (fun _ e => { e with covering := s.rewrittenCovering e }) s.entries := rfl
@[simp] theorem rewriteCovering_nodes (s : State) : (rewriteCovering s).nodes = s.nodes := rfl
@[simp] theorem rewriteCovering_trunk (s : State) : (rewriteCovering s).trunk = s.trunk := rfl
@[simp] theorem rewriteCovering_gauge (s : State) : (rewriteCovering s).gauge = s.gauge := rfl
@[simp] theorem rewriteCovering_storm (s : State) : (rewriteCovering s).storm = s.storm := rfl
@[simp] theorem rewriteCovering_settle (s : State) : (rewriteCovering s).settle = s.settle := rfl
@[simp] theorem rewriteCovering_passRequest (s : State) : (rewriteCovering s).passRequest = s.passRequest := rfl
@[simp] theorem rewriteCovering_pass (s : State) : (rewriteCovering s).pass = s.pass := rfl
@[simp] theorem rewriteCovering_slots (s : State) : (rewriteCovering s).slots = s.slots := rfl
@[simp] theorem rewriteCovering_order (s : State) : (rewriteCovering s).order = s.order := rfl
@[simp] theorem rewriteCovering_nextNumber (s : State) : (rewriteCovering s).nextNumber = s.nextNumber := rfl
@[simp] theorem rewriteCovering_noticeRing (s : State) : (rewriteCovering s).noticeRing = s.noticeRing := rfl
@[simp] theorem rewriteCovering_producer (s : State) : (rewriteCovering s).producer = s.producer := rfl
@[simp] theorem rewriteCovering_consumer (s : State) : (rewriteCovering s).consumer = s.consumer := rfl
@[simp] theorem rewriteCovering_ringFault (s : State) : (rewriteCovering s).ringFault = s.ringFault := rfl
@[simp] theorem rewriteCovering_restart (s : State) : (rewriteCovering s).restart = s.restart := rfl
@[simp] theorem rewriteCovering_notice (s : State) : (rewriteCovering s).notice = s.notice := rfl
@[simp] theorem rewriteCovering_ringWaiting (s : State) : (rewriteCovering s).ringWaiting = s.ringWaiting := rfl
@[simp] theorem rewriteCovering_headerDue (s : State) : (rewriteCovering s).headerDue = s.headerDue := rfl
@[simp] theorem rewriteCovering_censusBase (s : State) : (rewriteCovering s).censusBase = s.censusBase := rfl
@[simp] theorem rewriteCovering_census (s : State) : (rewriteCovering s).census = s.census := rfl
@[simp] theorem rewriteCovering_part (s : State) : (rewriteCovering s).part = s.part := rfl
@[simp] theorem rewriteCovering_configured (s : State) : (rewriteCovering s).configured = s.configured := rfl
@[simp] theorem rewriteCovering_origin (s : State) : (rewriteCovering s).origin = s.origin := rfl
@[simp] theorem rewriteCovering_editTag (s : State) : (rewriteCovering s).editTag = s.editTag := rfl
@[simp] theorem rewriteCovering_editLimit (s : State) : (rewriteCovering s).editLimit = s.editLimit := rfl
@[simp] theorem rewriteCovering_latch (s : State) : (rewriteCovering s).latch = s.latch := rfl
@[simp] theorem rewriteCovering_load (s : State) : (rewriteCovering s).load = s.load := rfl
@[simp] theorem rewriteCovering_settings (s : State) : (rewriteCovering s).settings = s.settings := rfl
@[simp] theorem rewriteCovering_status (s : State) : (rewriteCovering s).status = s.status := rfl
@[simp] theorem rewriteCovering_disturbed (s : State) : (rewriteCovering s).disturbed = s.disturbed := rfl
@[simp] theorem rewriteCovering_clamped (s : State) : (rewriteCovering s).clamped = s.clamped := rfl

@[simp] theorem coverAtOpening_pending (k : Fin 32) (i : Incident) (s : State) :
    (coverAtOpening k i s).pending = s.pending := rfl
@[simp] theorem coverAtOpening_mem (k : Fin 32) (i : Incident) (s : State) : (coverAtOpening k i s).mem = s.mem := rfl
@[simp] theorem coverAtOpening_straps (k : Fin 32) (i : Incident) (s : State) :
    (coverAtOpening k i s).straps = s.straps := rfl
@[simp] theorem coverAtOpening_arb (k : Fin 32) (i : Incident) (s : State) : (coverAtOpening k i s).arb = s.arb := rfl
@[simp] theorem coverAtOpening_readData (k : Fin 32) (i : Incident) (s : State) :
    (coverAtOpening k i s).readData = s.readData := rfl
@[simp] theorem coverAtOpening_writeMarks (k : Fin 32) (i : Incident) (s : State) :
    (coverAtOpening k i s).writeMarks = s.writeMarks := rfl
@[simp] theorem coverAtOpening_inputs (k : Fin 32) (i : Incident) (s : State) :
    (coverAtOpening k i s).inputs = s.inputs := rfl
@[simp] theorem coverAtOpening_time (k : Fin 32) (i : Incident) (s : State) :
    (coverAtOpening k i s).time = s.time := rfl
@[simp] theorem coverAtOpening_marks (k : Fin 32) (i : Incident) (s : State) :
    (coverAtOpening k i s).marks = s.marks := rfl
@[simp] theorem coverAtOpening_malformed (k : Fin 32) (i : Incident) (s : State) :
    (coverAtOpening k i s).malformed = s.malformed := rfl
@[simp] theorem coverAtOpening_unknown (k : Fin 32) (i : Incident) (s : State) :
    (coverAtOpening k i s).unknown = s.unknown := rfl
@[simp] theorem coverAtOpening_intakeRing (k : Fin 32) (i : Incident) (s : State) :
    (coverAtOpening k i s).intakeRing = s.intakeRing := rfl
@[simp] theorem coverAtOpening_entries (k : Fin 32) (i : Incident) (s : State) : (coverAtOpening k i s).entries =
    mapTable (fun _ e => { e with covering := s.coveringAtOpening k i e }) s.entries := rfl
@[simp] theorem coverAtOpening_nodes (k : Fin 32) (i : Incident) (s : State) :
    (coverAtOpening k i s).nodes = s.nodes := rfl
@[simp] theorem coverAtOpening_trunk (k : Fin 32) (i : Incident) (s : State) :
    (coverAtOpening k i s).trunk = s.trunk := rfl
@[simp] theorem coverAtOpening_gauge (k : Fin 32) (i : Incident) (s : State) :
    (coverAtOpening k i s).gauge = s.gauge := rfl
@[simp] theorem coverAtOpening_storm (k : Fin 32) (i : Incident) (s : State) :
    (coverAtOpening k i s).storm = s.storm := rfl
@[simp] theorem coverAtOpening_settle (k : Fin 32) (i : Incident) (s : State) :
    (coverAtOpening k i s).settle = s.settle := rfl
@[simp] theorem coverAtOpening_passRequest (k : Fin 32) (i : Incident) (s : State) :
    (coverAtOpening k i s).passRequest = s.passRequest := rfl
@[simp] theorem coverAtOpening_pass (k : Fin 32) (i : Incident) (s : State) :
    (coverAtOpening k i s).pass = s.pass := rfl
@[simp] theorem coverAtOpening_slots (k : Fin 32) (i : Incident) (s : State) :
    (coverAtOpening k i s).slots = s.slots := rfl
@[simp] theorem coverAtOpening_order (k : Fin 32) (i : Incident) (s : State) :
    (coverAtOpening k i s).order = s.order := rfl
@[simp] theorem coverAtOpening_nextNumber (k : Fin 32) (i : Incident) (s : State) :
    (coverAtOpening k i s).nextNumber = s.nextNumber := rfl
@[simp] theorem coverAtOpening_noticeRing (k : Fin 32) (i : Incident) (s : State) :
    (coverAtOpening k i s).noticeRing = s.noticeRing := rfl
@[simp] theorem coverAtOpening_producer (k : Fin 32) (i : Incident) (s : State) :
    (coverAtOpening k i s).producer = s.producer := rfl
@[simp] theorem coverAtOpening_consumer (k : Fin 32) (i : Incident) (s : State) :
    (coverAtOpening k i s).consumer = s.consumer := rfl
@[simp] theorem coverAtOpening_ringFault (k : Fin 32) (i : Incident) (s : State) :
    (coverAtOpening k i s).ringFault = s.ringFault := rfl
@[simp] theorem coverAtOpening_restart (k : Fin 32) (i : Incident) (s : State) :
    (coverAtOpening k i s).restart = s.restart := rfl
@[simp] theorem coverAtOpening_notice (k : Fin 32) (i : Incident) (s : State) :
    (coverAtOpening k i s).notice = s.notice := rfl
@[simp] theorem coverAtOpening_ringWaiting (k : Fin 32) (i : Incident) (s : State) :
    (coverAtOpening k i s).ringWaiting = s.ringWaiting := rfl
@[simp] theorem coverAtOpening_headerDue (k : Fin 32) (i : Incident) (s : State) :
    (coverAtOpening k i s).headerDue = s.headerDue := rfl
@[simp] theorem coverAtOpening_censusBase (k : Fin 32) (i : Incident) (s : State) :
    (coverAtOpening k i s).censusBase = s.censusBase := rfl
@[simp] theorem coverAtOpening_census (k : Fin 32) (i : Incident) (s : State) :
    (coverAtOpening k i s).census = s.census := rfl
@[simp] theorem coverAtOpening_part (k : Fin 32) (i : Incident) (s : State) :
    (coverAtOpening k i s).part = s.part := rfl
@[simp] theorem coverAtOpening_configured (k : Fin 32) (i : Incident) (s : State) :
    (coverAtOpening k i s).configured = s.configured := rfl
@[simp] theorem coverAtOpening_origin (k : Fin 32) (i : Incident) (s : State) :
    (coverAtOpening k i s).origin = s.origin := rfl
@[simp] theorem coverAtOpening_editTag (k : Fin 32) (i : Incident) (s : State) :
    (coverAtOpening k i s).editTag = s.editTag := rfl
@[simp] theorem coverAtOpening_editLimit (k : Fin 32) (i : Incident) (s : State) :
    (coverAtOpening k i s).editLimit = s.editLimit := rfl
@[simp] theorem coverAtOpening_latch (k : Fin 32) (i : Incident) (s : State) :
    (coverAtOpening k i s).latch = s.latch := rfl
@[simp] theorem coverAtOpening_load (k : Fin 32) (i : Incident) (s : State) :
    (coverAtOpening k i s).load = s.load := rfl
@[simp] theorem coverAtOpening_settings (k : Fin 32) (i : Incident) (s : State) :
    (coverAtOpening k i s).settings = s.settings := rfl
@[simp] theorem coverAtOpening_status (k : Fin 32) (i : Incident) (s : State) :
    (coverAtOpening k i s).status = s.status := rfl
@[simp] theorem coverAtOpening_disturbed (k : Fin 32) (i : Incident) (s : State) :
    (coverAtOpening k i s).disturbed = s.disturbed := rfl
@[simp] theorem coverAtOpening_clamped (k : Fin 32) (i : Incident) (s : State) :
    (coverAtOpening k i s).clamped = s.clamped := rfl

@[simp] theorem takeRestart_pending (r : RestartReason) (s : State) : (takeRestart r s).pending = s.pending := rfl
@[simp] theorem takeRestart_mem (r : RestartReason) (s : State) : (takeRestart r s).mem = s.mem := rfl
@[simp] theorem takeRestart_straps (r : RestartReason) (s : State) : (takeRestart r s).straps = s.straps := rfl
@[simp] theorem takeRestart_arb (r : RestartReason) (s : State) : (takeRestart r s).arb = s.arb := rfl
@[simp] theorem takeRestart_readData (r : RestartReason) (s : State) : (takeRestart r s).readData = s.readData := rfl
@[simp] theorem takeRestart_writeMarks (r : RestartReason) (s : State) :
    (takeRestart r s).writeMarks = s.writeMarks := rfl
@[simp] theorem takeRestart_inputs (r : RestartReason) (s : State) : (takeRestart r s).inputs = s.inputs := rfl
@[simp] theorem takeRestart_time (r : RestartReason) (s : State) : (takeRestart r s).time = s.time := rfl
@[simp] theorem takeRestart_marks (r : RestartReason) (s : State) : (takeRestart r s).marks = s.marks := rfl
@[simp] theorem takeRestart_malformed (r : RestartReason) (s : State) : (takeRestart r s).malformed = s.malformed := rfl
@[simp] theorem takeRestart_unknown (r : RestartReason) (s : State) : (takeRestart r s).unknown = s.unknown := rfl
@[simp] theorem takeRestart_intakeRing (r : RestartReason) (s : State) :
    (takeRestart r s).intakeRing = s.intakeRing := rfl
@[simp] theorem takeRestart_entries (r : RestartReason) (s : State) : (takeRestart r s).entries = s.entries := rfl
@[simp] theorem takeRestart_nodes (r : RestartReason) (s : State) : (takeRestart r s).nodes = s.nodes := rfl
@[simp] theorem takeRestart_trunk (r : RestartReason) (s : State) : (takeRestart r s).trunk = s.trunk := rfl
@[simp] theorem takeRestart_gauge (r : RestartReason) (s : State) : (takeRestart r s).gauge = s.gauge := rfl
@[simp] theorem takeRestart_storm (r : RestartReason) (s : State) : (takeRestart r s).storm = s.storm := rfl
@[simp] theorem takeRestart_settle (r : RestartReason) (s : State) : (takeRestart r s).settle = s.settle := rfl
@[simp] theorem takeRestart_passRequest (r : RestartReason) (s : State) :
    (takeRestart r s).passRequest = s.passRequest := rfl
@[simp] theorem takeRestart_pass (r : RestartReason) (s : State) : (takeRestart r s).pass = s.pass := rfl
@[simp] theorem takeRestart_slots (r : RestartReason) (s : State) : (takeRestart r s).slots = s.slots := rfl
@[simp] theorem takeRestart_order (r : RestartReason) (s : State) : (takeRestart r s).order = s.order := rfl
@[simp] theorem takeRestart_nextNumber (r : RestartReason) (s : State) :
    (takeRestart r s).nextNumber = s.nextNumber := rfl
@[simp] theorem takeRestart_noticeRing (r : RestartReason) (s : State) :
    (takeRestart r s).noticeRing = s.noticeRing := rfl
@[simp] theorem takeRestart_producer (r : RestartReason) (s : State) : (takeRestart r s).producer = s.producer := rfl
@[simp] theorem takeRestart_consumer (r : RestartReason) (s : State) : (takeRestart r s).consumer = s.consumer := rfl
@[simp] theorem takeRestart_ringFault (r : RestartReason) (s : State) : (takeRestart r s).ringFault = s.ringFault := rfl
@[simp] theorem takeRestart_restart (r : RestartReason) (s : State) : (takeRestart r s).restart = none := rfl
@[simp] theorem takeRestart_notice (r : RestartReason) (s : State) :
    (takeRestart r s).notice = some { words := restartNotice r s.time.clock, written := 0, frees := none } := rfl
@[simp] theorem takeRestart_ringWaiting (r : RestartReason) (s : State) :
    (takeRestart r s).ringWaiting = s.ringWaiting := rfl
@[simp] theorem takeRestart_headerDue (r : RestartReason) (s : State) : (takeRestart r s).headerDue = s.headerDue := rfl
@[simp] theorem takeRestart_censusBase (r : RestartReason) (s : State) :
    (takeRestart r s).censusBase = s.censusBase := rfl
@[simp] theorem takeRestart_census (r : RestartReason) (s : State) : (takeRestart r s).census = s.census := rfl
@[simp] theorem takeRestart_part (r : RestartReason) (s : State) : (takeRestart r s).part = s.part := rfl
@[simp] theorem takeRestart_configured (r : RestartReason) (s : State) :
    (takeRestart r s).configured = s.configured := rfl
@[simp] theorem takeRestart_origin (r : RestartReason) (s : State) : (takeRestart r s).origin = s.origin := rfl
@[simp] theorem takeRestart_editTag (r : RestartReason) (s : State) : (takeRestart r s).editTag = s.editTag := rfl
@[simp] theorem takeRestart_editLimit (r : RestartReason) (s : State) : (takeRestart r s).editLimit = s.editLimit := rfl
@[simp] theorem takeRestart_latch (r : RestartReason) (s : State) : (takeRestart r s).latch = s.latch := rfl
@[simp] theorem takeRestart_load (r : RestartReason) (s : State) : (takeRestart r s).load = s.load := rfl
@[simp] theorem takeRestart_settings (r : RestartReason) (s : State) : (takeRestart r s).settings = s.settings := rfl
@[simp] theorem takeRestart_status (r : RestartReason) (s : State) : (takeRestart r s).status = s.status := rfl
@[simp] theorem takeRestart_disturbed (r : RestartReason) (s : State) : (takeRestart r s).disturbed = s.disturbed := rfl
@[simp] theorem takeRestart_clamped (r : RestartReason) (s : State) : (takeRestart r s).clamped = s.clamped := rfl

@[simp] theorem leaveEdit_pending (s : State) : (leaveEdit s).pending = s.pending := rfl
@[simp] theorem leaveEdit_mem (s : State) : (leaveEdit s).mem = s.mem := rfl
@[simp] theorem leaveEdit_straps (s : State) : (leaveEdit s).straps = s.straps := rfl
@[simp] theorem leaveEdit_arb (s : State) : (leaveEdit s).arb = s.arb := rfl
@[simp] theorem leaveEdit_readData (s : State) : (leaveEdit s).readData = s.readData := rfl
@[simp] theorem leaveEdit_writeMarks (s : State) : (leaveEdit s).writeMarks = s.writeMarks := rfl
@[simp] theorem leaveEdit_inputs (s : State) : (leaveEdit s).inputs = s.inputs := rfl
@[simp] theorem leaveEdit_time (s : State) : (leaveEdit s).time = s.time := rfl
@[simp] theorem leaveEdit_marks (s : State) : (leaveEdit s).marks = s.marks := rfl
@[simp] theorem leaveEdit_malformed (s : State) : (leaveEdit s).malformed = s.malformed := rfl
@[simp] theorem leaveEdit_unknown (s : State) : (leaveEdit s).unknown = s.unknown := rfl
@[simp] theorem leaveEdit_intakeRing (s : State) : (leaveEdit s).intakeRing = s.intakeRing := rfl
@[simp] theorem leaveEdit_entries (s : State) : (leaveEdit s).entries = s.entries := rfl
@[simp] theorem leaveEdit_nodes (s : State) : (leaveEdit s).nodes = s.nodes := rfl
@[simp] theorem leaveEdit_trunk (s : State) : (leaveEdit s).trunk = s.trunk := rfl
@[simp] theorem leaveEdit_gauge (s : State) : (leaveEdit s).gauge = s.gauge := rfl
@[simp] theorem leaveEdit_storm (s : State) : (leaveEdit s).storm = s.storm := rfl
@[simp] theorem leaveEdit_settle (s : State) : (leaveEdit s).settle = s.settle := rfl
@[simp] theorem leaveEdit_passRequest (s : State) : (leaveEdit s).passRequest = s.passRequest := rfl
@[simp] theorem leaveEdit_pass (s : State) : (leaveEdit s).pass = s.pass := rfl
@[simp] theorem leaveEdit_slots (s : State) : (leaveEdit s).slots = s.slots := rfl
@[simp] theorem leaveEdit_order (s : State) : (leaveEdit s).order = s.order := rfl
@[simp] theorem leaveEdit_nextNumber (s : State) : (leaveEdit s).nextNumber = s.nextNumber := rfl
@[simp] theorem leaveEdit_noticeRing (s : State) : (leaveEdit s).noticeRing = s.noticeRing := rfl
@[simp] theorem leaveEdit_producer (s : State) : (leaveEdit s).producer = s.producer := rfl
@[simp] theorem leaveEdit_consumer (s : State) : (leaveEdit s).consumer = s.consumer := rfl
@[simp] theorem leaveEdit_ringFault (s : State) : (leaveEdit s).ringFault = s.ringFault := rfl
@[simp] theorem leaveEdit_restart (s : State) : (leaveEdit s).restart = s.restart := rfl
@[simp] theorem leaveEdit_notice (s : State) : (leaveEdit s).notice = s.notice := rfl
@[simp] theorem leaveEdit_ringWaiting (s : State) : (leaveEdit s).ringWaiting = s.ringWaiting := rfl
@[simp] theorem leaveEdit_headerDue (s : State) : (leaveEdit s).headerDue = s.headerDue := rfl
@[simp] theorem leaveEdit_censusBase (s : State) : (leaveEdit s).censusBase = s.censusBase := rfl
@[simp] theorem leaveEdit_census (s : State) : (leaveEdit s).census = s.census := rfl
@[simp] theorem leaveEdit_part (s : State) : (leaveEdit s).part = s.origin.getD .unconfigured := rfl
@[simp] theorem leaveEdit_configured (s : State) : (leaveEdit s).configured = s.configured := rfl
@[simp] theorem leaveEdit_origin (s : State) : (leaveEdit s).origin = none := rfl
@[simp] theorem leaveEdit_editTag (s : State) : (leaveEdit s).editTag = s.editTag := rfl
@[simp] theorem leaveEdit_editLimit (s : State) : (leaveEdit s).editLimit = none := rfl
@[simp] theorem leaveEdit_latch (s : State) : (leaveEdit s).latch = s.latch := rfl
@[simp] theorem leaveEdit_load (s : State) : (leaveEdit s).load = none := rfl
@[simp] theorem leaveEdit_settings (s : State) : (leaveEdit s).settings = s.settings := rfl
@[simp] theorem leaveEdit_status (s : State) : (leaveEdit s).status = s.status := rfl
@[simp] theorem leaveEdit_disturbed (s : State) : (leaveEdit s).disturbed = s.disturbed := rfl
@[simp] theorem leaveEdit_clamped (s : State) : (leaveEdit s).clamped = s.clamped := rfl

@[simp] theorem takeRegions_pending (l : Load) (s : State) : (takeRegions l s).pending = s.pending := rfl
@[simp] theorem takeRegions_mem (l : Load) (s : State) : (takeRegions l s).mem = s.mem := rfl
@[simp] theorem takeRegions_straps (l : Load) (s : State) : (takeRegions l s).straps = s.straps := rfl
@[simp] theorem takeRegions_arb (l : Load) (s : State) : (takeRegions l s).arb = s.arb := rfl
@[simp] theorem takeRegions_readData (l : Load) (s : State) : (takeRegions l s).readData = s.readData := rfl
@[simp] theorem takeRegions_writeMarks (l : Load) (s : State) : (takeRegions l s).writeMarks = s.writeMarks := rfl
@[simp] theorem takeRegions_inputs (l : Load) (s : State) : (takeRegions l s).inputs = s.inputs := rfl
@[simp] theorem takeRegions_time (l : Load) (s : State) : (takeRegions l s).time = s.time := rfl
@[simp] theorem takeRegions_marks (l : Load) (s : State) :
    (takeRegions l s).marks = if s.intakeRing = some l.intake then s.marks else [] := rfl
@[simp] theorem takeRegions_malformed (l : Load) (s : State) : (takeRegions l s).malformed = s.malformed := rfl
@[simp] theorem takeRegions_unknown (l : Load) (s : State) : (takeRegions l s).unknown = s.unknown := rfl
@[simp] theorem takeRegions_intakeRing (l : Load) (s : State) : (takeRegions l s).intakeRing = some l.intake := rfl
@[simp] theorem takeRegions_entries (l : Load) (s : State) : (takeRegions l s).entries = s.entries := rfl
@[simp] theorem takeRegions_nodes (l : Load) (s : State) : (takeRegions l s).nodes = s.nodes := rfl
@[simp] theorem takeRegions_trunk (l : Load) (s : State) : (takeRegions l s).trunk = s.trunk := rfl
@[simp] theorem takeRegions_gauge (l : Load) (s : State) : (takeRegions l s).gauge = s.gauge := rfl
@[simp] theorem takeRegions_storm (l : Load) (s : State) : (takeRegions l s).storm = s.storm := rfl
@[simp] theorem takeRegions_settle (l : Load) (s : State) : (takeRegions l s).settle = s.settle := rfl
@[simp] theorem takeRegions_passRequest (l : Load) (s : State) : (takeRegions l s).passRequest = s.passRequest := rfl
@[simp] theorem takeRegions_pass (l : Load) (s : State) : (takeRegions l s).pass = s.pass := rfl
@[simp] theorem takeRegions_slots (l : Load) (s : State) : (takeRegions l s).slots = s.slots := rfl
@[simp] theorem takeRegions_order (l : Load) (s : State) : (takeRegions l s).order = s.order := rfl
@[simp] theorem takeRegions_nextNumber (l : Load) (s : State) : (takeRegions l s).nextNumber = s.nextNumber := rfl
@[simp] theorem takeRegions_noticeRing (l : Load) (s : State) : (takeRegions l s).noticeRing = s.noticeRing := rfl
@[simp] theorem takeRegions_producer (l : Load) (s : State) : (takeRegions l s).producer = s.producer := rfl
@[simp] theorem takeRegions_consumer (l : Load) (s : State) : (takeRegions l s).consumer = s.consumer := rfl
@[simp] theorem takeRegions_ringFault (l : Load) (s : State) : (takeRegions l s).ringFault = s.ringFault := rfl
@[simp] theorem takeRegions_restart (l : Load) (s : State) : (takeRegions l s).restart = s.restart := rfl
@[simp] theorem takeRegions_notice (l : Load) (s : State) : (takeRegions l s).notice = s.notice := rfl
@[simp] theorem takeRegions_ringWaiting (l : Load) (s : State) : (takeRegions l s).ringWaiting = s.ringWaiting := rfl
@[simp] theorem takeRegions_headerDue (l : Load) (s : State) : (takeRegions l s).headerDue = s.headerDue := rfl
@[simp] theorem takeRegions_censusBase (l : Load) (s : State) : (takeRegions l s).censusBase = some l.census := rfl
@[simp] theorem takeRegions_census (l : Load) (s : State) : (takeRegions l s).census = s.census := rfl
@[simp] theorem takeRegions_part (l : Load) (s : State) : (takeRegions l s).part = s.part := rfl
@[simp] theorem takeRegions_configured (l : Load) (s : State) : (takeRegions l s).configured = s.configured := rfl
@[simp] theorem takeRegions_origin (l : Load) (s : State) : (takeRegions l s).origin = s.origin := rfl
@[simp] theorem takeRegions_editTag (l : Load) (s : State) : (takeRegions l s).editTag = s.editTag := rfl
@[simp] theorem takeRegions_editLimit (l : Load) (s : State) : (takeRegions l s).editLimit = s.editLimit := rfl
@[simp] theorem takeRegions_latch (l : Load) (s : State) : (takeRegions l s).latch = s.latch := rfl
@[simp] theorem takeRegions_load (l : Load) (s : State) : (takeRegions l s).load = s.load := rfl
@[simp] theorem takeRegions_settings (l : Load) (s : State) : (takeRegions l s).settings = s.settings := rfl
@[simp] theorem takeRegions_status (l : Load) (s : State) : (takeRegions l s).status = s.status := rfl
@[simp] theorem takeRegions_disturbed (l : Load) (s : State) : (takeRegions l s).disturbed = s.disturbed := rfl
@[simp] theorem takeRegions_clamped (l : Load) (s : State) : (takeRegions l s).clamped = s.clamped := rfl

@[simp] theorem freezeWindows_pending (s : State) : (freezeWindows s).pending = s.pending := rfl
@[simp] theorem freezeWindows_mem (s : State) : (freezeWindows s).mem = s.mem := rfl
@[simp] theorem freezeWindows_straps (s : State) : (freezeWindows s).straps = s.straps := rfl
@[simp] theorem freezeWindows_arb (s : State) : (freezeWindows s).arb = s.arb := rfl
@[simp] theorem freezeWindows_readData (s : State) : (freezeWindows s).readData = s.readData := rfl
@[simp] theorem freezeWindows_writeMarks (s : State) : (freezeWindows s).writeMarks = s.writeMarks := rfl
@[simp] theorem freezeWindows_inputs (s : State) : (freezeWindows s).inputs = s.inputs := rfl
@[simp] theorem freezeWindows_time (s : State) : (freezeWindows s).time = s.time := rfl
@[simp] theorem freezeWindows_marks (s : State) : (freezeWindows s).marks = s.marks := rfl
@[simp] theorem freezeWindows_malformed (s : State) : (freezeWindows s).malformed = s.malformed := rfl
@[simp] theorem freezeWindows_unknown (s : State) : (freezeWindows s).unknown = s.unknown := rfl
@[simp] theorem freezeWindows_intakeRing (s : State) : (freezeWindows s).intakeRing = s.intakeRing := rfl
@[simp] theorem freezeWindows_entries (s : State) : (freezeWindows s).entries = s.entries := rfl
@[simp] theorem freezeWindows_nodes (s : State) : (freezeWindows s).nodes = s.nodes := rfl
@[simp] theorem freezeWindows_trunk (s : State) : (freezeWindows s).trunk = s.trunk := rfl
@[simp] theorem freezeWindows_gauge (s : State) : (freezeWindows s).gauge = s.gauge := rfl
@[simp] theorem freezeWindows_storm (s : State) : (freezeWindows s).storm = s.storm := rfl
@[simp] theorem freezeWindows_settle (s : State) : (freezeWindows s).settle = s.settle.map Window.frozen := rfl
@[simp] theorem freezeWindows_passRequest (s : State) : (freezeWindows s).passRequest = s.passRequest := rfl
@[simp] theorem freezeWindows_pass (s : State) : (freezeWindows s).pass = s.pass := rfl
@[simp] theorem freezeWindows_slots (s : State) :
    (freezeWindows s).slots = mapTable (fun _ o => o.map Incident.frozen) s.slots := rfl
@[simp] theorem freezeWindows_order (s : State) : (freezeWindows s).order = s.order := rfl
@[simp] theorem freezeWindows_nextNumber (s : State) : (freezeWindows s).nextNumber = s.nextNumber := rfl
@[simp] theorem freezeWindows_noticeRing (s : State) : (freezeWindows s).noticeRing = s.noticeRing := rfl
@[simp] theorem freezeWindows_producer (s : State) : (freezeWindows s).producer = s.producer := rfl
@[simp] theorem freezeWindows_consumer (s : State) : (freezeWindows s).consumer = s.consumer := rfl
@[simp] theorem freezeWindows_ringFault (s : State) : (freezeWindows s).ringFault = s.ringFault := rfl
@[simp] theorem freezeWindows_restart (s : State) : (freezeWindows s).restart = s.restart := rfl
@[simp] theorem freezeWindows_notice (s : State) : (freezeWindows s).notice = s.notice := rfl
@[simp] theorem freezeWindows_ringWaiting (s : State) : (freezeWindows s).ringWaiting = s.ringWaiting := rfl
@[simp] theorem freezeWindows_headerDue (s : State) : (freezeWindows s).headerDue = s.headerDue := rfl
@[simp] theorem freezeWindows_censusBase (s : State) : (freezeWindows s).censusBase = s.censusBase := rfl
@[simp] theorem freezeWindows_census (s : State) : (freezeWindows s).census = s.census := rfl
@[simp] theorem freezeWindows_part (s : State) : (freezeWindows s).part = s.part := rfl
@[simp] theorem freezeWindows_configured (s : State) : (freezeWindows s).configured = s.configured := rfl
@[simp] theorem freezeWindows_origin (s : State) : (freezeWindows s).origin = s.origin := rfl
@[simp] theorem freezeWindows_editTag (s : State) : (freezeWindows s).editTag = s.editTag := rfl
@[simp] theorem freezeWindows_editLimit (s : State) : (freezeWindows s).editLimit = s.editLimit := rfl
@[simp] theorem freezeWindows_latch (s : State) : (freezeWindows s).latch = s.latch := rfl
@[simp] theorem freezeWindows_load (s : State) : (freezeWindows s).load = s.load := rfl
@[simp] theorem freezeWindows_settings (s : State) : (freezeWindows s).settings = s.settings := rfl
@[simp] theorem freezeWindows_status (s : State) : (freezeWindows s).status = s.status := rfl
@[simp] theorem freezeWindows_disturbed (s : State) : (freezeWindows s).disturbed = s.disturbed := rfl
@[simp] theorem freezeWindows_clamped (s : State) : (freezeWindows s).clamped = s.clamped := rfl

@[simp] theorem enterRunning_pending (s : State) : (enterRunning s).pending = s.pending := rfl
@[simp] theorem enterRunning_mem (s : State) : (enterRunning s).mem = s.mem := rfl
@[simp] theorem enterRunning_straps (s : State) : (enterRunning s).straps = s.straps := rfl
@[simp] theorem enterRunning_arb (s : State) : (enterRunning s).arb = s.arb := rfl
@[simp] theorem enterRunning_readData (s : State) : (enterRunning s).readData = s.readData := rfl
@[simp] theorem enterRunning_writeMarks (s : State) : (enterRunning s).writeMarks = s.writeMarks := rfl
@[simp] theorem enterRunning_inputs (s : State) : (enterRunning s).inputs = s.inputs := rfl
@[simp] theorem enterRunning_time (s : State) : (enterRunning s).time = s.time := rfl
@[simp] theorem enterRunning_marks (s : State) : (enterRunning s).marks = s.marks := rfl
@[simp] theorem enterRunning_malformed (s : State) : (enterRunning s).malformed = s.malformed := rfl
@[simp] theorem enterRunning_unknown (s : State) : (enterRunning s).unknown = s.unknown := rfl
@[simp] theorem enterRunning_intakeRing (s : State) : (enterRunning s).intakeRing = s.intakeRing := rfl
@[simp] theorem enterRunning_entries (s : State) : (enterRunning s).entries = s.entries := rfl
@[simp] theorem enterRunning_nodes (s : State) : (enterRunning s).nodes = s.nodes := rfl
@[simp] theorem enterRunning_trunk (s : State) : (enterRunning s).trunk = s.trunk := rfl
@[simp] theorem enterRunning_gauge (s : State) : (enterRunning s).gauge = s.gauge := rfl
@[simp] theorem enterRunning_storm (s : State) : (enterRunning s).storm = s.storm := rfl
@[simp] theorem enterRunning_settle (s : State) : (enterRunning s).settle = none := rfl
@[simp] theorem enterRunning_passRequest (s : State) : (enterRunning s).passRequest = true := rfl
@[simp] theorem enterRunning_pass (s : State) : (enterRunning s).pass = s.pass := rfl
@[simp] theorem enterRunning_slots (s : State) : (enterRunning s).slots = s.slots := rfl
@[simp] theorem enterRunning_order (s : State) : (enterRunning s).order = s.order := rfl
@[simp] theorem enterRunning_nextNumber (s : State) : (enterRunning s).nextNumber = s.nextNumber := rfl
@[simp] theorem enterRunning_noticeRing (s : State) : (enterRunning s).noticeRing = s.noticeRing := rfl
@[simp] theorem enterRunning_producer (s : State) : (enterRunning s).producer = s.producer := rfl
@[simp] theorem enterRunning_consumer (s : State) : (enterRunning s).consumer = s.consumer := rfl
@[simp] theorem enterRunning_ringFault (s : State) : (enterRunning s).ringFault = s.ringFault := rfl
@[simp] theorem enterRunning_restart (s : State) : (enterRunning s).restart = s.restart := rfl
@[simp] theorem enterRunning_notice (s : State) : (enterRunning s).notice = s.notice := rfl
@[simp] theorem enterRunning_ringWaiting (s : State) : (enterRunning s).ringWaiting = s.ringWaiting := rfl
@[simp] theorem enterRunning_headerDue (s : State) : (enterRunning s).headerDue = s.headerDue := rfl
@[simp] theorem enterRunning_censusBase (s : State) : (enterRunning s).censusBase = s.censusBase := rfl
@[simp] theorem enterRunning_census (s : State) : (enterRunning s).census = s.census := rfl
@[simp] theorem enterRunning_part (s : State) : (enterRunning s).part = .running := rfl
@[simp] theorem enterRunning_configured (s : State) : (enterRunning s).configured = true := rfl
@[simp] theorem enterRunning_origin (s : State) : (enterRunning s).origin = none := rfl
@[simp] theorem enterRunning_editTag (s : State) : (enterRunning s).editTag = s.editTag := rfl
@[simp] theorem enterRunning_editLimit (s : State) : (enterRunning s).editLimit = none := rfl
@[simp] theorem enterRunning_latch (s : State) : (enterRunning s).latch = s.latch := rfl
@[simp] theorem enterRunning_load (s : State) : (enterRunning s).load = none := rfl
@[simp] theorem enterRunning_settings (s : State) : (enterRunning s).settings = s.settings := rfl
@[simp] theorem enterRunning_status (s : State) : (enterRunning s).status = s.status := rfl
@[simp] theorem enterRunning_disturbed (s : State) : (enterRunning s).disturbed = s.disturbed := rfl
@[simp] theorem enterRunning_clamped (s : State) : (enterRunning s).clamped = s.clamped := rfl

end Sys2Proof.Machine
end

