-- ==== Sys2Proof/Laws/Incidents.lean ====
section
/-! SUPPORT. The laws of the Incident Table's shared operations: what placing, freeing, closing and absorbing leave of the
slots, the creation-order list and the covering fields (R125, R126, R132, R142, R146). -/

namespace Sys2Proof.Machine

theorem putSlot_slot (s : State) (k j : Fin 32) (i : Incident) :
    (s.putSlot k i).slot j = if k = j then some i else s.slot j := 
  set_getElem_fin _ _ _ _

theorem freeSlot_slot (s : State) (k j : Fin 32) : (freeSlot k s).slot j = if k = j then none else s.slot j :=
  set_getElem_fin _ _ _ _

theorem createIncident_slot (s : State) (k j : Fin 32) (i : Incident) :
    (createIncident k i s).slot j = if k = j then some i else s.slot j := 
  set_getElem_fin _ _ _ _

theorem mem_freeSlot_order (s : State) (k j : Fin 32) : j ∈ (freeSlot k s).order ↔ j ∈ s.order ∧ j ≠ k := by
  simp

theorem freeSlot_order_nodup {s : State} (k : Fin 32) (h : s.order.Nodup) : (freeSlot k s).order.Nodup := by
  simpa using h.filter _

theorem putEntry_entry (s : State) (t u : Fin 512) (e : Entry) :
    (s.putEntry t e).entry u = if t = u then e else s.entry u :=
  set_getElem_fin _ _ _ _

theorem freeSlot_entry (s : State) (k : Fin 32) (t : Fin 512) :
    (freeSlot k s).entry t =
      if (s.entry t).covering = some k then { s.entry t with covering := none } else s.entry t :=
  mapTable_getElem_fin _ _ _

theorem rewriteCovering_entry (s : State) (t : Fin 512) :
    (rewriteCovering s).entry t = { s.entry t with covering := s.rewrittenCovering (s.entry t) } :=
  mapTable_getElem_fin _ _ _

theorem coverAtOpening_entry (s : State) (k : Fin 32) (i : Incident) (t : Fin 512) :
    (coverAtOpening k i s).entry t = { s.entry t with covering := s.coveringAtOpening k i (s.entry t) } :=
  mapTable_getElem_fin _ _ _

/-- A close leaves a close-due incident in its slot, or frees the slot (R142). -/
theorem closeIncident_cases (k : Fin 32) (r : CloseReason) (n : Nat) (i : Incident) (s : State) :
    (i.announced = true ∧ closeIncident k r n i s =
      s.putSlot k { i with close := some { reason := r, absorber := n }, soak := none }) ∨
    (i.announced = false ∧ closeIncident k r n i s = freeSlot k s) := by
  unfold closeIncident
  cases i.announced
  · exact .inr ⟨rfl, rfl⟩
  · exact .inl ⟨rfl, rfl⟩

/-- The test of an absorption is R125's. -/
theorem absorbs_iff (s : State) (k : Fin 32) (i : Incident) (j : Fin 32) (other : Incident) :
    s.absorbs k i j other ↔ j ≠ k ∧ other.close = none ∧ i.kind.family.isSome = true ∧
      other.kind.family = i.kind.family ∧ i.takesIn s.nodes s.entries other = true := by
  unfold State.absorbs Incident.takesIn Incident.aboveNode Incident.aboveTerminal inSubtree
  cases hf : i.kind.family with
  | none => simp
  | some f =>
    cases ho : other.subject <;> cases hi : i.subject <;> simp [and_assoc, State.entry]

/-- What an absorption test does to one slot (R125): nothing, or the close of the incident there. -/
theorem absorbSlot_cases (k : Fin 32) (i : Incident) (s : State) (j : Fin 32) :
    absorbSlot k i s j = s ∨
    ∃ other, s.slot j = some other ∧ s.absorbs k i j other ∧
      absorbSlot k i s j = closeIncident j .absorbed i.number other s := by
  unfold absorbSlot
  split
  · exact .inl rfl
  · rename_i other ho
    split
    · rename_i h
      exact .inr ⟨other, ho, (absorbs_iff s k i j other).mpr h, rfl⟩
    · exact .inl rfl

/-- What the matching does to one slot (R119): nothing, a refresh from its cause, a free, or the start of its release
soak. -/
theorem matchSlot_cases (causes : List Cause) (s : State) (k : Fin 32) :
    matchSlot causes s k = s ∨
    ∃ i, s.slot k = some i ∧ k ≠ 0 ∧ i.close = none ∧
      ((∃ c ∈ causes, c.fits i = true ∧ matchSlot causes s k = s.putSlot k (i.present c)) ∨
       ((∀ c ∈ causes, c.fits i = false) ∧
        ((i.phase = .waiting ∧ matchSlot causes s k = freeSlot k s) ∨
         (i.phase = .opened ∧ matchSlot causes s k =
            s.putSlot k { i with phase := .clearing, soak := some (s.msWindow (s.releaseSoak i.kind)) })))) := by
  unfold matchSlot
  cases hs : s.slot k with
  | none => exact .inl rfl
  | some i =>
    simp only
    by_cases hk : k = 0 ∨ i.close.isSome = true
    · rw [if_pos hk]
      exact .inl rfl
    · rw [if_neg hk]
      have hk0 : k ≠ 0 := fun h => hk (.inl h)
      have hc : i.close = none := by
        cases h : i.close with
        | none => rfl
        | some c => exact absurd (.inr (by simp [h])) hk
      cases hf : causes.find? (·.fits i) with
      | some c =>
        exact .inr ⟨i, rfl, hk0, hc, .inl ⟨c, List.mem_of_find?_eq_some hf, by simpa using List.find?_some hf, rfl⟩⟩
      | none =>
        have hn : ∀ c ∈ causes, c.fits i = false := by
          intro c hcm
          simpa using List.find?_eq_none.mp hf c hcm
        cases hp : i.phase with
        | waiting => exact .inr ⟨i, rfl, hk0, hc, .inr ⟨hn, .inl ⟨hp, rfl⟩⟩⟩
        | opened => exact .inr ⟨i, rfl, hk0, hc, .inr ⟨hn, .inr ⟨hp, rfl⟩⟩⟩
        | clearing => exact .inl rfl

/-- What the residue recount does (R123): nothing, a new residue, its close with counts of 0, or its counts anew. -/
theorem residueRecount_cases (u : Unplaced) (s : State) :
    residueRecount u s = s ∨
    (s.slot 0 = none ∧ u ≠ Unplaced.none ∧ residueRecount u s = createIncident 0 (s.newResidue u) s) ∨
    ∃ i, s.slot 0 = some i ∧ i.close = none ∧
      ((u = Unplaced.none ∧ residueRecount u s = closeIncident 0 .cleared 0 { i with unplaced := u } s) ∨
       (u ≠ Unplaced.none ∧ residueRecount u s = s.putSlot 0 { i with unplaced := u })) := by
  unfold residueRecount
  cases hs : s.slot 0 with
  | none =>
    simp only
    by_cases hu : u = Unplaced.none
    · exact .inl (by rw [if_pos hu])
    · exact .inr (.inl ⟨trivial, hu, by rw [if_neg hu]⟩)
  | some i =>
    simp only
    cases hc : i.close with
    | some c => exact .inl rfl
    | none =>
      refine .inr (.inr ⟨i, rfl, hc, ?_⟩)
      by_cases hu : u = Unplaced.none
      · exact .inl ⟨hu, by rw [if_neg (by simp), if_pos hu, hc]⟩
      · exact .inr ⟨hu, by rw [if_neg (by simp), if_neg hu, hc]⟩

/-- The evaluations of stage 7 change the incident records alone, slot by slot (R108). -/
theorem evaluateAll_slot (s0 s : State) (k : Fin 32) :
    (evaluateAll s0 s).slot k = (s.slot k).map (s.evaluated (s0.slot k)) := by
  simp [State.slot, evaluateAll, Fin.ofNat, Nat.mod_eq_of_lt k.isLt]

end Sys2Proof.Machine
end

