-- ==== Sys2Proof/Laws/Intake.lean ====
section
/-! SUPPORT. The laws of the Intake Parser and of a terminal event: the slot of an intake write, the mark table after a
put, the terminal a record names, and the terminal event as one update (R1, R6, R13, R35 to R37). -/

namespace Sys2Proof.Machine

/-- The slot of an intake write is one of the 4096 that a ring can have (R1, R180). -/
theorem intakeSlot_lt {s : State} (h : s.intakeLaw) (b : Beat) : s.intakeSlot b < 4096 := by
  unfold State.intakeSlot State.intakeWord
  split
  · cases hr : s.intakeRing with
    | none => simp
    | some r =>
      have := h.2 r hr
      simp only [Option.bind_some, Ring.locate]
      split
      · simp
        omega
      · simp
  · simp

/-- Replacing a slot's mark sets that mark alone. -/
theorem putMark_markSet {s t : State} (h : s.intakeLaw) {k : Nat} {m : Mark} (ht : t.marks = (s.putMark k m).marks) :
    s.markSet t k m := by
  intro j
  by_cases hj : j = k
  · subst hj
    simp [State.mark, ht, State.putMark, Sparse.get_put_same h.1]
  · simp [State.mark, ht, State.putMark, hj, Sparse.get_put_other hj]

/-- Replacing the mark of an intake write's slot keeps the canonical form. -/
theorem putMark_wf {s : State} (h : s.intakeLaw) (b : Beat) (m : Mark) :
    (s.putMark (s.intakeSlot b) m).marksWf = true :=
  Sparse.put_wf h.1 (Nat.zero_le _) (intakeSlot_lt h b)

/-- A record names no provisioned terminal (R13). -/
theorem recordTerminal_none {s : State} {c : Word0Capture}
    (h : ∀ k : Fin 512, k.val = c.terminal.toNat → (s.entry k).provisioned = false) : s.recordTerminal c = none := by
  unfold State.recordTerminal
  split
  · rw [if_neg]
    rw [h _ rfl]
    simp
  · rfl

/-- A record names a provisioned terminal (R13). -/
theorem recordTerminal_some {s : State} {c : Word0Capture} {k : Fin 512} (h : k.val = c.terminal.toNat)
    (hp : (s.entry k).provisioned = true) : s.recordTerminal c = some k := by
  unfold State.recordTerminal
  have hlt : c.terminal.toNat < 512 := h ▸ k.isLt
  have : (⟨c.terminal.toNat, hlt⟩ : Fin 512) = k := Fin.ext h.symm
  rw [dif_pos hlt, this, if_pos hp]

/-- The terminal that a record names is provisioned (R13). -/
theorem recordTerminal_provisioned {s : State} {c : Word0Capture} {k : Fin 512} (h : s.recordTerminal c = some k) :
    k.val = c.terminal.toNat ∧ (s.entry k).provisioned = true := by
  unfold State.recordTerminal at h
  split at h
  · split at h
    · obtain rfl := Option.some.inj h
      exact ⟨rfl, ‹_›⟩
    · simp at h
  · simp at h

/-- The counts after a terminal event are the nodes' alone (R35, R38). -/
theorem adjustCounts_eq (old new : Entry) (s : State) :
    adjustCounts old new s = { s with nodes := if s.applyPass then s.nodes else adjustNodes old new s.nodes } := by
  unfold adjustCounts
  split
  · rfl
  · rfl

/-- The move of an entry changes that entry and the counts alone (R35). -/
theorem moveEntry_eq (t : Fin 512) (new : Entry) (s : State) :
    moveEntry t new s = { s with
      entries := s.entries.set t new
      nodes := if s.applyPass then s.nodes else adjustNodes (s.entry t) new s.nodes } := by
  rw [moveEntry, adjustCounts_eq]
  rfl

/-- All that a terminal event can change: the entry, the counts, the gauge, STORM and the Settle Timer (R35 to R37). -/
theorem terminalEvent_frame (t : Fin 512) (new : Entry) (s : State) :
    { terminalEvent t new s with
      entries := s.entries, nodes := s.nodes, gauge := s.gauge, storm := s.storm, settle := s.settle } = s := by
  rw [terminalEvent, markIf_eq, terminalChange, addFalls_eq, moveEntry_eq]

/-- The one fall that a record's event can add moves the gauge by at most one (R94, R96). -/
theorem addFalls_flag (f : Bool) (s : State) :
    addFalls (flag f) s = { s with
      gauge := if f then min 1023 (s.gauge + 1) else s.gauge
      storm := if (if f then min 1023 (s.gauge + 1) else s.gauge) = s.gauge then s.storm
        else stormTest s.par.stormEnter s.par.stormExit (if f then min 1023 (s.gauge + 1) else s.gauge) s.storm } := by
  rw [addFalls_eq]
  cases f
  · simp [flag]
  · simp [flag, Config.gaugeMax]

end Sys2Proof.Machine
end

