-- ==== Sys2Proof/Laws/Notices.lean ====
section
/-! SUPPORT. The laws of the Notice Writer's shared operations: what a take can do, and what the ring's operations change
(R153, R161, R163, R164). -/

namespace Sys2Proof.Machine

/-- The writer can take a notice: a ring with room, no notice in progress, no header write to make (R161, R164). -/
theorem canTake_iff (s : State) :
    s.canTake = true ↔ s.notice = none ∧ s.headerDue = false ∧ ∃ r, s.noticeRing = some r ∧ s.unconsumed < r.count := by
  unfold State.canTake
  cases s.noticeRing with
  | none => simp
  | some r => simp [and_assoc]

/-- The incident chosen stands in its slot and is due (R161). -/
theorem chosen_slot {s : State} {k : Fin 32} {i : Incident} {d : NoticeKind} (h : s.chosen = some (k, i, d)) :
    k ∈ s.order ∧ s.slot k = some i ∧ i.due = some d := by
  obtain ⟨j, hj, hd⟩ := List.exists_of_findSome?_eq_some h
  unfold State.slotDue at hd
  cases hs : s.slot j with
  | none => simp [hs] at hd
  | some x =>
    cases hx : x.due with
    | none => simp [hs, hx] at hd
    | some y =>
      simp only [hs, hx, Option.bind_some, Option.map_some, Option.some.injEq, Prod.mk.injEq] at hd
      obtain ⟨rfl, rfl, rfl⟩ := hd
      exact ⟨hj, hs, hx⟩

/-- All that a take can do (R161): nothing, the RESTART notice, or a notice of the incident chosen. -/
theorem takeNotice_cases (s : State) :
    takeNotice s = s ∨
    (s.canTake = true ∧ ∃ r, s.restart = some r ∧ takeNotice s = takeRestart r s) ∨
    (s.canTake = true ∧ s.restart = none ∧ ∃ k i d, s.chosen = some (k, i, d) ∧ takeNotice s = takeIncident k i d s) := by
  unfold takeNotice
  cases hc : s.canTake
  · exact .inl rfl
  · simp only [if_true]
    cases hr : s.restart with
    | some r => exact .inr (.inl ⟨trivial, r, rfl, rfl⟩)
    | none =>
      cases hch : s.chosen with
      | none => exact .inl rfl
      | some x => exact .inr (.inr ⟨trivial, rfl, x.1, x.2.1, x.2.2, rfl, rfl⟩)

/-- A take changes the slots, the RESTART and the notice alone (R153, R161). -/
theorem takeNotice_frame (s : State) :
    { takeNotice s with slots := s.slots, restart := s.restart, notice := s.notice } = s := by
  rcases takeNotice_cases s with h | ⟨-, r, -, h⟩ | ⟨-, -, k, i, d, -, h⟩
  · rw [h]
  · rw [h]
    rfl
  · rw [h]
    rfl

/-- A take frees no slot and fills none (R153). -/
theorem takeNotice_slot_isSome (s : State) (k : Fin 32) : ((takeNotice s).slot k).isSome = (s.slot k).isSome := by
  rcases takeNotice_cases s with h | ⟨-, r, -, h⟩ | ⟨-, -, j, i, d, hch, h⟩
  · rw [h]
  · rw [h]
    rfl
  · rw [h]
    show ((s.putSlot j (i.taken d)).slot k).isSome = _
    rw [putSlot_slot]
    split
    · rename_i hjk
      rw [← hjk, (chosen_slot hch).2.1]
      rfl
    · rfl

/-- A producer write frees the slot of a CLOSE with a dirty mark, or frees none (R146, R163). -/
theorem freeClosed_cases (f : Option (Fin 32)) (s : State) :
    (f = none ∧ freeClosed f s = s) ∨ ∃ k, f = some k ∧ freeClosed f s = dirtyMark (freeSlot k s) := by
  cases f with
  | none => exact .inl ⟨rfl, rfl⟩
  | some k => exact .inr ⟨k, rfl, rfl⟩

/-- What a COMMIT completion does about its ring (R164): nothing but to drop a waiting one, a wait, or the
initialisation. -/
theorem applyNoticeRing_cases (r : Ring) (s : State) :
    (s.noticeRing = some r ∧ applyNoticeRing r s = { s with ringWaiting := none }) ∨
    (s.noticeRing ≠ some r ∧ s.notice ≠ none ∧ applyNoticeRing r s = { s with ringWaiting := some r }) ∨
    (s.noticeRing ≠ some r ∧ s.notice = none ∧ applyNoticeRing r s = initRing r s) := by
  unfold applyNoticeRing
  by_cases h : s.noticeRing = some r
  · exact .inl ⟨h, by rw [if_pos h]⟩
  · cases hn : s.notice with
    | some n => exact .inr (.inl ⟨h, by simp, by rw [if_neg h]; rfl⟩)
    | none => exact .inr (.inr ⟨h, rfl, by rw [if_neg h]; rfl⟩)

end Sys2Proof.Machine
end

