-- ==== Sys2Proof/Laws/Timers.lean ====
section
/-! SUPPORT. The laws of the Timebase: what a carry leaves of the windows (R88, R90, R191), the cycle of a microsecond carry
(R81, R186), and what comes while RESET_N is asserted (R192). -/

namespace Sys2Proof.Machine

/-- What a millisecond carry does to a settle or soak window, frozen or not (R88, R90). -/
theorem msCarried_eq (s : State) :
    (if s.frozen then windowPassed else windowCounted) = (if s.frozen then Window.passed else Window.carried) := by
  funext w
  cases s.frozen
  · exact (carried_eq w).symm
  · rfl

/-- A millisecond carry changes the settle window and the soaks alone (R88, R90, R102, R141). -/
theorem countWindows_eq (s : State) :
    countWindows s = { s with
      settle := s.settle.map (if s.frozen then windowPassed else windowCounted)
      slots := mapTable (fun _ o => o.map (fun i =>
        { i with soak := i.soak.map (if s.frozen then windowPassed else windowCounted) })) s.slots } := by
  rw [msCarried_eq]
  unfold countWindows
  cases s.frozen <;> rfl

/-- A microsecond carry changes the patience window alone (R88, R191). -/
theorem countPatience_eq (s : State) :
    countPatience s = { s with arb := { s.arb with
      window := s.arb.window.map (if s.head.isSome then windowCounted else windowPassed) } } := by
  have hc : Window.carried = windowCounted := funext carried_eq
  unfold countPatience
  cases s.head.isSome
  · rfl
  · simp only [hc, if_true]

/-- The cycle of a microsecond carry in which M_READY ends no access (R81, R186). -/
theorem toMicrosecond_idle {ready : Bool} {s : State} (h : ready = false ∨ s.arb.busy = none) :
    toMicrosecond ready s =
      { s with time := { s.time with prescaler := 24 }, arb := { s.arb with ready } } := by
  unfold toMicrosecond memoryReady
  rcases h with rfl | h
  · rfl
  · cases ready
    · rfl
    · simp [h]

/-- MICROSECOND_CARRY waits for the events of the moment, runs into the cycle of the carry, or takes the carry too (R81,
log entries 6 and 34). -/
theorem execMicrosecondCarry_cases (levels : Levels) (run : CarryRun) (s : State) :
    (s.waiting ≠ none ∧ execMicrosecondCarry levels run s = .next s) ∨
    (s.waiting = none ∧ run.upTo = true ∧ execMicrosecondCarry levels run s = .next (toMicrosecond run.ready s)) ∨
    (s.waiting = none ∧ run.upTo = false ∧ execMicrosecondCarry levels run s = .next (microsecond levels run.ready s)) := by
  unfold execMicrosecondCarry
  cases s.waiting <;> cases run.upTo <;> simp

/-- What comes while RESET_N is asserted (R186, R192): nothing new while a beat is held, a hold behind a beat that memory
has not made ready, a plain forwarding, or a level of M_READY with the release of a held beat. -/
theorem plainEvent_cases (s : State) (e : BusEvent) :
    (∃ b, e = .access b ∧
      ((s.arb.held ≠ none ∧ plainEvent s e = s) ∨
        (s.arb.held = none ∧ s.arb.busy ≠ none ∧ plainEvent s e = { s with arb := { s.arb with held := some b } }) ∨
        (s.arb.held = none ∧ s.arb.busy = none ∧ plainEvent s e = plainBeat b s))) ∨
    (e = .ready false ∧ plainEvent s e = { s with arb := { s.arb with ready := false } }) ∨
    (e = .ready true ∧
      ((s.arb.held = none ∧ plainEvent s e = { s with arb := { s.arb with ready := true, busy := none } }) ∨
        ∃ b, s.arb.held = some b ∧
          plainEvent s e = plainBeat b { s with arb := { s.arb with ready := true, busy := none } })) := by
  cases e with
  | access b =>
    refine .inl ⟨b, rfl, ?_⟩
    unfold plainEvent
    cases s.arb.held <;> cases s.arb.busy <;> simp
  | ready level =>
    cases level with
    | false => exact .inr (.inl ⟨rfl, rfl⟩)
    | true =>
      refine .inr (.inr ⟨rfl, ?_⟩)
      unfold plainEvent plainRelease
      cases h : s.arb.held <;> simp

end Sys2Proof.Machine
end

