-- ==== Sys2Proof/Tests/Slice0.lean ====
section
/-! SUPPORT. The tests of the model: ill-formed commands that WellFormed refuses, words and values from the tables and the
worked sequences of spec/, one step at a time, and a witness for the hypotheses of every obligation. -/

namespace Sys2Proof.Tests

open Sys2Proof.Machine

/-! ## WellFormed refuses ill-formed commands -/

/-- A full-word beat of a single write. -/
def beat (a : Nat) (w : Word) : Beat := { addr := BitVec.ofNat 24 a, be := 15, data := w, burst := false, read := false }

/-- A beat with the byte enables given. -/
def someBytes (a : Nat) (be : BitVec 4) (w : Word) : Beat :=
  { addr := BitVec.ofNat 24 a, be, data := w, burst := false, read := false }

/-- A passing read of one word. -/
def reading (a : Nat) : Beat := { beat a 0 with read := true }

theorem test_wf_passing_unaligned : Instr.wellFormed (.passingWrite (beat 0x20001 0)) = false := by decide

theorem test_wf_word0_partial : Instr.wellFormed (.intakeWord0Write (someBytes 0x20000 3 0)) = false := by decide

theorem test_wf_word0_unaligned : Instr.wellFormed (.intakeWord0Write (beat 0x20002 0)) = false := by decide

theorem test_wf_partial_full : Instr.wellFormed (.intakePartialWrite (beat 0x20000 0)) = false := by decide

theorem test_wf_partial_none : Instr.wellFormed (.intakePartialWrite (someBytes 0x20000 0 0)) = false := by decide

theorem test_wf_completion_partial : Instr.wellFormed (.statusRecord (someBytes 0x2000C 7 0)) = false := by decide

theorem test_wf_disturbing_none : Instr.wellFormed (.disturbingWrite (someBytes 0x40010 0 0)) = false := by decide

theorem test_wf_word0_read : Instr.wellFormed (.intakeWord0Write (reading 0x20000)) = false := by decide

theorem test_wf_soak_of_the_residue : Instr.wellFormed (.attackExpiry 0) = false := by decide

theorem test_wf_complete_word : Instr.wellFormed (.statusRecord (beat 0x2000C 0)) = true := by decide

/-! ## Words and values of the spec's tables -/

/-- 3.9.1, record 2: from -3440 a STATUS at -231 with FILTER_SHIFT 2 steps to -3504, level -219. -/
theorem test_filter_record_2 : stepFilter 2 (-231) (-3440) = -3504 ∧ level (-3504) = -219 := by decide

/-- 3.9.2, records 16 and 19: the quotient -1, and a forced unit step. -/
theorem test_filter_records_16_19 : stepFilter 2 (-231) (-3690) = -3691 ∧ stepFilter 2 (-231) (-3693) = -3694 := by
  decide

/-- R55: the level's table at its edges; R56 at -3615 and -3599. -/
theorem test_level_and_dim : level (-15) = 0 ∧ level (-3615) = -225 ∧ level 207 = 12 ∧
    dimTest (-225) (-215) (-3615) false = true ∧ dimTest (-225) (-215) (-3455) true = false := by decide

/-- R87: the durations of codes 0, 4, 6 and 15. -/
theorem test_durations : duration 0 = 1 ∧ duration 4 = 100 ∧ duration 6 = 400 ∧ duration 15 = 60000 := by decide

/-- 12.2: ACCEPTED, LIT, at ms clock 0x12345678. -/
theorem test_disposition_word : dispositionWord .accepted (some .lit) 0x12345678 = 0x01025678 := by decide

/-- 12.4: tag 0x22, CLAMPED, detail 9 (10.10). -/
theorem test_status_word : statusWord { tag := 0x22, outcome := .clamped, detail := 9 } = 0x22020009 := by decide

/-- 12.4: MAINT with tag 5 and mask 0x8001 as its mailbox word. -/
theorem test_mailbox_word : mailboxWord 7 5 0x8001 = 0x07058001 := by decide

/-- R110 and 7.10.1: node 4 with 150 of 150 DARK is struck by quorum 12, node 3 with 150 of 226 is not. -/
theorem test_quorum : quorum 12 2 150 150 = true ∧ quorum 12 2 226 150 = false ∧ quorum 4 2 8 1 = false := by decide

/-- R180: counts to a power of two not above them, a base to its multiple; R60: DIM_CLEAR above DIM_SET. -/
theorem test_clamps : clampIntakeCount 100 = 64 ∧ clampNoticeCount 2000 = 1024 ∧ clampBase 32 0x30033 = 0x30020 ∧
    clampDimSet 100 = 99 ∧ clampDimClear 99 (-600) = 100 ∧ clampStormExit 48 48 = 47 := by decide

/-- R149 and 7.10: with predicate code 3 for TERMINAL_POWER, notices are permitted only while STORM is clear. -/
theorem test_predicate : permittedBy 0x00030000 .terminalPower false true = true ∧
    permittedBy 0x00030000 .terminalPower true false = false := by decide

/-- R133: the number after 65535 is 1. -/
theorem test_number_wraps : nextNumberAfter 65535 = 1 ∧ nextNumberAfter 57 = 58 := by decide

/-- 12.5: a census node word of node 4 with 150 monitored, 150 dark, unmarked. -/
theorem test_census_node_word :
    censusNodeWord { Node.quiet true .fibre (some 3) with monitored := 150, dark := 150 } =
      BitVec.ofNat 32 (150 * 2 ^ 22 + 150 * 2 ^ 12 + 1) := by decide

/-! ## A small part -/

/-- The settings of 3.9, 6.9 and 7.10. -/
def settings : Settings :=
  { filterShift := 2, dimSet := -225, dimClear := -215, silenceTap := 2, silenceLimit := 4, missLimit := 3,
    qDark := 12, qDim := 12, qPower := 12, qMains := 4, minAffected := 2, stormLeak := 4, stormEnter := 48,
    stormExit := 16, settleCalm := 3, settleStorm := 6, attackDark := 4, releaseDark := 8, attackPower := 4,
    releasePower := 8, attackDim := 4, releaseDim := 8, predicates := 0xFFF3FFFF }

/-- A LIT terminal below the two roots, with last round 16 and its filter at -3000. -/
def lit : Entry :=
  { Entry.afterReset with provisioned := true, link := .lit, lastRound := some 16, filter := some (-3000) }

/-- A RUNNING part with the rings of 1.7 and 9.8, a census region, terminals 130 and 131 provisioned, and nothing to
write. -/
def part : State :=
  { State.reset with
    straps := 4, part := .running, configured := true, settings := some settings
    intakeRing := some { base := 0x20000, count := 64 }, noticeRing := some { base := 0x30000, count := 8 }
    censusBase := some 0x50000, restart := none, writeMarks := { status := false, partA := false, partB := false }
    entries := ((Vector.replicate 512 Entry.afterReset).set 130 lit).set 131 lit
    nodes := (nodesAfterReset.set 0 { Node.quiet true .fibre none with monitored := 2 }).set 1
      { Node.quiet true .power none with monitored := 2 }
    time := { Timebase.zero with clock := 0x12345678 } }

/-- Both inputs released. -/
def released : Levels := { mainsFail := false, maintAll := false }

/-- MAINS_FAIL alone asserted. -/
def failed : Levels := { mainsFail := true, maintAll := false }

/-- A window whose last carry has been given and not yet taken (R88). -/
def dueWindow : Window := { left := 1, due := true, fresh := false }

/-- The state after a command. -/
def after (c : Instr) (s : State) : State :=
  match exec c s with
  | .next t => t
  | .fault _ => s
  | .refused _ => s

/-- The part with one slot's mark. -/
def marked (k : Nat) (m : Mark) : State := { part with marks := [(k, m)] }

/-- A complete mark of a record of terminal 130. -/
def full (kind round : Byte) (power : Int) : Mark :=
  { word0 := some { kind, round, terminal := 130 }, word1 := some power, torn := false }

/-- The part with an incident in slot 1. -/
def withIncident (i : Incident) : State :=
  { part with slots := (Vector.replicate 32 none).set 1 (some i), order := [1], nextNumber := 58 }

/-- A PENDING TERMINAL_DARK incident of terminal 130, number 57, whose attack soak has run out. -/
def waiting : Incident :=
  { number := 57, kind := .terminalDark, subject := .terminal 130, phase := .waiting, soak := some dueWindow, created := 1,
    afflicted := 1, monitored := 1, exceptions := [], truncated := false, unplaced := Unplaced.none, maint := false,
    storm := false, announced := false, withheld := false, recurred := false, openDue := false, updateDue := false,
    close := none }

/-- The same incident CLEARING with its release soak run out. -/
def clearing : Incident := { waiting with phase := .clearing, announced := true }

/-- An intake slot's word address in the ring of 1.7. -/
def slotWord (k w : Nat) : Nat := 0x20000 + 16 * k + 4 * w

/-- The part in an edit entered from RUNNING. -/
def editing : State :=
  { part with part := .edit, origin := some .running, editTag := 0x21, editLimit := some (Window.start 10 false) }

/-- The part in a COMMIT load. -/
def loading (l : Load) : State := { editing with part := .loading, load := some l }

/-- A load that has read nothing. -/
def freshLoad : Load := { tag := 0x22, applying := false, staged := [], applied := 0, clamps := 0, disturbances := 0 }

/-! ## One step of each command -/

theorem test_hardware_reset : (after (.hardwareReset 7 failed []) part).straps = 7 ∧
    (after (.hardwareReset 7 failed []) part).part = .unconfigured ∧
    (after (.hardwareReset 7 failed []) part).inputs.mainsFail = true := by decide

/-- A write to the mailbox while RESET_N is asserted passes unwatched, and its burst is carried through (R192); behind it
the owned-word writer waits from the release on (R189, R191). -/
theorem test_hardware_reset_passes :
    let t := after (.hardwareReset 4 released [.access { beat 0x40000 0x09010000 with burst := true }]) part
    readWord t.mem 0x40000 = 0x09010000 ∧ t.status.outcome = .unset ∧ t.arb.plain = true ∧
      t.rowOf (beat 0x40000 0x09010000) = .passingWrite ∧ t.arb.window = some (Window.start 5 false) ∧
      (after (.hardwareReset 4 released []) part).arb.window = none := by decide

/-- An edge of MAINS_FAIL starts the calm window of 50 ms (R77, R101). -/
theorem test_mains_fail_edge :
    (after .mainsFailEdge { part with inputs.sample := failed }).settle = some (Window.start 50 false) := by decide

theorem test_maint_all_edge :
    (after .maintAllEdge { part with inputs.sample := { failed with maintAll := true } }).inputs.maintAll = true := by
  decide

/-- Byte enable 1 covers bits 15..8 and the address one above the word's (R194). -/
theorem test_passing_write :
    readByte (after (.passingWrite (someBytes 0x100 2 0xAABBCCDD)) part).mem 0x101 = 0xCC ∧
    readByte (after (.passingWrite (someBytes 0x100 2 0xAABBCCDD)) part).mem 0x100 = 0 := by decide

/-- A passing read returns the word of memory and changes no mark, even of a slot's word 0 (R186, R187). -/
theorem test_passing_read :
    let s := after (.passingWrite (beat (slotWord 5 0) 0x01110082)) part
    (after (.passingWrite (reading (slotWord 5 0))) s).readData = 0x01110082 ∧
    (after (.passingWrite (reading (slotWord 9 0))) s).marks = s.marks := by decide

/-- 1.7.1: STATUS, round 17, terminal 130. -/
theorem test_word0 : (after (.intakeWord0Write (beat (slotWord 5 0) 0x01110082)) part).mark 5 =
    { word0 := some { kind := 1, round := 17, terminal := 130 }, word1 := none, torn := false } := by decide

/-- 1.7.1: power -187 is 0xFF45. -/
theorem test_word1 : ((after (.intakeWord1Write (beat (slotWord 5 1) 0x0000FF45)) part).mark 5).word1 = some (-187) := by
  decide

/-- 1.7.2: a partial word1 keeps the word0 capture and sets torn. -/
theorem test_partial : (after (.intakePartialWrite (someBytes (slotWord 9 1) 3 0)) (marked 9 (full 3 0 1))).mark 9 =
    { full 3 0 1 with word1 := none, torn := true } := by decide

theorem test_partial_word3 :
    (after (.intakePartialWord3Write (someBytes (slotWord 9 3) 1 0)) (marked 9 (full 3 0 1))).malformed = 1 := by decide

theorem test_empty : (after (.emptyRecord (beat (slotWord 9 3) 0xABCD)) (marked 9 { full 0 0 0 with torn := true })).marks
    = [] := by decide

/-- 1.7.2: MALFORMED, link state 0. -/
theorem test_malformed : readWord (after (.malformedRecord (beat (slotWord 9 3) 0))
    (marked 9 { full 3 0 1 with torn := true })).mem (slotWord 9 3) = 0x06005678 := by decide

/-- 1.7.1: the word3 write of slot 5 carries ACCEPTED, LIT and the time. -/
theorem test_status : readWord (after (.statusRecord (beat (slotWord 5 3) 0)) (marked 5 (full 1 17 (-187)))).mem
    (slotWord 5 3) = 0x01025678 := by decide

/-- 1.7.1: the same round again is REPEAT. -/
theorem test_status_repeat : readWord (after (.statusRecord (beat (slotWord 5 3) 0)) (marked 5 (full 1 16 (-187)))).mem
    (slotWord 5 3) = 0x02025678 := by decide

/-- 2.13.2: the third MISS brings a LIT terminal to DARK and adds one fall. -/
theorem test_miss :
    let s := (marked 5 (full 2 142 0)).putEntry 130 { lit with missRun := 2 }
    ((after (.missRecord (beat (slotWord 5 3) 0)) s).entry 130).link = .dark ∧
      (after (.missRecord (beat (slotWord 5 3) 0)) s).gauge = 1 := by decide

/-- 2.13.2: the late gasp moves DARK to SPENT with LATE. -/
theorem test_gasp :
    let s := (marked 5 (full 3 0 0)).putEntry 130 { lit with link := .dark, filter := none }
    ((after (.gaspRecord (beat (slotWord 5 3) 0)) s).entry 130).link = .spent ∧
      readWord (after (.gaspRecord (beat (slotWord 5 3) 0)) s).mem (slotWord 5 3) = 0x03055678 := by decide

/-- 3.9.1, record 1: a LINK at -215 seeds the filter at -3440 with DIM clear. -/
theorem test_link : ((after (.linkRecord (beat (slotWord 5 3) 0)) (marked 5 (full 4 0 (-215)))).entry 130).filter =
    some (-3440) := by decide

theorem test_tree_down : (after (.treeDown (beat (slotWord 5 3) 0)) (marked 5 (full 5 0 0))).trunk = true ∧
    (after (.treeDown (beat (slotWord 5 3) 0)) (marked 5 (full 5 0 0))).settle = some (Window.start 50 false) := by decide

/-- A TREE_UP that finds the flag clear makes no dirty mark (R14). -/
theorem test_tree_up : (after (.treeUp (beat (slotWord 5 3) 0)) (marked 5 (full 6 0 0))).settle = none := by decide

/-- The 16 ms tap carries when the counter reaches a multiple of 16 (R82). -/
theorem test_millisecond_carry :
    (after .millisecondCarry { part with time.counter := 15 }).time.leakDue = true ∧
    (after .millisecondCarry { part with settle := some (Window.start 50 false) }).settle = some (Window.start 49 false) := by decide

/-- 2.13.1: the third silence carry brings a FADING terminal to SPENT. -/
theorem test_silence_carry :
    ((after .silenceCarry (({ part with time.silenceDue := true }).putEntry 130 { lit with link := .fading, silence := 3 })
      ).entry 130).link = .spent := by decide +kernel

/-- 6.9.2: the leak after the falls takes 153 to 149, and one at 15 under STORM clears it. -/
theorem test_storm_leak :
    (after .stormLeak { part with gauge := 153, storm := true, time.leakDue := true }).gauge = 149 ∧
    (after .stormLeak { part with gauge := 17, storm := true, time.leakDue := true }).storm = false := by decide

/-- The 50th carry after its start ends a window of 50 ms, and the pass is requested at that carry's moment: no REFCLK
cycle passes before it (R88, R102, R103). -/
theorem test_settle_expiry :
    let s := after .millisecondCarry { part with settle := some (Window.start 1 false) }
    s.settle = some dueWindow ∧ s.waiting = some .settleExpiry ∧ (after .settleExpiry s).passRequest = true ∧
      (after .settleExpiry s).settle = none := by decide +kernel

/-- A pass that starts while the trunk flag is set finds node 0 struck, though no terminal is DARK (R112). -/
theorem test_pass_reading :
    (after .passReading { part with passRequest := true, trunk := true }).nodes[0].struckDark = true ∧
    (after .passReading { part with passRequest := true, trunk := true }).passRequest = false := by decide +kernel

/-- Its matching creates a PENDING incident with the DARK attack soak of 100 ms in slot 1 (R122, R135). -/
theorem test_pass_matching :
    ((after .passMatching { part with pass := some [terminalCause .terminalDark 130], nextNumber := 57 }).slot 1).map
      (fun i => (i.number, i.phase, i.soak)) = some (57, .waiting, some (Window.start 100 false)) := by decide +kernel

/-- An attack expiry makes the incident OPEN and open-due, and its OPEN is taken (R136, R161). -/
theorem test_attack_expiry :
    ((after (.attackExpiry 1) (withIncident waiting)).slot 1).map (fun i => (i.phase, i.announced, i.openDue)) =
      some (.opened, true, false) := by decide +kernel

theorem test_release_expiry :
    ((after (.releaseExpiry 1) (withIncident clearing)).slot 1).map (·.close) =
      some (some { reason := .cleared, absorber := 0 }) := by decide +kernel

theorem test_extend : (after (.extendCmd 1 0x8003 false) part).latch = some 0x8003 ∧
    (after (.extendCmd 1 0x8003 false) part).status = { tag := 1, outcome := .done, detail := 0 } := by decide

theorem test_edit : (after (.editCmd 0x21 0 false) part).part = .edit ∧
    (after (.editCmd 0x21 0 false) part).editLimit = some (Window.start 10000 false) := by decide

/-- A carry that ends the settle window and comes at the moment of an EDIT taken first is not counted (R90). -/
theorem test_edit_freezes :
    (after (.editCmd 0x21 0 false) { part with settle := some dueWindow }).settle = some (Window.start 1 false) := by decide

theorem test_commit : (after (.commitCmd 0x22 0 false) editing).part = .loading ∧
    (after (.commitCmd 0x22 0 false) editing).status.outcome = .unset := by decide

theorem test_abandon : (after (.abandonCmd 1 0 false) editing).part = .running ∧
    (after (.abandonCmd 1 0 false) (loading freshLoad)).status.detail = 1 := by decide

theorem test_settime : (after (.settimeCmd 1 0x5678 false) { part with latch := some 0x9ABC }).time.clock = 0x9ABC5678 ∧
    (after (.settimeCmd 1 0x5678 false) part).time.clock = 0x00005678 := by decide

theorem test_forget : ((after (.forgetCmd 1 130 false) part).entry 130).link = .unheard ∧
    (after (.forgetCmd 1 512 false) part).status.outcome = .badArgument := by decide

/-- With no value latched MAINT marks in block 0: bit 1 is node 1; node 2 is disabled (R74). -/
theorem test_maint : (after (.maintCmd 1 6 false) part).status.detail = 1 ∧
    (after (.maintCmd 1 6 false) part).nodes[1].maint = true := by decide +kernel

theorem test_census : (after (.censusCmd 0x33 0 false) part).census =
    some { base := 0x50000, tag := 0x33, written := 0, cut := false } := by decide

/-- RESET in LOADING leaves the part UNCONFIGURED, and the SOFT_RESET RESTART is taken at once (R165, R184). -/
theorem test_reset : (after (.resetCmd 1 0 false) (loading freshLoad)).part = .unconfigured ∧
    ((after (.resetCmd 1 0 false) part).notice.map (·.words.take 2)) = some [0x04000000, 0x0200FFFF] := by
  decide +kernel

/-- Code 10 with tag 3 is BAD_OPCODE; a partial write without byte enable 2 has tag 0 (R171). -/
theorem test_bad_opcode :
    (after (.badOpcode (beat 0x40000 0x0A030000)) part).status = { tag := 3, outcome := .badOpcode, detail := 0 } ∧
    (after (.badOpcode (someBytes 0x40000 3 0x0A030000)) part).status =
      { tag := 0, outcome := .badOpcode, detail := 0 } := by decide

/-- A write to Setup Block word 2 carries part status word A: RUNNING is code 1 in bits 31..24. -/
theorem test_owned_word : readWord (after (.ownedWordWrite (beat 0x40008 0xFFFFFFFF)) part).mem 0x40008 = 0x01000000 := by
  decide

theorem test_disturbing : ((after (.disturbingWrite (beat 0x40010 5)) (loading freshLoad)).load.map (·.disturbances)) =
    some 1 := by decide

/-- 9.8: with producer 15, consumer 14 and capacity 8, a write of 24 is held and one of 15 accepted. -/
theorem test_consumer :
    let s : State := { part with producer := 15, consumer := 14 }
    (after (.consumerIndexWrite (beat 0x30004 24)) s).ringFault = true ∧
    (after (.consumerIndexWrite (beat 0x30004 24)) s).consumer = 14 ∧
    (after (.consumerIndexWrite (beat 0x30004 15)) s).consumer = 15 := by decide

/-- The check pass reads words 4..14, then 528..655 (R178). -/
theorem test_check_read : checkWord 10 = 14 ∧ checkWord 11 = 528 ∧ checkWord 138 = 655 ∧
    ((after .loaderCheckRead (loading freshLoad)).load.map (·.staged.length)) = some 1 := by decide

/-- A terminal word of 0 leaves its terminal not provisioned and at rest (R42). -/
theorem test_terminal_word :
    ((after .terminalWordApply (loading { freshLoad with applying := true, applied := 130 })).entry 130).provisioned =
      false := by decide +kernel

theorem test_completion :
    (after .commitCompletion (loading { freshLoad with applying := true, applied := 512, clamps := 9 })).status =
      { tag := 0x22, outcome := .clamped, detail := 9 } := by decide +kernel

theorem test_edit_limit : (after .editLimitExpiry { editing with editLimit := some dueWindow }).status =
    { tag := 0x21, outcome := .expired, detail := 0 } := by decide

/-- 9.8: with producer 14 the notice goes to slot 6 at 0x0300E0. -/
theorem test_notice_word :
    readWord (after .noticeWordWrite { part with
      producer := 14, consumer := 14, notice := some { words := [7, 0, 0, 0, 0, 0, 0, 0], written := 0, frees := none }
      }).mem 0x300E0 = 7 := by decide

/-- 9.8: the producer write takes word 0 to 15 and asserts ATTN. -/
theorem test_producer_write :
    let s : State := { part with
      producer := 14, consumer := 14, notice := some { words := [7, 0, 0, 0, 0, 0, 0, 0], written := 8, frees := none } }
    readWord (after .producerWrite s).mem 0x30000 = 15 ∧ (after .producerWrite s).attn = true := by decide

theorem test_header_init : (after .ringHeaderInitWrite { part with headerDue := true }).headerDue = false := by decide

/-- The first writes after reset place word 1 and keep the other marks (R189). -/
theorem test_owned_word_writer : (after .ownedWordWriterGrant State.reset).writeMarks =
    { status := false, partA := true, partB := true } := by decide

/-- The first write of a census is WRITING with its tag (12.5). -/
theorem test_census_word : readWord (after .censusWordWrite
    { part with census := some { base := 0x50000, tag := 0x33, written := 0, cut := false } }).mem 0x50000 =
      0x01330000 := by decide

theorem test_census_done : (after .censusDoneWrite
    { part with census := some { base := 0x50000, tag := 0x33, written := 642, cut := false } }).census = none := by decide

theorem test_census_cut : readWord (after .censusCutWrite
    { part with census := some { base := 0x50000, tag := 0x33, written := 9, cut := true } }).mem 0x50000 =
      0x03330000 := by decide

theorem test_patience : (after .patienceExpiry { part with arb.window := some dueWindow }).arb.impatient = true := by
  decide

/-- An impatient arbiter holds the next passing read with WAIT while a status word waits (R191). -/
theorem test_impatient_holds_a_read :
    let s : State := { part with arb.impatient := true, writeMarks.partA := true }
    (after (.passingWrite (reading 0x100)) s).wait = true ∧
      (after .ownedWordWriterGrant (after (.passingWrite (reading 0x40008)) s)).readData = 0x01000000 := by decide

/-- The microsecond carry with both inputs released and M_READY asserted. -/
def carry : Instr := .microsecondCarry released { ready := true, upTo := false }

/-- REFCLK up to the cycle of that carry. -/
def upToCarry : Instr := .microsecondCarry released { ready := true, upTo := true }

/-- The divider gives the millisecond carry past 999 (R81); the first sample is the starting level (R193). -/
theorem test_microsecond_carry :
    let run : CarryRun := { ready := true, upTo := false }
    (after (.microsecondCarry failed run) { part with time.divider := 999 }).time.clock = 0x12345679 ∧
    (after (.microsecondCarry failed run) part).inputs.mainsFail = true := by decide

/-- An EDIT at the moment of a millisecond carry and before it: the settle window is frozen and does not count the carry,
and neither does the edit limit, which starts at that moment; an EDIT before that moment starts a limit that counts it
(R88, R90). -/
theorem test_edit_at_a_carry :
    let s : State := { part with time.divider := 999, settle := some (Window.start 50 false) }
    let t := after carry (after (.editCmd 0x21 0 false) (after upToCarry s))
    t.time.clock = 0x12345679 ∧ t.settle = some (Window.start 50 false) ∧ t.editLimit = some (Window.start 10000 false) ∧
      (after carry (after (.editCmd 0x21 0 false) s)).editLimit = some (Window.start 9999 false) := by decide

/-- A patience window that starts as an access ends at a microsecond carry does not count that carry (R88, R191). -/
theorem test_patience_at_a_carry :
    let s : State := { part with writeMarks.partA := true, arb.ready := false, arb.busy := some .passing,
                                 arb.held := some (beat 0x100 5) }
    (after carry s).arb.window = some (Window.start 5 false) ∧
      (after carry (after carry s)).arb.window = some (Window.start 4 false) := by decide

/-- A RESET that is held behind an access and is taken as it ends at a carry clears the chain: no carry comes (R93). -/
theorem test_reset_at_a_carry :
    let s : State := { part with time.divider := 999, arb.ready := false, arb.busy := some .passing,
                                 arb.held := some (beat 0x40000 0x09010000) }
    (after carry s).time.clock = 0x12345678 ∧ (after carry s).time.divider = 0 := by decide

/-- A carry of the 4 ms tap is none of the 16 ms tap at count 4, and is one at count 16 (R41, R82, R91). -/
theorem test_retapped :
    ({ Timebase.zero with counter := 4, silenceDue := true }.retapped 1).silenceDue = false ∧
    ({ Timebase.zero with counter := 16, silenceDue := true }.retapped 1).silenceDue = true := by decide

/-- While RESET_N is asserted a beat that memory has not made ready holds the next one, until M_READY (R186, R192). -/
theorem test_hardware_reset_waits :
    let held := after (.hardwareReset 4 released [.ready false, .access (beat 0x100 5), .access (beat 0x104 6)]) part
    let gone := after (.hardwareReset 4 released
      [.ready false, .access (beat 0x100 5), .access (beat 0x104 6), .ready true]) part
    held.wait = true ∧ readWord held.mem 0x104 = 0 ∧ gone.wait = false ∧ readWord gone.mem 0x104 = 6 := by decide

/-- While an internal access waits for M_READY, a passing write that starts is held, and follows it (R186, R190). -/
theorem test_slow_memory :
    let s : State := { part with arb.ready := false, writeMarks.partA := true }
    let t := after (.passingWrite (beat 0x100 5)) (after .ownedWordWriterGrant s)
    t.wait = true ∧ readWord t.mem 0x40008 = 0 ∧ readWord (after carry t).mem 0x40008 = 0x01000000 ∧
      readWord (after carry t).mem 0x100 = 5 := by decide

/-! ## Witnesses: what each obligation supposes can be met

Each theorem shows a state and operands that meet the hypotheses of the obligation that its name ends in, clause by
clause, at the edges where clauses meet. -/

/-- The part with one command waiting. -/
def waitingFor (c : Instr) : State := { part with pending := [c] }

/-- The part with a notice in progress of which `k` words are written. -/
def noticing (k : Nat) (f : Option (Fin 32)) : State :=
  { part with notice := some { words := [7, 6, 5, 4, 3, 2, 1, 0], written := k, frees := f } }

theorem intakeLaw_of {s : State} (r : Ring) (h : s.marksWf = true) (hr : s.intakeRing = some r) (hc : r.count ≤ 4096) :
    s.intakeLaw := by
  refine ⟨h, fun r' h' => ?_⟩
  rw [hr] at h'
  cases h'
  exact hc

theorem part_intakeLaw : part.intakeLaw := intakeLaw_of _ rfl rfl (by decide)

theorem marked_intakeLaw : (marked 5 (full 1 17 (-187))).intakeLaw := intakeLaw_of _ rfl rfl (by decide)

/-- A command, an event that waits, and both sides of the prescaler's last count. -/
theorem witness_StepServesTheQueue :
    (waitingFor .mainsFailEdge).pending = .mainsFailEdge :: [] ∧ part.pending = [] ∧ part.waiting = none ∧
    { part with inputs.sample := failed }.waiting = some .mainsFailEdge ∧
    { part with time.prescaler := 23 }.waiting = none ∧ { part with time.prescaler := 23 }.time.prescaler < 24 ∧
    { part with time.prescaler := 24 }.waiting = none ∧ 24 ≤ { part with time.prescaler := 24 }.time.prescaler := by
  decide +kernel

theorem witness_StepKeepsFormsAndCeilings :
    step (waitingFor (.passingWrite (beat 0x100 5))) = .next (after (.passingWrite (beat 0x100 5)) part) ∧
      Memory.wf (waitingFor (.passingWrite (beat 0x100 5))).mem = true ∧
      (waitingFor (.passingWrite (beat 0x100 5))).intakeLaw ∧ { part with gauge := 1023, malformed := 255 }.counterLaw ∧
      step { part with gauge := 1023, malformed := 255 } = .next (refclk { part with gauge := 1023, malformed := 255 }) :=
  ⟨rfl, rfl, part_intakeLaw, by simp [State.counterLaw, part, State.reset, Timebase.zero, Arbiter.idle], rfl⟩

/-- A full ring: eight unconsumed notices of eight. -/
theorem witness_StepKeepsRingLaw :
    { part with producer := 8, pending := [.consumerIndexWrite (beat 0x30004 4)] }.ringLaw ∧
      ∃ t, step { part with producer := 8, pending := [.consumerIndexWrite (beat 0x30004 4)] } = .next t := by
  refine ⟨⟨?_, ?_, ?_, ?_, ?_⟩, _, rfl⟩
  · intro r h
    cases h
  · intro h
    cases h
  · intro n h
    cases h
  · intro w h
    cases h
  · exact ⟨⟨by decide, by decide⟩, by decide, fun h => absurd rfl h⟩

theorem lit_law : lit.law 4 := by
  refine ⟨fun h => absurd h (by decide), fun h => absurd rfl h.1, fun f h => ?_, by decide, by decide⟩
  cases h
  decide

theorem afterReset_law : Entry.afterReset.law 4 :=
  ⟨fun _ => ⟨rfl, rfl, rfl⟩, fun _ => ⟨rfl, rfl, rfl, rfl⟩, fun f h => (Option.some_ne_none f h.symm).elim, by decide, by decide⟩

theorem part_entries (t : Fin 512) : part.entry t = lit ∨ part.entry t = Entry.afterReset := by
  have h : part.entry t = (((Vector.replicate 512 Entry.afterReset).set 130 lit).set 131 lit)[t] := rfl
  rw [h]
  simp only [Fin.getElem_fin, Vector.getElem_set, Vector.getElem_replicate]
  split
  · exact .inl rfl
  · split
    · exact .inl rfl
    · exact .inr rfl

theorem part_entryLaw : part.entryLaw := by
  refine ⟨?_, fun t => ?_⟩
  · show settings.inRange
    unfold Settings.inRange
    decide
  · rcases part_entries t with h | h
    · rw [h]
      exact lit_law
    · rw [h]
      exact afterReset_law

theorem witness_StepKeepsEntryLaw : part.entryLaw ∧ ∃ t, step part = .next t := ⟨part_entryLaw, _, rfl⟩

theorem part_loadLaw : part.loadLaw := by
  refine ⟨by decide, by decide, fun o h => ?_⟩
  cases h

/-- Two entries alike among entries that do not count. -/
theorem countP_two {α : Type} (p : α → Bool) (a b : α) (n i j : Nat) (hi : i < n) (hj : j < n) (hij : i ≠ j)
    (h : p a = false) : (((List.replicate n a).set i b).set j b).countP p = if p b = true then 2 else 0 := by
  rw [List.countP_set (by simpa using hj), List.countP_set (by simpa using hi), List.countP_replicate]
  have hne : (((List.replicate n a).set i b)[j]'(by simpa using hj)) = a := by
    rw [List.getElem_set_ne hij, List.getElem_replicate]
  rw [hne, List.getElem_replicate]
  cases hb : p b <;> simp [h]

/-- The two provisioned terminals of the part are alike, and no other counts. -/
theorem part_countBelow (nodes : Vector Node 128) (i : Fin 128) (p : Entry → Bool) (h : p Entry.afterReset = false) :
    countBelow nodes part.entries i p = if (p lit && hangsBelow nodes i lit) = true then 2 else 0 :=
  countP_two (fun e => p e && hangsBelow nodes i e) Entry.afterReset lit 512 130 131 (by decide) (by decide) (by decide)
    (by simp [h])

theorem part_counts : recountNodes part.nodes part.entries = part.nodes := by
  refine table_ext fun n => ?_
  rw [recountNodes, mapTable_getElem_fin]
  simp only [recountNode, part_countBelow _ _ Entry.monitored rfl, part_countBelow _ _ (Entry.afflicted · .dark) rfl,
    part_countBelow _ _ (Entry.afflicted · .dim) rfl, part_countBelow _ _ (Entry.afflicted · .power) rfl]
  revert n
  decide +kernel

theorem witness_StepKeepsCountsLaw : part.loadLaw ∧ part.countsLaw ∧ part.applyPass = false ∧
    ∃ t, step part = .next t := ⟨part_loadLaw, fun _ => part_counts, rfl, _, rfl⟩

theorem waiting_slots : ∀ k, (withIncident waiting).slot k = if k = 1 then some waiting else none := by decide

theorem witness_StepKeepsOrderAndNumbers : (withIncident waiting).orderLaw ∧ (withIncident waiting).numberLaw ∧
    ∃ t, step (withIncident waiting) = .next t := by
  refine ⟨⟨by decide, by decide⟩, ⟨by decide, by decide, ?_, ?_⟩, _, rfl⟩
  · intro k i h
    rw [waiting_slots] at h
    split at h
    · cases h
      decide
    · cases h
  · intro j k i i' h h' _
    rw [waiting_slots] at h h'
    split at h
    · split at h'
      · omega
      · cases h'
    · cases h

theorem waiting_incidentLaw (n : List Cause) (hn : (n.map (fun c => (c.kind, c.subject))).Nodup)
    (hk : ∀ c ∈ n, c.kind ≠ .residue) : { withIncident waiting with pass := some n }.incidentLaw := by
  refine ⟨?_, ?_, ?_⟩
  · intro k i h
    replace h : (withIncident waiting).slot k = some i := h
    rw [waiting_slots] at h
    split at h
    · rename_i hk
      cases h
      subst hk
      unfold Incident.law
      decide
    · cases h
  · intro j k i i' h h' _ _
    replace h : (withIncident waiting).slot j = some i := h
    replace h' : (withIncident waiting).slot k = some i' := h'
    rw [waiting_slots] at h h'
    split at h
    · split at h'
      · omega
      · cases h'
    · cases h
  · intro causes h
    cases h
    exact ⟨hk, hn⟩

theorem waiting_orderLaw (n : List Cause) : { withIncident waiting with pass := some n }.orderLaw :=
  show (withIncident waiting).orderLaw from ⟨by decide, by decide⟩

theorem waiting_windowLaw (n : List Cause) : { withIncident waiting with pass := some n }.windowLaw := by
  have none_ok : ∀ p, windowOk p none := fun _ x h => (Option.some_ne_none x h.symm).elim
  refine ⟨none_ok _, none_ok _, none_ok _, ?_, fun h => absurd (show (withIncident waiting).frozen = true from h) (by decide)⟩
  intro k i h x hx
  replace h : (withIncident waiting).slot k = some i := h
  rw [waiting_slots] at h
  split at h
  · cases h
    cases hx
    exact ⟨by decide, by decide, fun hf => absurd hf (by decide)⟩
  · cases h

/-- An attack soak whose last carry waits to be taken. -/
theorem witness_StepKeepsIncidentLaw : { withIncident waiting with pass := some [] }.incidentLaw ∧
    { withIncident waiting with pass := some [] }.loadLaw ∧ { withIncident waiting with pass := some [] }.windowLaw ∧
    ∃ t, step { withIncident waiting with pass := some [] } = .next t := by
  refine ⟨waiting_incidentLaw [] (by decide) (by simp), ⟨by decide, by decide, fun o h => by cases h⟩,
    waiting_windowLaw [], _, rfl⟩

theorem witness_StatusChangesAreMarked :
    (exec (.editCmd 0x21 0 false) part = .next (after (.editCmd 0x21 0 false) part) ∧
      (after (.editCmd 0x21 0 false) part).status ≠ part.status ∧
      (after (.editCmd 0x21 0 false) part).partStatusA ≠ part.partStatusA) ∧
    exec (.malformedRecord (beat (slotWord 5 3) 0)) part = .next (after (.malformedRecord (beat (slotWord 5 3) 0)) part) ∧
      (after (.malformedRecord (beat (slotWord 5 3) 0)) part).partStatusB ≠ part.partStatusB :=
  ⟨⟨rfl, by decide, by decide⟩, rfl, by decide⟩

/-- No producer write is held by the memory side. -/
theorem notProducing {s : State} (h : s.arb.busy = none) : ∀ w, s.arb.busy ≠ some (.internal w (some .producer)) := by
  simp [h]

theorem witness_SetupChangesOnlyByItsCommands :
    exec .loaderCheckRead (loading freshLoad) = .next (after .loaderCheckRead (loading freshLoad)) ∧
      (∀ p l d, Instr.loaderCheckRead ≠ .hardwareReset p l d) ∧ Instr.loaderCheckRead ≠ .terminalWordApply ∧
      Instr.loaderCheckRead ≠ .commitCompletion ∧ Instr.loaderCheckRead ≠ .producerWrite ∧
      (∀ w, (loading freshLoad).arb.busy ≠ some (.internal w (some .producer))) ∧
      Instr.producerWrite ≠ .loaderCheckRead ∧ exec .producerWrite (noticing 8 none) =
        .next (after .producerWrite (noticing 8 none)) :=
  ⟨rfl, by simp, by simp, by simp, by simp, notProducing rfl, by simp, rfl⟩

theorem witness_NoticeWordsStayFixed :
    exec .noticeWordWrite (noticing 3 none) = .next (after .noticeWordWrite (noticing 3 none)) ∧
      (noticing 3 none).notice = some { words := [7, 6, 5, 4, 3, 2, 1, 0], written := 3, frees := none } ∧
      (∀ p l d, Instr.noticeWordWrite ≠ .hardwareReset p l d) ∧ Instr.noticeWordWrite ≠ .producerWrite ∧
      ∀ w, (noticing 3 none).arb.busy ≠ some (.internal w (some .producer)) :=
  ⟨rfl, rfl, by simp, by simp, notProducing rfl⟩

/-- A read and a beat of a burst carried through a reset; the mailbox with code 9 and codes 0 and 10; both ends of the owned
words, of words 4..655, of the intake ring and of the notice ring's header; a beat with no byte enable. -/
theorem witness_RegionsDecideTheRow :
    ((reading 0x40000).read = true ∧ { part with arb.plain := true }.arb.plain = true ∧ part.arb.plain = false ∧
      (beat 0x40000 0).read = false) ∧
    (0x40000 = part.setupBase ∧ (someBytes 0x40000 3 0).be ≠ 15 ∧ (0x09000000 : Word).toNat / 16777216 = 9 ∧
      (0 : Word).toNat / 16777216 = 0 ∧ (0x0A000000 : Word).toNat / 16777216 = 10) ∧
    (0x40004 = part.setupBase + 4 * 1 ∧ 0x4000C = part.setupBase + 4 * 3) ∧
    (0x40010 = part.setupBase + 4 * 4 ∧ 0x40A3C = part.setupBase + 4 * 655 ∧ (loading freshLoad).part = .loading ∧
      (someBytes 0x40010 0 0).be = 0 ∧ part.part ≠ .loading) ∧
    (0x40A40 = part.setupBase + 2624 ∧ 0x20000 < part.setupBase) ∧
    (part.setupInUse = true ∧ part.intakeRing = some { base := 0x20000, count := 64 } ∧
      slotWord 63 3 = 0x20000 + 16 * 63 + 4 * 3 ∧ slotWord 0 0 = 0x20000) ∧
    (State.reset.setupInUse = false ∧ part.noticeRing = some { base := 0x30000, count := 8 } ∧
      0x20000 + 16 * 64 ≤ 0x30000 ∧ 0x30004 = 0x30000 + 4) ∧ State.reset.noticeRing = none := by decide

/-- The decision of R6: kind 0 is EMPTY though the slot is torn; kinds 6 and 7 lie on both sides of the last record
kind. -/
theorem witness_RegionsDecideTheRow_marks :
    ({ full 0 0 0 with torn := true }.word0 = some { kind := 0, round := 0, terminal := 130 }) ∧
    ({ full 6 0 0 with torn := true }.torn = true) ∧ Mark.clear.word0 = none ∧
    ({ full 6 0 0 with word1 := none }.word1 = none) ∧
    (∀ k : Byte, k ≠ 0 → ∀ c, (full k 0 0).word0 = some c → c.kind ≠ 0) ∧
    (full 6 0 0).torn = false ∧ (full 6 0 0).word1 = some 0 ∧ 7 ≤ (7 : Byte).toNat ∧ ¬ 7 ≤ (6 : Byte).toNat := by
  refine ⟨rfl, rfl, rfl, rfl, ?_, rfl, rfl, by decide, by decide⟩
  intro k hk c h
  cases h
  exact hk

/-- Both sides of "not measured", of an empty filter and of a present one; the miss run that reaches MISS_LIMIT 3 and the
one before; the silence counter that reaches 4 and the one before. -/
theorem witness_EntriesFollowTheEvidence :
    ((-32768 : Int) = -32768 ∧ (-32767 : Int) ≠ -32768 ∧ Entry.afterReset.filter = none ∧ lit.filter = some (-3000) ∧
      (lit.status settings 17 (-231)).filter = some (-3000 + filterStep 2 (-231) (-3000))) ∧
    (Entry.afterReset.link ≠ .lit ∧ Entry.afterReset.link ≠ .fading) ∧
    (lit.link = .lit ∧ settings.missLimit ≠ 0 ∧ settings.missLimit ≤ min 15 ({ lit with missRun := 2 }.missRun + 1)) ∧
    min 15 ({ lit with missRun := 1 }.missRun + 1) < settings.missLimit ∧
    { settings with missLimit := 0 }.missLimit = 0 ∧ { lit with link := .dark }.link = .dark ∧
    { lit with link := .fading }.link = .fading ∧
    (lit.provisioned = true ∧ { lit with silence := 3 }.silence + 1 = 4 ∧ { lit with silence := 2 }.silence + 1 ≠ 4) ∧
    Entry.afterReset.provisioned = false := by decide

/-- Differences at and beside 2^k and 0 for k = 2, the ends of the range, and each row of R56's table at its edge. -/
theorem witness_FilterArithmetic :
    ((16 * (-187) - (-2996) = (4 : Int) ∧ (2 : Int) ^ 2 ≤ 4) ∧ (16 * (-187) - (-2995) = (3 : Int) ∧ (3 : Int) < 2 ^ 2) ∧
      16 * (-187) - (-2992) = (0 : Int) ∧ (16 * (-187) - (-2988) = (-4 : Int) ∧ (-4 : Int) ≤ -2 ^ 2) ∧
      16 * (-187) - (-2989) = (-3 : Int) ∧ -2 ^ 2 < (-3 : Int)) ∧
    ((-500 : Int) ≤ -500 ∧ (-500 : Int) ≤ 100 ∧ (-8000 : Int) ≤ -8000 ∧ (-8000 : Int) ≤ 1600 ∧ 16 * (-500 : Int) = -8000) ∧
    ((-8000 : Int) < 16 * 100 ∧ 16 * (-500 : Int) < 1600) ∧
    ((-225 : Int) < -215 ∧ (-225 : Int) < 0 ∧ (-3600 : Int) ≤ 16 * (-225)) ∧ ((0 : Int) < 1 ∧ (15 : Int) ≤ 15) ∧
    ((0 : Int) < 5 ∧ (95 : Int) ≤ 16 * 5 + 15) ∧ (16 * (-215 : Int) - 15 ≤ -3455) ∧ ((-5 : Int) < 0 ∧ (-15 : Int) ≤ -15) ∧
    16 * (1 : Int) ≤ 16 ∧ ¬ ((-3599 : Int) ≤ 16 * (-225)) ∧ ¬ (16 * (-215 : Int) - 15 ≤ -3456) := by decide

/-- Node 0 is on the fibre chain of a terminal with fibre parent 0, node 2 on none; a root, a disabled node and a node
below a root. -/
theorem witness_AdjustmentsFollowMemberships :
    (part.nodes[(2 : Fin 128)].enabled = false ∧ part.nodes[(0 : Fin 128)].enabled = true ∧
      part.nodes[(0 : Fin 128)].parent = none) ∧
    (let nodes := part.nodes.set 2 (Node.quiet true .fibre (some 0));
      nodes[(2 : Fin 128)].enabled = true ∧ nodes[(2 : Fin 128)].parent = some 0 ∧ (chain nodes 0).length ≤ 7) ∧
    (0 : Fin 128) ∈ chain part.nodes (lit.parentIn part.nodes[(0 : Fin 128)].tree) ∧
    (2 : Fin 128) ∉ chain part.nodes (lit.parentIn part.nodes[(2 : Fin 128)].tree) := by decide

theorem witness_StruckByQuorum :
    part.nodes[(2 : Fin 128)].enabled = false ∧
    (part.nodes[(0 : Fin 128)].enabled = true ∧ part.nodes[(0 : Fin 128)].tree = .fibre) ∧
    (part.nodes[(1 : Fin 128)].enabled = true ∧ part.nodes[(1 : Fin 128)].tree = .power) := by decide

/-- An OPEN, UPDATE and CLOSE due, and a ring at its capacity. -/
theorem witness_TakeChoosesTheOldestDue :
    part.canTake = true ∧ { part with producer := 8 }.canTake = false ∧ State.reset.restart = some .hardReset ∧
    { part with restart := some .ringMoved }.canTake = true ∧ part.restart = none ∧
    (∀ k ∈ (withIncident waiting).order, ∀ i, (withIncident waiting).slot k = some i →
      i.openDue = false ∧ i.updateDue = false ∧ i.close = none) ∧
    (withIncident clearing).order = [] ++ 1 :: [] ∧ (withIncident clearing).slot 1 = some clearing ∧
    { clearing with openDue := true }.openDue = true ∧ { clearing with updateDue := true }.openDue = false ∧
    { clearing with close := some { reason := .cleared, absorber := 0 } }.close ≠ none := by
  refine ⟨by decide, by decide, rfl, by decide, rfl, ?_, rfl, by decide, rfl, rfl, by decide⟩
  intro k _ i h
  rw [waiting_slots] at h
  split at h
  · cases h
    decide
  · cases h

/-- An enabled and a disabled node, a provisioned terminal and one that is not, the greatest detail, and the counters. -/
theorem witness_FormedWords : (65535 : Nat) < 65536 ∧ { part with malformed := 255 }.counterLaw ∧
    (part.nodes[(0 : Fin 128)].monitored ≤ 512 ∧ part.nodes[(0 : Fin 128)].enabled = true) ∧
    (Node.quiet false .power none).enabled = false ∧ lit.law 4 ∧ 4 ≤ 8 ∧ Entry.afterReset.law 4 ∧
    Entry.afterReset.provisioned = false :=
  ⟨by decide, by simp [State.counterLaw, part, State.reset, Timebase.zero, Arbiter.idle], by decide, rfl, lit_law,
    by decide, afterReset_law, rfl⟩

/-- An ordinary incident in an OPEN and in a CLOSE, and a residue. -/
theorem witness_NoticeWordsCarryTheRecord :
    let closed : Incident := { clearing with close := some { reason := .absorbed, absorber := 65535 } }
    (NoticeKind.opening ≠ .restarting ∧ (NoticeKind.opening ≠ .closing ∨ clearing.close = none)) ∧
    (NoticeKind.closing ≠ .restarting ∧ closed.close = some { reason := .absorbed, absorber := 65535 } ∧
      closed.number < 65536 ∧ closed.afflicted < 65536 ∧ closed.monitored < 65536 ∧ closed.exceptions.length ≤ 4 ∧
      closed.unplaced.dark + closed.unplaced.power + closed.unplaced.dim < 65536 ∧ closed.kind ≠ .residue) ∧
    { waiting with kind := .residue, subject := .nothing }.kind = .residue := by decide

/-- A node subject, a terminal subject and the residue's. -/
theorem witness_CoveringAndFlagTests :
    { waiting with kind := .branchDark, subject := .node 0 }.subject = .node 0 ∧
    (waiting.subject = .terminal 130 ∧ waiting.kind.family = some .dark) ∧
    { waiting with kind := .residue, subject := .nothing }.subject = .nothing := by decide

/-- Nothing held, a write held by the arbiter and one held behind a slow memory; a beat, a beat behind a slow one, a
second one behind both, and M_READY at both levels with a beat held and with none. -/
theorem witness_HardwareResetCompletes :
    let after' (during : List BusEvent) : State := after (.hardwareReset 4 released during) part
    Memory.wf part.mem = true ∧ part.arb.held = none ∧
    ({ part with arb.held := some (beat 0x100 5) }.arb.held = some (beat 0x100 5) ∧ part.arb.busy ≠ some .passing) ∧
    { part with arb.busy := some .passing }.arb.busy = some .passing ∧
    ([.ready false, .access (beat 0x100 5), .access (reading 0x104)] : List BusEvent) =
      [.ready false, .access (beat 0x100 5)] ++ [.access (reading 0x104)] ∧
    ((after' []).arb.held = none ∧ (after' []).arb.busy = none) ∧
    ((after' [.ready false, .access (beat 0x100 5)]).arb.held = none ∧
      (after' [.ready false, .access (beat 0x100 5)]).arb.busy ≠ none) ∧
    (after' [.ready false, .access (beat 0x100 5), .access (reading 0x104)]).arb.held = some (reading 0x104) := by
  decide

/-- Each owned word, and the first and last word that a master may disturb. -/
theorem witness_PlainOwnedAndDisturbingWrites :
    (part.serves .passingWrite (beat 0x100 5) ∧ (beat 0x100 5).read = false) ∧
    (part.serves .passingWrite (reading 0x40000) ∧ (reading 0x40000).read = true) ∧ part.serves .ownedWord (beat 0x40004 0) ∧
    part.serves .ownedWord (beat 0x40008 0) ∧ part.serves .ownedWord (beat 0x4000C 0) ∧
    part.serves .ownedWord (beat 0x30000 0) ∧ (loading freshLoad).serves .disturbing (beat 0x40010 0) ∧
    (loading freshLoad).serves .disturbing (someBytes 0x40A3C 8 0) ∧
    (∀ w, w < 4 → wordAddr (beat 0x30000 0).addr.toNat ≠ part.setupAddr w) := by
  refine ⟨⟨⟨by decide, by decide, rfl⟩, rfl⟩, ⟨⟨by decide, by decide, rfl⟩, rfl⟩, ⟨by decide, by decide, rfl⟩,
    ⟨by decide, by decide, rfl⟩, ⟨by decide, by decide, rfl⟩, ⟨by decide, by decide, rfl⟩, ⟨by decide, by decide, rfl⟩,
    ⟨by decide, by decide, rfl⟩, ?_⟩
  decide

/-- The first and the last slot of the ring. -/
theorem witness_IntakeMarksFollowTheWrites : part.intakeLaw ∧
    part.serves .intakeWord0 (beat (slotWord 0 0) 0) ∧ part.serves .intakeWord1 (beat (slotWord 63 1) 0) ∧
    part.serves .intakePartial (someBytes (slotWord 0 0) 1 0) ∧ part.serves .intakePartial (someBytes (slotWord 63 1) 7 0) ∧
    part.serves .intakePartialWord3 (someBytes (slotWord 63 3) 14 0) ∧ part.intakeSlot (beat (slotWord 63 1) 0) = 63 :=
  ⟨part_intakeLaw, ⟨by decide, by decide, rfl⟩, ⟨by decide, by decide, rfl⟩, ⟨by decide, by decide, rfl⟩,
    ⟨by decide, by decide, rfl⟩, ⟨by decide, by decide, rfl⟩, by decide⟩

/-- The beat that completes slot 5. -/
def word3 : Beat := beat (slotWord 5 3) 0

theorem serves_word3 {s : State} {row : BeatRow} (hf : s.forwards = true) (hr : s.rowOf word3 = row)
    (hm : Memory.wf s.mem = true) : s.serves row word3 := ⟨hf, hr, hm⟩

/-- A mark that names the terminal given. -/
def naming (kind : Byte) (terminal : BitVec 10) : State :=
  marked 5 { word0 := some { kind, round := 17, terminal }, word1 := some (-187), torn := false }

/-- Terminal 512 is the first number above the table; terminal 7 is not provisioned. -/
theorem witness_CompletionsThatNameNoTerminal : (marked 5 (full 1 17 (-187))).intakeLaw ∧
    (marked 5 (full 0 0 0)).serves .empty word3 ∧ part.serves .malformed word3 ∧
    (∀ k : Fin 512, k.val = (512 : BitVec 10).toNat → ((naming 1 512).entry k).provisioned = false) ∧
    (∀ k : Fin 512, k.val = (7 : BitVec 10).toNat → ((naming 2 7).entry k).provisioned = false) ∧
    ((naming 1 512).serves .status word3 ∧ ((naming 1 512).mark ((naming 1 512).intakeSlot word3)).decision =
      .status { kind := 1, round := 17, terminal := 512 } (-187)) ∧
    ((naming 2 7).serves .miss word3 ∧ ((naming 2 7).mark ((naming 2 7).intakeSlot word3)).decision =
      .miss { kind := 2, round := 17, terminal := 7 }) ∧
    ((naming 3 7).serves .gasp word3 ∧ ((naming 3 7).mark ((naming 3 7).intakeSlot word3)).decision =
      .gasp { kind := 3, round := 17, terminal := 7 }) ∧
    (naming 4 7).serves .link word3 ∧ ((naming 4 7).mark ((naming 4 7).intakeSlot word3)).decision =
      .link { kind := 4, round := 17, terminal := 7 } (-187) := by
  refine ⟨marked_intakeLaw, ⟨by decide, by decide, rfl⟩, ⟨by decide, by decide, rfl⟩, ?_, by decide +kernel,
    ⟨⟨by decide, by decide, rfl⟩, by decide⟩, ⟨⟨by decide, by decide, rfl⟩, by decide⟩,
    ⟨⟨by decide, by decide, rfl⟩, by decide⟩, ⟨by decide, by decide, rfl⟩, by decide⟩
  intro k hk
  exact absurd (hk ▸ k.isLt) (by decide)

/-- A new round and a repeated one. -/
theorem witness_TerminalCompletions : (marked 5 (full 1 17 (-187))).intakeLaw ∧
    (130 : Fin 512).val = (130 : BitVec 10).toNat ∧ (marked 5 (full 1 17 (-187))).entry 130 = lit ∧
    lit.provisioned = true ∧ lit.lastRound ≠ some 17 ∧ lit.lastRound = some 16 ∧
    ((naming 1 130).serves .status word3 ∧ ((naming 1 130).mark ((naming 1 130).intakeSlot word3)).decision =
      .status { kind := 1, round := 17, terminal := 130 } (-187)) ∧
    (naming 4 130).serves .link word3 ∧ ((naming 4 130).mark ((naming 4 130).intakeSlot word3)).decision =
      .link { kind := 4, round := 17, terminal := 130 } (-187) :=
  ⟨marked_intakeLaw, by decide, by decide, rfl, by decide, rfl, ⟨⟨by decide, by decide, rfl⟩, by decide⟩,
    ⟨by decide, by decide, rfl⟩, by decide⟩

theorem witness_TerminalCompletions_missAndGasp : (marked 5 (full 1 17 (-187))).intakeLaw ∧
    (130 : Fin 512).val = (130 : BitVec 10).toNat ∧ (naming 2 130).entry 130 = lit ∧ lit.provisioned = true ∧
    lit.lastRound ≠ some 17 ∧
    ((naming 2 130).serves .miss word3 ∧ ((naming 2 130).mark ((naming 2 130).intakeSlot word3)).decision =
      .miss { kind := 2, round := 17, terminal := 130 }) ∧
    (naming 3 130).serves .gasp word3 ∧ ((naming 3 130).mark ((naming 3 130).intakeSlot word3)).decision =
      .gasp { kind := 3, round := 17, terminal := 130 } :=
  ⟨marked_intakeLaw, by decide, by decide, rfl, by decide, ⟨⟨by decide, by decide, rfl⟩, by decide⟩,
    ⟨by decide, by decide, rfl⟩, by decide⟩

/-- Both records, with terminal number 1023. -/
theorem witness_TreeRecordsSetTheTrunkFlag : (marked 5 (full 1 17 (-187))).intakeLaw ∧
    (naming 5 1023).serves .treeDown word3 ∧ (naming 6 1023).serves .treeUp word3 :=
  ⟨marked_intakeLaw, ⟨by decide, by decide, rfl⟩, by decide, by decide, rfl⟩

/-- A part with nothing waiting and one with a mains edge; a fresh window and one that is not; the way of 1000
microsecond carries outlasts the window, and one of a single carry ends a window of 1 and not one of 2. -/
theorem witness_MillisecondCarryCounts :
    part.waiting = none ∧ { part with inputs.sample := failed }.waiting ≠ none ∧ part.head = none ∧
    (let s : State := { part with writeMarks.partA := true, arb.window := some (Window.start 5 false) };
      s.waiting = none ∧ s.head ≠ none ∧ s.arb.window = some (Window.start 5 false) ∧ 5 < 1000 - s.time.divider ∧
      1 = 1000 - { s with time.divider := 999 }.time.divider ∧ (Window.start 5 true).fresh = true) ∧
    { part with writeMarks.partA := true }.head ≠ none ∧ part.arb.window = none := by decide +kernel

/-- The divider at both ends, M_READY at both levels; a run up to the carry that stands in its cycle, and one in which a
RESET was taken. -/
theorem witness_MicrosecondCarryCounts :
    (exec upToCarry part = .next (after upToCarry part) ∧ (after upToCarry part).waiting = none ∧
      24 ≤ (after upToCarry part).time.prescaler) ∧
    (let s : State := { part with arb.ready := false, arb.busy := some .passing,
                                  arb.held := some (beat 0x40000 0x09010000) };
      s.waiting = none ∧ (after upToCarry s).waiting = none ∧ (after upToCarry s).time.prescaler < 24) ∧
    part.waiting = none ∧ { part with inputs.sample := failed }.waiting ≠ none ∧ part.arb.busy = none ∧
    part.time.divider < 999 ∧ { part with time.divider := 999 }.waiting = none :=
  ⟨⟨rfl, by decide +kernel, by decide⟩, by decide +kernel, by decide +kernel, by decide +kernel, rfl, by decide,
    by decide +kernel⟩

theorem witness_SilenceCarryIsOneEvent : { part with time.silenceDue := true }.time.silenceDue = true := rfl

theorem witness_StormLeakDrainsTheGauge : { part with time.leakDue := true }.time.leakDue = true := rfl

/-- An edge of each input; a due settle window and a due patience window; an impatient arbiter between bursts with a status
word to write. -/
theorem witness_EdgesAndExpiriesComplete :
    { part with inputs.sample := failed }.inputs.sample.mainsFail ≠ part.inputs.mainsFail ∧
    { part with inputs.sample := { failed with maintAll := true } }.inputs.sample.maintAll ≠ part.inputs.maintAll ∧
    ({ part with settle := some dueWindow }.settle = some dueWindow ∧ dueWindow.due = true ∧ part.frozen = false) ∧
    { part with arb.window := some dueWindow }.arb.window = some dueWindow ∧
    (let s : State := { part with arb.impatient := true, writeMarks.status := true };
      s.arb.held = none ∧ s.arb.impatient = true ∧ s.arb.beatsLeft = 0 ∧ s.head ≠ none) := by decide

theorem witness_PassReadingFormsTheCauses :
    ({ part with passRequest := true }.passRequest = true ∧ part.pass = none ∧ part.applyPass = false) ∧
    (loading { freshLoad with applying := true }).applyPass = true := by decide

/-- A close-due incident, a provisioned terminal and one that is not. -/
theorem witness_PassMatchingEndsThePass : { part with pass := some [terminalCause .terminalDark 130] }.pass =
    some [terminalCause .terminalDark 130] ∧ (withIncident clearing).slot 1 = some clearing ∧
    { clearing with close := some { reason := .cleared, absorber := 0 } }.close ≠ none ∧
    (part.entry 130).provisioned = true ∧ (part.entry 7).provisioned = false ∧ (part.entry 7).covering = none := by
  decide +kernel

/-- The cause of the incident of slot 1 present, and absent. -/
theorem witness_MatchingFollowsTheCauses : ∀ causes ∈ [[terminalCause .terminalDark 130], []],
    let s : State := { withIncident waiting with pass := some causes }
    s.pass = some causes ∧ s.incidentLaw ∧ s.orderLaw ∧ (1 : Fin 32) ≠ 0 ∧ s.slot 1 = some waiting ∧
    waiting.close = none ∧ s.causePresent causes waiting = !causes.isEmpty ∧
    ∀ j other, s.slot j = some other → s.recurs causes j → ¬ s.absorbs j other 1 waiting := by
  intro causes hc
  have hl : ∀ j other, ({ withIncident waiting with pass := some causes } : State).slot j = some other →
      ({ withIncident waiting with pass := some causes } : State).recurs causes j →
      ¬ ({ withIncident waiting with pass := some causes } : State).absorbs j other 1 waiting := by
    rintro j other h ⟨i, -, hi, hp, -⟩
    replace hi : (withIncident waiting).slot j = some i := hi
    rw [waiting_slots] at hi
    split at hi
    · cases hi
      cases hp
    · cases hi
  rcases List.mem_cons.1 hc with rfl | hc
  · exact ⟨rfl, waiting_incidentLaw _ (by decide) (by decide), waiting_orderLaw _, by decide, by decide, rfl,
      by decide +kernel, hl⟩
  · rcases List.mem_singleton.1 hc with rfl
    exact ⟨rfl, waiting_incidentLaw _ (by decide) (by decide), waiting_orderLaw _, by decide, by decide, rfl,
      by decide +kernel, hl⟩

/-- A CLEARING BRANCH_DARK incident on node 0 whose cause is back, and a CLEARING incident of terminal 130 below it. -/
def recurring (announced : Bool) : State :=
  { part with
    slots := ((Vector.replicate 32 none).set 1
        (some { waiting with kind := .branchDark, subject := .node 0, phase := .clearing })).set 2
      (some { waiting with number := 58, phase := .clearing, announced })
    order := [1, 2], nextNumber := 59
    pass := some [{ kind := .branchDark, subject := .node 0, afflicted := 2, monitored := 2, exceptions := [],
                    truncated := false }] }

theorem recurring_slots (announced : Bool) : ∀ k, (recurring announced).slot k =
    if k = 1 then some { waiting with kind := .branchDark, subject := .node 0, phase := .clearing }
    else if k = 2 then some { waiting with number := 58, phase := .clearing, announced } else none := by
  cases announced <;> decide

/-- The incident absorbed is announced, or is not. -/
theorem witness_RecurrenceAbsorbs (announced : Bool) :
    let s := recurring announced
    let i : Incident := { waiting with kind := .branchDark, subject := .node 0, phase := .clearing }
    let other : Incident := { waiting with number := 58, phase := .clearing, announced }
    ∃ causes, s.pass = some causes ∧ s.incidentLaw ∧ s.orderLaw ∧ s.slot 1 = some i ∧ s.recurs causes 1 ∧
      s.slot 2 = some other ∧ s.absorbs 1 i 2 other ∧
      ∀ k' i', s.slot k' = some i' → s.recurs causes k' → k' ≠ 1 → ¬ s.absorbs k' i' 2 other ∧ ¬ s.absorbs k' i' 1 i := by
  intro s i other
  have h1 : s.slot 1 = some i := by simp [s, i, recurring_slots]
  have h2 : s.slot 2 = some other := by simp [s, other, recurring_slots]
  refine ⟨_, rfl, ⟨?_, ?_, ?_⟩, ⟨by cases announced <;> decide, by cases announced <;> decide⟩, h1,
    ⟨i, by decide, h1, rfl, rfl, by cases announced <;> decide +kernel⟩, h2,
    ⟨by decide, rfl, .dark, 0, rfl, rfl, rfl, .inr ⟨130, rfl, by cases announced <;> decide +kernel⟩⟩, ?_⟩
  · intro k x h
    rw [recurring_slots] at h
    split at h
    · rename_i hk
      cases h
      subst hk
      unfold Incident.law
      decide
    · split at h
      · rename_i hk
        cases h
        subst hk
        unfold Incident.law
        cases announced <;> decide
      · cases h
  · intro j k x y hj hk hx _
    rw [recurring_slots] at hj hk
    split at hj <;> split at hk
    · omega
    · split at hk
      · cases hj
        cases hk
        cases hx
      · cases hk
    · split at hj
      · cases hj
        cases hk
        cases hx
      · cases hj
    · split at hj <;> split at hk
      · omega
      · cases hk
      · cases hj
      · cases hj
  · intro causes h
    cases h
    exact ⟨by simp, by simp⟩
  · rintro k' i' h ⟨x, -, hx, -, -, hp⟩ hk
    rw [recurring_slots, if_neg hk] at hx
    split at hx
    · cases hx
      cases announced <;> exact absurd hp (by decide +kernel)
    · cases hx

theorem empty_slots (n : List Cause) : ∀ k, ({ part with pass := some n } : State).slot k = none := by
  intro k
  show part.slot k = none
  revert k
  decide

theorem empty_laws (n : List Cause) (hn : (n.map (fun c => (c.kind, c.subject))).Nodup)
    (hk : ∀ c ∈ n, c.kind ≠ .residue) : { part with pass := some n }.incidentLaw ∧ { part with pass := some n }.orderLaw ∧
      { part with pass := some n }.numberLaw ∧ ∀ k, ¬ { part with pass := some n }.recurs n k := by
  refine ⟨⟨?_, ?_, ?_⟩, show part.orderLaw from ⟨by decide, by decide⟩,
    ⟨show 1 ≤ part.nextNumber by decide, show part.nextNumber ≤ 65535 by decide, ?_, ?_⟩, ?_⟩
  · intro k i h
    rw [empty_slots] at h
    cases h
  · intro j k i i' h
    rw [empty_slots] at h
    cases h
  · intro causes h
    cases h
    exact ⟨hk, hn⟩
  · intro k i h
    rw [empty_slots] at h
    cases h
  · intro j k i i' h
    rw [empty_slots] at h
    cases h
  · rintro k ⟨i, -, h, -⟩
    rw [empty_slots] at h
    cases h

/-- Two new causes and 31 free ordinary slots. -/
theorem witness_MatchingPlacesNewCauses :
    let causes := [terminalCause .terminalDark 130, terminalCause .terminalDark 131]
    let s : State := { part with pass := some causes }
    s.pass = some causes ∧ s.incidentLaw ∧ s.orderLaw ∧ s.numberLaw ∧ (∀ k, ¬ s.recurs causes k) ∧
      (s.freeAtPlacing causes)[1]? = some 2 ∧ (s.placeable causes)[1]? = some (terminalCause .terminalDark 131) ∧
      (s.freeAtPlacing causes)[2]? = some 3 ∧ (s.placeable causes).length ≤ 2 ∧ 1 ≤ s.nextNumber ∧ s.nextNumber ≤ 65535 ∧
      ∀ e, e ≤ 1 → ∀ j o, s.slot j = some o → o.number ≠ (s.nextNumber - 1 + e) % 65535 + 1 := by
  intro causes s
  obtain ⟨hi, ho, hn, hr⟩ := empty_laws causes (by decide) (by decide)
  refine ⟨rfl, hi, ho, hn, hr, by decide +kernel, by decide +kernel, by decide +kernel, by decide +kernel, by decide,
    by decide, ?_⟩
  intro e _ j o h
  rw [show s.slot j = none from empty_slots _ j] at h
  cases h

/-- No incident, and counts of 0; the residue's own cases are those of its record. -/
theorem witness_ResidueCountsTheUnplaced :
    let causes := [terminalCause .terminalDark 130]
    let s : State := { part with pass := some causes }
    s.pass = some causes ∧ s.incidentLaw ∧ s.orderLaw ∧ (∀ k, ¬ s.recurs causes k) ∧ s.slot 0 = none ∧
      s.unplacedCauses causes = [] := by
  intro causes s
  obtain ⟨hi, ho, -, hr⟩ := empty_laws causes (by decide) (by decide)
  exact ⟨rfl, hi, ho, hr, empty_slots _ 0, by decide +kernel⟩

/-- An open residue, and a close-due incident of terminal 130. -/
def residual (announced : Bool) : State :=
  { part with
    slots := ((Vector.replicate 32 none).set 0
        (some { waiting with kind := .residue, subject := .nothing, phase := .opened, soak := none, announced })).set 1
      (some { clearing with number := 58, soak := none, close := some { reason := .cleared, absorber := 0 } })
    order := [0, 1], nextNumber := 59 }

theorem residual_slots (announced : Bool) : ∀ k, (residual announced).slot k =
    if k = 0 then some { waiting with kind := .residue, subject := .nothing, phase := .opened, soak := none, announced }
    else if k = 1 then
      some { clearing with number := 58, soak := none, close := some { reason := .cleared, absorber := 0 } }
    else none := by
  cases announced <;> decide

theorem residual_unplaced : ∀ announced : Bool,
    { residual announced with pass := some [terminalCause .terminalDark 130] }.unplacedCauses
      [terminalCause .terminalDark 130] = [terminalCause .terminalDark 130] := by decide +kernel

/-- An announced residue and one that is not; no cause, and a cause that its close-due incident keeps from a place. -/
theorem witness_ResidueCountsTheUnplaced_open (announced : Bool) :
    ∀ causes ∈ [[], [terminalCause .terminalDark 130]],
    let s : State := { residual announced with pass := some causes }
    s.pass = some causes ∧ s.incidentLaw ∧ s.orderLaw ∧ (∀ k, ¬ s.recurs causes k) ∧ (s.slot 0).isSome = true ∧
      s.unplacedCauses causes = causes := by
  intro causes hc s
  have hs : ∀ k, s.slot k = (residual announced).slot k := fun _ => rfl
  have ho : s.orderLaw :=
    show (residual announced).orderLaw from ⟨by cases announced <;> decide, by cases announced <;> decide⟩
  refine ⟨rfl, ⟨?_, ?_, ?_⟩, ho, ?_, by rw [hs, residual_slots]; rfl, ?_⟩
  · intro k i h
    rw [hs, residual_slots] at h
    split at h
    · rename_i hk
      cases h
      subst hk
      unfold Incident.law
      cases announced <;> decide
    · split at h
      · rename_i hk
        cases h
        subst hk
        unfold Incident.law
        decide
      · cases h
  · intro j k x y hj hk hx _
    rw [hs, residual_slots] at hj hk
    split at hj <;> split at hk
    · omega
    · split at hk
      · cases hj
        cases hk
        cases hx
      · cases hk
    · split at hj
      · cases hj
        cases hk
        cases hx
      · cases hj
    · split at hj <;> split at hk
      · omega
      · cases hk
      · cases hj
      · cases hj
  · intro l h
    cases h
    rcases List.mem_cons.1 hc with rfl | hc
    · exact ⟨by simp, by simp⟩
    · rcases List.mem_singleton.1 hc with rfl
      exact ⟨by decide, by decide⟩
  · rintro k ⟨i, h0, h, -, hn, -⟩
    rw [hs, residual_slots, if_neg h0] at h
    split at h
    · cases h
      cases hn
    · cases h
  · rcases List.mem_cons.1 hc with rfl | hc
    · rfl
    · rcases List.mem_singleton.1 hc with rfl
      exact residual_unplaced announced

/-- A BRANCH_DARK incident on node 0 absorbs the TERMINAL_DARK incident of terminal 130 in slot 2. -/
def absorbing (announced : Bool) : State :=
  { part with
    slots := ((Vector.replicate 32 none).set 1 (some { waiting with kind := .branchDark, subject := .node 0 })).set 2
      (some { waiting with number := 58, phase := .clearing, announced })
    order := [1, 2], nextNumber := 59 }

/-- The incident of slot 1 as it enters OPEN. -/
def opening : Incident :=
  { waiting with kind := .branchDark, subject := .node 0, phase := .opened, soak := none, openDue := true }

theorem absorbing_slot2 (announced : Bool) :
    (absorbing announced).slot 2 = some { waiting with number := 58, phase := .clearing, announced } := by
  cases announced <;> decide

theorem absorbing_absorbs (announced : Bool) :
    (absorbing announced).absorbs 1 opening 2 { waiting with number := 58, phase := .clearing, announced } := by
  cases announced <;> exact ⟨by decide, rfl, .dark, 0, rfl, rfl, rfl, .inr ⟨130, rfl, by decide⟩⟩

theorem witness_AttackExpiryOpensTheIncident :
    (let s := absorbing true;
      ∃ i, s.slot 1 = some i ∧ i.phase = .waiting ∧ i.close = none ∧ i.soak = some dueWindow ∧ s.frozen = false ∧
        opening = { i with phase := .opened, soak := none, openDue := i.openDue || s.permitted i,
                           withheld := !s.permitted i }) ∧
    (absorbing true).absorbs 1 opening 2 { waiting with number := 58, phase := .clearing, announced := true } ∧
    (absorbing false).freesAt 1 opening 2 ∧ (absorbing true).slot 3 = none ∧
    opening.coversTerminal part.nodes { lit with link := .dark } = true ∧ opening.coversTerminal part.nodes lit = false :=
  ⟨⟨_, rfl, by decide, by decide, by decide, by decide, by decide⟩, absorbing_absorbs true,
    ⟨_, absorbing_slot2 false, absorbing_absorbs false, rfl⟩, by decide, by decide, by decide⟩

/-- An announced incident and one that is not. -/
theorem witness_ReleaseExpiryCloses :
    (1 : Fin 32) ≠ 0 ∧ (withIncident clearing).slot 1 = some clearing ∧ clearing.phase = .clearing ∧
    clearing.close = none ∧ clearing.soak = some dueWindow ∧ dueWindow.due = true ∧ (withIncident clearing).frozen = false ∧
    clearing.announced = true ∧ { clearing with announced := false }.announced = false := by decide

theorem witness_ExtendAndSettimeComplete : part.takesCommands = true ∧ Memory.wf part.mem = true := by decide

theorem editing_loadLaw : editing.loadLaw := by
  refine ⟨by decide, by decide, fun o h => ?_⟩
  cases h
  exact .inr rfl

theorem loading_loadLaw (l : Load) : (loading l).loadLaw := by
  refine ⟨⟨fun _ => rfl, fun _ => rfl⟩, ⟨fun _ => rfl, fun _ => .inr rfl⟩, fun o h => ?_⟩
  cases h
  exact .inr rfl

/-- RUNNING and UNCONFIGURED, EDIT, and the check pass. -/
theorem witness_EditCommitAndAbandonComplete :
    (part.takesCommands = true ∧ Memory.wf part.mem = true ∧ part.part = .running) ∧
    ({ part with part := .unconfigured }.takesCommands = true) ∧
    (editing.takesCommands = true ∧ editing.loadLaw ∧ editing.part = .edit) ∧
    ((loading freshLoad).part = .loading ∧ (loading freshLoad).applyPass = false ∧ (loading freshLoad).loadLaw ∧
      (loading freshLoad).takesCommands = true) :=
  ⟨by decide, by decide, ⟨by decide, editing_loadLaw, rfl⟩, rfl, by decide, loading_loadLaw _, by decide⟩

/-- Without a census, and with one being written. -/
theorem witness_EditCommitAndAbandonComplete_commit :
    (editing.takesCommands = true ∧ Memory.wf editing.mem = true ∧ editing.part = .edit ∧ editing.census = none) ∧
    (let s : State := { editing with census := some { base := 0x50000, tag := 7, written := 5, cut := false } };
      s.takesCommands = true ∧ s.part = .edit ∧ s.census = some { base := 0x50000, tag := 7, written := 5, cut := false }) := by
  decide

/-- Terminal 130, terminal 511 which is not provisioned, and argument 512. -/
theorem witness_ForgetAndMaintComplete :
    (part.takesCommands = true ∧ part.part = .running ∧ editing.takesCommands = true ∧ editing.part = .edit) ∧
    ((130 : Fin 512).val = (130 : Half).toNat ∧ (part.entry 130).provisioned = true) ∧
    (part.entry 511).provisioned = false ∧ ∀ k : Fin 512, k.val ≠ (512 : Half).toNat := by
  refine ⟨by decide, by decide +kernel, by decide +kernel, fun k h => ?_⟩
  exact absurd (h ▸ k.isLt) (by decide)

theorem witness_ForgetAndMaintComplete_maint :
    (part.takesCommands = true ∧ Memory.wf part.mem = true ∧ part.part = .running ∧ part.latch = none) ∧
    { editing with latch := some 0x8003 }.latch = some 0x8003 ∧ editing.part = .edit ∧ editing.takesCommands = true := by decide

theorem witness_CensusStarts :
    (part.takesCommands = true ∧ Memory.wf part.mem = true ∧ part.part = .running ∧ part.census = none ∧
      part.censusBase = some 0x50000) ∧
    (editing.takesCommands = true ∧ editing.part = .edit ∧ editing.origin = some .running) ∧
    { part with census := some { base := 0x50000, tag := 7, written := 5, cut := true } }.census ≠ none := by decide

theorem witness_ResetCommandCompletes : part.takesCommands = true ∧ Memory.wf part.mem = true ∧
    (loading freshLoad).takesCommands = true := by decide

theorem witness_CommandsAreRefused :
    (part.takesCommands = true ∧ Memory.wf part.mem = true ∧ part.loadLaw ∧ part.part = .running) ∧
    ((beat 0x40000 0x0A030000).read = false ∧ wordAddr (beat 0x40000 0x0A030000).addr.toNat = part.setupBase ∧
      10 ≤ mailboxCode (beat 0x40000 0x0A030000).data) ∧
    (mailboxCode (beat 0x40000 0x00030000).data = 0 ∧ (someBytes 0x40000 4 0x01030000).be ≠ 15) ∧
    (editing.part = .edit ∧ editing.loadLaw ∧ editing.takesCommands = true) ∧
    ({ part with part := .unconfigured }.part = .unconfigured ∧
      { editing with origin := some .unconfigured }.origin = some .unconfigured) ∧
    ((loading freshLoad).part = .loading ∧ (loading freshLoad).loadLaw ∧ (loading freshLoad).takesCommands = true) ∧
    (loading { freshLoad with applying := true }).applyPass = true :=
  ⟨⟨by decide, rfl, part_loadLaw, rfl⟩, by decide, by decide, ⟨rfl, editing_loadLaw, by decide⟩, ⟨rfl, rfl⟩,
    ⟨rfl, loading_loadLaw _, by decide⟩, rfl⟩

/-- A load that has read every word but the last. -/
def lastRead (w : Word) : Load :=
  { freshLoad with staged := [0x20000, 64, 0x30000, 8, 0x50000] ++ List.replicate 132 0 ++ [w] }

/-- The staged words as numbers, and a count on both sides of a clamp's least and greatest. -/
theorem witness_SettingsAreReadAndClamped : ∃ (w : Nat → Nat) (signed : Nat → Int),
    (∀ k, w k = (((lastRead 0).staged[k - 4]?).getD 0).toNat) ∧
    (∀ n, signed n = if n < 32768 then (n : Int) else n - 65536) ∧ w 5 = 64 ∧ 16 ≤ w 5 % 65536 ∧ w 7 = 8 ∧
    w 9 % 65536 < 16 ∧ (12 : Nat) ≠ 4 :=
  ⟨fun k => (((lastRead 0).staged[k - 4]?).getD 0).toNat, fun n => if n < 32768 then (n : Int) else n - 65536,
    fun _ => rfl, fun _ => rfl, by decide, by decide, by decide, by decide, by decide⟩

/-- The structural checks on a setup that passes: the three regions at their places, and every node disabled. -/
theorem witness_StructuralChecks : ∃ l : Load, l = { lastRead 0 with staged := (lastRead 0).staged ++ [0] } ∧
    (loading l).setupFault l = none ∧ l.intake = { base := 0x20000, count := 64 } ∧
    l.notices = { base := 0x30000, count := 8 } ∧ l.census = 0x50000 :=
  ⟨_, rfl, by decide +kernel, by decide, by decide, by decide⟩

/-- The word before the last, and the last with a setup that passes and with one that names a missing parent. -/
theorem witness_CheckReadsStageAndEndTheCheckPass :
    (loading freshLoad).load = some freshLoad ∧ freshLoad.applying = false ∧ (loading freshLoad).grants .loader = true ∧
    (loading freshLoad).arb.held = none ∧ (loading freshLoad).arb.ready = true ∧
    ({ freshLoad with staged := List.replicate 137 0 }.staged.length < 138 ∧ (lastRead 0).staged.length = 138 ∧
      (loading (lastRead 0)).grants .loader = true) ∧
    (loading (lastRead 0)).setupFault { lastRead 0 with staged := (lastRead 0).staged ++ [0] } = none ∧
    (loading (lastRead 0x80000200)).setupFault
      { lastRead 0x80000200 with staged := (lastRead 0x80000200).staged ++ [0] } = some 654 := by decide +kernel

/-- The last terminal's word, with its terminal provisioned or not. -/
theorem witness_TerminalWordIsApplied :
    (let l : Load := { freshLoad with applying := true, applied := 511 };
      (loading l).load = some l ∧ l.applying = true ∧ (511 : Fin 512).val = l.applied ∧ (loading l).grants .loader = true ∧
        (loading l).arb.held = none ∧ (loading l).arb.ready = true) ∧
    (let l : Load := { freshLoad with applying := true, applied := 130 };
      (loading l).grants .loader = true ∧ ((loading l).entry 130).provisioned = true) := by decide

theorem witness_CommitCompletionTakesTheSetupIntoUse :
    let l : Load := { lastRead 0 with applying := true, applied := 512 }
    (loading l).load = some l ∧ l.applying = true ∧ 512 ≤ l.applied ∧
    (loading l).noticeRing = some l.notices ∧ (loading l).intakeRing = some l.intake ∧
    (let s : State := { loading l with noticeRing := none };
      s.noticeRing ≠ some l.notices ∧ s.notice = none) ∧
    (let s : State := { noticing 3 none with load := some l, part := .loading, noticeRing := some { base := 0, count := 8 } };
      s.noticeRing ≠ some l.notices ∧ s.notice ≠ none) ∧
    { waiting with subject := .terminal 7 }.close = none ∧ ((loading l).entry 7).provisioned = false := by decide +kernel

/-- EDIT, the check pass and the apply pass. -/
theorem witness_EditLimitExpiryEndsTheEdit :
    ({ editing with editLimit := some dueWindow }.editLimit = some dueWindow ∧ dueWindow.due = true ∧ editing.part = .edit ∧
      editing.loadLaw ∧
      editing.load = none ∧ editing.applyPass = false) ∧
    ((loading freshLoad).loadLaw ∧ (loading freshLoad).applyPass = false ∧ (loading freshLoad).load = some freshLoad) ∧
    (loading { freshLoad with applying := true }).loadLaw ∧
    (loading { freshLoad with applying := true }).applyPass = true :=
  ⟨⟨rfl, rfl, rfl, editing_loadLaw, rfl, rfl⟩, ⟨loading_loadLaw _, rfl, rfl⟩, loading_loadLaw _, rfl⟩

/-- A request that is not the head one, and a head request with a beat held behind it. -/
theorem witness_GrantsServeTheHeadRequest :
    (Instr.censusWordWrite ∈ [Instr.loaderCheckRead, .terminalWordApply, .noticeWordWrite, .producerWrite,
      .ringHeaderInitWrite, .ownedWordWriterGrant, .censusWordWrite, .censusDoneWrite, .censusCutWrite] ∧
      part.nextAccess ≠ some .censusWordWrite) ∧
    (let s : State := { part with writeMarks.partA := true, arb.held := some (beat 0x100 5) };
      s.nextAccess = some .ownedWordWriterGrant ∧ s.arb.busy = none ∧ s.arb.beatsLeft = 0 ∧ s.arb.ready = true ∧
      s.arb.held = some (beat 0x100 5) ∧
      exec .ownedWordWriterGrant { s with arb := { s.arb with held := none } } =
        .next (after .ownedWordWriterGrant { s with arb := { s.arb with held := none } })) :=
  ⟨⟨by simp, by decide⟩, by decide, rfl, rfl, rfl, rfl, rfl⟩

/-- A passing beat and an internal request before a memory that is not ready, in the cycle of a carry and before it, and a
carry with M_READY released. -/
theorem witness_SlowMemoryHoldsTheAccess :
    let s : State := { part with writeMarks.partA := true, arb.ready := false }
    let slow : Instr := .microsecondCarry released { ready := false, upTo := false }
    s.forwards = true ∧ s.arb.ready = false ∧ (after (.passingWrite (beat 0x100 5)) s).waiting = none ∧
    s.nextAccess = some .ownedWordWriterGrant ∧ s.arb.busy = none ∧ s.arb.beatsLeft = 0 ∧ s.arb.held = none ∧
    (after .ownedWordWriterGrant s).waiting = none ∧ s.waiting = none ∧
    (let r := after (.passingWrite (beat 0x100 5)) { s with arb.ready := true }; exec upToCarry r = .next (after upToCarry r)) ∧
    { s with time.prescaler := 24 }.time.prescaler = 24 ∧ exec slow s = .next (after slow s) := by
  refine ⟨by decide, rfl, by decide +kernel, by decide, rfl, rfl, rfl, by decide +kernel, by decide +kernel, ?_, rfl, ?_⟩
  all_goals
    unfold after
    rfl

theorem witness_ConsumerWritesAreAcceptedOrHeld :
    part.serves .consumerIndex (beat 0x30004 8) ∧ part.serves .consumerIndex (someBytes 0x30004 3 8) ∧
    part.noticeRing = some { base := 0x30000, count := 8 } ∧ (noticing 3 none).serves .consumerIndex (beat 0x30004 8) :=
  ⟨⟨by decide, by decide, rfl⟩, ⟨by decide, by decide, rfl⟩, rfl, by decide, by decide, rfl⟩

/-- The first and the eighth word; the header of a new ring. -/
theorem witness_NoticeAndHeaderWordsAreWritten :
    (noticing 0 none).noticeRing = some { base := 0x30000, count := 8 } ∧ (noticing 0 none).servesRequest .noticeWriter ∧
    (noticing 7 none).servesRequest .noticeWriter ∧
    (noticing 7 none).notice = some { words := [7, 6, 5, 4, 3, 2, 1, 0], written := 7, frees := none } ∧
    ([7, 6, 5, 4, 3, 2, 1, 0] : List Word)[7]? = some 0 ∧
    ({ part with headerDue := true }.servesRequest .noticeWriter ∧ part.notice = none ∧
      { part with headerDue := true }.headerDue = true) :=
  ⟨rfl, ⟨by decide, rfl, rfl, rfl⟩, ⟨by decide, rfl, rfl, rfl⟩, rfl, rfl, ⟨by decide, rfl, rfl, rfl⟩, rfl, rfl⟩

/-- A notice that frees no slot, a CLOSE that frees slot 1, and a ring that waits. -/
theorem witness_ProducerWriteEndsTheNotice :
    (noticing 8 none).noticeRing = some { base := 0x30000, count := 8 } ∧ (noticing 8 none).servesRequest .noticeWriter ∧
    (noticing 8 none).notice = some { words := [7, 6, 5, 4, 3, 2, 1, 0], written := 8, frees := none } ∧
    (noticing 8 (some 1)).servesRequest .noticeWriter ∧
    ((noticing 8 (some 1)).notice.map (·.frees)) = some (some 1) ∧ (noticing 8 none).ringWaiting = none ∧
    { noticing 8 none with ringWaiting := some { base := 0x60000, count := 8 } }.ringWaiting =
      some { base := 0x60000, count := 8 } :=
  ⟨rfl, ⟨by decide, rfl, rfl, rfl⟩, rfl, ⟨by decide, rfl, rfl, rfl⟩, rfl, rfl, rfl⟩

/-- Each of the three words as the lowest-numbered one marked. -/
theorem witness_OwnedWordWriterWritesTheLowestMarked :
    State.reset.servesRequest .ownedWords ∧
    ({ part with writeMarks := { status := false, partA := true, partB := true } }.servesRequest .ownedWords) ∧
    ({ part with writeMarks := { status := false, partA := false, partB := true } }.servesRequest .ownedWords) :=
  ⟨⟨by decide, rfl, rfl, rfl⟩, ⟨by decide, rfl, rfl, rfl⟩, ⟨by decide, rfl, rfl, rfl⟩⟩

/-- A census of which `k` writes are made. -/
def writing (k : Nat) (cut : Bool) : State :=
  { part with census := some { base := 0x50000, tag := 0x33, written := k, cut } }

/-- Its status, its first and last node, its first and last terminal, its time, its end, and a cut. -/
theorem witness_CensusWritesTheLiveValues :
    (∀ k ∈ [0, 1, 128, 129, 640, 641, 642], ∀ cut : Bool, (writing k cut).servesRequest .census ∧
      (writing k cut).census = some { base := 0x50000, tag := 0x33, written := k, cut }) ∧
    (1 : Nat) = 1 + (0 : Fin 128).val ∧ (128 : Nat) = 1 + (127 : Fin 128).val ∧ (129 : Nat) = 129 + (0 : Fin 512).val ∧
    (640 : Nat) = 129 + (511 : Fin 512).val := by
  refine ⟨fun k _ cut => ⟨⟨?_, rfl, rfl, rfl⟩, rfl⟩, by decide, by decide, by decide, by decide⟩
  rfl

end Sys2Proof.Tests
end

