-- ==== Sys2Proof/Proofs/Frames.lean ====
section
/-! SUPPORT. The frames of the events: what each named event of Machine/ leaves unchanged, as one equation per event, so
that a proof about other fields cites the frame and does not open the event. -/

namespace Sys2Proof.Machine

/-- What every step of a fold keeps, the fold keeps. -/
theorem foldl_keeps {α β : Type} {f : State → α → State} {g : State → β} (h : ∀ s a, g (f s a) = g s) (l : List α)
    (s : State) : g (l.foldl f s) = g s := by
  induction l generalizing s with
  | nil => rfl
  | cons a l ih => rw [List.foldl_cons, ih, h]

/-! ## Terminal events, the gauge and the settings -/

/-- A silence carry changes entries, counts, gauge, STORM and Settle Timer alone (R31, R35, R36). -/
theorem silenceEvent_frame (s : State) :
    { silenceEvent s with
      entries := s.entries, nodes := s.nodes, gauge := s.gauge, storm := s.storm, settle := s.settle } = s := by
  rw [silenceEvent, markIf_eq, addFalls_eq]

/-- A leak of the gauge changes gauge, STORM and Settle Timer alone (R95, R96). -/
theorem leakEvent_frame (s : State) : { leakEvent s with gauge := s.gauge, storm := s.storm, settle := s.settle } = s := by
  rw [leakEvent, markIf_eq, setGauge_eq]

/-- Of the counting chain the parameter apply keeps the counts and the clock (R82, R91). -/
theorem parameterApply_time (l : Load) (s : State) :
    { (parameterApply l s).time with silenceDue := s.time.silenceDue } = s.time := by
  rw [parameterApply, markIf_eq]
  rfl

/-! ## The Incident Table -/

/-- The state `s` with the incidents, the entries and the write-pending marks of `s0`. -/
def State.withTable (s0 s : State) : State :=
  { s with slots := s0.slots, order := s0.order, entries := s0.entries, writeMarks := s0.writeMarks }

/-- The state `s` with the incidents, their number counter, the entries and the write-pending marks of `s0`. -/
def State.withIncidents (s0 s : State) : State := { s0.withTable s with nextNumber := s0.nextNumber }

theorem withIncidents_of_withTable {s0 s t : State} (h : s0.withTable t = s0.withTable s) :
    s0.withIncidents t = s0.withIncidents s :=
  congrArg (fun u : State => { u with nextNumber := s0.nextNumber }) h

theorem closeIncident_frame (s0 : State) (k : Fin 32) (r : CloseReason) (n : Nat) (i : Incident) (s : State) :
    s0.withTable (closeIncident k r n i s) = s0.withTable s := by
  rcases closeIncident_cases k r n i s with ⟨-, h⟩ | ⟨-, h⟩ <;> rw [h] <;> rfl

theorem absorbAll_frame (s0 : State) (k : Fin 32) (i : Incident) (s : State) :
    s0.withTable (absorbAll k i s) = s0.withTable s := by
  refine foldl_keeps (fun s j => ?_) _ s
  rcases absorbSlot_cases k i s j with h | ⟨other, -, -, h⟩
  · rw [h]
  · rw [h, closeIncident_frame]

theorem matchSlot_frame (s0 : State) (causes : List Cause) (s : State) (k : Fin 32) :
    s0.withTable (matchSlot causes s k) = s0.withTable s := by
  rcases matchSlot_cases causes s k with h | ⟨i, -, -, -, ⟨c, -, -, h⟩ | ⟨-, ⟨-, h⟩ | ⟨-, h⟩⟩⟩ <;> rw [h] <;> rfl

theorem absorbRecurred_frame (s0 s : State) (k : Fin 32) : s0.withTable (absorbRecurred s k) = s0.withTable s := by
  unfold absorbRecurred
  split
  · rfl
  · split
    · rw [absorbAll_frame]
    · rfl

theorem matchAll_frame (s0 : State) (causes : List Cause) (s : State) :
    s0.withTable (matchAll causes s) = s0.withTable s := by
  rw [matchAll, foldl_keeps (absorbRecurred_frame s0), foldl_keeps (matchSlot_frame s0 causes)]

theorem placeCauses_frame (s0 : State) (causes : List Cause) (s : State) :
    s0.withIncidents (placeCauses causes s).1 = s0.withIncidents s := by
  induction causes generalizing s with
  | nil => rfl
  | cons c rest ih =>
    unfold placeCauses
    split
    · exact ih s
    · split
      · rw [ih]
        rfl
      · exact ih s

theorem residueRecount_frame (s0 : State) (u : Unplaced) (s : State) :
    s0.withIncidents (residueRecount u s) = s0.withIncidents s := by
  rcases residueRecount_cases u s with h | ⟨-, -, h⟩ | ⟨i, -, -, ⟨-, h⟩ | ⟨-, h⟩⟩
  · rw [h]
  · rw [h]; rfl
  · rw [h, withIncidents_of_withTable (closeIncident_frame s0 0 .cleared 0 _ s)]
  · rw [h]; rfl

/-- A matching ends the pass and changes the Incident Table, the covering fields and the write-pending marks (R108). -/
theorem matchingEvent_frame (causes : List Cause) (s : State) :
    s.withIncidents { matchingEvent causes s with pass := s.pass } = s := by
  simp only [matchingEvent]
  set live := causes.filter (fun c => !s.causeCovered c)
  set new := live.filter (fun c => !s.matched c && !(matchAll live s).causeCovered c)
  set placed := placeCauses new (matchAll live s)
  have h : s.withIncidents (residueRecount (unplacedCounts placed.2) placed.1) = s.withIncidents s := by
    rw [residueRecount_frame, placeCauses_frame, withIncidents_of_withTable (matchAll_frame s live s)]
  exact congrArg (fun u : State => { u with pass := s.pass }) h

/-- An attack expiry changes the Incident Table, the covering fields, the write-pending marks and the Settle Timer (R125,
R126, R136). -/
theorem attackEvent_frame (k : Fin 32) (i : Incident) (s : State) :
    s.withTable { attackEvent k i s with settle := s.settle } = s := by
  simp only [attackEvent, markIf_eq]
  generalize s.tested { i with phase := .opened, soak := none } = opened
  have h : s.withTable (absorbAll k opened (s.putSlot k opened)) = s := absorbAll_frame s k opened (s.putSlot k opened)
  generalize absorbAll k opened (s.putSlot k opened) = u at h ⊢
  exact congrArg (fun u : State => { u with settle := s.settle }) h

/-- A release expiry changes the Incident Table, the covering fields, the write-pending marks and the Settle Timer (R139,
R146). -/
theorem releaseEvent_frame (k : Fin 32) (i : Incident) (s : State) :
    s.withTable { releaseEvent k i s with settle := s.settle } = s := by
  rw [releaseEvent, markIf_eq]
  have h := closeIncident_frame s k .cleared 0 i s
  generalize closeIncident k .cleared 0 i s = u at h ⊢
  exact congrArg (fun u : State => { u with settle := s.settle }) h

theorem reconfigureSlot_frame (s0 s : State) (k : Fin 32) : s0.withTable (reconfigureSlot s k) = s0.withTable s := by
  unfold reconfigureSlot
  split
  · rfl
  · split
    · rw [closeIncident_frame]
    · rfl

end Sys2Proof.Machine
end

