-- ==== Sys2Proof/Proofs/Moves.lean ====
section
/-! SUPPORT. What a step is made of, said once: every command but HARDWARE_RESET is a chain of the named changes below, so
an invariant is proved change by change and no proof opens `exec` again. -/

namespace Sys2Proof.Machine

open Relation

/-! ## What a passing beat can do -/

/-- What a record leaves of the entry of the provisioned terminal it names (R25 to R29). -/
inductive Evidence (p : Settings) (e : Entry) : Entry → Prop
  | repeated : Evidence p e e
  | status (round : Byte) (power : Int) : Evidence p e (e.status p round power)
  | linked (power : Int) : Evidence p e (e.linked p power)
  | missed (round : Byte) : Evidence p e (e.missed p round)
  | gasped : Evidence p e e.gasped

/-- One change of those that the effect of a passing beat is made of. -/
inductive Move : State → State → Prop
  | pass (s : State) (b : Beat) (w : Word) : Move s (s.passBeat b w)
  | read (s : State) (w : Word) : Move s { s with readData := w }
  | mark (s : State) (b : Beat) (m : Mark) : Move s (s.putMark (s.intakeSlot b) m)
  | malformed (s : State) : Move s { s with malformed := bumpCounter s.malformed }
  | unknown (s : State) : Move s { s with unknown := bumpCounter s.unknown }
  | terminal (s : State) (k : Fin 512) (new : Entry) (hp : (s.entry k).provisioned = true)
      (hn : Evidence s.par (s.entry k) new) : Move s (terminalEvent k new s)
  | trunk (s : State) (down : Bool) : Move s (markIf (s.trunk != down) { s with trunk := down })
  | latch (s : State) (l : Option Half) : Move s { s with latch := l }
  | record (s : State) (tag : Byte) (o : CmdOutcome) (detail : Nat) : Move s (record tag o detail s)
  | edit (s : State) (tag : Byte) (h : s.part = .unconfigured ∨ s.part = .running) :
      Move s { freezeWindows s with
        origin := some s.part, editTag := tag, part := .edit, editLimit := some (s.msWindow Config.editLimit) }
  | commit (s : State) (tag : Byte) (h : s.part = .edit) :
      Move s { s with part := .loading, load := some (Load.start tag) }
  | cut (s : State) (c : Census) (h : s.census = some c) : Move s { s with census := some { c with cut := true } }
  | leave (s : State) (h : s.part = .edit ∨ s.part = .loading ∧ s.applyPass = false) : Move s (leaveEdit s)
  | clock (s : State) (w : Word) : Move s { s with time.clock := w }
  | forget (s : State) (k : Fin 512) (hp : (s.entry k).provisioned = true) : Move s (forgetTerminal k s)
  | maint (s : State) (made : Bool) (block : Nat) (mask : Half) (polarity : Bool)
      (h : s.part = .running ∨ s.part = .edit) :
      Move s (markIf made { s with nodes := maintNodes block mask polarity s.nodes })
  | census (s : State) (c : Census) (h : s.census = none) (hw : c.written = 0) : Move s { s with census := some c }
  | reset (s : State) : Move s (softReset s)
  | take (s : State) : Move s (takeNotice s)
  | disturb (s : State) : Move s { s with
      load := s.load.map (fun l => { l with disturbances := min Config.disturbanceMax (l.disturbances + 1) }) }
  | consume (s : State) (r : Ring) (v : Half) (hr : s.noticeRing = some r) (h : s.acceptsConsumer r v = true) :
      Move s { s with consumer := v, ringFault := false }
  | fault (s : State) : Move s { s with ringFault := true }

/-- A chain of such changes. -/
abbrev Moves : State → State → Prop := ReflTransGen Move

theorem Move.moves {s t : State} (h : Move s t) : Moves s t := .single h

/-- A completion (R6, R11). -/
theorem complete_moves (b : Beat) (d : Disposition) (l : Option Link) (s : State) : Moves s (complete b d l s) :=
  .trans (Move.mark s b Mark.clear).moves (Move.pass _ b _).moves

theorem effUnknown_moves (b : Beat) (s : State) : Moves s (effUnknown b s) :=
  (complete_moves b .unknown none s).trans (Move.unknown _).moves

/-- A record for a provisioned terminal (R15, R17, R35 to R37). -/
theorem deliver_moves (b : Beat) {k : Fin 512} {new : Entry} (d : Disposition) {s : State}
    (hp : (s.entry k).provisioned = true) (hn : Evidence s.par (s.entry k) new) : Moves s (deliver b k new d s) :=
  .trans (Move.terminal s k new hp hn).moves (complete_moves b d _ _)

theorem effTree_moves (b : Beat) (down : Bool) (s : State) : Moves s (effTree b down s) :=
  .trans (Move.trunk s down).moves (complete_moves b _ _ _)

theorem effPartial_moves (b : Beat) (s : State) : Moves s (effPartial b s) :=
  .trans (Move.mark s b _).moves (Move.pass _ b _).moves

theorem effPartialWord3_moves (b : Beat) (s : State) : Moves s (effPartialWord3 b s) :=
  .trans (.trans (Move.mark s b _).moves (Move.pass _ b b.data).moves) (Move.malformed _).moves

theorem effStatus_moves (b : Beat) (s : State) : Moves s (effStatus b s) := by
  unfold effStatus
  split
  · split
    · exact effUnknown_moves b s
    · next ht =>
      have hp := (recordTerminal_provisioned ht).2
      dsimp only
      split
      · exact deliver_moves b _ hp .repeated
      · exact deliver_moves b _ hp (.status _ _)
  · exact .refl

theorem effMiss_moves (b : Beat) (s : State) : Moves s (effMiss b s) := by
  unfold effMiss
  split
  · split
    · exact effUnknown_moves b s
    · next ht =>
      have hp := (recordTerminal_provisioned ht).2
      dsimp only
      split
      · exact deliver_moves b _ hp .repeated
      · exact deliver_moves b _ hp (.missed _)
  · exact .refl

theorem effGasp_moves (b : Beat) (s : State) : Moves s (effGasp b s) := by
  unfold effGasp
  split
  · split
    · exact effUnknown_moves b s
    · next ht => exact deliver_moves b _ (recordTerminal_provisioned ht).2 .gasped
  · exact .refl

theorem effLink_moves (b : Beat) (s : State) : Moves s (effLink b s) := by
  unfold effLink
  split
  · split
    · exact effUnknown_moves b s
    · next ht => exact deliver_moves b _ (recordTerminal_provisioned ht).2 (.linked _)
  · exact .refl

/-! ## The commands of the mailbox -/

/-- A mailbox write passes and consumes the latch before its body (R171, R174). -/
theorem mailboxEvent_moves {b : Beat} {body : Option Half → State → State} (h : ∀ l s, Moves s (body l s)) (s : State) :
    Moves s (mailboxEvent b body s) :=
  .trans (.trans (Move.pass s b b.data).moves (Move.latch _ none).moves) (h _ _)

theorem refuse_moves (tag : Byte) (o : CmdOutcome) (s : State) : Moves s (refuse tag o s) := (Move.record s tag o 0).moves

theorem cutCensus_moves (s : State) : Moves s (cutCensus s) := by
  rcases cutCensus_cases s with ⟨h, -⟩ | ⟨c, hs, -, h⟩
  · rw [h]
  · rw [h]
    exact .trans (Move.cut s c hs).moves (Move.record _ c.tag .cut 0).moves

theorem editBody_moves (tag : Byte) (s : State) : Moves s (editBody tag s) := by
  unfold editBody
  split
  · next h => exact .trans (Move.edit s tag (.inl h)).moves (Move.record _ tag .done 0).moves
  · next h => exact .trans (Move.edit s tag (.inr h)).moves (Move.record _ tag .done 0).moves
  · exact refuse_moves _ _ _
  · exact refuse_moves _ _ _

theorem commitBody_moves (tag : Byte) (s : State) : Moves s (commitBody tag s) := by
  unfold commitBody
  split
  · exact refuse_moves _ _ _
  · exact refuse_moves _ _ _
  · next h => exact .trans (Move.commit s tag h).moves (cutCensus_moves _)
  · exact refuse_moves _ _ _

theorem abandonBody_moves (tag : Byte) (s : State) : Moves s (abandonBody tag s) := by
  unfold abandonBody
  split
  · exact refuse_moves _ _ _
  · exact refuse_moves _ _ _
  · next h => exact .trans (Move.leave s (.inl h)).moves (Move.record _ tag .done 0).moves
  · next h =>
    split
    · exact refuse_moves _ _ _
    · next l hl =>
      cases ha : l.applying with
      | true => exact refuse_moves _ _ _
      | false =>
        have hp : s.applyPass = false := by simp [State.applyPass, hl, ha]
        exact .trans (.trans (Move.leave s (.inr ⟨h, hp⟩)).moves (Move.record _ l.tag .abandoned 0).moves)
          (Move.record _ tag .done 1).moves

/-- The terminal that a FORGET names is provisioned (R173). -/
theorem forgetTarget_provisioned {s : State} {arg : Half} {k : Fin 512} (h : s.forgetTarget arg = some k) :
    (s.entry k).provisioned = true := by
  unfold State.forgetTarget at h
  split at h
  · split at h
    · obtain rfl := Option.some.inj h
      assumption
    · simp at h
  · simp at h

theorem forgetBody_moves (tag : Byte) (arg : Half) (s : State) : Moves s (forgetBody tag arg s) := by
  unfold forgetBody
  split
  · exact refuse_moves _ _ _
  · exact refuse_moves _ _ _
  all_goals
    split
    · exact refuse_moves _ _ _
    · next ht => exact .trans (Move.forget s _ (forgetTarget_provisioned ht)).moves (Move.record _ tag .done 0).moves

theorem maintBody_moves (tag : Byte) (mask : Half) (latch : Option Half) (s : State) :
    Moves s (maintBody tag mask latch s) := by
  unfold maintBody
  split
  · exact refuse_moves _ _ _
  · exact refuse_moves _ _ _
  all_goals
    next h => exact .trans (Move.maint s _ _ _ _ (by simp [h])).moves (Move.record _ tag .done _).moves

theorem startCensus_moves (tag : Byte) (s : State) : Moves s (startCensus tag s) := by
  unfold startCensus
  split
  · exact refuse_moves _ _ _
  · next h => exact (Move.census s _ (by simpa using h) rfl).moves

theorem censusBody_moves (tag : Byte) (s : State) : Moves s (censusBody tag s) := by
  unfold censusBody
  split
  · exact refuse_moves _ _ _
  · exact refuse_moves _ _ _
  · exact startCensus_moves tag s
  · split
    · exact startCensus_moves tag s
    · exact refuse_moves _ _ _

theorem resetBody_moves (tag : Byte) (s : State) : Moves s (resetBody tag s) :=
  (cutCensus_moves s).trans
    (.trans (Move.reset _).moves (.trans (Move.record _ tag .done 0).moves (Move.take _).moves))

/-! ## The other rows -/

theorem effPassing_moves (b : Beat) (s : State) : Moves s (effPassing b s) := by
  unfold effPassing
  split
  · exact (Move.read s _).moves
  · exact (Move.pass s b _).moves

theorem effConsumer_moves (b : Beat) (s : State) : Moves s (effConsumer b s) := by
  have hb : Moves s (s.passBeat b b.data) := (Move.pass s b b.data).moves
  unfold effConsumer
  split
  · exact hb
  · next r hr =>
    dsimp only
    split
    · next h =>
      have ha : (s.passBeat b b.data).acceptsConsumer r (firstHalf b.data) = true := (Bool.and_eq_true_iff.mp h).2
      exact hb.trans (.trans (Move.consume (s.passBeat b b.data) r _ hr ha).moves (Move.take _).moves)
    · exact hb.trans (Move.fault _).moves

/-- The effect of a passing beat, whatever row the part takes it as, is a chain of the changes above (R187). -/
theorem takeBeat_moves (b : Beat) (s : State) : Moves s (takeBeat b s) := by
  unfold takeBeat
  cases s.rowOf b with
  | passingWrite => exact effPassing_moves b s
  | intakeWord0 => exact .trans (Move.mark s b _).moves (Move.pass _ b _).moves
  | intakeWord1 => exact .trans (Move.mark s b _).moves (Move.pass _ b _).moves
  | intakePartial => exact effPartial_moves b s
  | intakePartialWord3 => exact effPartialWord3_moves b s
  | empty => exact .trans (Move.mark s b _).moves (Move.pass _ b _).moves
  | malformed => exact (complete_moves b _ _ s).trans (Move.malformed _).moves
  | status => exact effStatus_moves b s
  | miss => exact effMiss_moves b s
  | gasp => exact effGasp_moves b s
  | link => exact effLink_moves b s
  | treeDown => exact effTree_moves b true s
  | treeUp => exact effTree_moves b false s
  | extend => exact mailboxEvent_moves (fun _ s => .trans (Move.latch s _).moves (Move.record _ _ _ _).moves) s
  | edit => exact mailboxEvent_moves (fun _ => editBody_moves _) s
  | commit => exact mailboxEvent_moves (fun _ => commitBody_moves _) s
  | abandon => exact mailboxEvent_moves (fun _ => abandonBody_moves _) s
  | settime => exact mailboxEvent_moves (fun _ s => .trans (Move.clock s _).moves (Move.record _ _ _ _).moves) s
  | forget => exact mailboxEvent_moves (fun _ => forgetBody_moves _ _) s
  | maint => exact mailboxEvent_moves (maintBody_moves _ _) s
  | census => exact mailboxEvent_moves (fun _ => censusBody_moves _) s
  | reset => exact mailboxEvent_moves (fun _ => resetBody_moves _) s
  | badOpcode => exact mailboxEvent_moves (fun _ => refuse_moves _ _) s
  | ownedWord => exact (Move.pass s b _).moves
  | disturbing => exact .trans (Move.pass s b b.data).moves (Move.disturb _).moves
  | consumerIndex => exact effConsumer_moves b s

end Sys2Proof.Machine
end

