-- ==== Sys2Proof/Proofs/Changes.lean ====
section
/-! SUPPORT. Every command but HARDWARE_RESET as a chain of the named changes, and what a step runs. -/

namespace Sys2Proof.Machine

open Relation

/-! ## What a step can do -/

/-- The row of the table whose grant ends with an internal access's event (R163, R164, R166, R168). -/
def Ending.row : Ending → Instr
  | .noticeWord => .noticeWordWrite
  | .producer => .producerWrite
  | .header _ => .ringHeaderInitWrite
  | .censusWord => .censusWordWrite
  | .censusDone => .censusDoneWrite
  | .censusCut => .censusCutWrite

/-- One change of those that a command `c`, run on the state `s0`, is made of. The command and the first state stand where
only they bring the change: the loader's reads, the completion, and the event that ends an internal access, granted now or
held before by a slow memory. -/
inductive Change (c : Instr) (s0 : State) : State → State → Prop
  | move {s t : State} (h : Move s t) : Change c s0 s t
  | path {s t : State} (h : t = { s with writeMarks := t.writeMarks, arb := t.arb })
      (hl : t.arb.beatsLeft = s.arb.beatsLeft) (hp : t.arb.plain = s.arb.plain) : Change c s0 s t
  | counted (s : State) (b : Beat) : Change c s0 s { s with arb := s.arb.afterBeat b }
  | land (s : State) (w : Option Store) : Change c s0 s (land w s)
  | ending (s : State) (e : Ending) (h : c = e.row ∨ ∃ w, s0.arb.busy = some (.internal w (some e))) :
      Change c s0 s (endingEvent e s)
  | mainsFail (s : State) : Change c s0 s (dirtyMark { s with inputs.mainsFail := s.inputs.sample.mainsFail })
  | maintAll (s : State) : Change c s0 s (dirtyMark { s with inputs.maintAll := s.inputs.sample.maintAll })
  | silence (s : State) (h : s.time.silenceDue = true) : Change c s0 s (silenceEvent { s with time.silenceDue := false })
  | leak (s : State) (h : s.time.leakDue = true) : Change c s0 s (leakEvent { s with time.leakDue := false })
  | settle (s : State) (h : s.settleDue = true) : Change c s0 s { s with settle := none, passRequest := true }
  | merged (s : State) (h : s.applyPass = true) : Change c s0 s { s with passRequest := false }
  | reading (s : State) (h : s.applyPass = false) (hp : s.pass = none) : Change c s0 s (readingEvent s)
  | matching (s : State) (causes : List Cause) (h : s.pass = some causes) : Change c s0 s (matchingEvent causes s)
  | attack (s : State) (k : Fin 32) (i : Incident) (h : s.attackDue k i = true) : Change c s0 s (attackEvent k i s)
  | release (s : State) (k : Fin 32) (i : Incident) (h : s.releaseDue k i = true) : Change c s0 s (releaseEvent k i s)
  | limitEnds (s : State) (h : s.applyPass = true) : Change c s0 s { s with editLimit := none }
  | checkRead (s : State) (l : Load) (hc : c = .loaderCheckRead) (hl : s.load = some l) (ha : l.applying = false) :
      Change c s0 s (checkReadEvent l s)
  | terminalWord (s : State) (l : Load) (hc : c = .terminalWordApply) (hl : s.load = some l) (ha : l.applying = true) :
      Change c s0 s (terminalWordEvent l (Fin.ofNat 512 l.applied) s)
  | completion (s : State) (l : Load) (hc : c = .commitCompletion) (hl : s.load = some l) (ha : l.applying = true)
      (hn : 512 ≤ l.applied) : Change c s0 s (completionEvent l s)
  | cycle (s : State) : Change c s0 s { s with time.prescaler := 24 }
  | microsecond (s : State) (levels : Levels) (h : s.atMicrosecond = true) :
      Change c s0 s (microsecondEvent levels s)
  | millisecond (s : State) : Change c s0 s
      (millisecondEvent { runPatience (1000 - s.time.divider) s with
        time.prescaler := 0, time.divider := 0, inputs.sampled := true })

/-- A chain of such changes. -/
abbrev Changes (c : Instr) (s0 : State) : State → State → Prop := ReflTransGen (Change c s0)

section
variable {c : Instr} {s0 s t : State}

theorem Change.changes (h : Change c s0 s t) : Changes c s0 s t := .single h

theorem Moves.changes (h : Moves s t) : Changes c s0 s t := ReflTransGen.lift id (fun _ _ => Change.move) _ _ h

/-- The write-pending marks and what the arbiter holds but for a burst's beats. -/
theorem path_changes (h : t = { s with writeMarks := t.writeMarks, arb := t.arb })
    (hl : t.arb.beatsLeft = s.arb.beatsLeft) (hp : t.arb.plain = s.arb.plain) : Changes c s0 s t :=
  (Change.path h hl hp).changes

/-- The closing of an event away from the bus (R185, R191). -/
theorem finish_changes (a s : State) : Changes c s0 s (finish a s) := by
  rw [finish_eq]
  refine path_changes rfl ?_ ?_
  · show (if s.arb.passing = true then _ else s.arb : Arbiter).beatsLeft = _
    split <;> rfl
  · show (if s.arb.passing = true then _ else s.arb : Arbiter).plain = _
    split <;> rfl

/-- A forwarded beat with its effect (R186, R187). -/
theorem finishBeat_changes (b : Beat) (a : State) (h : Changes c s0 s t) : Changes c s0 s (finishBeat b a t) := by
  refine h.trans (.trans (Change.counted t b).changes ?_)
  rw [finishBeat_eq, startWindow_eq]
  exact path_changes rfl rfl rfl

theorem releaseHeld_changes (s : State) : Changes c s0 s (releaseHeld s) := by
  unfold releaseHeld
  split
  · exact .refl
  · next b _ =>
    dsimp only
    have h : Changes c s0 s { s with arb.held := none } := path_changes rfl rfl rfl
    exact h.trans (finishBeat_changes b _ (Moves.changes (takeBeat_moves b _)))

/-- A presented beat: held, or forwarded with its row's effect (R186, R190, R191). -/
theorem present_changes {row : BeatRow} {eff : Beat → State → State} {b : Beat}
    (he : s.rowOf b = row → takeBeat b s = eff b s) (h : present row eff b s = .next t) : Changes c s0 s t := by
  have hb : Changes c s0 s (finishBeat b s (takeBeat b s)) := finishBeat_changes b s (Moves.changes (takeBeat_moves b s))
  rcases present_cases row eff b s with ⟨-, hs⟩ | ⟨-, -, hs⟩ | ⟨-, hr, hs⟩ | ⟨-, -, hs⟩
  · obtain rfl := Host.Outcome.next.inj (hs.symm.trans h)
    exact .refl
  · obtain rfl := Host.Outcome.next.inj (hs.symm.trans h)
    exact path_changes rfl rfl rfl
  · obtain rfl := Host.Outcome.next.inj (hs.symm.trans h)
    exact he hr ▸ hb
  · obtain rfl := Host.Outcome.next.inj (hs.symm.trans h)
    exact hb

/-- The end of an internal access (R186, R190). -/
theorem endAccess_changes (w : Option Store) (e : Option Ending)
    (h : ∀ x, e = some x → c = x.row ∨ ∃ w, s0.arb.busy = some (.internal w (some x))) (s : State) :
    Changes c s0 s (endAccess w e s) := by
  cases e with
  | none => exact (Change.land s w).changes
  | some x => exact .trans (.trans (Change.land s w).changes (Change.ending _ x (h x rfl)).changes) (finish_changes _ _)

/-- M_READY ends the access that holds the memory side (R186, R190, R191). -/
theorem memoryReady_changes (ready : Bool) (hb : s.arb.busy = s0.arb.busy) :
    Changes c s0 s (memoryReady ready s) := by
  have hp : ∀ x y, Changes c s0 s { s with arb := { s.arb with ready := x, busy := y } } := fun x y =>
    path_changes rfl rfl rfl
  rcases memoryReady_cases ready s with ⟨-, h⟩ | ⟨-, -, ⟨-, h⟩ | ⟨-, h⟩⟩ | ⟨w, e, -, hbusy, h⟩
  · rw [h]
    exact hp _ _
  · rw [h]
    exact hp _ _
  · rw [h]
    exact (hp _ _).trans (releaseHeld_changes _)
  · rw [h]
    refine (hp _ _).trans ((endAccess_changes w e (fun x hx => .inr ⟨w, ?_⟩) _).trans (releaseHeld_changes _))
    rw [← hb, hbusy, hx]

/-- A grant to an internal requester (R186, R190, R191). -/
theorem grant_changes {r : Requester} {w : Option Store} {event : State → State} {e : Option Ending}
    (hv : Changes c s0 (endWindow s) (event (endWindow s))) (he : ∀ x, e = some x → c = x.row)
    (h : grant r w event e s = .next t) : Changes c s0 s t := by
  have hw : Changes c s0 s (endWindow s) := path_changes rfl rfl rfl
  have hf : Changes c s0 s (finish s (event (endWindow s))) := hw.trans (hv.trans (finish_changes s _))
  cases hg : s.grants r with
  | false =>
    rw [grant, if_neg (by simp [hg])] at h
    obtain rfl := Host.Outcome.next.inj h
    exact .refl
  | true =>
    cases hm : s.arb.ready with
    | true =>
      rw [grant_served hg hm] at h
      obtain rfl := Host.Outcome.next.inj h
      exact hf.trans ((endAccess_changes w e (fun x hx => .inl (he x hx)) _).trans (releaseHeld_changes _))
    | false =>
      rw [grant_slow hg hm] at h
      obtain rfl := Host.Outcome.next.inj h
      generalize finish s (event (endWindow s)) = u at hf ⊢
      exact hf.trans (path_changes rfl rfl rfl)

theorem grantWrite_changes {r : Requester} {w : Store} {e : Ending} (hc : c = e.row)
    (h : grantWrite r w e s = .next t) : Changes c s0 s t :=
  grant_changes (event := id) .refl (fun _ hx => Option.some.inj hx ▸ hc) h

/-- The owned-word writer's event changes its write-pending marks alone (R189). -/
theorem ownedWordEvent_changes (s : State) : Changes c s0 s (ownedWordEvent s) := by
  unfold ownedWordEvent
  split
  · exact path_changes rfl rfl rfl
  · split
    · exact path_changes rfl rfl rfl
    · exact path_changes rfl rfl rfl

theorem toMicrosecond_changes (ready : Bool) (hb : s.arb.busy = s0.arb.busy) :
    Changes c s0 s (toMicrosecond ready s) :=
  .trans (Change.cycle s).changes (memoryReady_changes ready hb)

/-- The cycle of a microsecond carry and the carry at its end (R81, R186). -/
theorem microsecond_changes (levels : Levels) (ready : Bool) (hb : s.arb.busy = s0.arb.busy) :
    Changes c s0 s (microsecond levels ready s) := by
  have ht : Changes c s0 s (toMicrosecond ready s) := toMicrosecond_changes ready hb
  unfold microsecond
  dsimp only
  split
  · next hm => exact ht.trans (.trans (Change.microsecond _ levels hm).changes (finish_changes _ _))
  · exact ht

/-- An event away from the bus that is due, or none (log entry 4). -/
theorem due_changes {p : Prop} [Decidable p] {u : State} (hu : p → Changes c s0 s u)
    (h : (if p then .next (finish s u) else .next s : Host.Outcome State Fault Refusal) = .next t) :
    Changes c s0 s t := by
  split at h
  · next hp =>
    obtain rfl := Host.Outcome.next.inj h
    exact (hu hp).trans (finish_changes s u)
  · obtain rfl := Host.Outcome.next.inj h
    exact .refl

theorem next_changes {u : State} (hu : Changes c s0 s u) (h : (.next u : Host.Outcome State Fault Refusal) = .next t) :
    Changes c s0 s t :=
  Host.Outcome.next.inj h ▸ hu

end

variable {s t : State}

/-- The events of the pass and of the soaks (R108, R136, R139). -/
theorem execPassReading_changes {c : Instr} (h : execPassReading s = .next t) : Changes c s s t := by
  refine due_changes (fun hd => ?_) h
  split
  · next ha => exact (Change.merged s ha).changes
  · next ha => exact (Change.reading s (by simpa using ha) (by simpa using (Bool.and_eq_true_iff.mp hd).2)).changes

theorem execPassMatching_changes {c : Instr} (h : execPassMatching s = .next t) : Changes c s s t := by
  unfold execPassMatching at h
  split at h
  · exact next_changes .refl h
  · next causes hp =>
    exact next_changes (.trans (Change.matching s causes hp).changes
      (.trans (Moves.changes (Move.take _).moves) (finish_changes s _))) h

theorem execAttackExpiry_changes {c : Instr} (k : Fin 32) (h : execAttackExpiry k s = .next t) : Changes c s s t := by
  unfold execAttackExpiry at h
  split at h
  · exact next_changes .refl h
  · next i _ =>
    exact due_changes (fun hd => .trans (Change.attack s k i hd).changes (Moves.changes (Move.take _).moves)) h

theorem execReleaseExpiry_changes {c : Instr} (k : Fin 32) (h : execReleaseExpiry k s = .next t) :
    Changes c s s t := by
  unfold execReleaseExpiry at h
  split at h
  · exact next_changes .refl h
  · next i _ =>
    exact due_changes (fun hd => .trans (Change.release s k i hd).changes (Moves.changes (Move.take _).moves)) h

/-- The edit limit ends an edit or a check pass, or only itself in an apply pass (R176). -/
theorem execEditLimitExpiry_changes {c : Instr} (h : execEditLimitExpiry s = .next t) : Changes c s s t := by
  refine due_changes (fun hd => ?_) h
  have hpart : s.part = .edit ∨ s.part = .loading := by
    simpa using (Bool.and_eq_true_iff.mp hd).2
  have hleave (hn : s.applyPass = false) : Changes c s s (leaveEdit s) :=
    Moves.changes (Move.leave s (hpart.imp_right (fun hp => ⟨hp, hn⟩))).moves
  unfold editLimitEvent
  split
  · next hl => exact (hleave (by simp [State.applyPass, hl])).trans (Moves.changes (Move.record _ _ _ _).moves)
  · next l hl =>
    split
    · next ha => exact (Change.limitEnds s (by simp [State.applyPass, hl, ha])).changes
    · next ha =>
      exact (hleave (by simp [State.applyPass, hl, ha])).trans (Moves.changes (Move.record _ _ _ _).moves)

/-! ## The grants -/

theorem execLoaderCheckRead_changes (h : execLoaderCheckRead s = .next t) : Changes .loaderCheckRead s s t := by
  unfold execLoaderCheckRead at h
  split at h
  · exact next_changes .refl h
  · next l hl =>
    split at h
    · exact next_changes .refl h
    · next ha =>
      exact grant_changes (Change.checkRead (endWindow s) l rfl hl (by simpa using ha)).changes (by simp) h

theorem execTerminalWordApply_changes (h : execTerminalWordApply s = .next t) : Changes .terminalWordApply s s t := by
  unfold execTerminalWordApply at h
  split at h
  · exact next_changes .refl h
  · next l hl =>
    split at h
    · next ha => exact grant_changes (Change.terminalWord (endWindow s) l rfl hl ha).changes (by simp) h
    · exact next_changes .refl h

theorem execCommitCompletion_changes (h : execCommitCompletion s = .next t) : Changes .commitCompletion s s t := by
  unfold execCommitCompletion at h
  split at h
  · exact next_changes .refl h
  · next l hl =>
    refine due_changes (fun hd => ?_) h
    obtain ⟨ha, hn⟩ := Bool.and_eq_true_iff.mp hd
    exact (Change.completion s l rfl hl ha (by simpa using hn)).changes

theorem execNoticeWordWrite_changes (h : execNoticeWordWrite s = .next t) : Changes .noticeWordWrite s s t := by
  unfold execNoticeWordWrite at h
  split at h
  · split at h
    · exact grantWrite_changes rfl h
    · exact next_changes .refl h
  · exact next_changes .refl h

theorem execProducerWrite_changes (h : execProducerWrite s = .next t) : Changes .producerWrite s s t := by
  unfold execProducerWrite at h
  split at h
  · split at h
    · exact grantWrite_changes rfl h
    · exact next_changes .refl h
  · exact next_changes .refl h

theorem execRingHeaderInitWrite_changes (h : execRingHeaderInitWrite s = .next t) :
    Changes .ringHeaderInitWrite s s t := by
  unfold execRingHeaderInitWrite at h
  split at h
  · exact next_changes .refl h
  · split at h
    · exact grantWrite_changes rfl h
    · exact next_changes .refl h

theorem execCensusWordWrite_changes (h : execCensusWordWrite s = .next t) : Changes .censusWordWrite s s t := by
  unfold execCensusWordWrite at h
  split at h
  · exact next_changes .refl h
  · split at h
    · exact grantWrite_changes rfl h
    · exact next_changes .refl h

theorem execCensusDoneWrite_changes (h : execCensusDoneWrite s = .next t) : Changes .censusDoneWrite s s t := by
  unfold execCensusDoneWrite at h
  split at h
  · exact next_changes .refl h
  · split at h
    · exact grantWrite_changes rfl h
    · exact next_changes .refl h

theorem execCensusCutWrite_changes (h : execCensusCutWrite s = .next t) : Changes .censusCutWrite s s t := by
  unfold execCensusCutWrite at h
  split at h
  · exact next_changes .refl h
  · split at h
    · exact grantWrite_changes rfl h
    · exact next_changes .refl h

/-! ## The carries -/

theorem execMillisecondCarry_changes {c : Instr} (h : execMillisecondCarry s = .next t) : Changes c s s t := by
  unfold execMillisecondCarry at h
  split at h
  · exact next_changes .refl h
  · exact next_changes (.trans (Change.millisecond s).changes (finish_changes s _)) h

theorem execMicrosecondCarry_changes {c : Instr} (levels : Levels) (run : CarryRun)
    (h : execMicrosecondCarry levels run s = .next t) : Changes c s s t := by
  rcases execMicrosecondCarry_cases levels run s with ⟨-, hs⟩ | ⟨-, -, hs⟩ | ⟨-, -, hs⟩
  · exact next_changes .refl (hs.symm.trans h)
  · exact next_changes (toMicrosecond_changes run.ready rfl) (hs.symm.trans h)
  · exact next_changes (microsecond_changes levels run.ready rfl) (hs.symm.trans h)

/-! ## The edges -/

theorem execMainsFailEdge_changes {c : Instr} (h : execMainsFailEdge s = .next t) : Changes c s s t := by
  unfold execMainsFailEdge at h
  split at h
  · exact next_changes .refl h
  · exact next_changes (.trans (Change.mainsFail s).changes (finish_changes s _)) h

theorem execMaintAllEdge_changes {c : Instr} (h : execMaintAllEdge s = .next t) : Changes c s s t := by
  unfold execMaintAllEdge at h
  split at h
  · exact next_changes .refl h
  · exact next_changes (.trans (Change.maintAll s).changes (finish_changes s _)) h

/-! ## Every command -/

/-- Every command but HARDWARE_RESET is a chain of the changes above. -/
theorem exec_changes {c : Instr} (hc : ∀ p l d, c ≠ .hardwareReset p l d) (h : exec c s = .next t) :
    Changes c s s t := by
  cases c with
  | hardwareReset p l d => exact absurd rfl (hc p l d)
  | mainsFailEdge => exact execMainsFailEdge_changes h
  | maintAllEdge => exact execMaintAllEdge_changes h
  | passingWrite b => exact present_changes (fun hr => by simp only [takeBeat, hr]) h
  | intakeWord0Write b => exact present_changes (fun hr => by simp only [takeBeat, hr]) h
  | intakeWord1Write b => exact present_changes (fun hr => by simp only [takeBeat, hr]) h
  | intakePartialWrite b => exact present_changes (fun hr => by simp only [takeBeat, hr]) h
  | intakePartialWord3Write b => exact present_changes (fun hr => by simp only [takeBeat, hr]) h
  | emptyRecord b => exact present_changes (fun hr => by simp only [takeBeat, hr]) h
  | malformedRecord b => exact present_changes (fun hr => by simp only [takeBeat, hr]) h
  | statusRecord b => exact present_changes (fun hr => by simp only [takeBeat, hr]) h
  | missRecord b => exact present_changes (fun hr => by simp only [takeBeat, hr]) h
  | gaspRecord b => exact present_changes (fun hr => by simp only [takeBeat, hr]) h
  | linkRecord b => exact present_changes (fun hr => by simp only [takeBeat, hr]) h
  | treeDown b => exact present_changes (fun hr => by simp only [takeBeat, hr]) h
  | treeUp b => exact present_changes (fun hr => by simp only [takeBeat, hr]) h
  | millisecondCarry => exact execMillisecondCarry_changes h
  | silenceCarry => exact due_changes (fun hd => (Change.silence s hd).changes) h
  | stormLeak => exact due_changes (fun hd => (Change.leak s hd).changes) h
  | settleExpiry => exact due_changes (fun hd => (Change.settle s hd).changes) h
  | passReading => exact execPassReading_changes h
  | passMatching => exact execPassMatching_changes h
  | attackExpiry k => exact execAttackExpiry_changes k h
  | releaseExpiry k => exact execReleaseExpiry_changes k h
  | extendCmd tag arg burst => exact present_changes (fun hr => by simp only [takeBeat, hr]) h
  | editCmd tag arg burst => exact present_changes (fun hr => by simp only [takeBeat, hr]) h
  | commitCmd tag arg burst => exact present_changes (fun hr => by simp only [takeBeat, hr]) h
  | abandonCmd tag arg burst => exact present_changes (fun hr => by simp only [takeBeat, hr]) h
  | settimeCmd tag arg burst => exact present_changes (fun hr => by simp only [takeBeat, hr]) h
  | forgetCmd tag arg burst => exact present_changes (fun hr => by simp only [takeBeat, hr]) h
  | maintCmd tag arg burst => exact present_changes (fun hr => by simp only [takeBeat, hr]) h
  | censusCmd tag arg burst => exact present_changes (fun hr => by simp only [takeBeat, hr]) h
  | resetCmd tag arg burst => exact present_changes (fun hr => by simp only [takeBeat, hr]) h
  | badOpcode b => exact present_changes (fun hr => by simp only [takeBeat, hr]) h
  | ownedWordWrite b => exact present_changes (fun hr => by simp only [takeBeat, hr]) h
  | disturbingWrite b => exact present_changes (fun hr => by simp only [takeBeat, hr]) h
  | consumerIndexWrite b => exact present_changes (fun hr => by simp only [takeBeat, hr]) h
  | loaderCheckRead => exact execLoaderCheckRead_changes h
  | terminalWordApply => exact execTerminalWordApply_changes h
  | commitCompletion => exact execCommitCompletion_changes h
  | editLimitExpiry => exact execEditLimitExpiry_changes h
  | noticeWordWrite => exact execNoticeWordWrite_changes h
  | producerWrite => exact execProducerWrite_changes h
  | ringHeaderInitWrite => exact execRingHeaderInitWrite_changes h
  | ownedWordWriterGrant => exact grant_changes (ownedWordEvent_changes _) (by simp) h
  | censusWordWrite => exact execCensusWordWrite_changes h
  | censusDoneWrite => exact execCensusDoneWrite_changes h
  | censusCutWrite => exact execCensusCutWrite_changes h
  | patienceExpiry =>
    exact due_changes (u := { s with arb.window := none, arb.impatient := true }) (fun _ => path_changes rfl rfl rfl) h
  | microsecondCarry levels run => exact execMicrosecondCarry_changes levels run h

/-- A property that every change keeps holds after a command if it holds before. -/
theorem exec_keeps {P : State → Prop} {c : Instr} (hc : ∀ p l d, c ≠ .hardwareReset p l d) (h : exec c s = .next t)
    (hP : ∀ a b, Change c s a b → P a → P b) (hs : P s) : P t := by
  have hch := exec_changes hc h
  clear h
  induction hch with
  | refl => exact hs
  | tail _ hab ih => exact hP _ _ hab ih

/-- What a step runs: a command, on the state or on the queue's rest, or a REFCLK cycle before the microsecond carry
(R81, log entry 7). -/
theorem step_cases (h : step s = .next t) :
    (∃ c, exec c s = .next t) ∨ (∃ c rest, exec c { s with pending := rest } = .next t) ∨
      (s.time.prescaler < 24 ∧ t = { s with time.prescaler := s.time.prescaler + 1 }) := by
  unfold step at h
  split at h
  · unfold idle at h
    split at h
    · exact .inl ⟨_, h⟩
    · next hw =>
      unfold refclk at h
      split at h
      · refine .inl ⟨.microsecondCarry s.inputs.sample { ready := s.arb.ready, upTo := false }, ?_⟩
        show execMicrosecondCarry _ _ s = _
        rw [execMicrosecondCarry, if_neg (by simp [hw]), if_neg (by simp), h]
      · next hp => exact .inr (.inr ⟨by omega, (Host.Outcome.next.inj h).symm⟩)
  · exact .inr (.inl ⟨_, _, h⟩)

end Sys2Proof.Machine
end

