-- ==== Sys2Proof/Proofs/EventFrames.lean ====
section
/-! SUPPORT. The COMMIT completion before its closing take (R183), stage by stage, and the events of the Notice Writer and
the loader: their frames. -/

namespace Sys2Proof.Machine

/-! ## The completion -/

/-- The incidents whose subject is gone are closed (R145). -/
@[irreducible] def closeGone (s : State) : State := (indices 32).foldl reconfigureSlot s

theorem closeGone_eq (s : State) : closeGone s = (indices 32).foldl reconfigureSlot s := by
  unfold closeGone
  generalize indices 32 = l
  rfl

theorem closeGone_frame (s0 s : State) : s0.withTable (closeGone s) = s0.withTable s := by
  rw [closeGone_eq]
  exact foldl_keeps (reconfigureSlot_frame s0) _ s

/-- The node table with its counts rebuilt and the disabled nodes cleared (R68, R72). -/
def State.rebuiltNodes (s : State) : Vector Node 128 :=
  mapTable (fun _ n => clearDisabled n) (recountNodes s.nodes s.entries)

/-- The completion after its first three stages (R68, R72, R145, R183). -/
def completionClosed (s : State) : State := closeGone { s with nodes := s.rebuiltNodes }

/-- The completion before the take that may end it (R161, R183). -/
def completionBeforeTake (l : Load) (s : State) : State :=
  commitOutcome l (enterRunning (applyNoticeRing l.notices (takeRegions l (completionClosed s))))

theorem completionEvent_eq (l : Load) (s : State) : completionEvent l s = takeNotice (completionBeforeTake l s) := by
  rw [completionBeforeTake, completionClosed, closeGone_eq]
  rfl

theorem completionClosed_frame (s : State) : s.withTable { completionClosed s with nodes := s.nodes } = s := by
  have h := closeGone_frame s { s with nodes := s.rebuiltNodes }
  rw [completionClosed]
  generalize closeGone { s with nodes := s.rebuiltNodes } = u at h ⊢
  exact (congrArg (fun u : State => { u with nodes := s.nodes }) h :)

/-- The state `s` with the notice ring of `s0`, its indices, its RESTART and its initialisation. -/
def State.withRing (s0 s : State) : State :=
  { s with
    noticeRing := s0.noticeRing, producer := s0.producer, consumer := s0.consumer, ringFault := s0.ringFault
    restart := s0.restart, headerDue := s0.headerDue, ringWaiting := s0.ringWaiting }

/-- What a completion does about its ring (R164). -/
theorem applyNoticeRing_frame (s0 : State) (r : Ring) (s : State) :
    s0.withRing (applyNoticeRing r s) = s0.withRing s := by
  rcases applyNoticeRing_cases r s with ⟨-, h⟩ | ⟨-, -, h⟩ | ⟨-, -, h⟩
  · rw [h]; rfl
  · rw [h]; rfl
  · rw [h]; rfl

section
variable (r : Ring) (s : State)

@[simp] theorem applyNoticeRing_nodes : (applyNoticeRing r s).nodes = s.nodes :=
  (congrArg State.nodes (applyNoticeRing_frame s r s) :)
@[simp] theorem applyNoticeRing_slots : (applyNoticeRing r s).slots = s.slots :=
  (congrArg State.slots (applyNoticeRing_frame s r s) :)
@[simp] theorem applyNoticeRing_order : (applyNoticeRing r s).order = s.order :=
  (congrArg State.order (applyNoticeRing_frame s r s) :)
@[simp] theorem applyNoticeRing_entries : (applyNoticeRing r s).entries = s.entries :=
  (congrArg State.entries (applyNoticeRing_frame s r s) :)
@[simp] theorem applyNoticeRing_marks : (applyNoticeRing r s).marks = s.marks :=
  (congrArg State.marks (applyNoticeRing_frame s r s) :)
@[simp] theorem applyNoticeRing_intakeRing : (applyNoticeRing r s).intakeRing = s.intakeRing :=
  (congrArg State.intakeRing (applyNoticeRing_frame s r s) :)
@[simp] theorem applyNoticeRing_censusBase : (applyNoticeRing r s).censusBase = s.censusBase :=
  (congrArg State.censusBase (applyNoticeRing_frame s r s) :)
@[simp] theorem applyNoticeRing_disturbed : (applyNoticeRing r s).disturbed = s.disturbed :=
  (congrArg State.disturbed (applyNoticeRing_frame s r s) :)

@[simp] theorem completionClosed_marks : (completionClosed s).marks = s.marks :=
  (congrArg State.marks (completionClosed_frame s) :)
@[simp] theorem completionClosed_intakeRing : (completionClosed s).intakeRing = s.intakeRing :=
  (congrArg State.intakeRing (completionClosed_frame s) :)
@[simp] theorem completionClosed_disturbed : (completionClosed s).disturbed = s.disturbed :=
  (congrArg State.disturbed (completionClosed_frame s) :)

end

/-- The outcome of a COMMIT, as one update (R183). -/
theorem commitOutcome_eq (l : Load) (s : State) : commitOutcome l s = { s with
    clamped := min 255 l.clamps
    disturbed := if 0 < l.disturbances then min 255 (s.disturbed + 1) else s.disturbed
    status := { tag := l.tag,
                outcome := if 0 < l.disturbances then .disturbed else if 0 < l.clamps then .clamped else .done,
                detail := if 0 < l.disturbances then l.disturbances else l.clamps }
    writeMarks := { s.writeMarks with status := true } } := by
  unfold commitOutcome
  by_cases hd : 0 < l.disturbances
  · simp only [if_pos hd]
    rfl
  · by_cases hc : 0 < l.clamps
    · simp only [if_neg hd, if_pos hc]
      rfl
    · simp only [if_neg hd, Nat.eq_zero_of_not_pos hc]
      rfl

/-- The completion before its take, as one update of what the ring's stage leaves (R183). -/
theorem completionBeforeTake_eq (l : Load) (s : State) : completionBeforeTake l s =
    { applyNoticeRing l.notices (takeRegions l (completionClosed s)) with
      settle := none, passRequest := true, editLimit := none, load := none, configured := true, part := .running
      origin := none, clamped := min 255 l.clamps
      disturbed := if 0 < l.disturbances then min 255 (s.disturbed + 1) else s.disturbed
      status := { tag := l.tag,
                  outcome := if 0 < l.disturbances then .disturbed else if 0 < l.clamps then .clamped else .done,
                  detail := if 0 < l.disturbances then l.disturbances else l.clamps }
      writeMarks :=
        { (applyNoticeRing l.notices (takeRegions l (completionClosed s))).writeMarks with status := true } } := by
  rw [completionBeforeTake, commitOutcome_eq, enterRunning_disturbed, applyNoticeRing_disturbed, takeRegions_disturbed,
    completionClosed_disturbed]
  rfl

/-- The state `s` with what a completion takes into use as it is in `s0`. -/
def State.withSetup (s0 s : State) : State :=
  { s0.withTable (s0.withRing s) with
    nodes := s0.nodes, intakeRing := s0.intakeRing, censusBase := s0.censusBase, marks := s0.marks
    settle := s0.settle, passRequest := s0.passRequest, editLimit := s0.editLimit, load := s0.load
    configured := s0.configured, part := s0.part, origin := s0.origin, clamped := s0.clamped
    disturbed := s0.disturbed, status := s0.status }

/-- A completion changes, before its take, what `withSetup` names and nothing else (R183). -/
theorem completionBeforeTake_frame (l : Load) (s : State) : s.withSetup (completionBeforeTake l s) = s := by
  rw [completionBeforeTake_eq]
  have h := applyNoticeRing_frame s l.notices (takeRegions l (completionClosed s))
  generalize applyNoticeRing l.notices (takeRegions l (completionClosed s)) = u at h ⊢
  have h' := completionClosed_frame s
  generalize completionClosed s = v at h h'
  have hu : s.withSetup u = s.withSetup v := (congrArg s.withSetup h :)
  have hv : s.withSetup v = s := (congrArg s.withSetup h' :)
  exact hu.trans hv

theorem completionBeforeTake_intakeRing (l : Load) (s : State) :
    (completionBeforeTake l s).intakeRing = some l.intake := by
  simp [completionBeforeTake_eq]

/-- The assembly marks are kept for the same ring, and cleared for another (R19). -/
theorem completionBeforeTake_marks (l : Load) (s : State) :
    (completionBeforeTake l s).marks = if s.intakeRing = some l.intake then s.marks else [] := by
  simp [completionBeforeTake_eq]

/-! ## The clamps of the rings -/

/-- A clamp to a list of powers gives one of the list, or the least (R180). -/
theorem clampPower_mem (powers : List Nat) (least n : Nat) : clampPower powers least n ∈ least :: powers := by
  induction powers generalizing least with
  | nil => simp [clampPower]
  | cons p rest ih =>
    have h := ih (if p ≤ n then p else least)
    change clampPower rest (if p ≤ n then p else least) n ∈ _
    generalize clampPower rest (if p ≤ n then p else least) n = x at h ⊢
    split at h
    · exact List.mem_cons_of_mem _ h
    · simp only [List.mem_cons] at h ⊢
      tauto

/-- An applied intake ring has at most 4096 slots (R180). -/
theorem intake_count_le (l : Load) : l.intake.count ≤ 4096 := by
  have hall : ∀ x ∈ [16, 16, 32, 64, 128, 256, 512, 1024, 2048, 4096], x ≤ 4096 := by decide
  exact hall _ (clampPower_mem _ _ _)

/-! ## The Notice Writer and the loader -/

/-- The initialisation of a ring that waited, or nothing (R164). -/
theorem initWaiting_frame (s0 s : State) : s0.withRing (initWaiting s) = s0.withRing s := by
  unfold initWaiting
  split
  · rfl
  · rfl

/-- The state `s` with what the end of a notice changes as it is in `s0`. -/
def State.withWriter (s0 s : State) : State :=
  { s0.withTable (s0.withRing s) with settle := s0.settle, notice := s0.notice }

theorem freeClosed_frame (s0 : State) (f : Option (Fin 32)) (s : State) :
    s0.withWriter (freeClosed f s) = s0.withWriter s := by
  rcases freeClosed_cases f s with ⟨-, h⟩ | ⟨k, -, h⟩
  · rw [h]
  · rw [h, dirtyMark_eq]
    rfl

theorem withWriter_of_withRing {s0 s t : State} (h : s0.withRing t = s0.withRing s) :
    s0.withWriter t = s0.withWriter s := by
  have := congrArg s0.withWriter h
  exact this

theorem takeNotice_withWriter (s0 s : State) : s0.withWriter (takeNotice s) = s0.withWriter s := by
  have h := takeNotice_frame s
  generalize takeNotice s = t at h ⊢
  have := congrArg s0.withWriter h
  exact this

/-- A producer write changes the Notice Writer, the Incident Table and the Settle Timer alone (R146, R161, R163, R164). -/
theorem producerEvent_frame (s0 : State) (n : Notice) (s : State) :
    s0.withWriter (producerEvent n s) = s0.withWriter s := by
  rw [producerEvent, takeNotice_withWriter, withWriter_of_withRing (initWaiting_frame s0 _), freeClosed_frame]
  rfl

/-- What the end of an internal access can be (R163, R164, R166, R168, log entry 33). -/
theorem endingEvent_cases (e : Ending) (s : State) :
    endingEvent e s = s ∨
    (∃ n, e = .noticeWord ∧ s.notice = some n ∧ endingEvent e s = noticeWordEvent n s) ∨
    (∃ n, e = .producer ∧ s.notice = some n ∧ endingEvent e s = producerEvent n s) ∨
    (∃ r, e = .header r ∧ s.noticeRing = some r ∧ endingEvent e s = headerEvent s) ∨
    (∃ c, e = .censusWord ∧ s.census = some c ∧ endingEvent e s = censusWordEvent c s) ∨
    (∃ c, e = .censusDone ∧ s.census = some c ∧ endingEvent e s = censusDoneEvent c s) ∨
    (e = .censusCut ∧ endingEvent e s = censusCutEvent s) := by
  unfold endingEvent
  cases e with
  | noticeWord => cases s.notice <;> simp
  | producer => cases s.notice <;> simp
  | header r => by_cases h : s.noticeRing = some r <;> simp [h]
  | censusWord => cases s.census <;> simp
  | censusDone => cases s.census <;> simp
  | censusCut => simp

/-- The state `s` with what an internal access's event changes as it is in `s0`. -/
def State.withEnding (s0 s : State) : State := { s0.withWriter s with census := s0.census, status := s0.status }

theorem withEnding_of_withWriter {s0 s t : State} (h : s0.withWriter t = s0.withWriter s) :
    s0.withEnding t = s0.withEnding s :=
  (congrArg (fun u : State => { u with census := s0.census, status := s0.status }) h :)

/-- The event of an internal access changes the Notice Writer, the Incident Table, the Settle Timer, the census and the
command status alone (R163, R164, R166, R168). -/
theorem endingEvent_frame (s0 : State) (e : Ending) (s : State) :
    s0.withEnding (endingEvent e s) = s0.withEnding s := by
  rcases endingEvent_cases e s with h | ⟨n, -, -, h⟩ | ⟨n, -, -, h⟩ | ⟨r, -, -, h⟩ | ⟨c, -, -, h⟩ | ⟨c, -, -, h⟩ |
    ⟨-, h⟩
  · rw [h]
  · rw [h]; rfl
  · rw [h, withEnding_of_withWriter (producerEvent_frame s0 n s)]
  · rw [h, headerEvent, withEnding_of_withWriter (takeNotice_withWriter s0 _)]; rfl
  · rw [h]; rfl
  · rw [h]; rfl
  · rw [h]; rfl

/-- The end of the check pass changes the load, the part and the outcome, and applies the parameters (R178 to R181). -/
theorem checkReadEvent_frame (l : Load) (s : State) :
    { checkReadEvent l s with
      load := s.load, part := s.part, status := s.status, writeMarks := s.writeMarks, settings := s.settings
      storm := s.storm, time := s.time, entries := s.entries, nodes := s.nodes, settle := s.settle } = s := by
  unfold checkReadEvent
  dsimp only
  split
  · unfold checkEnd
    split
    · rfl
    · rw [parameterApply, markIf_eq]
  · rfl

/-- Of the counting chain a check read keeps the counts and the clock (R82, R91). -/
theorem checkReadEvent_time (l : Load) (s : State) :
    { (checkReadEvent l s).time with silenceDue := s.time.silenceDue } = s.time := by
  unfold checkReadEvent
  dsimp only
  split
  · unfold checkEnd
    split
    · rfl
    · exact parameterApply_time _ _
  · rfl

end Sys2Proof.Machine
end

