-- ==== Sys2Proof/Proofs/Reset.lean ====
section
/-! SUPPORT. Hardware reset (R192): what the assertion of RESET_N leaves, and the part at its release as one update of the
reset state. -/

namespace Sys2Proof.Machine

/-- The state that the assertion of RESET_N leaves, with what comes on the bus and from memory in it (R192). -/
def State.asserted (s : State) (during : List BusEvent) : State := during.foldl plainEvent (assertReset s)

/-- The part as it is reset, from the state that the assertion left: reset but for the queue, memory, the data last read,
the straps, the inputs and what is in progress at the bus (R192). -/
def State.resetAfter (straps : BitVec 8) (levels : Levels) (s : State) : State :=
  { State.reset with
    pending := s.pending
    mem := s.mem
    readData := s.readData
    straps
    inputs := { mainsFail := levels.mainsFail, maintAll := levels.maintAll, sample := levels, sampled := false }
    arb := { Arbiter.idle with ready := s.arb.ready, busy := s.arb.busy, held := s.arb.held
                               beatsLeft := s.arb.beatsLeft, plain := decide (s.arb.beatsLeft ≠ 0) } }

/-- The part at the release of RESET_N: the owned-word writer requests from there on, so a passing access in progress starts
the patience window (R189, R191, R192). -/
def State.atRelease (straps : BitVec 8) (levels : Levels) (s : State) : State :=
  { s.resetAfter straps levels with arb := { (s.resetAfter straps levels).arb with
      window := if s.arb.passing then some { left := 5, due := false, fresh := false } else none } }

theorem plainBeat_pending (b : Beat) (s : State) : (plainBeat b s).pending = s.pending := by
  unfold plainBeat effPassing
  split
  · rfl
  · rfl

theorem plainRelease_pending (s : State) : (plainRelease s).pending = s.pending := by
  unfold plainRelease
  split
  · exact plainBeat_pending _ s
  · rfl

theorem plainEvent_pending (s : State) (e : BusEvent) : (plainEvent s e).pending = s.pending := by
  rcases plainEvent_cases s e with ⟨b, -, ⟨-, h⟩ | ⟨-, -, h⟩ | ⟨-, -, h⟩⟩ | ⟨-, h⟩ | ⟨-, ⟨-, h⟩ | ⟨b, -, h⟩⟩
  · rw [h]
  · rw [h]
  · rw [h, plainBeat_pending]
  · rw [h]
  · rw [h]
  · rw [h, plainBeat_pending]

theorem asserted_pending (s : State) (during : List BusEvent) : (s.asserted during).pending = s.pending :=
  (foldl_keeps plainEvent_pending during _).trans (plainRelease_pending _)

theorem watchPatience_resetAfter (straps : BitVec 8) (levels : Levels) (s : State) :
    watchPatience (s.resetAfter straps levels) = s.atRelease straps levels := by
  have hp : (s.resetAfter straps levels).arb.passing = s.arb.passing := rfl
  have hw : (s.resetAfter straps levels).windowAfter (s.resetAfter straps levels) =
      some { left := 5, due := false, fresh := false } := rfl
  rw [watchPatience_eq, hp, hw, State.atRelease]
  cases s.arb.passing
  · rfl
  · rfl

/-- HARDWARE_RESET answers with the part at the release (R192). -/
theorem execHardwareReset_eq (straps : BitVec 8) (levels : Levels) (during : List BusEvent) (s : State) :
    execHardwareReset straps levels during s = .next ((s.asserted during).atRelease straps levels) := by
  rw [← watchPatience_resetAfter, State.resetAfter, asserted_pending]
  rfl

/-! ## What the assertion keeps -/

/-- Canonical memory and the ceiling of a burst's beats carry over (R186, R194). -/
def State.plainKept (s t : State) : Prop :=
  (Memory.wf s.mem = true → Memory.wf t.mem = true) ∧ (s.arb.beatsLeft ≤ 3 → t.arb.beatsLeft ≤ 3)

theorem beatsAfter_le (b : Beat) {s : State} (h : s.arb.beatsLeft ≤ 3) : s.beatsAfter b ≤ 3 := by
  unfold State.beatsAfter
  split
  · split <;> decide
  · omega

theorem effPassing_wf (b : Beat) {s : State} (h : Memory.wf s.mem = true) : Memory.wf (effPassing b s).mem = true := by
  unfold effPassing
  split
  · exact h
  · exact State.passBeat_wf b b.data h

theorem plainBeat_kept (b : Beat) (s : State) : s.plainKept (plainBeat b s) := ⟨effPassing_wf b, beatsAfter_le b⟩

theorem plainRelease_kept (s : State) : s.plainKept (plainRelease s) := by
  unfold plainRelease
  split
  · exact plainBeat_kept _ s
  · exact ⟨id, id⟩

theorem plainEvent_kept (s : State) (e : BusEvent) : s.plainKept (plainEvent s e) := by
  rcases plainEvent_cases s e with ⟨b, -, ⟨-, h⟩ | ⟨-, -, h⟩ | ⟨-, -, h⟩⟩ | ⟨-, h⟩ | ⟨-, ⟨-, h⟩ | ⟨b, -, h⟩⟩
  · rw [h]; exact ⟨id, id⟩
  · rw [h]; exact ⟨id, id⟩
  · rw [h]; exact plainBeat_kept b s
  · rw [h]; exact ⟨id, id⟩
  · rw [h]; exact ⟨id, id⟩
  · rw [h]; exact plainBeat_kept b { s with arb := { s.arb with ready := true, busy := none } }

theorem asserted_kept (s : State) (during : List BusEvent) : s.plainKept (s.asserted during) := by
  unfold State.asserted
  induction during using List.reverseRecOn with
  | nil => exact plainRelease_kept { s with arb := { s.arb with
      busy := if s.arb.busy = some .passing then some .passing else none, window := none, impatient := false } }
  | append_singleton before e ih =>
    rw [List.foldl_append, List.foldl_cons, List.foldl_nil]
    have h := plainEvent_kept (before.foldl plainEvent (assertReset s)) e
    exact ⟨h.1 ∘ ih.1, h.2 ∘ ih.2⟩

end Sys2Proof.Machine
end

