-- ==== Sys2Proof/Proofs/Forms.lean ====
section
/-! PROOF. The laws of form: record memory, the assembly marks and the ceilings (O3), change by change. -/

namespace Sys2Proof.Machine

/-! ## The three laws of form -/

/-- The three laws of form carry over from one state to the next, each by itself. -/
def State.formsKept (s t : State) : Prop :=
  (Memory.wf s.mem = true → Memory.wf t.mem = true) ∧ (s.intakeLaw → t.intakeLaw) ∧ (s.counterLaw → t.counterLaw)

/-- The fields that the laws of form read. -/
def State.forms (s : State) : List Host.Cell × List (Nat × Mark) × Option Ring × (Nat × Nat × Nat × Nat × Nat) ×
    (Nat × Nat × Nat) × Nat × Bool :=
  (s.mem, s.marks, s.intakeRing, (s.gauge, s.malformed, s.unknown, s.disturbed, s.clamped),
    (s.time.prescaler, s.time.divider, s.time.counter), s.arb.beatsLeft, s.arb.plain)

variable {s t : State}

theorem formsKept_trans {u : State} (h : s.formsKept t) (h' : t.formsKept u) : s.formsKept u :=
  ⟨h'.1 ∘ h.1, h'.2.1 ∘ h.2.1, h'.2.2 ∘ h.2.2⟩

/-- An event that touches none of the fields keeps the laws of form. -/
theorem formsKept_of_forms (h : t.forms = s.forms) : s.formsKept t := by
  simp only [State.forms, Prod.mk.injEq] at h
  obtain ⟨hm, hk, hr, ⟨hg, hx, hu, hd, hc⟩, ⟨hp, hv, ht⟩, hl, ha⟩ := h
  refine ⟨fun h => hm ▸ h, fun h => ?_, fun h => ?_⟩
  · unfold State.intakeLaw State.marksWf at h ⊢
    rwa [hk, hr]
  · unfold State.counterLaw at h ⊢
    rwa [hg, hx, hu, hd, hc, hp, hv, ht, hl, ha]

/-- An event that touches only the gauge of the fields keeps the laws of form if it keeps the gauge's ceiling (R94). -/
theorem formsKept_of_gauge (h : { t with gauge := s.gauge }.forms = s.forms) (hg : s.gauge ≤ 1023 → t.gauge ≤ 1023) :
    s.formsKept t := by
  obtain ⟨hm, hi, hc⟩ := formsKept_of_forms h
  refine ⟨hm, hi, fun h => ?_⟩
  obtain ⟨-, h'⟩ := hc h
  exact ⟨hg h.1, h'⟩

theorem withEnding_forms (s0 s : State) : (s0.withEnding s).forms = s.forms := rfl

/-! ## The gauge -/

theorem addFalls_gauge_le (n : Nat) (h : s.gauge ≤ 1023) : (addFalls n s).gauge ≤ 1023 := by
  rw [addFalls_eq]
  show (if n = 0 then s.gauge else min Config.gaugeMax (s.gauge + n)) ≤ 1023
  split
  · exact h
  · exact Nat.min_le_left _ _

theorem terminalEvent_gauge_le (k : Fin 512) (new : Entry) (h : s.gauge ≤ 1023) :
    (terminalEvent k new s).gauge ≤ 1023 := by
  rw [terminalEvent, markIf_eq]
  exact addFalls_gauge_le _ (by rwa [moveEntry_eq])

theorem silenceEvent_gauge_le (h : s.gauge ≤ 1023) : (silenceEvent s).gauge ≤ 1023 := by
  rw [silenceEvent, markIf_eq]
  exact addFalls_gauge_le _ h

theorem leakEvent_gauge_le (h : s.gauge ≤ 1023) : (leakEvent s).gauge ≤ 1023 := by
  rw [leakEvent, markIf_eq, setGauge_eq]
  show s.gauge - s.par.stormLeak ≤ 1023
  omega

/-! ## What passing beats do -/

theorem bumpCounter_le (n : Nat) : bumpCounter n ≤ 255 := Nat.min_le_left _ _

theorem softReset_counterLaw (h : s.counterLaw) : (softReset s).counterLaw := by
  obtain ⟨-, -, -, -, hc, -, -, -, hl, hp⟩ := h
  exact ⟨Nat.zero_le _, Nat.zero_le _, Nat.zero_le _, Nat.zero_le _, hc, Nat.zero_le _, Nat.zero_le _, Nat.zero_le _, hl,
    hp⟩

/-- Every change of a passing beat keeps the laws of form. -/
theorem Move.formsKept (h : Move s t) : s.formsKept t := by
  cases h with
  | pass b w => exact ⟨State.passBeat_wf b w, id, id⟩
  | read w => exact formsKept_of_forms rfl
  | mark b m => exact ⟨id, fun h => ⟨putMark_wf h b m, h.2⟩, id⟩
  | malformed => exact ⟨id, id, fun h => ⟨h.1, bumpCounter_le _, h.2.2⟩⟩
  | unknown => exact ⟨id, id, fun h => ⟨h.1, h.2.1, bumpCounter_le _, h.2.2.2⟩⟩
  | terminal k new hp hn =>
    have hf := terminalEvent_frame k new s
    have hg := terminalEvent_gauge_le (s := s) k new
    generalize terminalEvent k new s = u at hf hg ⊢
    exact formsKept_of_gauge (congrArg State.forms hf :) hg
  | trunk down => rw [markIf_eq]; exact formsKept_of_forms rfl
  | latch l => exact formsKept_of_forms rfl
  | record tag o d => exact formsKept_of_forms rfl
  | edit tag h => exact formsKept_of_forms rfl
  | commit tag h => exact formsKept_of_forms rfl
  | cut c h => exact formsKept_of_forms rfl
  | leave h => exact formsKept_of_forms rfl
  | clock w => exact formsKept_of_forms rfl
  | forget k hp => rw [forgetTerminal, dirtyMark_eq, moveEntry_eq]; exact formsKept_of_forms rfl
  | maint made block mask polarity h => rw [markIf_eq]; exact formsKept_of_forms rfl
  | census c h hw => exact formsKept_of_forms rfl
  | reset => exact ⟨id, fun h => ⟨rfl, h.2⟩, softReset_counterLaw⟩
  | take =>
    have hf := takeNotice_frame s
    generalize takeNotice s = u at hf ⊢
    exact formsKept_of_forms (congrArg State.forms hf :)
  | disturb => exact formsKept_of_forms rfl
  | consume r v hr h => exact formsKept_of_forms rfl
  | fault => exact formsKept_of_forms rfl

/-! ## What the other commands do -/

/-- A beat counted leaves at most three to come, and some to come of a burst carried through a reset (R186, R192). -/
theorem afterBeat_counterLaw (b : Beat) (h : s.counterLaw) : State.counterLaw { s with arb := s.arb.afterBeat b } := by
  obtain ⟨hg, hx, hu, hd, hc, hp, hv, ht, hl, -⟩ := h
  exact ⟨hg, hx, hu, hd, hc, hp, hv, ht, beatsAfter_le b hl,
    fun hplain => of_decide_eq_true (Bool.and_eq_true_iff.mp hplain).2⟩

theorem land_formsKept (w : Option Store) (s : State) : s.formsKept (land w s) := by
  cases w with
  | none => exact formsKept_of_forms rfl
  | some w => exact ⟨State.store_wf w.addr w.word, id, id⟩

/-- A COMMIT completion before its take keeps the laws of form (R19, R183). -/
theorem completionBeforeTake_formsKept (l : Load) (s : State) : s.formsKept (completionBeforeTake l s) := by
  have hf := completionBeforeTake_frame l s
  have hmarks := completionBeforeTake_marks l s
  have hring := completionBeforeTake_intakeRing l s
  have hd : (completionBeforeTake l s).disturbed =
      if 0 < l.disturbances then min 255 (s.disturbed + 1) else s.disturbed := by rw [completionBeforeTake_eq]
  have hc : (completionBeforeTake l s).clamped = min 255 l.clamps := by rw [completionBeforeTake_eq]
  generalize completionBeforeTake l s = u at *
  obtain ⟨hmem, -, hcount⟩ := formsKept_of_forms (congrArg State.forms hf)
  refine ⟨hmem, fun h => ⟨?_, fun r hr => ?_⟩, fun h => ?_⟩
  · rw [State.marksWf, hmarks]
    split
    · exact h.1
    · rfl
  · obtain rfl := Option.some.inj (hring.symm.trans hr)
    exact intake_count_le l
  · obtain ⟨hg, hx, hu, hds, -, hrest⟩ := hcount h
    refine ⟨hg, hx, hu, ?_, hc ▸ Nat.min_le_left _ _, hrest⟩
    rw [hd]
    split
    · exact Nat.min_le_left _ _
    · exact hds

/-- A run of REFCLK changes the patience window and the impatience alone (R191). -/
theorem runPatience_frame (n : Nat) (s : State) :
    { runPatience n s with arb := { (runPatience n s).arb with
        window := s.arb.window, impatient := s.arb.impatient } } = s := by
  unfold runPatience
  split
  · rfl
  · next w _ =>
    generalize (if w.fresh = true then n - 1 else n) = count
    dsimp only
    split
    · rfl
    · split
      · rfl
      · split
        · rfl
        · rfl

/-- A millisecond carry takes the counter past 1023 to 0 (R82). -/
theorem millisecondEvent_formsKept (s : State) : s.formsKept (millisecondEvent s) := by
  rw [millisecondEvent, countWindows_eq]
  refine ⟨id, id, fun ⟨hg, hx, hu, hd, hc, hp, hv, _, hl⟩ => ⟨hg, hx, hu, hd, hc, hp, hv, ?_, hl⟩⟩
  show (s.time.counter + 1) % 1024 ≤ 1023
  omega

/-- The prescaler and the divider return to 0 as they carry (R81). -/
theorem microsecondEvent_formsKept (levels : Levels) (s : State) : s.formsKept (microsecondEvent levels s) := by
  rw [microsecondEvent, countPatience_eq]
  dsimp only
  split
  · refine formsKept_trans ?_ (millisecondEvent_formsKept _)
    exact ⟨id, id, fun ⟨hg, hx, hu, hd, hc, _, _, h⟩ => ⟨hg, hx, hu, hd, hc, Nat.zero_le _, Nat.zero_le _, h⟩⟩
  · next hv =>
    refine ⟨id, id, fun ⟨hg, hx, hu, hd, hc, _, _, h⟩ => ⟨hg, hx, hu, hd, hc, Nat.zero_le _, ?_, h⟩⟩
    show s.time.divider + 1 ≤ 999
    omega

/-- Every change of a command keeps the laws of form. -/
theorem Change.formsKept {c : Instr} {s0 : State} (h : Change c s0 s t) : s.formsKept t := by
  cases h with
  | move h => exact h.formsKept
  | path h hl hp =>
    refine formsKept_of_forms ?_
    rw [State.forms, hl, hp, h]
    rfl
  | counted b => exact ⟨id, id, afterBeat_counterLaw b⟩
  | land w => exact land_formsKept w s
  | ending e h =>
    exact formsKept_of_forms (by simpa only [withEnding_forms] using congrArg State.forms (endingEvent_frame s e s))
  | mainsFail => rw [dirtyMark_eq]; exact formsKept_of_forms rfl
  | maintAll => rw [dirtyMark_eq]; exact formsKept_of_forms rfl
  | silence h =>
    have hf := silenceEvent_frame { s with time.silenceDue := false }
    have hg := silenceEvent_gauge_le (s := { s with time.silenceDue := false })
    generalize silenceEvent _ = u at hf hg ⊢
    exact formsKept_of_gauge (congrArg State.forms hf :) hg
  | leak h =>
    have hf := leakEvent_frame { s with time.leakDue := false }
    have hg := leakEvent_gauge_le (s := { s with time.leakDue := false })
    generalize leakEvent _ = u at hf hg ⊢
    exact formsKept_of_gauge (congrArg State.forms hf :) hg
  | settle h => exact formsKept_of_forms rfl
  | merged h => exact formsKept_of_forms rfl
  | reading h hp => exact formsKept_of_forms rfl
  | matching causes h =>
    have hf := matchingEvent_frame causes s
    generalize matchingEvent causes s = u at hf ⊢
    exact formsKept_of_forms (congrArg State.forms hf :)
  | attack k i h =>
    have hf := attackEvent_frame k i s
    generalize attackEvent k i s = u at hf ⊢
    exact formsKept_of_forms (congrArg State.forms hf :)
  | release k i h =>
    have hf := releaseEvent_frame k i s
    generalize releaseEvent k i s = u at hf ⊢
    exact formsKept_of_forms (congrArg State.forms hf :)
  | limitEnds h => exact formsKept_of_forms rfl
  | checkRead l hc hl ha =>
    have hf := checkReadEvent_frame l s
    have ht := checkReadEvent_time l s
    generalize checkReadEvent l s = u at hf ht ⊢
    have hf' := (congrArg State.forms hf :)
    have hp : u.time.prescaler = s.time.prescaler := (congrArg Timebase.prescaler ht :)
    have hd : u.time.divider = s.time.divider := (congrArg Timebase.divider ht :)
    have hk : u.time.counter = s.time.counter := (congrArg Timebase.counter ht :)
    refine formsKept_of_forms ?_
    rw [State.forms, hp, hd, hk]
    exact hf'
  | terminalWord l hc hl ha => exact formsKept_of_forms rfl
  | completion l hc hl ha hn =>
    rw [completionEvent_eq]
    exact formsKept_trans (completionBeforeTake_formsKept l s) (Move.take _).formsKept
  | cycle => exact ⟨id, id, fun ⟨hg, hx, hu, hd, hc, _, h⟩ => ⟨hg, hx, hu, hd, hc, Nat.le_refl _, h⟩⟩
  | microsecond levels h => exact microsecondEvent_formsKept levels s
  | millisecond =>
    refine formsKept_trans ?_ (millisecondEvent_formsKept _)
    have hf := runPatience_frame (1000 - s.time.divider) s
    generalize runPatience (1000 - s.time.divider) s = u at hf ⊢
    obtain ⟨hm, hi, hcount⟩ := formsKept_of_forms (congrArg State.forms hf :)
    refine ⟨hm, hi, fun h => ?_⟩
    obtain ⟨hg, hx, hu, hd, hc, -, -, hk, hl⟩ := hcount h
    exact ⟨hg, hx, hu, hd, hc, Nat.zero_le _, Nat.zero_le _, hk, hl⟩

/-! ## Every command -/

/-- HARDWARE_RESET leaves canonical memory, no mark and no ring, and every count at 0 but a burst's beats (R192). -/
theorem atRelease_formsKept (straps : BitVec 8) (levels : Levels) (during : List BusEvent) (s : State) :
    s.formsKept ((s.asserted during).atRelease straps levels) := by
  obtain ⟨hmem, hbeats⟩ := asserted_kept s during
  generalize s.asserted during = u at hmem hbeats ⊢
  refine ⟨hmem, fun _ => ⟨rfl, fun _ hr => nomatch hr⟩, fun h => ?_⟩
  obtain ⟨-, -, -, -, -, -, -, -, hl, -⟩ := h
  exact ⟨Nat.zero_le _, Nat.zero_le _, Nat.zero_le _, Nat.zero_le _, Nat.zero_le _, Nat.zero_le _, Nat.zero_le _,
    Nat.zero_le _, hbeats hl, of_decide_eq_true⟩

theorem exec_formsKept {c : Instr} (h : exec c s = .next t) : s.formsKept t := by
  by_cases hc : ∃ p l d, c = .hardwareReset p l d
  · obtain ⟨p, l, d, rfl⟩ := hc
    obtain rfl := Host.Outcome.next.inj ((execHardwareReset_eq p l d s).symm.trans h)
    exact atRelease_formsKept p l d s
  · exact exec_keeps (P := s.formsKept) (fun p l d hpld => hc ⟨p, l, d, hpld⟩) h
      (fun a b hab hs => formsKept_trans hs hab.formsKept) ⟨id, id, id⟩

/-- Settles O3: a step is one command, whose every change keeps the laws, or one REFCLK cycle below 24. -/
theorem stepKeepsFormsAndCeilings : Obligations.StepKeepsFormsAndCeilings := by
  intro s t h
  rcases step_cases h with ⟨c, h⟩ | ⟨c, rest, h⟩ | ⟨hp, rfl⟩
  · exact exec_formsKept h
  · exact formsKept_trans (t := { s with pending := rest }) (formsKept_of_forms rfl) (exec_formsKept h)
  · exact ⟨id, id, fun ⟨hg, hx, hu, hd, hc, _, h⟩ => ⟨hg, hx, hu, hd, hc, hp, h⟩⟩

end Sys2Proof.Machine
end

