-- ==== Sys2Proof/Proofs/Setup.lean ====
section
/-! PROOF. Straps, settings, regions in use, tree structure and provisioning change at their own commands alone (O11). -/

namespace Sys2Proof.Machine

/-! ## The shape of a node and the place of a terminal -/

/-- What a node word fixes of a node (R71). -/
def Node.shape (n : Node) : Bool × Tree × Option (Fin 128) × Byte × Nat := (n.enabled, n.tree, n.parent, n.tag, n.depth)

/-- What a terminal word fixes of an entry (R42). -/
def Entry.place (e : Entry) : Bool × Fin 128 × Fin 128 := (e.provisioned, e.fibreParent, e.powerParent)

/-- The shapes of a node table. -/
def shapes (v : Vector Node 128) (i : Fin 128) : Bool × Tree × Option (Fin 128) × Byte × Nat := v[i].shape

/-- The places of an entry table. -/
def places (v : Vector Entry 512) (k : Fin 512) : Bool × Fin 128 × Fin 128 := v[k].place

theorem shapes_mapTable {f : Nat → Node → Node} (h : ∀ i n, (f i n).shape = n.shape) (v : Vector Node 128) :
    shapes (mapTable f v) = shapes v := by
  funext i
  rw [shapes, mapTable_getElem_fin, h]
  rfl

theorem places_mapTable {f : Nat → Entry → Entry} (h : ∀ i e, (f i e).place = e.place) (v : Vector Entry 512) :
    places (mapTable f v) = places v := by
  funext k
  rw [places, mapTable_getElem_fin, h]
  rfl

theorem places_set {v : Vector Entry 512} {k : Fin 512} {e : Entry} (h : e.place = v[k].place) :
    places (v.set k e) = places v := by
  funext j
  rw [places, set_getElem_fin]
  split
  · next hkj => rw [h, hkj]; rfl
  · rfl

theorem adjustNode_shape (old new : Entry) (n : Node) : (adjustNode old new n).shape = n.shape := by
  unfold adjustNode
  split
  · rfl
  · rfl

theorem adjustNodes_shapes (old new : Entry) (v : Vector Node 128) : shapes (adjustNodes old new v) = shapes v := by
  unfold adjustNodes
  split
  · refine shapes_mapTable (fun i n => ?_) v
    rw [apply_ite Node.shape, adjustNode_shape, ite_self]
  · rfl

theorem adjustAll_shapes (pairs : List (Entry × Entry)) (v : Vector Node 128) :
    shapes (adjustAll v pairs) = shapes v := by
  induction pairs generalizing v with
  | nil => rfl
  | cons p rest ih => exact (ih _).trans (adjustNodes_shapes p.1 p.2 v)

theorem maintNodes_shapes (block : Nat) (mask : Half) (polarity : Bool) (v : Vector Node 128) :
    shapes (maintNodes block mask polarity v) = shapes v := by
  refine shapes_mapTable (fun i n => ?_) v
  unfold maintMark
  split
  · rfl
  · rfl

theorem struckNodes_shapes (s : State) : shapes s.struckNodes = shapes s.nodes := by
  refine shapes_mapTable (fun i n => ?_) s.nodes
  unfold State.struckNode
  split
  · rfl
  · rfl

theorem recountNodes_shapes (v : Vector Node 128) (entries : Vector Entry 512) :
    shapes (recountNodes v entries) = shapes v := by
  refine shapes_mapTable (fun i n => ?_) v
  rfl

theorem rebuiltNodes_shapes (s : State) : shapes s.rebuiltNodes = shapes s.nodes := by
  refine (shapes_mapTable (fun i n => ?_) _).trans (recountNodes_shapes s.nodes s.entries)
  unfold clearDisabled
  split
  · rfl
  · rfl

/-! ## Evidence keeps the place of a terminal -/

theorem fall_place (e : Entry) : e.fall.place = e.place := by
  unfold Entry.fall
  split
  · rfl
  · rfl
  · rfl

theorem filterStatus_place (p : Settings) (e : Entry) (power : Int) : (e.filterStatus p power).place = e.place := by
  unfold Entry.filterStatus
  split
  · rfl
  · split
    · rfl
    · rfl

theorem filterLink_place (p : Settings) (e : Entry) (power : Int) : (e.filterLink p power).place = e.place := by
  unfold Entry.filterLink
  split
  · rfl
  · rfl

theorem missed_place (p : Settings) (e : Entry) (round : Byte) : (e.missed p round).place = e.place := by
  unfold Entry.missed
  dsimp only
  split
  · split
    · exact fall_place _
    · rfl
  · rfl

theorem gasped_place (e : Entry) : e.gasped.place = e.place := by
  unfold Entry.gasped
  split
  · rfl
  · rfl
  · rfl
  · rfl
  · rfl

theorem silent_place (limit : Nat) (e : Entry) : (e.silent limit).place = e.place := by
  unfold Entry.silent
  split
  · dsimp only
    split
    · exact fall_place _
    · rfl
  · rfl

theorem Evidence.place {p : Settings} {e new : Entry} (h : Evidence p e new) : new.place = e.place := by
  cases h with
  | repeated => rfl
  | status round power => exact filterStatus_place p _ power
  | linked power => exact filterLink_place p _ power
  | missed round => exact missed_place p e round
  | gasped => exact gasped_place e

/-! ## The Incident Table keeps the places -/

theorem freeSlot_places (k : Fin 32) (s : State) : places (freeSlot k s).entries = places s.entries := by
  refine places_mapTable (fun i e => ?_) s.entries
  split
  · rfl
  · rfl

theorem closeIncident_places (k : Fin 32) (r : CloseReason) (n : Nat) (i : Incident) (s : State) :
    places (closeIncident k r n i s).entries = places s.entries := by
  rcases closeIncident_cases k r n i s with ⟨-, h⟩ | ⟨-, h⟩
  · rw [h]; rfl
  · rw [h, freeSlot_places]

theorem absorbAll_places (k : Fin 32) (i : Incident) (s : State) :
    places (absorbAll k i s).entries = places s.entries := by
  refine foldl_keeps (g := fun s => places s.entries) (fun s j => ?_) _ s
  rcases absorbSlot_cases k i s j with h | ⟨other, -, -, h⟩
  · rw [h]
  · rw [h, closeIncident_places]

theorem matchSlot_places (causes : List Cause) (s : State) (k : Fin 32) :
    places (matchSlot causes s k).entries = places s.entries := by
  rcases matchSlot_cases causes s k with h | ⟨i, -, -, -, ⟨c, -, -, h⟩ | ⟨-, ⟨-, h⟩ | ⟨-, h⟩⟩⟩
  · rw [h]
  · rw [h]; rfl
  · rw [h, freeSlot_places]
  · rw [h]; rfl

theorem absorbRecurred_places (s : State) (k : Fin 32) :
    places (absorbRecurred s k).entries = places s.entries := by
  unfold absorbRecurred
  split
  · rfl
  · split
    · rw [absorbAll_places]
    · rfl

theorem matchAll_places (causes : List Cause) (s : State) : places (matchAll causes s).entries = places s.entries := by
  rw [matchAll, foldl_keeps (g := fun s => places s.entries) absorbRecurred_places,
    foldl_keeps (g := fun s => places s.entries) (matchSlot_places causes)]

theorem placeCauses_entries (causes : List Cause) (s : State) : (placeCauses causes s).1.entries = s.entries := by
  induction causes generalizing s with
  | nil => rfl
  | cons c rest ih =>
    unfold placeCauses
    split
    · exact ih s
    · split
      · rw [ih]; rfl
      · exact ih s

theorem residueRecount_places (u : Unplaced) (s : State) :
    places (residueRecount u s).entries = places s.entries := by
  rcases residueRecount_cases u s with h | ⟨-, -, h⟩ | ⟨i, -, -, ⟨-, h⟩ | ⟨-, h⟩⟩
  · rw [h]
  · rw [h]; rfl
  · rw [h, closeIncident_places]
  · rw [h]; rfl

theorem rewriteCovering_places (s : State) : places (rewriteCovering s).entries = places s.entries := by
  refine places_mapTable (fun i e => ?_) s.entries
  rfl

theorem coverAtOpening_places (k : Fin 32) (i : Incident) (s : State) :
    places (coverAtOpening k i s).entries = places s.entries := by
  refine places_mapTable (fun i e => ?_) s.entries
  rfl

theorem matchingEvent_places (causes : List Cause) (s : State) :
    places (matchingEvent causes s).entries = places s.entries := by
  simp only [matchingEvent, evaluateAll]
  rw [rewriteCovering_places, residueRecount_places, placeCauses_entries, matchAll_places]

theorem attackEvent_places (k : Fin 32) (i : Incident) (s : State) :
    places (attackEvent k i s).entries = places s.entries := by
  simp only [attackEvent, markIf_eq]
  rw [coverAtOpening_places, absorbAll_places]
  rfl

theorem releaseEvent_places (k : Fin 32) (i : Incident) (s : State) :
    places (releaseEvent k i s).entries = places s.entries := by
  rw [releaseEvent, markIf_eq]
  exact closeIncident_places k .cleared 0 i s

theorem closeGone_places (s : State) : places (closeGone s).entries = places s.entries := by
  rw [closeGone_eq]
  refine foldl_keeps (g := fun s => places s.entries) (fun s k => ?_) _ s
  unfold reconfigureSlot
  split
  · rfl
  · split
    · rw [closeIncident_places]
    · rfl

theorem freeClosed_places (f : Option (Fin 32)) (s : State) :
    places (freeClosed f s).entries = places s.entries := by
  rcases freeClosed_cases f s with ⟨-, h⟩ | ⟨k, -, h⟩
  · rw [h]
  · rw [h, dirtyMark_eq]
    exact freeSlot_places k s

theorem takeNotice_entries (s : State) : (takeNotice s).entries = s.entries :=
  (congrArg State.entries (takeNotice_frame s) :)

theorem initWaiting_entries (s : State) : (initWaiting s).entries = s.entries :=
  (congrArg State.entries (initWaiting_frame s s) :)

theorem endingEvent_places (e : Ending) (s : State) : places (endingEvent e s).entries = places s.entries := by
  rcases endingEvent_cases e s with h | ⟨n, -, -, h⟩ | ⟨n, -, -, h⟩ | ⟨r, -, -, h⟩ | ⟨c, -, -, h⟩ | ⟨c, -, -, h⟩ |
    ⟨-, h⟩
  · rw [h]
  · rw [h]; rfl
  · rw [h, producerEvent, takeNotice_entries, initWaiting_entries, freeClosed_places]
  · rw [h, headerEvent, takeNotice_entries]
  · rw [h]; rfl
  · rw [h]; rfl
  · rw [h]; rfl

/-! ## What every change keeps of the setup -/

/-- The setup in use: straps, regions, settings, the nodes' shapes and the terminals' places. -/
def State.setup (s : State) : BitVec 8 × Option Ring × Option Nat × Option Ring × Option Settings ×
    (Fin 128 → Bool × Tree × Option (Fin 128) × Byte × Nat) × (Fin 512 → Bool × Fin 128 × Fin 128) :=
  (s.straps, s.intakeRing, s.censusBase, s.noticeRing, s.settings, shapes s.nodes, places s.entries)

/-- Which parts of the setup a command `c`, run on `s0`, leaves as they are. -/
structure SetupKept (c : Instr) (s0 s t : State) : Prop where
  straps : t.straps = s.straps
  settings : c ≠ .loaderCheckRead → t.settings = s.settings
  shapes : c ≠ .loaderCheckRead → shapes t.nodes = shapes s.nodes
  places : c ≠ .terminalWordApply → places t.entries = places s.entries
  intakeRing : c ≠ .commitCompletion → t.intakeRing = s.intakeRing
  censusBase : c ≠ .commitCompletion → t.censusBase = s.censusBase
  noticeRing : c ≠ .commitCompletion → c ≠ .producerWrite →
    (∀ w, s0.arb.busy ≠ some (.internal w (some .producer))) → t.noticeRing = s.noticeRing

variable {c : Instr} {s0 s t : State}

theorem SetupKept.trans {u : State} (h : SetupKept c s0 s t) (h' : SetupKept c s0 t u) : SetupKept c s0 s u where
  straps := h'.straps.trans h.straps
  settings hc := (h'.settings hc).trans (h.settings hc)
  shapes hc := (h'.shapes hc).trans (h.shapes hc)
  places hc := (h'.places hc).trans (h.places hc)
  intakeRing hc := (h'.intakeRing hc).trans (h.intakeRing hc)
  censusBase hc := (h'.censusBase hc).trans (h.censusBase hc)
  noticeRing hc hp hb := (h'.noticeRing hc hp hb).trans (h.noticeRing hc hp hb)

/-- An event that keeps the whole setup. -/
theorem SetupKept.of_setup (h : t.setup = s.setup) : SetupKept c s0 s t := by
  simp only [State.setup, Prod.mk.injEq] at h
  obtain ⟨hs, hi, hb, hn, hp, hv, he⟩ := h
  exact ⟨hs, fun _ => hp, fun _ => hv, fun _ => he, fun _ => hi, fun _ => hb, fun _ _ _ => hn⟩

/-- An event away from the tables' shapes and places: its frame gives the rest of the setup. -/
theorem SetupKept.of_tables (h : { t with nodes := s.nodes, entries := s.entries }.setup = s.setup)
    (hn : Machine.shapes t.nodes = Machine.shapes s.nodes) (he : Machine.places t.entries = Machine.places s.entries) :
    SetupKept c s0 s t := by
  obtain ⟨hs, hp, -, -, hi, hb, hr⟩ := SetupKept.of_setup (c := c) (s0 := s0) h
  exact ⟨hs, hp, fun _ => hn, fun _ => he, hi, hb, hr⟩

/-- An event away from the entries' places: its frame gives the rest of the setup. -/
theorem SetupKept.of_entries (h : { t with entries := s.entries }.setup = s.setup)
    (he : Machine.places t.entries = Machine.places s.entries) : SetupKept c s0 s t := by
  obtain ⟨hs, hp, hv, -, hi, hb, hr⟩ := SetupKept.of_setup (c := c) (s0 := s0) h
  exact ⟨hs, hp, hv, fun _ => he, hi, hb, hr⟩

theorem terminalEvent_nodes (k : Fin 512) (new : Entry) (s : State) :
    shapes (terminalEvent k new s).nodes = shapes s.nodes := by
  rw [terminalEvent, markIf_eq, terminalChange, addFalls_eq, moveEntry_eq]
  dsimp only
  split
  · rfl
  · exact adjustNodes_shapes _ _ _

theorem terminalEvent_entries (k : Fin 512) (new : Entry) (s : State) :
    (terminalEvent k new s).entries = s.entries.set k new := by
  rw [terminalEvent, markIf_eq, terminalChange, addFalls_eq, moveEntry_eq]

theorem Move.setupKept (h : Move s t) : SetupKept c s0 s t := by
  cases h with
  | pass b w => exact .of_setup rfl
  | read w => exact .of_setup rfl
  | mark b m => exact .of_setup rfl
  | malformed => exact .of_setup rfl
  | unknown => exact .of_setup rfl
  | terminal k new hp hn =>
    have hf := terminalEvent_frame k new s
    have hv := terminalEvent_nodes k new s
    have he := (congrArg places (terminalEvent_entries k new s)).trans (places_set hn.place)
    generalize terminalEvent k new s = u at hf hv he ⊢
    exact .of_tables (congrArg State.setup hf :) hv he
  | trunk down => rw [markIf_eq]; exact .of_setup rfl
  | latch l => exact .of_setup rfl
  | record tag o d => exact .of_setup rfl
  | edit tag h => exact .of_setup rfl
  | commit tag h => exact .of_setup rfl
  | cut c h => exact .of_setup rfl
  | leave h => exact .of_setup rfl
  | clock w => exact .of_setup rfl
  | forget k hp =>
    rw [forgetTerminal, dirtyMark_eq, moveEntry_eq]
    refine .of_tables rfl ?_ (places_set rfl)
    dsimp only
    split
    · rfl
    · exact adjustNodes_shapes _ _ _
  | maint made block mask polarity h =>
    rw [markIf_eq]
    exact .of_tables rfl (maintNodes_shapes block mask polarity s.nodes) rfl
  | census c h hw => exact .of_setup rfl
  | reset =>
    refine .of_tables rfl (shapes_mapTable (fun i n => ?_) s.nodes) (places_mapTable (fun i e => ?_) s.entries)
    · rfl
    · rfl
  | take =>
    have hf := takeNotice_frame s
    generalize takeNotice s = u at hf ⊢
    exact .of_setup (congrArg State.setup hf :)
  | disturb => exact .of_setup rfl
  | consume r v hr h => exact .of_setup rfl
  | fault => exact .of_setup rfl

/-! ## Every command -/

theorem silenceEvent_shapes (s : State) : shapes (silenceEvent s).nodes = shapes s.nodes := by
  rw [silenceEvent, markIf_eq, addFalls_eq]
  dsimp only
  split
  · rfl
  · exact adjustAll_shapes _ s.nodes

theorem silenceEvent_places (s : State) : places (silenceEvent s).entries = places s.entries := by
  rw [silenceEvent, markIf_eq, addFalls_eq]
  refine places_mapTable (fun i e => ?_) s.entries
  exact silent_place s.par.silenceLimit e

/-- The loader's reads leave the places; a silence counter is all that the parameter apply changes in an entry (R41). -/
theorem checkReadEvent_places (l : Load) (s : State) : places (checkReadEvent l s).entries = places s.entries := by
  have hlimited (limit : Nat) : places (mapTable (fun _ e => Entry.limited limit e) s.entries) = places s.entries := by
    refine places_mapTable (fun i e => ?_) s.entries
    unfold Entry.limited
    split
    · rfl
    · rfl
  unfold checkReadEvent
  dsimp only
  split
  · unfold checkEnd
    split
    · rfl
    · rw [parameterApply, markIf_eq]
      exact hlimited _
  · rfl

theorem completionBeforeTake_shapes (l : Load) (s : State) :
    shapes (completionBeforeTake l s).nodes = shapes s.nodes := by
  have h : (closeGone { s with nodes := s.rebuiltNodes }).nodes = s.rebuiltNodes :=
    (congrArg State.nodes (closeGone_frame s { s with nodes := s.rebuiltNodes }) :)
  rw [completionBeforeTake_eq]
  dsimp only
  rw [applyNoticeRing_nodes, takeRegions_nodes, completionClosed, h, rebuiltNodes_shapes]

theorem completionBeforeTake_places (l : Load) (s : State) :
    places (completionBeforeTake l s).entries = places s.entries := by
  rw [completionBeforeTake_eq]
  dsimp only
  rw [applyNoticeRing_entries, takeRegions_entries, completionClosed, closeGone_places]

/-- A ring comes into use as a notice ends at the producer write, and at no other access (R164). -/
theorem endingEvent_noticeRing {e : Ending} (he : e ≠ .producer) (s : State) :
    (endingEvent e s).noticeRing = s.noticeRing := by
  rcases endingEvent_cases e s with h | ⟨n, -, -, h⟩ | ⟨n, hp, -, -⟩ | ⟨r, -, -, h⟩ | ⟨c, -, -, h⟩ | ⟨c, -, -, h⟩ |
    ⟨-, h⟩
  · rw [h]
  · rw [h]; rfl
  · exact absurd hp he
  · rw [h, headerEvent]
    exact (congrArg State.noticeRing (takeNotice_frame { s with headerDue := false }) :)
  · rw [h]; rfl
  · rw [h]; rfl
  · rw [h]; rfl

/-- The setup but for the notice ring and the places. -/
def State.fixedSetup (s : State) : BitVec 8 × Option Ring × Option Nat × Option Settings ×
    (Fin 128 → Bool × Tree × Option (Fin 128) × Byte × Nat) :=
  (s.straps, s.intakeRing, s.censusBase, s.settings, shapes s.nodes)

theorem withEnding_fixedSetup (s0 s : State) : (s0.withEnding s).fixedSetup = s.fixedSetup := rfl

theorem endingEvent_fixedSetup (e : Ending) (s : State) : (endingEvent e s).fixedSetup = s.fixedSetup := by
  simpa only [withEnding_fixedSetup] using congrArg State.fixedSetup (endingEvent_frame s e s)

/-- Every change of a command leaves the parts of the setup that are not the command's own. -/
theorem Change.setupKept (h : Change c s0 s t) : SetupKept c s0 s t := by
  cases h with
  | move h => exact h.setupKept
  | path h hl hp => rw [h]; exact .of_setup rfl
  | counted b => exact .of_setup rfl
  | land w => cases w <;> exact .of_setup rfl
  | ending e h =>
    have hf := endingEvent_fixedSetup e s
    have hn := fun he => endingEvent_noticeRing (e := e) he s
    have he := endingEvent_places e s
    generalize endingEvent e s = u at hf hn he ⊢
    simp only [State.fixedSetup, Prod.mk.injEq] at hf
    obtain ⟨hs, hi, hb, hp, hv⟩ := hf
    refine ⟨hs, fun _ => hp, fun _ => hv, fun _ => he, fun _ => hi, fun _ => hb, fun _ hc hbusy => hn ?_⟩
    rintro rfl
    rcases h with h | ⟨w, h⟩
    · exact hc h
    · exact hbusy w h
  | mainsFail => rw [dirtyMark_eq]; exact .of_setup rfl
  | maintAll => rw [dirtyMark_eq]; exact .of_setup rfl
  | silence h =>
    have hf := silenceEvent_frame { s with time.silenceDue := false }
    have hv := silenceEvent_shapes { s with time.silenceDue := false }
    have he := silenceEvent_places { s with time.silenceDue := false }
    generalize silenceEvent _ = u at hf hv he ⊢
    exact .of_tables (congrArg State.setup hf :) hv he
  | leak h =>
    have hf := leakEvent_frame { s with time.leakDue := false }
    generalize leakEvent _ = u at hf ⊢
    exact .of_setup (congrArg State.setup hf :)
  | settle h => exact .of_setup rfl
  | merged h => exact .of_setup rfl
  | reading h hp => exact .of_tables rfl (struckNodes_shapes s) rfl
  | matching causes h =>
    have hf := matchingEvent_frame causes s
    have he := matchingEvent_places causes s
    generalize matchingEvent causes s = u at hf he ⊢
    exact .of_entries (congrArg State.setup hf :) he
  | attack k i h =>
    have hf := attackEvent_frame k i s
    have he := attackEvent_places k i s
    generalize attackEvent k i s = u at hf he ⊢
    exact .of_entries (congrArg State.setup hf :) he
  | release k i h =>
    have hf := releaseEvent_frame k i s
    have he := releaseEvent_places k i s
    generalize releaseEvent k i s = u at hf he ⊢
    exact .of_entries (congrArg State.setup hf :) he
  | limitEnds h => exact .of_setup rfl
  | checkRead l hc hl ha =>
    have hf := checkReadEvent_frame l s
    have he := checkReadEvent_places l s
    generalize checkReadEvent l s = u at hf he ⊢
    exact ⟨(congrArg State.straps hf :), fun h => absurd hc h, fun h => absurd hc h, fun _ => he,
      fun _ => (congrArg State.intakeRing hf :), fun _ => (congrArg State.censusBase hf :),
      fun _ _ _ => (congrArg State.noticeRing hf :)⟩
  | terminalWord l hc hl ha =>
    exact ⟨rfl, fun _ => rfl, fun _ => rfl, fun h => absurd hc h, fun _ => rfl, fun _ => rfl, fun _ _ _ => rfl⟩
  | completion l hc hl ha hn =>
    rw [completionEvent_eq]
    refine .trans ?_ (Move.take _).setupKept
    have hf := completionBeforeTake_frame l s
    have hv := completionBeforeTake_shapes l s
    have he := completionBeforeTake_places l s
    generalize completionBeforeTake l s = u at hf hv he ⊢
    exact ⟨(congrArg State.straps hf :), fun _ => (congrArg State.settings hf :), fun _ => hv, fun _ => he,
      fun h => absurd hc h, fun h => absurd hc h, fun h => absurd hc h⟩
  | cycle => exact .of_setup rfl
  | microsecond levels h =>
    rw [microsecondEvent, countPatience_eq]
    dsimp only
    split
    · rw [millisecondEvent, countWindows_eq]; exact .of_setup rfl
    · exact .of_setup rfl
  | millisecond =>
    have hf := runPatience_frame (1000 - s.time.divider) s
    generalize runPatience (1000 - s.time.divider) s = u at hf ⊢
    rw [millisecondEvent, countWindows_eq]
    exact .of_setup (congrArg State.setup hf :)

/-- Settles O11: every change of a command but HARDWARE_RESET leaves the parts of the setup that are not its own. -/
theorem setupChangesOnlyByItsCommands : Obligations.SetupChangesOnlyByItsCommands := by
  intro c s t h hc
  obtain ⟨hstraps, hsettings, hshapes, hplaces, hintake, hcensus, hring⟩ :=
    exec_keeps (P := SetupKept c s s) hc h (fun a b hab hs => hs.trans hab.setupKept) (.of_setup rfl)
  refine ⟨hstraps, fun hl => ⟨hsettings hl, fun n => ?_⟩, fun hw k => ?_, fun hcc => ⟨hintake hcc, hcensus hcc, hring hcc⟩⟩
  · have hn : t.nodes[n].shape = s.nodes[n].shape := congrFun (hshapes hl) n
    simpa only [Node.shape, Prod.mk.injEq] using hn
  · have hk : (t.entry k).place = (s.entry k).place := congrFun (hplaces hw) k
    simpa only [Entry.place, Prod.mk.injEq] using hk

end Sys2Proof.Machine
end

