-- ==== Sys2Proof/Proofs/IntakeRecords.lean ====
section
/-! PROOF. The intake writes: the marks (O25), the completions that name no terminal (O26), those of a provisioned terminal
(O27) and the tree records (O28). -/

namespace Sys2Proof.Machine

/-! ## A served beat that carries a word to memory -/

section
variable {s s1 : State} {row : BeatRow} {eff : Beat → State → State} {b : Beat} {w : Word}

/-- A served beat whose effect is `s1` and which carries `w` to memory (R186, R187). -/
theorem serves_update (h : s.serves row b) (he : eff b s = s1) (ha : s1.arb = s.arb)
    (hm : s1.mem = (s.passBeat b w).mem) :
    ∃ A, present row eff b s = .next { s1 with writeMarks := (markStatusWords s s1).writeMarks, arb := A } ∧
      s.beatDone { s1 with writeMarks := (markStatusWords s s1).writeMarks, arb := A } b w := by
  obtain ⟨hf, hr, hwf⟩ := h
  obtain ⟨A, ht, hA⟩ := present_update hf hr he ha
  refine ⟨A, ht, fun a => ?_, hA⟩
  show readByte s1.mem a = _
  rw [hm]
  exact State.passBeat_byte b w hwf a

/-- A served beat whose effect `s1` touches no part status word. -/
theorem serves_quiet (h : s.serves row b) (he : eff b s = s1) (ha : s1.arb = s.arb)
    (hm : s1.mem = (s.passBeat b w).mem) (hA : s1.partStatusA = s.partStatusA) (hB : s1.partStatusB = s.partStatusB)
    (hw : s1.writeMarks = s.writeMarks) :
    ∃ A, present row eff b s = .next { s1 with arb := A } ∧ s.beatDone { s1 with arb := A } b w := by
  obtain ⟨A, ht, hd⟩ := serves_update h he ha hm
  rw [markStatusWords_same hA hB hw, ← hw] at ht hd
  exact ⟨A, ht, hd⟩

/-- The write-pending marks that a forwarded beat leaves, where its effect records no outcome (R185). -/
theorem markStatusWords_marksAfter {A : Arbiter} (hw : s1.writeMarks = s.writeMarks) :
    (markStatusWords s s1).writeMarks =
      s.marksAfter { s1 with writeMarks := (markStatusWords s s1).writeMarks, arb := A } := by
  rw [markStatusWords_eq, hw]
  rfl

end

/-! ## The captures (R4, 12.2) -/

theorem byteAt_eq (w : Word) (i : Nat) : byteAt w i = BitVec.ofNat 8 (w.toNat / 2 ^ (8 * i)) := by
  apply BitVec.eq_of_toNat_eq
  simp [byteAt, Nat.shiftRight_eq_div_pow]

theorem captureWord0_eq (w : Word) : captureWord0 w =
    { kind := BitVec.ofNat 8 (w.toNat / 16777216), round := BitVec.ofNat 8 (w.toNat / 65536 % 256)
      terminal := BitVec.ofNat 10 (w.toNat % 1024) } := by
  unfold captureWord0
  rw [byteAt_eq, byteAt_eq]
  congr 1
  · apply BitVec.eq_of_toNat_eq
    simp
  · apply BitVec.eq_of_toNat_eq
    simp

theorem capturePower_eq (w : Word) : capturePower w =
    if w.toNat % 65536 < 32768 then ((w.toNat % 65536 : Nat) : Int) else ((w.toNat % 65536 : Nat) : Int) - 65536 := by
  have h : (firstHalf w).toNat = w.toNat % 65536 := by simp [firstHalf]
  rw [capturePower, signedHalf, BitVec.toInt_eq_toNat_cond, h]
  split <;> split <;> omega

/-! ## The marks -/

/-- A write outside the intake ring is no partial intake write (R5, R187). -/
theorem ringRow_ne_intakePartial {s : State} {b : Beat} (h : s.intakeWord b = none) : s.ringRow b ≠ .intakePartial := by
  unfold State.ringRow
  rw [h]
  dsimp only
  split
  · simp
  · simp
  · simp

theorem mailboxRow_ne_intakePartial (b : Beat) : mailboxRow b ≠ .intakePartial := by
  unfold mailboxRow
  split
  · split <;> simp
  · simp

/-- The word that a partial intake write goes to (R5). -/
theorem intakeWord_of_partial {s : State} {b : Beat} (h : s.rowOf b = .intakePartial) :
    ∃ w, s.intakeWord b = some (s.intakeSlot b, w) := by
  cases hw : s.intakeWord b with
  | some kw => exact ⟨kw.2, by simp [State.intakeSlot, hw]⟩
  | none =>
    have hring := ringRow_ne_intakePartial hw
    exfalso
    unfold State.rowOf State.writeRow at h
    split at h
    · simp at h
    · split at h
      · exact mailboxRow_ne_intakePartial b h
      · simp at h
      · simp at h
      · simp at h
      · split at h
        · simp at h
        · exact hring h
      · exact hring h

/-- Settles O25: each write is a served beat whose effect replaces the slot's mark. -/
theorem intakeMarksFollowTheWrites : Obligations.IntakeMarksFollowTheWrites := by
  rintro b s k hs rfl
  refine ⟨fun h => ?_, fun h => ?_, fun h => ?_, fun h => ?_⟩
  · obtain ⟨A, ht, hd⟩ := serves_quiet (w := b.data) h (s1 := effWord0 b s) rfl rfl rfl rfl rfl rfl
    rw [← captureWord0_eq]
    exact ⟨_, ht, hd, putMark_markSet hs rfl, rfl⟩
  · obtain ⟨A, ht, hd⟩ := serves_quiet (w := b.data) h (s1 := effWord1 b s) rfl rfl rfl rfl rfl rfl
    rw [← capturePower_eq]
    exact ⟨_, ht, hd, putMark_markSet hs rfl, rfl⟩
  · obtain ⟨A, ht, hd⟩ := serves_quiet (w := b.data) h (s1 := effPartial b s) rfl rfl rfl rfl rfl rfl
    obtain ⟨w, hw⟩ := intakeWord_of_partial h.2.1
    refine ⟨_, w, ht, hd, hw, putMark_markSet hs ?_, rfl⟩
    show (effPartial b s).marks = _
    simp [effPartial, hw]
  · obtain ⟨A, ht, hd⟩ := serves_update (w := b.data) h (s1 := effPartialWord3 b s) rfl rfl rfl
    exact ⟨_, ht, hd, putMark_markSet hs rfl, rfl, markStatusWords_marksAfter rfl, rfl⟩

/-! ## Completions that name no terminal -/

/-- A record that names no provisioned terminal has the effect of UNKNOWN, whatever its kind of the four (R13). -/
theorem effUnknown_of_none {b : Beat} {s : State} {c : Word0Capture} (hn : s.recordTerminal c = none) (power : Int) :
    ((s.mark (s.intakeSlot b)).decision = .status c power → effStatus b s = effUnknown b s) ∧
    ((s.mark (s.intakeSlot b)).decision = .miss c → effMiss b s = effUnknown b s) ∧
    ((s.mark (s.intakeSlot b)).decision = .gasp c → effGasp b s = effUnknown b s) ∧
    ((s.mark (s.intakeSlot b)).decision = .link c power → effLink b s = effUnknown b s) := by
  refine ⟨fun h => ?_, fun h => ?_, fun h => ?_, fun h => ?_⟩
  · simp only [effStatus, h, hn]
  · simp only [effMiss, h, hn]
  · simp only [effGasp, h, hn]
  · simp only [effLink, h, hn]

/-- An UNKNOWN completion (R13, R20). -/
theorem unknown_served {b : Beat} {s : State} {row : BeatRow} {eff : Beat → State → State} (hs : s.intakeLaw)
    (h : s.serves row b) (he : eff b s = effUnknown b s) :
    ∃ t, present row eff b s = .next t ∧ s.beatDone t b (dispositionWord .unknown none s.time.clock) ∧
      s.markSet t (s.intakeSlot b) Mark.clear ∧ t.unknown = min 255 (s.unknown + 1) ∧
      t.writeMarks = s.marksAfter t ∧
      { t with mem := s.mem, arb := s.arb, marks := s.marks, unknown := s.unknown, writeMarks := s.writeMarks } = s := by
  obtain ⟨A, ht, hd⟩ := serves_update (w := dispositionWord .unknown none s.time.clock) h he rfl rfl
  exact ⟨_, ht, hd, putMark_markSet hs rfl, rfl, markStatusWords_marksAfter rfl, rfl⟩

/-- Settles O26: an EMPTY and a MALFORMED by their own effects, the rest by the effect of UNKNOWN. -/
theorem completionsThatNameNoTerminal : Obligations.CompletionsThatNameNoTerminal := by
  intro b s hs
  refine ⟨fun h => ?_, fun h => ?_, fun c power i hn hi => ?_⟩
  · obtain ⟨A, ht, hd⟩ := serves_quiet (w := b.data) h (s1 := effEmpty b s) rfl rfl rfl rfl rfl rfl
    exact ⟨_, ht, hd, putMark_markSet hs rfl, rfl⟩
  · obtain ⟨A, ht, hd⟩ := serves_update (w := dispositionWord .malformed none s.time.clock) h (s1 := effMalformed b s)
      rfl rfl rfl
    exact ⟨_, ht, hd, putMark_markSet hs rfl, rfl, markStatusWords_marksAfter rfl, rfl⟩
  · obtain ⟨hstatus, hmiss, hgasp, hlink⟩ := effUnknown_of_none (b := b) (recordTerminal_none hn) power
    rcases hi with ⟨rfl, h, hd⟩ | ⟨rfl, h, hd⟩ | ⟨rfl, h, hd⟩ | ⟨rfl, h, hd⟩
    · exact unknown_served hs h (hstatus hd)
    · exact unknown_served hs h (hmiss hd)
    · exact unknown_served hs h (hgasp hd)
    · exact unknown_served hs h (hlink hd)

/-! ## Completions of a provisioned terminal -/

/-- A fall is a LIT terminal's to DARK, or an UNHEARD or LIT one's to FADING (R37). -/
theorem isFall_iff (old new : Entry) : isFall old new = true ↔
    (old.link = .lit ∧ new.link = .dark) ∨ ((old.link = .unheard ∨ old.link = .lit) ∧ new.link = .fading) := by
  unfold isFall
  cases old.link <;> cases new.link <;> decide

theorem linkOrDimChanged_iff (old new : Entry) :
    linkOrDimChanged old new = true ↔ new.link ≠ old.link ∨ new.dim ≠ old.dim := by
  rw [linkOrDimChanged, Bool.or_eq_true, bne_iff_ne, bne_iff_ne, ne_comm, ne_comm (a := old.dim)]

/-- The gauge after a terminal event (R37, R94). -/
def State.gaugeAfter (s : State) (k : Fin 512) (new : Entry) : Nat :=
  if ((s.entry k).link = .lit ∧ new.link = .dark) ∨
    (((s.entry k).link = .unheard ∨ (s.entry k).link = .lit) ∧ new.link = .fading) then min 1023 (s.gauge + 1)
  else s.gauge

/-- The STORM flag after a terminal event (R96). -/
def State.stormAfter (s : State) (k : Fin 512) (new : Entry) : Bool :=
  if s.gaugeAfter k new = s.gauge then s.storm
  else stormTest s.par.stormEnter s.par.stormExit (s.gaugeAfter k new) s.storm

theorem terminalChange_eq (k : Fin 512) (new : Entry) (s : State) : terminalChange k new s = { s with
    entries := s.entries.set k new
    nodes := if s.applyPass then s.nodes else adjustNodes (s.entry k) new s.nodes
    gauge := s.gaugeAfter k new
    storm := s.stormAfter k new } := by
  have hg : (if isFall (s.entry k) new = true then min 1023 (s.gauge + 1) else s.gauge) = s.gaugeAfter k new := by
    simp only [isFall_iff, State.gaugeAfter]
  rw [terminalChange, addFalls_flag, moveEntry_eq]
  dsimp only
  rw [hg]
  rfl

/-- A terminal event as one update (R35 to R37, R94, R96, R101). -/
theorem terminalEvent_eq (k : Fin 512) (new : Entry) (s : State) : terminalEvent k new s = { s with
    entries := s.entries.set k new
    nodes := if s.applyPass then s.nodes else adjustNodes (s.entry k) new s.nodes
    gauge := s.gaugeAfter k new
    storm := s.stormAfter k new
    settle := if new.link ≠ (s.entry k).link ∨ new.dim ≠ (s.entry k).dim ∨ s.stormAfter k new ≠ s.storm then
      s.settleAfterMark (s.stormAfter k new) else s.settle } := by
  have hm : (linkOrDimChanged (s.entry k) new || s.stormAfter k new != s.storm) = true ↔
      new.link ≠ (s.entry k).link ∨ new.dim ≠ (s.entry k).dim ∨ s.stormAfter k new ≠ s.storm := by
    rw [Bool.or_eq_true, linkOrDimChanged_iff, bne_iff_ne, or_assoc]
  rw [terminalEvent, markIf_eq, terminalChange_eq]
  simp only [hm]
  rfl

/-- A served record that is delivered to a terminal's entry (R11, R15, R17, R35 to R37). -/
theorem deliver_served {b : Beat} {s : State} {row : BeatRow} {eff : Beat → State → State} {k : Fin 512} {new : Entry}
    {d : Disposition} (hs : s.intakeLaw) (h : s.serves row b) (he : eff b s = deliver b k new d s) :
    ∃ t, present row eff b s = .next t ∧ s.recordTaken t b k new d := by
  rw [deliver, terminalEvent_eq] at he
  obtain ⟨A, ht, hd⟩ := serves_update (w := dispositionWord d (some new.link) s.time.clock) h he rfl rfl
  exact ⟨_, ht, rfl, rfl, rfl, rfl, rfl, putMark_markSet hs rfl, hd, markStatusWords_marksAfter rfl, rfl⟩

/-- A record names the provisioned terminal of its number: its effect by its kind (R25 to R29). -/
theorem deliver_of_some {b : Beat} {s : State} {c : Word0Capture} {k : Fin 512} (hk : s.recordTerminal c = some k)
    (power : Int) :
    ((s.mark (s.intakeSlot b)).decision = .status c power → effStatus b s =
      if (s.entry k).lastRound = some c.round then deliver b k (s.entry k) .repeated s
      else deliver b k ((s.entry k).status s.par c.round power)
        (statusDisposition s.storm (s.entry k) ((s.entry k).status s.par c.round power)) s) ∧
    ((s.mark (s.intakeSlot b)).decision = .miss c → effMiss b s =
      if (s.entry k).lastRound = some c.round then deliver b k (s.entry k) .repeated s
      else deliver b k ((s.entry k).missed s.par c.round) .accepted s) ∧
    ((s.mark (s.intakeSlot b)).decision = .gasp c →
      effGasp b s = deliver b k (s.entry k).gasped (gaspDisposition (s.entry k)) s) ∧
    ((s.mark (s.intakeSlot b)).decision = .link c power →
      effLink b s = deliver b k ((s.entry k).linked s.par power) (linkDisposition (s.entry k)) s) := by
  refine ⟨fun h => ?_, fun h => ?_, fun h => ?_, fun h => ?_⟩
  · simp only [effStatus, h, hk, Entry.repeats, decide_eq_true_eq]
  · simp only [effMiss, h, hk, Entry.repeats, decide_eq_true_eq]
  · simp only [effGasp, h, hk]
  · simp only [effLink, h, hk]

theorem statusDisposition_eq (storm : Bool) (old new : Entry) : statusDisposition storm old new =
    if old.link = .fading then .withdrawn else if old.link = .lit ∧ storm = true ∧ new.dim = old.dim then .flooded
    else .accepted := by
  simp only [statusDisposition, eq_comm (a := old.dim)]

theorem gaspDisposition_eq (e : Entry) : gaspDisposition e =
    if e.link = .unheard ∨ e.link = .lit then .accepted else if e.link = .dark then .late else .repeated := by
  unfold gaspDisposition
  cases e.link <;> rfl

/-- Settles O27: each record is a delivery, of the entry as it was where its round is a repeat. -/
theorem terminalCompletions : Obligations.TerminalCompletions := by
  refine ⟨fun b s c power k e hs hk he hp => ?_, fun b s c k e hs hk he hp => ?_⟩
  · subst he
    obtain ⟨hstatus, -, -, hlink⟩ := deliver_of_some (b := b) (recordTerminal_some hk hp) power
    refine ⟨fun h hd => ?_, fun h hd => deliver_served hs h (hlink hd)⟩
    by_cases hround : (s.entry k).lastRound = some c.round
    · obtain ⟨t, ht, hr⟩ := deliver_served hs h ((hstatus hd).trans (if_pos hround))
      exact ⟨t, ht, fun _ => hr, fun hn => absurd hround hn⟩
    · obtain ⟨t, ht, hr⟩ := deliver_served hs h ((hstatus hd).trans (if_neg hround))
      rw [statusDisposition_eq] at hr
      exact ⟨t, ht, fun hn => absurd hn hround, fun _ => hr⟩
  · subst he
    obtain ⟨-, hmiss, hgasp, -⟩ := deliver_of_some (b := b) (recordTerminal_some hk hp) 0
    refine ⟨fun h hd => ?_, fun h hd => ?_⟩
    · by_cases hround : (s.entry k).lastRound = some c.round
      · obtain ⟨t, ht, hr⟩ := deliver_served hs h ((hmiss hd).trans (if_pos hround))
        exact ⟨t, ht, fun _ => hr, fun hn => absurd hround hn⟩
      · obtain ⟨t, ht, hr⟩ := deliver_served hs h ((hmiss hd).trans (if_neg hround))
        exact ⟨t, ht, fun hn => absurd hn hround, fun _ => hr⟩
    · rw [← gaspDisposition_eq]
      exact deliver_served hs h (hgasp hd)

/-! ## Tree records -/

/-- A tree record as one update (R14, R70). -/
theorem effTree_served {b : Beat} {s : State} {row : BeatRow} {eff : Beat → State → State} {down : Bool}
    (hs : s.intakeLaw) (h : s.serves row b) (he : eff b s = effTree b down s) :
    ∃ t, present row eff b s = .next t ∧ t.trunk = down ∧
      s.beatDone t b (dispositionWord .accepted none s.time.clock) ∧ s.markSet t (s.intakeSlot b) Mark.clear ∧
      t.settle = (if s.trunk = down then s.settle else s.settleAfterMark s.storm) ∧
      { t with mem := s.mem, arb := s.arb, marks := s.marks, trunk := s.trunk, settle := s.settle } = s := by
  rw [effTree, markIf_eq] at he
  obtain ⟨A, ht, hd⟩ := serves_quiet (w := dispositionWord .accepted none s.time.clock) h he rfl rfl rfl rfl rfl
  refine ⟨_, ht, rfl, hd, putMark_markSet hs rfl, ?_, rfl⟩
  show (if (s.trunk != down) = true then s.settleAfterMark s.storm else s.settle) = _
  by_cases hdown : s.trunk = down <;> simp [hdown]

/-- Settles O28: a tree record is a completion after the trunk flag and its dirty mark. -/
theorem treeRecordsSetTheTrunkFlag : Obligations.TreeRecordsSetTheTrunkFlag := by
  intro b s down hs h
  cases down
  · exact effTree_served hs h rfl
  · exact effTree_served hs h rfl

end Sys2Proof.Machine
end

