-- ==== Sys2Proof/Proofs/ResetLaws.lean ====
section
/-! PROOF. The state after reset meets every law that the steps keep (O9). -/

namespace Sys2Proof.Machine

/-! ## The tables after reset -/

@[simp] theorem reset_entry (t : Fin 512) : State.reset.entry t = Entry.afterReset := by
  simp [State.entry, State.reset]

@[simp] theorem reset_slot (k : Fin 32) : State.reset.slot k = none := by
  simp [State.slot, State.reset]

/-- No terminal counts before one is provisioned (R24, R45). -/
theorem countBelow_replicate (nodes : Vector Node 128) (i : Fin 128) {p : Entry → Bool}
    (h : p Entry.afterReset = false) : countBelow nodes (Vector.replicate 512 Entry.afterReset) i p = 0 := by
  unfold countBelow
  rw [List.countP_eq_zero]
  intro e he
  rw [Vector.toList_replicate] at he
  rw [List.eq_of_mem_replicate he, h, Bool.false_and]
  exact Bool.false_ne_true

/-- A quiet node is recounted as it stands where no terminal is provisioned (R66, R68). -/
theorem recountNode_quiet (nodes : Vector Node 128) (i : Fin 128) (enabled : Bool) (tree : Tree)
    (parent : Option (Fin 128)) :
    recountNode nodes (Vector.replicate 512 Entry.afterReset) i (Node.quiet enabled tree parent) =
      Node.quiet enabled tree parent := by
  have hc (p : Entry → Bool) (hp : p Entry.afterReset = false) := countBelow_replicate nodes i hp
  rw [recountNode, hc _ rfl, hc _ rfl, hc _ rfl, hc _ rfl, ite_self, ite_self]
  rfl

/-- Every node after reset is quiet (R78). -/
theorem nodesAfterReset_quiet (i : Fin 128) :
    ∃ enabled tree parent, nodesAfterReset[i] = Node.quiet enabled tree parent := by
  show ∃ enabled tree parent, nodesAfterReset[i.val] = Node.quiet enabled tree parent
  rw [nodesAfterReset, Vector.getElem_set, Vector.getElem_set, Vector.getElem_replicate]
  split
  · exact ⟨_, _, _, rfl⟩
  · split
    · exact ⟨_, _, _, rfl⟩
    · exact ⟨_, _, _, rfl⟩

/-! ## The laws -/

theorem reset_ringLaw : State.reset.ringLaw :=
  ⟨fun _ h => (nomatch h), fun _ => rfl, fun _ h => (nomatch h), fun _ h => (nomatch h), rfl, rfl, rfl, rfl⟩

/-- No setting is applied at reset, and the values a reader meets are in range (R60); no terminal is provisioned (R45). -/
theorem reset_entryLaw : State.reset.entryLaw := by
  refine ⟨by unfold Settings.inRange; decide, fun t => ?_⟩
  rw [reset_entry]
  exact ⟨fun _ => ⟨rfl, rfl, rfl⟩, fun _ => ⟨rfl, rfl, rfl, rfl⟩, fun _ h => (nomatch h), by decide, by decide⟩

theorem reset_loadLaw : State.reset.loadLaw := by
  refine ⟨by decide, by decide, fun _ h => (nomatch h)⟩

theorem reset_countsLaw : State.reset.countsLaw := by
  intro _
  refine mapTable_id _ _ (fun i => ?_)
  obtain ⟨enabled, tree, parent, h⟩ := nodesAfterReset_quiet i
  show recountNode State.reset.nodes State.reset.entries (Fin.ofNat 128 i.val) nodesAfterReset[i] = nodesAfterReset[i]
  rw [h]
  exact recountNode_quiet _ _ _ _ _

theorem reset_orderLaw : State.reset.orderLaw :=
  ⟨List.nodup_nil, fun k => by rw [reset_slot]; simp [State.reset]⟩

theorem reset_counterLaw : State.reset.counterLaw := by
  unfold State.counterLaw
  decide

theorem reset_numberLaw : State.reset.numberLaw := by
  refine ⟨by decide, by decide, fun k i h => ?_, fun j k i i' h => ?_⟩
  · rw [reset_slot] at h
    exact nomatch h
  · rw [reset_slot] at h
    exact nomatch h

theorem reset_incidentLaw : State.reset.incidentLaw := by
  refine ⟨fun k i h => ?_, fun j k i i' h => ?_, fun causes h => nomatch h⟩
  · rw [reset_slot] at h
    exact nomatch h
  · rw [reset_slot] at h
    exact nomatch h

theorem reset_windowLaw : State.reset.windowLaw := by
  refine ⟨fun _ h => (nomatch h), fun _ h => (nomatch h), fun _ h => (nomatch h), fun k i h => ?_,
    fun _ => ⟨rfl, fun k i h => ?_⟩⟩
  · rw [reset_slot] at h
    exact nomatch h
  · rw [reset_slot] at h
    exact nomatch h

/-- Settles O9: the state after reset meets each law by the lemma about it. -/
theorem resetMeetsTheLaws : Obligations.ResetMeetsTheLaws :=
  ⟨reset_memory_wf, ⟨rfl, fun _ h => nomatch h⟩, reset_ringLaw, reset_entryLaw, reset_loadLaw, reset_countsLaw,
    reset_orderLaw, reset_counterLaw, reset_numberLaw, reset_incidentLaw, reset_windowLaw⟩

end Sys2Proof.Machine
end

