-- ==== Sys2Proof/Proofs/Regions.lean ====
section
/-! PROOF. The watched regions decide the row of a passing beat (O13). -/

namespace Sys2Proof.Machine

/-! ## The regions -/

section
variable {s : State} {b : Beat} {a k w : Nat}

theorem rowOf_plain (h : b.read = true ∨ s.arb.plain = true) : s.rowOf b = .passingWrite := by
  rw [State.rowOf, if_pos (by simpa using h)]

theorem rowOf_write (hr : b.read = false) (hp : s.arb.plain = false) : s.rowOf b = s.writeRow b := by
  rw [State.rowOf, if_neg (by simp [hr, hp])]

/-- Word `w` of the Setup Block (R169). -/
theorem setupWordOf_word (s : State) {w : Nat} (h : w < 656) : s.setupWordOf (s.setupBase + 4 * w) = some w := by
  rw [State.setupWordOf, if_pos (by simp only [Config.setupWords]; omega)]
  congr 1
  omega

theorem setupWordOf_outside (h : a < s.setupBase ∨ s.setupBase + 2624 ≤ a) : s.setupWordOf a = none := by
  rw [State.setupWordOf, if_neg (by simp only [Config.setupWords]; omega)]

/-- Word `w` of slot `k` of a ring (R1). -/
theorem locate_word {r : Ring} {k w : Nat} (hk : k < r.count) (hw : w < 4) :
    r.locate (r.base + 16 * k + 4 * w) = some (k, w) := by
  rw [Ring.locate, if_pos (by omega)]
  simp only [Option.some.injEq, Prod.mk.injEq]
  omega

/-- An address outside the intake ring, or a part that takes no intake writes (R18, R19). -/
theorem intakeWord_none (ha : a = wordAddr b.addr.toNat)
    (h : s.setupInUse = false ∨ ∀ r, s.intakeRing = some r → a < r.base ∨ r.base + 16 * r.count ≤ a) :
    s.intakeWord b = none := by
  unfold State.intakeWord
  split
  · next hu =>
    have hout := h.resolve_left (by simp [hu])
    cases hr : s.intakeRing with
    | none => rfl
    | some r =>
      have := hout r hr
      rw [Option.bind_some, ← ha, Ring.locate, if_neg (by omega)]
  · rfl

theorem intakeWord_some {r : Ring} {k w : Nat} (ha : a = wordAddr b.addr.toNat) (hu : s.setupInUse = true)
    (hr : s.intakeRing = some r) (hk : k < r.count) (hw : w < 4) (hkw : a = r.base + 16 * k + 4 * w) :
    s.intakeWord b = some (k, w) := by
  rw [State.intakeWord, if_pos hu, hr, Option.bind_some, ← ha, hkw, locate_word hk hw]

/-- The row of a beat to word `w` of the Setup Block beyond the mailbox and the owned words (R182, R187). -/
theorem writeRow_word {w : Nat} (h : s.setupWordOf (wordAddr b.addr.toNat) = some w) (hw : 4 ≤ w) :
    s.writeRow b = if s.part = .loading ∧ b.be ≠ 0 then .disturbing else s.ringRow b := by
  obtain ⟨n, rfl⟩ := Nat.exists_eq_add_of_le' hw
  simp only [State.writeRow, h]

theorem headerWord_none (hn : ∀ r, s.noticeRing = some r → a ≠ r.base ∧ a ≠ r.base + 4) : s.headerWord a = none := by
  unfold State.headerWord
  cases hr : s.noticeRing with
  | none => rfl
  | some r =>
    obtain ⟨h0, h1⟩ := hn r hr
    rw [Option.bind_some, if_neg h0, if_neg h1]

/-- Outside the intake ring the notice ring's header is watched, its producer word and its consumer word (R158, R187). -/
theorem ringRow_producer {r : Ring} (h : s.intakeWord b = none) (hr : s.noticeRing = some r)
    (ha : wordAddr b.addr.toNat = r.base) : s.ringRow b = .ownedWord := by
  simp only [State.ringRow, h, State.headerWord, hr, ha, Option.bind_some, if_true]

theorem ringRow_consumer {r : Ring} (h : s.intakeWord b = none) (hr : s.noticeRing = some r)
    (ha : wordAddr b.addr.toNat = r.base + 4) : s.ringRow b = .consumerIndex := by
  have hne : ¬ r.base + 4 = r.base := by omega
  simp only [State.ringRow, h, State.headerWord, hr, ha, Option.bind_some, if_true, hne, if_false]

theorem ringRow_passes (h : s.intakeWord b = none)
    (hn : ∀ r, s.noticeRing = some r → wordAddr b.addr.toNat ≠ r.base ∧ wordAddr b.addr.toNat ≠ r.base + 4) :
    s.ringRow b = .passingWrite := by
  simp only [State.ringRow, h, headerWord_none hn]

/-! ## The mailbox -/

theorem mailboxCode_eq (w : Word) : mailboxCode w = w.toNat / 16777216 := by
  have := w.isLt
  rw [mailboxCode, byteAt_eq, BitVec.toNat_ofNat]
  omega

theorem mailboxRow_bad (h : b.be ≠ 15 ∨ b.data.toNat / 16777216 = 0 ∨ 10 ≤ b.data.toNat / 16777216) :
    mailboxRow b = .badOpcode := by
  unfold mailboxRow
  split
  · next hf =>
    have hf : b.be = 15 := of_decide_eq_true hf
    have hcode := h.resolve_left (fun hne => hne hf)
    rw [← mailboxCode_eq] at hcode
    split
    rotate_right
    · rfl
    all_goals omega
  · rfl

theorem mailboxRow_code (h : b.be = 15) :
    (b.data.toNat / 16777216 = 1 → mailboxRow b = .extend) ∧ (b.data.toNat / 16777216 = 2 → mailboxRow b = .edit) ∧
    (b.data.toNat / 16777216 = 3 → mailboxRow b = .commit) ∧ (b.data.toNat / 16777216 = 4 → mailboxRow b = .abandon) ∧
    (b.data.toNat / 16777216 = 5 → mailboxRow b = .settime) ∧ (b.data.toNat / 16777216 = 6 → mailboxRow b = .forget) ∧
    (b.data.toNat / 16777216 = 7 → mailboxRow b = .maint) ∧ (b.data.toNat / 16777216 = 8 → mailboxRow b = .census) ∧
    (b.data.toNat / 16777216 = 9 → mailboxRow b = .reset) := by
  have hf : b.full = true := decide_eq_true h
  rw [← mailboxCode_eq]
  simp only [mailboxRow, hf, if_true]
  refine ⟨?_, ?_, ?_, ?_, ?_, ?_, ?_, ?_, ?_⟩
  all_goals
    intro hcode
    rw [hcode]
    rfl

/-! ## The words of a slot -/

theorem intakeRow_of_word (hi : s.intakeWord b = some (k, w)) : s.ringRow b = s.intakeRow b k w := by
  simp only [State.ringRow, hi]

/-- The row of an intake write by its word and its byte enables (R4 to R7). -/
theorem intakeRow_cases (s : State) (b : Beat) (k : Nat) {w : Nat} (hw : w < 4) :
    (b.be = 0 ∨ w = 2 → s.intakeRow b k w = .passingWrite) ∧
    (b.be = 15 → w = 0 → s.intakeRow b k w = .intakeWord0) ∧ (b.be = 15 → w = 1 → s.intakeRow b k w = .intakeWord1) ∧
    (b.be = 15 → w = 3 → s.intakeRow b k w = (s.mark k).decision.row) ∧
    (b.be ≠ 0 → b.be ≠ 15 → w ≤ 1 → s.intakeRow b k w = .intakePartial) ∧
    (b.be ≠ 0 → b.be ≠ 15 → w = 3 → s.intakeRow b k w = .intakePartialWord3) := by
  have hfull : b.be = 15 → b.full = true := fun h => decide_eq_true h
  have hpart : b.be ≠ 15 → b.full = false := fun h => decide_eq_false h
  have hne : b.be = 15 → ¬ b.be = 0 := fun h => by rw [h]; decide
  unfold State.intakeRow
  refine ⟨?_, fun h hw => ?_, fun h hw => ?_, fun h hw => ?_, fun h0 h hw => ?_, fun h0 h hw => ?_⟩
  · rintro (h | rfl)
    · rw [if_pos h]
    · exact ite_self _
  · subst hw
    simp only [if_neg (hne h), hfull h, if_true]
  · subst hw
    simp only [if_neg (hne h), hfull h, if_true]
  · subst hw
    simp only [if_neg (hne h), hfull h, if_true]
  · obtain rfl | rfl : w = 0 ∨ w = 1 := by omega
    · simp only [if_neg h0, hpart h, Bool.false_eq_true, if_false]
    · simp only [if_neg h0, hpart h, Bool.false_eq_true, if_false]
  · subst hw
    simp only [if_neg h0, hpart h, Bool.false_eq_true, if_false]

end

/-! ## The decision of a mark -/

/-- What a completion decides from its mark, in the order of R6. -/
theorem decision_cases (m : Mark) :
    (∀ c, m.word0 = some c → c.kind = 0 → m.decision = .empty) ∧
    ((∀ c, m.word0 = some c → c.kind ≠ 0) →
      (m.torn = true ∨ m.word0 = none ∨ m.word1 = none → m.decision = .malformed) ∧
      ∀ c p, m.torn = false → m.word0 = some c → m.word1 = some p →
        (7 ≤ c.kind.toNat → m.decision = .malformed) ∧ (c.kind = 5 → m.decision = .treeDown) ∧
        (c.kind = 6 → m.decision = .treeUp) ∧ (c.kind = 1 → m.decision = .status c p) ∧
        (c.kind = 2 → m.decision = .miss c) ∧ (c.kind = 3 → m.decision = .gasp c) ∧
        (c.kind = 4 → m.decision = .link c p)) := by
  refine ⟨fun c h hk => ?_, fun hk => ⟨fun h => ?_, fun c p ht h h1 => ?_⟩⟩
  · simp only [Mark.decision, h, hk, if_true]
  · unfold Mark.decision
    split
    · rfl
    · next c hc =>
      rw [if_neg (hk c hc)]
      split
      · rfl
      · next ht =>
        have h1 : m.word1 = none := (h.resolve_left ht).resolve_left (by simp [hc])
        rw [h1]
  · have hd : m.decision = (match c.kind.toNat with
        | 1 => .status c p
        | 2 => .miss c
        | 3 => .gasp c
        | 4 => .link c p
        | 5 => .treeDown
        | 6 => .treeUp
        | _ => .malformed) := by
      simp only [Mark.decision, h, h1, ht, if_neg (hk c h), Bool.false_eq_true, if_false] <;> rfl
    refine ⟨fun hk7 => ?_, ?_, ?_, ?_, ?_, ?_, ?_⟩
    · rw [hd]
      split
      rotate_right
      · rfl
      all_goals omega
    all_goals
      intro hk
      rw [hd, hk]
      rfl

/-- Settles O13: a write's row by the region that its address falls in, then the decision of a mark. -/
theorem regionsDecideTheRow : Obligations.RegionsDecideTheRow := by
  refine ⟨fun b s a ha => ⟨rowOf_plain, fun hr hp => ?_⟩, decision_cases⟩
  rw [rowOf_write hr hp]
  refine ⟨?_, ?_, ?_, ?_⟩
  · rintro h0 code rfl
    have hrow : s.writeRow b = mailboxRow b := by
      have hw : s.setupWordOf (wordAddr b.addr.toNat) = some 0 := by
        rw [← ha, h0]
        simpa using setupWordOf_word s (w := 0) (by decide)
      simp only [State.writeRow, hw]
    rw [hrow]
    exact ⟨mailboxRow_bad, mailboxRow_code⟩
  · intro w h1 h3 haw
    have hw : s.setupWordOf (wordAddr b.addr.toNat) = some w := by
      exact ha ▸ haw ▸ setupWordOf_word s (by omega)
    obtain rfl | rfl | rfl : w = 1 ∨ w = 2 ∨ w = 3 := by omega
    · simp only [State.writeRow, hw]
    · simp only [State.writeRow, hw]
    · simp only [State.writeRow, hw]
  · intro w h4 h656 haw
    have hw : s.setupWordOf (wordAddr b.addr.toNat) = some w := by
      exact ha ▸ haw ▸ setupWordOf_word s h656
    rw [writeRow_word hw h4]
    refine ⟨fun hpart hbe => if_pos ⟨hpart, hbe⟩, fun h hi hn => ?_⟩
    rw [if_neg (by rintro ⟨hpart, hbe⟩; exact h.elim (fun h => h hpart) hbe)]
    exact ringRow_passes (intakeWord_none ha (.inr hi)) (fun r hr => ha ▸ hn r hr)
  · intro hout
    have hrow : s.writeRow b = s.ringRow b := by
      simp only [State.writeRow, ha ▸ setupWordOf_outside hout]
    rw [hrow]
    refine ⟨fun r k w hu hring hk hw haw => ?_, fun h => ?_⟩
    · rw [intakeRow_of_word (intakeWord_some ha hu hring hk hw haw)]
      exact intakeRow_cases s b k hw
    · have hi := intakeWord_none ha h
      exact ⟨fun r hr h0 => ringRow_producer hi hr (ha ▸ h0), fun r hr h0 => ringRow_consumer hi hr (ha ▸ h0),
        fun hn => ringRow_passes hi (fun r hr => ha ▸ hn r hr)⟩

end Sys2Proof.Machine
end

