-- ==== Sys2Proof/Proofs/Words.lean ====
section
/-! PROOF. The words that the part forms, as numbers (O20). -/

namespace Sys2Proof.Machine

/-! ## Appended fields -/

/-- An appended field stands below the fields before it. -/
theorem toNat_append_add {m n : Nat} (x : BitVec m) (y : BitVec n) : (x ++ y).toNat = 2 ^ n * x.toNat + y.toNat := by
  rw [BitVec.toNat_append, ← Nat.shiftLeft_add_eq_or_of_lt y.isLt, Nat.shiftLeft_eq, Nat.mul_comm]

theorem wordOfBytesHalf_toNat {a b c : Nat} (ha : a < 256) (hb : b < 256) (hc : c < 65536) :
    (wordOfBytesHalf a b c).toNat = 16777216 * a + 65536 * b + c := by
  simp only [wordOfBytesHalf, toNat_append_add, BitVec.toNat_ofNat]
  omega

theorem wordOfBytes_toNat {a b c d : Nat} (ha : a ≤ 255) (hb : b ≤ 255) (hc : c ≤ 255) (hd : d ≤ 255) :
    (wordOfBytes a b c d).toNat = 16777216 * a + 65536 * b + 256 * c + d := by
  simp only [wordOfBytes, toNat_append_add, BitVec.toNat_ofNat]
  omega

/-! ## The words of the mailbox, the intake slots and the owned words -/

theorem mailboxWord_toNat (code tag : Byte) (arg : Half) :
    (mailboxWord code tag arg).toNat = 16777216 * code.toNat + 65536 * tag.toNat + arg.toNat := by
  simp only [mailboxWord, toNat_append_add]
  omega

theorem dispositionWord_toNat (d : Disposition) (link : Option Link) (clock : Word) :
    (dispositionWord d link clock).toNat =
      16777216 * d.code + 65536 * (link.map Link.code).getD 0 + clock.toNat % 65536 := by
  have hd : d.code < 256 := by cases d <;> decide
  have hl : (link.map Link.code).getD 0 < 256 := by
    cases link with
    | none => decide
    | some l => cases l <;> decide
  rw [dispositionWord, wordOfBytesHalf_toNat hd hl (firstHalf clock).isLt]
  simp [firstHalf]

theorem statusWord_toNat {c : CommandStatus} (h : c.detail < 65536) :
    (statusWord c).toNat = 16777216 * c.tag.toNat + 65536 * c.outcome.code + c.detail := by
  have ho : c.outcome.code < 256 := by cases c.outcome <;> decide
  rw [statusWord, wordOfBytesHalf_toNat c.tag.isLt ho h]

/-- A table's entries are its entries by index. -/
theorem toList_eq_indices {α : Type} {n : Nat} [NeZero n] (v : Vector α n) :
    v.toList = (indices n).map (fun i => v[i]) := by
  refine List.ext_getElem (by simp [indices]) (fun i h h' => ?_)
  have hi : i < n := by simpa using h
  simp [indices, Fin.ofNat, Nat.mod_eq_of_lt hi]

theorem slotsInUse_eq (s : State) : s.slotsInUse = (indices 32).countP (fun k => (s.slot k).isSome) := by
  rw [State.slotsInUse, toList_eq_indices, List.countP_map]
  rfl

theorem slotsInUse_le (s : State) : s.slotsInUse ≤ 32 := by
  have h : s.slotsInUse ≤ s.slots.toList.length := List.countP_le_length
  simpa using h

theorem partStatusA_toNat (s : State) : s.partStatusA.toNat =
    16777216 * s.part.code + 8388608 * s.storm.toNat + 4194304 * s.inputs.mainsFail.toNat +
    2097152 * s.inputs.maintAll.toNat + 1048576 * s.ringFault.toNat + 524288 * s.census.isSome.toNat +
    262144 * (s.slot 0).isSome.toNat + s.slotsInUse := by
  have hp : s.part.code < 256 := by cases s.part <;> decide
  have hs := slotsInUse_le s
  have h0 : (0 : BitVec 12).toNat = 0 := rfl
  simp only [State.partStatusA, toNat_append_add, BitVec.toNat_ofNat, BitVec.toNat_ofBool, h0]
  omega

theorem partStatusB_toNat {s : State} (h : s.counterLaw) : s.partStatusB.toNat =
    16777216 * s.malformed + 65536 * s.unknown + 256 * s.disturbed + s.clamped := by
  obtain ⟨-, hx, hu, hd, hc, -⟩ := h
  exact wordOfBytes_toNat hx hu hd hc

theorem attn_iff (s : State) : s.attn = true ↔ s.noticeRing ≠ none ∧ s.producer ≠ s.consumer := by
  simp [State.attn, Option.isSome_iff_ne_none]

/-! ## The words of the census -/

theorem censusNodeWord_toNat {n : Node} (hm : n.monitored ≤ 512) (hk : n.dark ≤ 512) (hd : n.dim ≤ 512)
    (hs : n.spent ≤ 512) (he : n.enabled = true) : (censusNodeWord n).toNat = 4194304 * n.monitored +
      4096 * (if n.tree = .fibre then n.dark else n.spent) + 4 * (if n.tree = .fibre then n.dim else 0) +
      2 * n.maint.toNat + 1 := by
  rw [censusNodeWord, if_pos he]
  cases ht : n.tree with
  | fibre =>
    simp only [toNat_append_add, BitVec.toNat_ofNat, BitVec.toNat_ofBool, if_true, Bool.toNat_true]
    omega
  | power =>
    simp only [toNat_append_add, BitVec.toNat_ofNat, BitVec.toNat_ofBool, reduceCtorEq, if_false, Bool.toNat_true]
    omega

/-- The level field of a census terminal word (12.5). -/
theorem levelField_toNat (f : Option Int) : (BitVec.ofInt 16 ((f.map level).getD 0)).toNat =
    (f.map (fun f => (level f % 65536).toNat)).getD 0 := by
  cases f with
  | none => rfl
  | some f => simp [BitVec.toNat_ofInt]

theorem censusTerminalWord_toNat {limit : Nat} {e : Entry} (h : e.law limit) (hl : limit ≤ 8) :
    (censusTerminalWord e).toNat = 536870912 * e.link.code + 268435456 * e.dim.toNat +
      4096 * (e.filter.map (fun f => (level f % 65536).toNat)).getD 0 + 512 * e.silence + 32 * e.missRun +
      16 * e.filter.isSome.toNat := by
  obtain ⟨-, -, -, hm, hs⟩ := h
  have hc : e.link.code < 8 := by cases e.link <;> decide
  have h0 : (0 : BitVec 4).toNat = 0 := rfl
  simp only [censusTerminalWord, toNat_append_add, BitVec.toNat_ofNat, BitVec.toNat_ofBool, levelField_toNat, h0]
  omega

/-- An unprovisioned terminal's word holds UNHEARD and nothing else (R23, 12.5). -/
theorem censusTerminalWord_unprovisioned {limit : Nat} {e : Entry} (h : e.law limit) (hp : e.provisioned = false) :
    censusTerminalWord e = 0x20000000 := by
  obtain ⟨hu, hr, -⟩ := h
  obtain ⟨hlink, -, -⟩ := hu hp
  obtain ⟨hf, hd, hs, hm⟩ := hr (by simp [hlink])
  rw [censusTerminalWord, hlink, hf, hd, hs, hm]
  decide

theorem censusStatusWord_toNat {state : Nat} (h : state < 256) (tag : Byte) :
    (censusStatusWord state tag).toNat = 16777216 * state + 65536 * tag.toNat :=
  wordOfBytesHalf_toNat h tag.isLt (by decide)

/-- Settles O20, word by word. -/
theorem formedWords : Obligations.FormedWords := by
  refine ⟨mailboxWord_toNat, fun d link clock => ?_, fun c h => ?_, fun s => ?_, fun s => partStatusB_toNat, attn_iff,
    fun n hm hk hd hs => ⟨censusNodeWord_toNat hm hk hd hs, fun he => by rw [censusNodeWord, he]; rfl⟩,
    fun limit e h hl => ⟨(censusTerminalWord_toNat h hl).trans ?_, censusTerminalWord_unprovisioned h⟩,
    fun tag => ⟨censusStatusWord_toNat (by decide) tag, censusStatusWord_toNat (by decide) tag,
      censusStatusWord_toNat (by decide) tag⟩⟩
  · rw [dispositionWord_toNat]
    cases link with
    | none => cases d <;> rfl
    | some l => cases d <;> cases l <;> rfl
  · rw [statusWord_toNat h, Nat.add_right_comm]
    cases c.outcome <;> rfl
  · rw [partStatusA_toNat, slotsInUse_eq]
    cases s.part <;> rfl
  · cases e.filter <;> cases e.link <;> rfl

end Sys2Proof.Machine
end

