-- ==== Sys2Proof/Proofs/HardwareReset.lean ====
section
/-! PROOF. Hardware reset completes (O23). -/

namespace Sys2Proof.Machine

section
variable {straps : BitVec 8} {levels : Levels} {s : State} {b : Beat}

/-- The release leaves a window exactly behind a passing access in progress (R191). -/
theorem atRelease_window (straps : BitVec 8) (levels : Levels) (s : State) :
    (s.atRelease straps levels).arb.window =
      if s.arb.beatsLeft ≠ 0 ∨ s.arb.busy = some .passing then some { left := 5, due := false, fresh := false }
      else none := by
  simp only [State.atRelease, passing_iff]

/-- A beat forwarded in the assertion of RESET_N, seen from the state `u` that its release would have left (R192). -/
theorem plainBeat_plainly {u : State} (hmem : s.mem = u.mem) (hread : s.readData = u.readData)
    (hready : s.arb.ready = u.arb.ready) (hleft : s.arb.beatsLeft = u.arb.beatsLeft) (hwf : Memory.wf s.mem = true) :
    u.plainly ((plainBeat b s).atRelease straps levels) b := by
  have hafter : s.beatsAfter b = u.beatsAfter b := by rw [State.beatsAfter, hleft]; rfl
  refine ⟨fun hb => ?_, fun hb => ?_, ?_⟩
  · have he : effPassing b s = s.passBeat b b.data := by rw [effPassing, if_neg (by simp [hb])]
    refine ⟨(congrArg State.readData he).trans hread, fun a => ?_⟩
    show readByte (effPassing b s).mem a = _
    rw [he, State.passBeat_byte b b.data hwf, byteAfterBeat, byteAfterBeat, hmem]
  · have he : effPassing b s = { s with readData := readWord s.mem b.addr.toNat } := by rw [effPassing, if_pos hb]
    refine ⟨(congrArg State.readData he).trans ?_, (congrArg State.mem he).trans hmem⟩
    rw [← hmem]
  · rw [← hready, ← hafter]
    rfl

/-- A reset with nothing in its assertion: an internal access is lost, and a beat held behind one follows (R191, R192). -/
theorem assertReset_cases (s : State) :
    ((s.arb.held = none ∨ s.arb.busy = some .passing) ∧ s.asserted [] = { s with arb := { s.arb with
      busy := if s.arb.busy = some .passing then some .passing else none, window := none, impatient := false } }) ∨
    ∃ b, s.arb.held = some b ∧ s.arb.busy ≠ some .passing ∧ s.asserted [] = plainBeat b { s with arb := { s.arb with
      busy := none, window := none, impatient := false } } := by
  show (_ ∧ assertReset s = _) ∨ ∃ b, _ ∧ _ ∧ assertReset s = _
  unfold assertReset plainRelease
  by_cases hb : s.arb.busy = some .passing
  · refine .inl ⟨.inr hb, ?_⟩
    simp only [hb, if_true]
    cases s.arb.held with
    | none => rfl
    | some b => rfl
  · cases hh : s.arb.held with
    | none =>
      refine .inl ⟨.inl rfl, ?_⟩
      simp only [hh]
    | some b =>
      refine .inr ⟨b, rfl, hb, ?_⟩
      simp only [hh, if_neg hb]

end

/-- Settles O23: the release by `execHardwareReset_eq`, the assertion by what it releases first and then by its last event. -/
theorem hardwareResetCompletes : Obligations.HardwareResetCompletes := by
  intro straps levels during s hwf
  refine ⟨_, execHardwareReset_eq straps levels during s, rfl, rfl, asserted_pending s during, rfl, decide_eq_true_iff,
    rfl, atRelease_window straps levels _, ?_, ?_⟩
  · rintro rfl
    rcases assertReset_cases s with ⟨hc, h⟩ | ⟨b, hh, hb, h⟩
    · refine ⟨fun _ => ?_, fun b hh hb => ?_⟩
      · rw [h]
        exact ⟨rfl, rfl, rfl⟩
      · rcases hc with hc | hc
        · simp [hc] at hh
        · exact absurd hc hb
    · refine ⟨fun hc => ?_, fun b' hh' _ => ?_⟩
      · rcases hc with hc | hc
        · simp [hc] at hh
        · exact absurd hc hb
      · obtain rfl := Option.some.inj (hh.symm.trans hh')
        rw [h]
        exact plainBeat_plainly rfl rfl rfl rfl hwf
  · rintro before e u rfl hu
    obtain rfl := Host.Outcome.next.inj ((execHardwareReset_eq straps levels before s).symm.trans hu)
    have hwf' := (asserted_kept s before).1 hwf
    have hlast : s.asserted (before ++ [e]) = plainEvent (s.asserted before) e := by
      rw [State.asserted, List.foldl_append]
      rfl
    rw [hlast]
    generalize s.asserted before = s1 at hwf'
    rcases plainEvent_cases s1 e with ⟨b, rfl, hcase⟩ | ⟨rfl, h⟩ | ⟨rfl, hcase⟩
    · refine ⟨fun b' hb' => ?_, fun h => (nomatch h), fun h => (nomatch h)⟩
      obtain rfl : b = b' := by simpa using hb'
      rcases hcase with ⟨hh, h⟩ | ⟨hh, hbusy, h⟩ | ⟨hh, hbusy, h⟩
      · rw [h]
        exact ⟨fun _ => rfl, fun h => absurd h hh, fun h => absurd h hh⟩
      · rw [h]
        exact ⟨fun h => absurd hh h, fun _ _ => rfl, fun _ h => absurd h hbusy⟩
      · rw [h]
        exact ⟨fun h => absurd hh h, fun _ h => absurd hbusy h, fun _ _ => plainBeat_plainly rfl rfl rfl rfl hwf'⟩
    · rw [h]
      exact ⟨fun _ h => (nomatch h), fun _ => rfl, fun h => by simp at h⟩
    · refine ⟨fun _ h => (nomatch h), fun h => by simp at h, fun _ => ?_⟩
      rcases hcase with ⟨hh, h⟩ | ⟨b, hh, h⟩
      · rw [h]
        refine ⟨fun _ => rfl, fun b hb => ?_⟩
        exact absurd (hh.symm.trans hb) (by simp)
      · rw [h]
        refine ⟨fun hn => absurd (hh.symm.trans hn) (by simp), fun b' hb' => ?_⟩
        obtain rfl := Option.some.inj (hh.symm.trans hb')
        exact plainBeat_plainly rfl rfl rfl rfl hwf'

end Sys2Proof.Machine
end

