-- ==== Sys2Proof/Proofs/ResetCommand.lean ====
section
/-! PROOF. The RESET command completes (O46). -/

namespace Sys2Proof.Machine

/-- The cut of a census as one update (R168). -/
theorem cutCensus_update (s : State) : ∃ status marked, cutCensus s = { s with
    census := s.census.map (fun c => { c with cut := true }), status := status
    writeMarks := { s.writeMarks with status := marked } } := by
  rcases cutCensus_cases s with ⟨h, hc⟩ | ⟨c, hs, -, h⟩
  · have hm : s.census.map (fun c => { c with cut := true }) = s.census := by
      cases hs : s.census with
      | none => rfl
      | some c => rw [Option.map_some, ← hc c hs]
    exact ⟨s.status, s.writeMarks.status, by rw [h, hm]⟩
  · exact ⟨_, true, by rw [h, hs]; rfl⟩

/-- A RESET's RESTART (R165). -/
theorem softRestart_eq (r : Option RestartReason) : softRestart r =
    some (if r = some .hardReset then .hardReset else if r = some .ringMoved then .ringMoved else .softReset) := by
  rcases r with _ | _ | _ | _
  · rfl
  · rfl
  · rfl
  · rfl

/-- A take leaves what its event does not name (R161): memory, the arbiter, the command status and the write-pending
marks. -/
theorem takeNotice_restore (u : State) :
    { takeNotice u with mem := u.mem, arb := u.arb, status := u.status, writeMarks := u.writeMarks } = takeNotice u := by
  have h := takeNotice_frame u
  generalize takeNotice u = t at h ⊢
  have hmem : t.mem = u.mem := (congrArg State.mem h :)
  have harb : t.arb = u.arb := (congrArg State.arb h :)
  have hstatus : t.status = u.status := (congrArg State.status h :)
  have hmarks : t.writeMarks = u.writeMarks := (congrArg State.writeMarks h :)
  rw [← hmem, ← harb, ← hstatus, ← hmarks]

/-- A command that ends with a take from `u`: what its beat leaves (R161, R171, R172). The arbiter may enter the closing with
another window than the state before. -/
theorem commandDone_take {s0 s u : State} {b : Beat} {tag : Byte} {o : CmdOutcome} {detail : Nat}
    (hwf : Memory.wf s.mem = true) (hmem : u.mem = (s.passBeat b b.data).mem) (hs : s0 = { s with arb := u.arb })
    (hstatus : u.status = { tag, outcome := o, detail }) (hA : u.writeMarks.partA = s.writeMarks.partA)
    (hB : u.writeMarks.partB = s.writeMarks.partB) (hm : u.writeMarks.status = true) :
    ∃ t, finishBeat b s (takeNotice u) = t ∧ s0.commandDone t b tag o detail ∧
      { t with mem := u.mem, arb := u.arb, status := u.status, writeMarks := u.writeMarks } = takeNotice u := by
  subst hs
  have hf := takeNotice_restore u
  have h := takeNotice_frame u
  generalize takeNotice u = x at h hf ⊢
  have xmem : x.mem = u.mem := (congrArg State.mem h :)
  have xarb : x.arb = u.arb := (congrArg State.arb h :)
  have xstatus : x.status = u.status := (congrArg State.status h :)
  have xmarks : x.writeMarks = u.writeMarks := (congrArg State.writeMarks h :)
  obtain ⟨A, ht, hA'⟩ := finishBeat_update b { s with arb := u.arb } x
  have hfin : finishBeat b s x = finishBeat b { s with arb := u.arb } x := rfl
  refine ⟨_, rfl, ⟨⟨fun a => ?_, ?_⟩, ?_, ?_⟩, ?_⟩
  · rw [hfin, ht]
    show readByte x.mem a = byteAfterBeat s b b.data a
    rw [xmem, hmem]
    exact State.passBeat_byte b b.data hwf a
  · rw [hfin]
    exact (congrArg State.arb ht).trans (hA' xarb)
  · rw [hfin, ht]
    exact xstatus.trans hstatus
  · rw [hfin, ht]
    rw [markStatusWords_eq, xmarks, hA, hB, hm]
    rfl
  · rw [hfin, ht]
    exact hf

/-- The part at a RESET before the take that ends it (R161, R184). -/
def resetBeforeTake (tag : Byte) (b : Beat) (s : State) : State :=
  record tag .done 0 (softReset (cutCensus { s.passBeat b b.data with latch := none }))

/-- The part before the take, but for the command status and its mark: the reset of the state with its census cut. -/
theorem resetBeforeTake_eq (tag : Byte) (b : Beat) (s : State) : resetBeforeTake tag b s =
    record tag .done 0 (softReset { s with
      mem := writeBeat s.mem b.addr.toNat b.be b.data, latch := none
      census := s.census.map (fun c => { c with cut := true }) }) := by
  obtain ⟨status, marked, h⟩ := cutCensus_update { s.passBeat b b.data with latch := none }
  rw [resetBeforeTake, h]
  rfl

/-- Settles O46: the beat is taken as RESET, whose body is the cut, the reset of the part and the outcome before the take. -/
theorem resetCommandCompletes : Obligations.ResetCommandCompletes := by
  intro tag arg burst s htakes hwf
  obtain ⟨hf, hp⟩ := (takesCommands_iff s).mp htakes
  have hrow : s.rowOf (s.mailboxBeat 9 tag arg burst) = .reset := rowOf_mailboxBeat s 9 tag arg burst hp
  have heff : effReset (s.mailboxBeat 9 tag arg burst) s =
      takeNotice (resetBeforeTake tag (s.mailboxBeat 9 tag arg burst) s) := by
    have htag := beatTag_mailboxBeat s 9 tag arg burst
    show takeNotice (resetBeforeTake (beatTag (s.mailboxBeat 9 tag arg burst)) _ s) = _
    rw [htag]
  have hexec : exec (.resetCmd tag arg burst) s = .next (finishBeat (s.mailboxBeat 9 tag arg burst) s
      (takeNotice (resetBeforeTake tag (s.mailboxBeat 9 tag arg burst) s))) := by
    rw [← heff]
    exact present_forwards hf hrow
  rw [resetBeforeTake_eq] at hexec
  obtain ⟨t, ht, hdone, htake⟩ := commandDone_take (u := record tag .done 0 (softReset { s with
      mem := writeBeat s.mem (s.mailboxBeat 9 tag arg burst).addr.toNat (s.mailboxBeat 9 tag arg burst).be
        (s.mailboxBeat 9 tag arg burst).data
      latch := none, census := s.census.map (fun c => { c with cut := true }) }))
    (b := s.mailboxBeat 9 tag arg burst) hwf rfl rfl rfl rfl rfl rfl
  refine ⟨_, t, ht ▸ hexec, hdone, ?_, rfl, rfl, rfl, rfl, rfl, rfl, rfl, rfl, rfl, rfl, rfl, rfl, rfl, rfl, rfl,
    fun k => ?_, rfl, fun k => ?_, fun n => ?_, rfl, rfl, rfl, ?_, htake, rfl⟩
  · show s.stateAfterReset = _
    cases hpart : s.part <;> simp only [State.stateAfterReset, hpart]
  · exact Vector.getElem_replicate _
  · exact mapTable_getElem_fin _ _ k
  · exact mapTable_getElem_fin _ _ n
  · exact softRestart_eq s.restart

end Sys2Proof.Machine
end

