-- ==== Sys2Proof/Proofs/Completion.lean ====
section
/-! The COMMIT completion (R19, R68, R72, R145, R164, R183). The RECONFIGURED closes run over the slots in turn, and one
close does not bear on the next: `State.reconfiguredTo` says what they have made of the part after some of the slots. -/

namespace Sys2Proof.Machine

/-! ## The RECONFIGURED closes -/

/-- What the completion leaves in slot `k`: an incident whose subject is gone is close-due if it is announced, and freed if
not (R142, R145). -/
def State.reconfigured (s : State) (k : Fin 32) : Option Incident :=
  (s.slot k).bind fun i =>
    if k ≠ 0 ∧ i.close = none ∧ s.subjectGone i = true then
      if i.announced then some { i with close := some { reason := .reconfigured, absorber := 0 }, soak := none } else none
    else some i

/-- The completion frees slot `k` (R145). -/
def State.frees (s : State) (k : Fin 32) : Bool := (s.slot k).isSome && (s.reconfigured k).isNone

/-- Slot `j` is not freed by the closes of the slots in `l`. -/
def State.keeps (s : State) (l : List (Fin 32)) (j : Fin 32) : Bool := !(decide (j ∈ l) && s.frees j)

/-- The entry with its covering field none unless it names a slot that `p` holds of (R146). -/
def Entry.keeping (p : Fin 32 → Bool) (e : Entry) : Entry := { e with covering := e.covering.filter p }

/-- `t` is `s` after the closes of the slots in `l` (R145). -/
structure State.reconfiguredTo (s : State) (l : List (Fin 32)) (t : State) : Prop where
  nodes : t.nodes = s.nodes
  slots : ∀ k, t.slot k = if k ∈ l then s.reconfigured k else s.slot k
  order : t.order = s.order.filter (s.keeps l)
  entries : ∀ m, t.entry m = (s.entry m).keeping (s.keeps l)

/-- One close keeps its slot's incident, changes it, or frees the slot (R142, R145). -/
theorem reconfigureSlot_cases (s : State) (k : Fin 32) :
    (s.reconfigured k = s.slot k ∧ reconfigureSlot s k = s) ∨
    (∃ i, s.reconfigured k = some i ∧ reconfigureSlot s k = s.putSlot k i) ∨
    (s.frees k = true ∧ s.reconfigured k = none ∧ reconfigureSlot s k = freeSlot k s) := by
  unfold State.frees State.reconfigured reconfigureSlot
  cases hk : s.slot k with
  | none => exact .inl ⟨rfl, rfl⟩
  | some i =>
    by_cases hg : k ≠ 0 ∧ i.close = none ∧ s.subjectGone i = true
    · rcases closeIncident_cases k .reconfigured 0 i s with ⟨ha, h⟩ | ⟨ha, h⟩
      · exact .inr (.inl ⟨_, by simp only [Option.bind_some, if_pos hg, if_pos ha]; rfl,
          by simp only [if_pos hg, h]⟩)
      · exact .inr (.inr ⟨by simp [hg, ha], by simp [hg, ha], by simp only [if_pos hg, h]⟩)
    · exact .inl ⟨by simp [hg], by simp only [if_neg hg]⟩

theorem frees_of_reconfigured_eq {s : State} {k : Fin 32} (h : s.reconfigured k = s.slot k) : s.frees k = false := by
  rw [State.frees, h]
  cases s.slot k
  · rfl
  · rfl

theorem frees_of_reconfigured_some {s : State} {k : Fin 32} {i : Incident} (h : s.reconfigured k = some i) :
    s.frees k = false := by
  rw [State.frees, h]
  exact Bool.and_false _

theorem keeps_nil (s : State) : s.keeps [] = fun _ => true := by
  funext j
  simp [State.keeps]

/-- A slot that is not freed drops out of no list. -/
theorem keeps_append_kept {s : State} {k : Fin 32} (hf : s.frees k = false) (l : List (Fin 32)) :
    s.keeps (l ++ [k]) = s.keeps l := by
  funext j
  by_cases hj : j = k
  · simp [State.keeps, hj, hf]
  · simp [State.keeps, hj]

theorem keeps_append_freed {s : State} {k : Fin 32} (hf : s.frees k = true) (l : List (Fin 32)) :
    s.keeps (l ++ [k]) = fun j => decide (j ≠ k) && s.keeps l j := by
  funext j
  by_cases hj : j = k
  · simp [State.keeps, hj, hf]
  · simp [State.keeps, hj]

theorem Entry.keeping_all (e : Entry) : e.keeping (fun _ => true) = e := by
  cases h : e.covering with
  | none => rw [keeping, h, Option.filter_none, ← h]
  | some j => rw [keeping, h, Option.filter_some, if_pos rfl, ← h]

/-- A slot freed besides those that `p` tells (R146). -/
theorem Entry.keeping_freed (p : Fin 32 → Bool) (k : Fin 32) (e : Entry) :
    (if (e.keeping p).covering = some k then { e.keeping p with covering := none } else e.keeping p) =
      e.keeping fun j => decide (j ≠ k) && p j := by
  unfold keeping
  cases e.covering with
  | none => rfl
  | some j =>
    cases hp : p j
    · simp [Option.filter_some, hp]
    · by_cases hj : j = k
      · simp [Option.filter_some, hj]
      · simp [Option.filter_some, hp, hj]

/-- Whether a subject is gone is told by the nodes and by which terminals are provisioned (R145). -/
theorem subjectGone_congr {s t : State} (hn : t.nodes = s.nodes)
    (he : ∀ m, (t.entry m).provisioned = (s.entry m).provisioned) (i : Incident) : t.subjectGone i = s.subjectGone i := by
  unfold State.subjectGone
  rw [hn]
  cases i.subject with
  | node n => rfl
  | terminal m => exact congrArg (!·) (he m)
  | nothing => rfl

namespace State.reconfiguredTo
variable {s t : State} {l : List (Fin 32)} {k : Fin 32}

theorem refl (s : State) : s.reconfiguredTo [] s where
  nodes := rfl
  slots := by simp
  order := by simp [keeps_nil]
  entries m := by rw [keeps_nil, Entry.keeping_all]

/-- A slot that has not had its close yet gets the one it has in `s`. -/
theorem reconfigured_eq (h : s.reconfiguredTo l t) (hk : k ∉ l) : t.reconfigured k = s.reconfigured k := by
  have hs : t.slot k = s.slot k := (h.slots k).trans (if_neg hk)
  have hg : t.subjectGone = s.subjectGone :=
    funext (subjectGone_congr h.nodes fun m => (congrArg Entry.provisioned (h.entries m) :))
  rw [State.reconfigured, hs, hg, State.reconfigured]

theorem frees_eq (h : s.reconfiguredTo l t) (hk : k ∉ l) : t.frees k = s.frees k := by
  rw [State.frees, h.reconfigured_eq hk, h.slots k, if_neg hk, State.frees]

/-- The next slot's close. -/
theorem step (h : s.reconfiguredTo l t) (hk : k ∉ l) : s.reconfiguredTo (l ++ [k]) (reconfigureSlot t k) := by
  have hsl : ∀ j, (if j ∈ l ++ [k] then s.reconfigured j else s.slot j) = if k = j then s.reconfigured k else t.slot j := by
    intro j
    rw [h.slots j]
    by_cases hj : k = j
    · simp [← hj]
    · simp [hj, Ne.symm hj]
  rcases reconfigureSlot_cases t k with ⟨hr, he⟩ | ⟨i, hr, he⟩ | ⟨hf, hr, he⟩
  · have hd := keeps_append_kept ((h.frees_eq hk).symm.trans (frees_of_reconfigured_eq hr)) l
    rw [h.reconfigured_eq hk] at hr
    rw [he]
    refine ⟨h.nodes, fun j => ?_, by rw [hd, h.order], fun m => by rw [hd, h.entries]⟩
    rw [hsl, hr]
    split
    · next hj => rw [hj]
    · rfl
  · have hd := keeps_append_kept ((h.frees_eq hk).symm.trans (frees_of_reconfigured_some hr)) l
    rw [h.reconfigured_eq hk] at hr
    rw [he]
    refine ⟨h.nodes, fun j => ?_, by rw [hd, State.putSlot_order, h.order], fun m => ?_⟩
    · rw [hsl, hr, putSlot_slot]
    · rw [hd]
      exact h.entries m
  · have hd := keeps_append_freed ((h.frees_eq hk).symm.trans hf) l
    rw [h.reconfigured_eq hk] at hr
    rw [he]
    refine ⟨h.nodes, fun j => ?_, ?_, fun m => ?_⟩
    · rw [hsl, hr, freeSlot_slot]
    · rw [hd, freeSlot_order, h.order, List.filter_filter]
    · rw [hd, freeSlot_entry, h.entries, Entry.keeping_freed]

/-- The closes of slots in turn, none twice. -/
theorem foldl (s : State) (l : List (Fin 32)) (hl : l.Nodup) : s.reconfiguredTo l (l.foldl reconfigureSlot s) := by
  induction l using List.reverseRecOn with
  | nil => exact refl s
  | append_singleton l k ih =>
    rw [List.foldl_append, List.foldl_cons, List.foldl_nil]
    obtain ⟨hl, -, hd⟩ := List.nodup_append.mp hl
    exact (ih hl).step fun hk => hd k hk k (List.mem_singleton_self k) rfl

end State.reconfiguredTo

/-- The closes of all slots. -/
theorem closeGone_reconfiguredTo (s : State) : s.reconfiguredTo (indices 32) (closeGone s) := by
  rw [closeGone_eq]
  exact State.reconfiguredTo.foldl s _ indices_nodup

/-! ## The tables at the completion -/

section
variable (l : Load) (s : State)

/-- The part with its counts rebuilt and its disabled nodes cleared, before the closes (R68, R72). -/
def State.rebuilt : State := { s with nodes := s.rebuiltNodes }

theorem rebuiltNodes_node (n : Fin 128) :
    s.rebuiltNodes[n] = clearDisabled (recountNode s.nodes s.entries n s.nodes[n]) := by
  rw [State.rebuiltNodes, mapTable_getElem_fin, recountNodes, mapTable_getElem_fin, Fin.ofNat_val_eq_self]

theorem clearDisabled_enabled (n : Node) : (clearDisabled n).enabled = n.enabled := by
  unfold clearDisabled
  split
  · rfl
  · rfl

theorem clearDisabled_tree (n : Node) : (clearDisabled n).tree = n.tree := by
  unfold clearDisabled
  split
  · rfl
  · rfl

/-- An incident's subject is gone: its node is disabled or not in its family's tree, or its terminal is not provisioned
(R145). -/
theorem subjectGone_rebuilt_iff (i : Incident) : s.rebuilt.subjectGone i = true ↔
    (∃ n, i.subject = .node n ∧
      (s.nodes[n].enabled = false ∨ ∀ f, i.kind.family = some f → s.nodes[n].tree ≠ f.tree)) ∨
    ∃ m, i.subject = .terminal m ∧ (s.entry m).provisioned = false := by
  unfold State.subjectGone
  cases i.subject with
  | nothing => simp
  | terminal m => simp [State.rebuilt, State.entry]
  | node n =>
    have he : s.rebuilt.nodes[n].enabled = s.nodes[n].enabled := by
      rw [State.rebuilt, rebuiltNodes_node, clearDisabled_enabled]
      rfl
    have ht : s.rebuilt.nodes[n].tree = s.nodes[n].tree := by
      rw [State.rebuilt, rebuiltNodes_node, clearDisabled_tree]
      rfl
    simp only [he, ht]
    cases i.kind.family with
    | none => simp
    | some f => simp

theorem completionBeforeTake_nodes : (completionBeforeTake l s).nodes = s.rebuiltNodes := by
  rw [completionBeforeTake_eq]
  show (applyNoticeRing l.notices (takeRegions l (completionClosed s))).nodes = _
  rw [applyNoticeRing_nodes, takeRegions_nodes]
  exact (closeGone_reconfiguredTo s.rebuilt).nodes

theorem completionBeforeTake_slot (k : Fin 32) : (completionBeforeTake l s).slot k = s.rebuilt.reconfigured k := by
  rw [completionBeforeTake_eq]
  show (applyNoticeRing l.notices (takeRegions l (completionClosed s))).slots[k] = _
  rw [applyNoticeRing_slots, takeRegions_slots]
  exact ((closeGone_reconfiguredTo s.rebuilt).slots k).trans (if_pos (mem_indices k))

theorem completionBeforeTake_order :
    (completionBeforeTake l s).order = s.order.filter (s.rebuilt.keeps (indices 32)) := by
  rw [completionBeforeTake_eq]
  show (applyNoticeRing l.notices (takeRegions l (completionClosed s))).order = _
  rw [applyNoticeRing_order, takeRegions_order]
  exact (closeGone_reconfiguredTo s.rebuilt).order

theorem completionBeforeTake_entry (m : Fin 512) :
    (completionBeforeTake l s).entry m = (s.entry m).keeping (s.rebuilt.keeps (indices 32)) := by
  rw [completionBeforeTake_eq]
  show (applyNoticeRing l.notices (takeRegions l (completionClosed s))).entries[m] = _
  rw [applyNoticeRing_entries, takeRegions_entries]
  exact (closeGone_reconfiguredTo s.rebuilt).entries m

/-- A slot drops out of the lists that name it exactly if the completion frees it. -/
theorem keeps_rebuilt (j : Fin 32) : s.rebuilt.keeps (indices 32) j =
    ((s.slot j).isNone || ((completionBeforeTake l s).slot j).isSome) := by
  rw [completionBeforeTake_slot, State.keeps, decide_eq_true (mem_indices j), State.frees]
  show (!(true && ((s.slot j).isSome && _))) = _
  cases s.slot j <;> cases s.rebuilt.reconfigured j <;> rfl

/-! ## The notice ring at the completion -/

@[simp] theorem completionClosed_noticeRing : (completionClosed s).noticeRing = s.noticeRing :=
  (congrArg State.noticeRing (completionClosed_frame s) :)
@[simp] theorem completionClosed_producer : (completionClosed s).producer = s.producer :=
  (congrArg State.producer (completionClosed_frame s) :)
@[simp] theorem completionClosed_consumer : (completionClosed s).consumer = s.consumer :=
  (congrArg State.consumer (completionClosed_frame s) :)
@[simp] theorem completionClosed_ringFault : (completionClosed s).ringFault = s.ringFault :=
  (congrArg State.ringFault (completionClosed_frame s) :)
@[simp] theorem completionClosed_restart : (completionClosed s).restart = s.restart :=
  (congrArg State.restart (completionClosed_frame s) :)
@[simp] theorem completionClosed_headerDue : (completionClosed s).headerDue = s.headerDue :=
  (congrArg State.headerDue (completionClosed_frame s) :)
@[simp] theorem completionClosed_notice : (completionClosed s).notice = s.notice :=
  (congrArg State.notice (completionClosed_frame s) :)

/-- The ring in use is applied again: a ring that waits is dropped (R164, log entry 10). -/
theorem completionBeforeTake_same (h : s.noticeRing = some l.notices) :
    (completionBeforeTake l s).noticeRing = s.noticeRing ∧ (completionBeforeTake l s).producer = s.producer ∧
    (completionBeforeTake l s).consumer = s.consumer ∧ (completionBeforeTake l s).ringFault = s.ringFault ∧
    (completionBeforeTake l s).restart = s.restart ∧ (completionBeforeTake l s).headerDue = s.headerDue ∧
    (completionBeforeTake l s).ringWaiting = none := by
  have he : applyNoticeRing l.notices (takeRegions l (completionClosed s)) =
      { takeRegions l (completionClosed s) with ringWaiting := none } := if_pos (by simpa using h)
  rw [completionBeforeTake_eq, he]
  simp

/-- Another ring is initialised at once if no notice is in progress (R164). -/
theorem completionBeforeTake_init (h : s.noticeRing ≠ some l.notices) (hn : s.notice = none) :
    (completionBeforeTake l s).noticeRing = some l.notices ∧ (completionBeforeTake l s).producer = 0 ∧
    (completionBeforeTake l s).consumer = 0 ∧ (completionBeforeTake l s).ringFault = false ∧
    (completionBeforeTake l s).headerDue = true ∧ (completionBeforeTake l s).ringWaiting = none ∧
    (completionBeforeTake l s).restart = some (if s.noticeRing = none then .hardReset else .ringMoved) := by
  have he : applyNoticeRing l.notices (takeRegions l (completionClosed s)) =
      initRing l.notices (takeRegions l (completionClosed s)) :=
    (if_neg (by simpa using h)).trans (if_neg (by simp [hn]))
  rw [completionBeforeTake_eq, he]
  simp [initRing]

/-- Another ring waits for the notice in progress to end (R164). -/
theorem completionBeforeTake_wait (h : s.noticeRing ≠ some l.notices) (hn : s.notice ≠ none) :
    (completionBeforeTake l s).noticeRing = s.noticeRing ∧ (completionBeforeTake l s).producer = s.producer ∧
    (completionBeforeTake l s).consumer = s.consumer ∧ (completionBeforeTake l s).ringFault = s.ringFault ∧
    (completionBeforeTake l s).headerDue = s.headerDue ∧ (completionBeforeTake l s).restart = s.restart ∧
    (completionBeforeTake l s).ringWaiting = some l.notices := by
  have he : applyNoticeRing l.notices (takeRegions l (completionClosed s)) =
      { takeRegions l (completionClosed s) with ringWaiting := some l.notices } :=
    (if_neg (by simpa using h)).trans (if_pos (by simpa [Option.isSome_iff_ne_none] using hn))
  rw [completionBeforeTake_eq, he]
  simp

/-! ## The obligation -/

/-- The completion ends with the take and keeps the arbiter but for its window (R161, R191). -/
theorem finish_completionEvent :
    (completionBeforeTake l s).takesInto (finish s (completionEvent l s)) ∧
    (finish s (completionEvent l s)).arb = s.arbAfterEvent (finish s (completionEvent l s)) := by
  rw [completionEvent_eq, State.takesInto]
  have hu : (completionBeforeTake l s).arb = s.arb := (congrArg State.arb (completionBeforeTake_frame l s) :)
  generalize completionBeforeTake l s = u at hu ⊢
  have hr := takeNotice_restore u
  have ha : (takeNotice u).arb = u.arb := (congrArg State.arb (takeNotice_frame u) :)
  have hm : (takeNotice u).mem = u.mem := (congrArg State.mem (takeNotice_frame u) :)
  have hst : (takeNotice u).status = u.status := (congrArg State.status (takeNotice_frame u) :)
  generalize takeNotice u = v at hr ha hm hst ⊢
  obtain ⟨A, ht, hA, -⟩ := finish_update s v
  have hA := hA (ha.trans hu)
  generalize finish s v = t at ht hA ⊢
  subst ht
  refine ⟨?_, hA⟩
  rw [← hm, ← hst] at hr
  exact hr

theorem Tree.ne_fibre_iff (x : Tree) : x ≠ .fibre ↔ x = .power := by cases x <;> simp

theorem Tree.ne_power_iff (x : Tree) : x ≠ .power ↔ x = .fibre := by cases x <;> simp

theorem keeping_rebuilt (e : Entry) : e.keeping (s.rebuilt.keeps (indices 32)) =
    { e with covering := match e.covering with
      | none => none
      | some j => if s.slot j ≠ none ∧ (completionBeforeTake l s).slot j = none then none else some j } := by
  unfold Entry.keeping
  cases e.covering with
  | none => rfl
  | some j =>
    simp only [Option.filter_some, keeps_rebuilt l s j]
    cases s.slot j <;> cases (completionBeforeTake l s).slot j <;> rfl

end

/-- Settles O52: each slot's close by `State.reconfiguredTo`, the ring by its three cases, the rest by the frame. -/
theorem commitCompletionTakesTheSetupIntoUse : Obligations.CommitCompletionTakesTheSetupIntoUse := by
  intro s l hl happ hdone
  have hexec : exec .commitCompletion s = .next (finish s (completionEvent l s)) := by
    show execCommitCompletion s = _
    unfold execCommitCompletion
    simp [hl, happ, hdone]
  obtain ⟨htake, harb⟩ := finish_completionEvent l s
  have hu := completionBeforeTake_eq l s
  refine ⟨completionBeforeTake l s, _, fun i => s.rebuilt.subjectGone i = true, hexec, fun i => ?_, fun n => ?_,
    fun k i hk => ?_, fun k hk => ?_, completionBeforeTake_intakeRing l s, ?_, fun h => ?_, fun h => ?_,
    completionBeforeTake_same l s, completionBeforeTake_init l s, completionBeforeTake_wait l s,
    (congrArg State.settle hu :), (congrArg State.passRequest hu :), (congrArg State.editLimit hu :),
    (congrArg State.load hu :), (congrArg State.configured hu :), (congrArg State.part hu :),
    (congrArg State.origin hu :), (congrArg State.clamped hu :), (congrArg State.disturbed hu :),
    (congrArg State.status hu :), (congrArg (fun u : State => u.writeMarks.status) hu :), ?_, fun m => ?_,
    completionBeforeTake_frame l s, htake, harb⟩
  · refine (subjectGone_rebuilt_iff s i).trans (or_congr (exists_congr fun n => and_congr_right fun _ =>
      or_congr_right (forall₂_congr fun f _ => ?_)) Iff.rfl)
    cases f with
    | dark => exact Tree.ne_fibre_iff _
    | power => exact Tree.ne_power_iff _
    | dim => exact Tree.ne_fibre_iff _
  · rw [completionBeforeTake_nodes, rebuiltNodes_node]
    rfl
  · have hr : s.rebuilt.slot k = some i := hk
    rw [completionBeforeTake_slot, State.reconfigured, hr, Option.bind_some]
    refine ⟨fun h => if_neg ?_, fun h0 hc hg => ⟨fun ha => ?_, fun ha => ?_⟩⟩
    · rintro ⟨h0, hc, hg⟩
      rcases h with h | h | h
      · exact h0 h
      · exact h hc
      · exact h hg
    · rw [if_pos ⟨h0, hc, hg⟩, ha]
      rfl
    · rw [if_pos ⟨h0, hc, hg⟩, if_pos ha]
  · have hr : s.rebuilt.slot k = none := hk
    rw [completionBeforeTake_slot, State.reconfigured, hr, Option.bind_none]
  · simp [completionBeforeTake_eq]
  · rw [completionBeforeTake_marks, if_pos h]
  · rw [completionBeforeTake_marks, if_neg h]
  · rw [completionBeforeTake_order]
    exact List.filter_congr fun j _ => keeps_rebuilt l s j
  · rw [completionBeforeTake_entry]
    exact keeping_rebuilt l s (s.entry m)

end Sys2Proof.Machine
end

