-- ==== Sys2Proof/Proofs/CoveringFields.lean ====
section
/-! SUPPORT. The events of the Incident Table change the covering fields of the terminal entries and nothing else of
them, and an unprovisioned terminal's stays none (R44, R125, R126, R146). -/

namespace Sys2Proof.Machine

/-- `e'` is `e` but for its covering field, which stays none on an unprovisioned terminal (R23, R126). -/
def Entry.recovered (e e' : Entry) : Prop :=
  e' = { e with covering := e'.covering } ∧ (e.provisioned = false → e.covering = none → e'.covering = none)

theorem Entry.recovered_refl (e : Entry) : e.recovered e := ⟨rfl, fun _ h => h⟩

theorem Entry.recovered_trans {e e' e'' : Entry} (h : e.recovered e') (h' : e'.recovered e'') : e.recovered e'' := by
  obtain ⟨he, hc⟩ := h
  obtain ⟨he', hc'⟩ := h'
  have hp : e'.provisioned = e.provisioned := (congrArg Entry.provisioned he :)
  refine ⟨?_, fun hu hn => hc' (hp.trans hu) (hc hu hn)⟩
  rw [he', he]

/-- Of the terminal entries an event changes the covering fields alone. -/
def State.recovers (s t : State) : Prop := ∀ k, (s.entry k).recovered (t.entry k)

section
variable {s t u : State}

theorem recovers_of_entries (h : t.entries = s.entries) : s.recovers t := by
  intro k
  rw [State.entry, State.entry, h]
  exact Entry.recovered_refl _

theorem recovers_trans (h : s.recovers t) (h' : t.recovers u) : s.recovers u :=
  fun k => Entry.recovered_trans (h k) (h' k)

/-- What every step of a fold changes of the covering fields alone, the fold does. -/
theorem foldl_recovers {α : Type} {f : State → α → State} (h : ∀ (s : State) (a : α), s.recovers (f s a)) (l : List α)
    (s : State) :
    s.recovers (l.foldl f s) := by
  induction l generalizing s with
  | nil => exact recovers_of_entries rfl
  | cons a l ih => exact recovers_trans (h s a) (ih _)

/-- A freed slot's covering fields become none (R146). -/
theorem freeSlot_recovers (k : Fin 32) (s : State) : s.recovers (freeSlot k s) := by
  intro m
  rw [freeSlot_entry]
  split
  · exact ⟨rfl, fun _ _ => rfl⟩
  · exact Entry.recovered_refl _

theorem closeIncident_recovers (k : Fin 32) (r : CloseReason) (n : Nat) (i : Incident) (s : State) :
    s.recovers (closeIncident k r n i s) := by
  rcases closeIncident_cases k r n i s with ⟨-, h⟩ | ⟨-, h⟩
  · rw [h]
    exact recovers_of_entries rfl
  · rw [h]
    exact freeSlot_recovers k s

theorem absorbAll_recovers (k : Fin 32) (i : Incident) (s : State) : s.recovers (absorbAll k i s) := by
  refine foldl_recovers (fun s j => ?_) _ s
  rcases absorbSlot_cases k i s j with h | ⟨other, -, -, h⟩
  · rw [h]
    exact recovers_of_entries rfl
  · rw [h]
    exact closeIncident_recovers j .absorbed i.number other s

theorem matchSlot_recovers (causes : List Cause) (s : State) (k : Fin 32) : s.recovers (matchSlot causes s k) := by
  rcases matchSlot_cases causes s k with h | ⟨i, -, -, -, ⟨c, -, -, h⟩ | ⟨-, ⟨-, h⟩ | ⟨-, h⟩⟩⟩
  · rw [h]
    exact recovers_of_entries rfl
  · rw [h]
    exact recovers_of_entries rfl
  · rw [h]
    exact freeSlot_recovers k s
  · rw [h]
    exact recovers_of_entries rfl

theorem absorbRecurred_recovers (s : State) (k : Fin 32) : s.recovers (absorbRecurred s k) := by
  unfold absorbRecurred
  split
  · exact recovers_of_entries rfl
  · split
    · exact absorbAll_recovers k _ s
    · exact recovers_of_entries rfl

theorem matchAll_recovers (causes : List Cause) (s : State) : s.recovers (matchAll causes s) :=
  recovers_trans (foldl_recovers (matchSlot_recovers causes) _ s) (foldl_recovers absorbRecurred_recovers _ _)

theorem residueRecount_recovers (u : Unplaced) (s : State) : s.recovers (residueRecount u s) := by
  rcases residueRecount_cases u s with h | ⟨-, -, h⟩ | ⟨i, -, -, ⟨-, h⟩ | ⟨-, h⟩⟩
  · rw [h]
    exact recovers_of_entries rfl
  · rw [h]
    exact recovers_of_entries rfl
  · rw [h]
    exact closeIncident_recovers 0 .cleared 0 _ s
  · rw [h]
    exact recovers_of_entries rfl

/-- A matching rewrites the covering fields of the provisioned terminals alone (R126). -/
theorem rewriteCovering_recovers (s : State) : s.recovers (rewriteCovering s) := by
  intro m
  rw [rewriteCovering_entry]
  refine ⟨rfl, fun hu hn => ?_⟩
  rw [State.rewrittenCovering, hu]
  exact hn

/-- An attack expiry covers afflicted terminals alone, and these are provisioned (R24, R126). -/
theorem coverAtOpening_recovers (k : Fin 32) (i : Incident) (s : State) : s.recovers (coverAtOpening k i s) := by
  intro m
  rw [coverAtOpening_entry]
  refine ⟨rfl, fun hu hn => ?_⟩
  have ha (f : Family) : (s.entry m).afflicted f = false := by
    cases f <;> simp [Entry.afflicted, hu]
  have hc : i.coversTerminal s.nodes (s.entry m) = false := by
    unfold Incident.coversTerminal
    cases i.kind.family <;> simp [ha]
  rw [State.coveringAtOpening, hc]
  exact hn

theorem evaluateAll_recovers (s0 s : State) : s.recovers (evaluateAll s0 s) := recovers_of_entries rfl

theorem matchingEvent_recovers (causes : List Cause) (s : State) : s.recovers (matchingEvent causes s) := by
  unfold matchingEvent
  dsimp only
  generalize causes.filter (fun c => !s.causeCovered c) = live
  have hmatch := matchAll_recovers live s
  generalize matchAll live s = s3 at hmatch ⊢
  generalize live.filter (fun c => !s.matched c && !s3.causeCovered c) = new
  have hplace : s3.recovers (placeCauses new s3).1 := recovers_of_entries (placeCauses_entries new s3)
  generalize placeCauses new s3 = placed at hplace ⊢
  have hrest := recovers_trans (residueRecount_recovers (unplacedCounts placed.2) placed.1)
    (recovers_trans (rewriteCovering_recovers _) (evaluateAll_recovers s _))
  generalize evaluateAll s (rewriteCovering (residueRecount (unplacedCounts placed.2) placed.1)) = s7 at hrest ⊢
  exact recovers_trans hmatch (recovers_trans hplace hrest)

theorem attackEvent_recovers (k : Fin 32) (i : Incident) (s : State) : s.recovers (attackEvent k i s) := by
  simp only [attackEvent, markIf_eq]
  generalize s.tested { i with phase := .opened, soak := none } = opened
  have habsorb := recovers_trans (s := s) (recovers_of_entries rfl) (absorbAll_recovers k opened (s.putSlot k opened))
  generalize absorbAll k opened (s.putSlot k opened) = u at habsorb ⊢
  exact recovers_trans habsorb (coverAtOpening_recovers k opened u)

theorem releaseEvent_recovers (k : Fin 32) (i : Incident) (s : State) : s.recovers (releaseEvent k i s) := by
  rw [releaseEvent, markIf_eq]
  exact closeIncident_recovers k .cleared 0 i s

theorem freeClosed_recovers (f : Option (Fin 32)) (s : State) : s.recovers (freeClosed f s) := by
  rcases freeClosed_cases f s with ⟨-, h⟩ | ⟨k, -, h⟩
  · rw [h]
    exact recovers_of_entries rfl
  · rw [h, dirtyMark_eq]
    exact freeSlot_recovers k s

theorem takeNotice_recovers (s : State) : s.recovers (takeNotice s) := recovers_of_entries (takeNotice_entries s)

theorem endingEvent_recovers (e : Ending) (s : State) : s.recovers (endingEvent e s) := by
  rcases endingEvent_cases e s with h | ⟨n, -, -, h⟩ | ⟨n, -, -, h⟩ | ⟨r, -, -, h⟩ | ⟨c, -, -, h⟩ | ⟨c, -, -, h⟩ |
    ⟨-, h⟩
  · rw [h]; exact recovers_of_entries rfl
  · rw [h]; exact recovers_of_entries rfl
  · rw [h, producerEvent]
    have hfree := freeClosed_recovers n.frees { s with producer := s.producer + 1, notice := none }
    exact recovers_trans hfree (recovers_of_entries ((takeNotice_entries _).trans (initWaiting_entries _)))
  · rw [h]; exact takeNotice_recovers { s with headerDue := false }
  · rw [h]; exact recovers_of_entries rfl
  · rw [h]; exact recovers_of_entries rfl
  · rw [h]; exact recovers_of_entries rfl

/-- The completion changes the covering fields that name a slot it frees (R146, R183). -/
theorem completionBeforeTake_recovers (l : Load) (s : State) : s.recovers (completionBeforeTake l s) := by
  intro m
  rw [completionBeforeTake_entry]
  refine ⟨rfl, fun _ hn => ?_⟩
  rw [Entry.keeping, hn]
  rfl

theorem completionEvent_recovers (l : Load) (s : State) : s.recovers (completionEvent l s) := by
  rw [completionEvent_eq]
  exact recovers_trans (completionBeforeTake_recovers l s) (takeNotice_recovers _)

end

end Sys2Proof.Machine
end

