-- ==== Sys2Proof/Proofs/EntryEvidence.lean ====
section
/-! PROOF. What the evidence leaves of a terminal entry (O14): one case lemma for each form of evidence. -/

namespace Sys2Proof.Machine

section
variable (p : Settings) (e : Entry) (power : Int) (round : Byte) (limit : Nat)

/-! ## The Level Filter -/

/-- The Level Filter on a STATUS: nothing, a seed of an empty filter, or a step of a present one (R49, R52, R53). -/
theorem filterStatus_cases :
    (power = -32768 ∧ e.filterStatus p power = e) ∨
    (power ≠ -32768 ∧ e.filter = none ∧ e.filterStatus p power = e.takeFilter p (seedFilter (clampReading power))) ∨
    ∃ f, power ≠ -32768 ∧ e.filter = some f ∧
      e.filterStatus p power = e.takeFilter p (stepFilter p.filterShift (clampReading power) f) := by
  unfold Entry.filterStatus notMeasured
  by_cases hp : power = -32768
  · exact .inl ⟨hp, if_pos hp⟩
  · rw [if_neg hp]
    cases hf : e.filter with
    | none => exact .inr (.inl ⟨hp, rfl, rfl⟩)
    | some f => exact .inr (.inr ⟨f, hp, rfl, rfl⟩)

/-- The Level Filter on a LINK: nothing, or a seed (R49, R58). -/
theorem filterLink_cases :
    (power = -32768 ∧ e.filterLink p power = e) ∨
    (power ≠ -32768 ∧ e.filterLink p power = e.takeFilter p (seedFilter (clampReading power))) := by
  unfold Entry.filterLink notMeasured
  by_cases hp : power = -32768
  · exact .inl ⟨hp, if_pos hp⟩
  · exact .inr ⟨hp, if_neg hp⟩

/-! ## The lit entry -/

/-- The entry as a STATUS or a LINK finds it in LIT, before the Level Filter (R26, R27). -/
def Entry.relit (lastRound : Option Byte) : Entry := { e with lastRound, silence := 0, missRun := 0, link := .lit }

/-- The state of a terminal that a STATUS or a LINK leaves: that of the relit entry but for filter and DIM, and a filter
taken comes with its DIM test (R26, R27, R56). -/
structure Entry.litBy (e' : Entry) (lastRound : Option Byte) : Prop where
  frame : { e' with filter := e.filter, dim := e.dim } = e.relit lastRound
  unmeasured : power = -32768 → e'.filter = e.filter ∧ e'.dim = e.dim
  tested : power ≠ -32768 → ∀ f, e'.filter = some f → e'.dim = dimTest p.dimSet p.dimClear f e.dim

variable {p e power} in
/-- A filter taken on the relit entry, for a measured reading. -/
theorem litBy_takeFilter (r : Option Byte) (f : Int) (h : power ≠ -32768) :
    e.litBy p power ((e.relit r).takeFilter p f) r := by
  refine ⟨rfl, fun hp => absurd hp h, fun _ g hg => ?_⟩
  obtain rfl : f = g := Option.some.inj hg
  rfl

variable {p e power} in
theorem litBy_relit (r : Option Byte) (h : power = -32768) : e.litBy p power (e.relit r) r :=
  ⟨rfl, fun _ => ⟨rfl, rfl⟩, fun hp => absurd h hp⟩

theorem status_eq : e.status p round power = (e.relit (some round)).filterStatus p power := rfl

theorem linked_eq : e.linked p power = (e.relit none).filterLink p power := rfl

theorem status_litBy : e.litBy p power (e.status p round power) (some round) := by
  rw [status_eq]
  rcases filterStatus_cases p (e.relit (some round)) power with ⟨hp, h⟩ | ⟨hp, -, h⟩ | ⟨f, hp, -, h⟩
  · rw [h]
    exact litBy_relit (some round) hp
  · rw [h]
    exact litBy_takeFilter (some round) _ hp
  · rw [h]
    exact litBy_takeFilter (some round) _ hp

theorem linked_litBy : e.litBy p power (e.linked p power) none := by
  rw [linked_eq]
  rcases filterLink_cases p (e.relit none) power with ⟨hp, h⟩ | ⟨hp, h⟩
  · rw [h]
    exact litBy_relit none hp
  · rw [h]
    exact litBy_takeFilter none _ hp

/-! ## The falls -/

/-- A fall of a LIT or FADING terminal (R28, R31, R34). -/
theorem fall_eq (h : e.link = .lit ∨ e.link = .fading) :
    e.fall = e.fallTo (if e.link = Link.lit then .dark else .spent) := by
  unfold Entry.fall
  rcases h with h | h
  · simp [h]
  · simp [h]

theorem missed_dark (hl : e.link ≠ .lit) (hf : e.link ≠ .fading) :
    e.missed p round = { e with lastRound := some round } := by
  unfold Entry.missed
  exact if_neg (by simp [hl, hf])

/-- A MISS of a LIT or FADING terminal counts in the miss run, which may end in a fall (R28). -/
theorem missed_live (h : e.link = .lit ∨ e.link = .fading) : e.missed p round =
    if p.missLimit ≠ 0 ∧ p.missLimit ≤ min 15 (e.missRun + 1) then
      { e with lastRound := some round }.fallTo (if e.link = Link.lit then .dark else .spent)
    else { e with lastRound := some round, missRun := min 15 (e.missRun + 1) } := by
  unfold Entry.missed
  refine (if_pos h).trans ?_
  dsimp only [Config.missRunMax]
  rw [fall_eq { e with lastRound := some round, missRun := min 15 (e.missRun + 1) } h]
  rfl

theorem gasped_live (h : e.link = .unheard ∨ e.link = .lit) : e.gasped = { e with link := .fading } := by
  unfold Entry.gasped
  rcases h with h | h
  · rw [h]
  · rw [h]

theorem gasped_dark (h : e.link = .dark) : e.gasped = e.fallTo .spent := by
  unfold Entry.gasped
  rw [h]

theorem gasped_spent (h : e.link = .fading ∨ e.link = .spent) : e.gasped = e := by
  unfold Entry.gasped
  rcases h with h | h
  · rw [h]
  · rw [h]

/-- The silence tap passes over a terminal that is not provisioned or neither LIT nor FADING (R31). -/
theorem silent_other (h : e.provisioned = false ∨ (e.link ≠ .lit ∧ e.link ≠ .fading)) : e.silent limit = e := by
  unfold Entry.silent
  refine if_neg ?_
  rintro ⟨hp, hl⟩
  rcases h with h | ⟨h, h'⟩
  · simp [h] at hp
  · exact hl.elim h h'

/-- A carry of the silence tap at a LIT or FADING terminal: the counter counts, or reaches the limit in a fall (R31). -/
theorem silent_live (hp : e.provisioned = true) (hl : e.link = .lit ∨ e.link = .fading) : e.silent limit =
    if e.silence + 1 = limit then e.fallTo (if e.link = Link.lit then .dark else .spent)
    else { e with silence := e.silence + 1 } := by
  unfold Entry.silent
  refine (if_pos ⟨hp, hl⟩).trans ?_
  dsimp only
  rw [fall_eq { e with silence := e.silence + 1 } hl]
  rfl

end

/-- Settles O14: the filter's two case lemmas for STATUS and LINK, and the equation of each fall. -/
theorem entriesFollowTheEvidence : Obligations.EntriesFollowTheEvidence := by
  refine ⟨fun p e round power => ⟨fun e' he' => ?_, ?_, ?_, fun hp => ⟨?_, fun hf => ?_, fun f hf => ?_,
    fun e' he' => ?_⟩⟩,
    fun p e round limit => ⟨fun _ => rfl, missed_dark p e round, fun h run hrun => ⟨fun hm => ?_, fun h0 hm => ?_⟩,
      gasped_live e, gasped_dark e, gasped_spent e, silent_other e limit, fun hp hl => ⟨fun h => ?_, fun h => ?_⟩⟩⟩
  · have hlit : ∃ r, e.litBy p power e' r := by
      rcases he' with rfl | rfl
      · exact ⟨_, status_litBy p e power round⟩
      · exact ⟨_, linked_litBy p e power⟩
    obtain ⟨r, hframe, hun, -⟩ := hlit
    exact ⟨(congrArg Entry.link hframe :), (congrArg Entry.silence hframe :), (congrArg Entry.missRun hframe :),
      (congrArg Entry.provisioned hframe :), (congrArg Entry.fibreParent hframe :),
      (congrArg Entry.powerParent hframe :), (congrArg Entry.covering hframe :), hun⟩
  · exact (congrArg Entry.lastRound (status_litBy p e power round).frame :)
  · exact (congrArg Entry.lastRound (linked_litBy p e power).frame :)
  · rcases filterLink_cases p (e.relit none) power with ⟨h, -⟩ | ⟨-, h⟩
    · exact absurd h hp
    · exact congrArg Entry.filter h
  · rcases filterStatus_cases p (e.relit (some round)) power with ⟨h, -⟩ | ⟨-, -, h⟩ | ⟨f, -, h, -⟩
    · exact absurd h hp
    · exact congrArg Entry.filter h
    · exact nomatch hf.symm.trans h
  · rcases filterStatus_cases p (e.relit (some round)) power with ⟨h, -⟩ | ⟨-, h, -⟩ | ⟨g, -, hg, h⟩
    · exact absurd h hp
    · exact nomatch hf.symm.trans h
    · obtain rfl : g = f := Option.some.inj (hg.symm.trans hf)
      exact congrArg Entry.filter h
  · rcases he' with rfl | rfl
    · exact (status_litBy p e power round).tested hp
    · exact (linked_litBy p e power).tested hp
  · rw [missed_live p e round h, ← hrun, if_neg (by omega)]
  · rw [missed_live p e round h, ← hrun, if_pos ⟨h0, hm⟩]
  · rw [silent_live e limit hp hl, if_neg h]
  · rw [silent_live e limit hp hl, if_pos h]

end Sys2Proof.Machine
end

