-- ==== Sys2Proof/Proofs/Settings.lean ====
section
/-! PROOF. The settings as read from the staged words, as clamped, and the clamp count (O48). -/

namespace Sys2Proof.Machine

/-! ## The clamps of the settings (R60, R180) -/

theorem clampNat_eq {lo hi : Nat} (h : lo ≤ hi) (n : Nat) : clampNat lo hi n = max lo (min hi n) := by
  unfold clampNat
  split
  · omega
  · split
    · omega
    · omega

theorem clampLevel_eq (x : Int) : clampLevel x = max (-500) (min 100 x) := by
  unfold clampLevel
  split
  · omega
  · split
    · omega
    · omega

theorem clampDimSet_eq (x : Int) : clampDimSet x = max (-500) (min 99 x) := by
  unfold clampDimSet
  rw [clampLevel_eq]
  split
  · omega
  · omega

/-- DIM_CLEAR as applied lies above the applied DIM_SET, whatever is read (R60). -/
theorem clampDimClear_eq {d : Int} (hlo : -500 ≤ d) (hhi : d ≤ 99) (x : Int) :
    clampDimClear d x = max (d + 1) (min 100 x) := by
  unfold clampDimClear
  rw [clampLevel_eq]
  split
  · omega
  · omega

/-- The settings as applied, each by its range (R60, R180). -/
theorem applied_eq (r : Settings) : r.applied = { r with
    filterShift := min 4 r.filterShift
    dimSet := max (-500) (min 99 r.dimSet)
    dimClear := max (max (-500) (min 99 r.dimSet) + 1) (min 100 r.dimClear)
    silenceTap := min 3 r.silenceTap
    silenceLimit := max 2 (min 7 r.silenceLimit)
    missLimit := min 15 r.missLimit
    qDark := max 1 (min 16 r.qDark)
    qDim := max 1 (min 16 r.qDim)
    qPower := max 1 (min 16 r.qPower)
    qMains := max 1 (min 16 r.qMains)
    minAffected := max 1 (min 16 r.minAffected)
    stormLeak := min 15 r.stormLeak
    stormEnter := max 1 (min 1023 r.stormEnter)
    stormExit := if max 1 (min 1023 r.stormEnter) ≤ r.stormExit then max 1 (min 1023 r.stormEnter) - 1
      else r.stormExit } := by
  have hzero (hi n : Nat) : clampNat 0 hi n = min hi n := by rw [clampNat_eq (Nat.zero_le hi), Nat.zero_max]
  have hone (hi n : Nat) (h : 1 ≤ hi) : clampNat 1 hi n = max 1 (min hi n) := clampNat_eq h n
  rw [Settings.applied, clampDimClear_eq (by rw [clampDimSet_eq]; omega) (by rw [clampDimSet_eq]; omega)]
  simp only [hzero, clampDimSet_eq, hone _ _ (by decide : 1 ≤ 16), hone _ _ (by decide : 1 ≤ 1023),
    clampNat_eq (by decide : 2 ≤ 7), clampStormExit]

theorem applied_inRange (r : Settings) : r.applied.inRange := by
  have hexit : (if max 1 (min 1023 r.stormEnter) ≤ r.stormExit then max 1 (min 1023 r.stormEnter) - 1
      else r.stormExit) < max 1 (min 1023 r.stormEnter) := by
    split
    · omega
    · omega
  rw [applied_eq]
  unfold Settings.inRange
  dsimp only
  omega

/-! ## The fields of the staged words (12.4) -/

theorem bits_low (w : Word) (hi : Nat) : bits w hi 0 = w.toNat % 2 ^ (hi + 1) := by
  rw [bits, Nat.pow_zero, Nat.div_one, Nat.sub_zero]

/-- A field that ends with the word's highest bit. -/
theorem bits_high (w : Word) {lo : Nat} (h : lo ≤ 32) : bits w 31 lo = w.toNat / 2 ^ lo := by
  refine Nat.mod_eq_of_lt (Nat.div_lt_of_lt_mul ?_)
  rw [← Nat.pow_add, Nat.add_sub_of_le h]
  exact w.isLt

theorem signedHalf_eq (h : Half) :
    signedHalf h = if h.toNat < 32768 then (h.toNat : Int) else (h.toNat : Int) - 65536 := by
  rw [signedHalf, BitVec.toInt_eq_toNat_cond]
  split <;> split <;> omega

theorem firstHalf_toNat (w : Word) : (firstHalf w).toNat = w.toNat % 65536 := BitVec.toNat_setWidth 16 w

theorem secondHalf_toNat (w : Word) : (secondHalf w).toNat = w.toNat / 65536 := by
  have := w.isLt
  rw [secondHalf, BitVec.toNat_setWidth, BitVec.toNat_ushiftRight, Nat.shiftRight_eq_div_pow]
  omega

/-! ## The clamps of the slot counts (R180) -/

/-- The powers of two from `2 ^ a` to `2 ^ (a + c)`. -/
def powersFrom (a c : Nat) : List Nat := (List.range (c + 1)).map fun i => 2 ^ (a + i)

/-- A slot count clamps to the greatest power of the list that is not above it, else to the least. -/
theorem clampPower_powersFrom (a c n : Nat) : ∃ e, a ≤ e ∧ e ≤ a + c ∧ clampPower (powersFrom a c) (2 ^ a) n = 2 ^ e ∧
    (2 ^ a ≤ n → 2 ^ e ≤ n) ∧ (e ≠ a + c → n < 2 ^ (e + 1)) ∧ (n < 2 ^ a → e = a) := by
  induction c with
  | zero => exact ⟨a, Nat.le_refl _, Nat.le_refl _, ite_self _, id, fun h => absurd rfl h, fun _ => rfl⟩
  | succ c ih =>
    obtain ⟨e, hae, hec, hpow, hle, hlt, hleast⟩ := ih
    have hstep : clampPower (powersFrom a (c + 1)) (2 ^ a) n =
        if 2 ^ (a + (c + 1)) ≤ n then 2 ^ (a + (c + 1)) else 2 ^ e := by
      rw [← hpow, powersFrom, List.range_succ, List.map_append, clampPower, List.foldl_append]
      rfl
    rw [hstep]
    by_cases hn : 2 ^ (a + (c + 1)) ≤ n
    · have hmono : 2 ^ a ≤ 2 ^ (a + (c + 1)) := Nat.pow_le_pow_right (by decide) (by omega)
      exact ⟨a + (c + 1), by omega, Nat.le_refl _, if_pos hn, fun _ => hn, fun h => absurd rfl h, fun h => by omega⟩
    · refine ⟨e, hae, by omega, if_neg hn, hle, fun _ => ?_, hleast⟩
      by_cases he : e = a + c
      · rw [he]
        exact Nat.not_le.mp hn
      · exact hlt he

theorem clampIntakeCount_eq (n : Nat) : clampIntakeCount n = clampPower (powersFrom 4 8) (2 ^ 4) n := rfl

theorem clampNoticeCount_eq (n : Nat) : clampNoticeCount n = clampPower (powersFrom 3 7) (2 ^ 3) n := rfl

/-! ## The clamp counts -/

theorem count_true_cons (b : Bool) (l : List Bool) : (b :: l).count true = flag b + l.count true := by
  cases b
  · exact (Nat.zero_add _).symm
  · exact List.count_cons_self.trans (Nat.add_comm _ _)

/-- The settings that the clamps change, each counted once (R180). -/
theorem settings_clampCount_eq (r : Settings) : r.clampCount = [r.applied.filterShift != r.filterShift,
    r.applied.dimSet != r.dimSet, r.applied.dimClear != r.dimClear, r.applied.silenceTap != r.silenceTap,
    r.applied.silenceLimit != r.silenceLimit, r.applied.missLimit != r.missLimit, r.applied.qDark != r.qDark,
    r.applied.qDim != r.qDim, r.applied.qPower != r.qPower, r.applied.qMains != r.qMains,
    r.applied.minAffected != r.minAffected, r.applied.stormLeak != r.stormLeak,
    r.applied.stormEnter != r.stormEnter, r.applied.stormExit != r.stormExit].count true := by
  simp only [count_true_cons, List.count_nil, Settings.clampCount, Nat.add_assoc, Nat.add_zero, bne_comm]

theorem load_clampCount_eq (l : Load) : l.clampCount =
    [l.intake.base != bits (l.param 4) 23 0, l.intake.count != bits (l.param 5) 15 0,
      l.notices.base != bits (l.param 6) 23 0, l.notices.count != bits (l.param 7) 15 0,
      l.census != bits (l.param 8) 23 0].count true + l.readSettings.clampCount := by
  simp only [count_true_cons, List.count_nil, Load.clampCount, Nat.add_assoc, Nat.add_zero, bne_comm]

/-- Settles O48: each field by its bits, each clamp by its bounds, each slot count by its power of two. -/
theorem settingsAreReadAndClamped : Obligations.SettingsAreReadAndClamped := by
  refine ⟨fun l r w signed hr hw hsigned => ?_, fun r a ha => ?_, rfl, rfl⟩
  · have hword (k : Nat) : (l.param k).toNat = w k := (hw k).symm
    have hhigh (k lo : Nat) (h : lo ≤ 32) : bits (l.param k) 31 lo = w k / 2 ^ lo := hword k ▸ bits_high _ h
    have hbits (k hi lo : Nat) : bits (l.param k) hi lo = w k / 2 ^ lo % 2 ^ (hi + 1 - lo) := by rw [bits, hword]
    have hlow (k hi : Nat) : bits (l.param k) hi 0 = w k % 2 ^ (hi + 1) := hword k ▸ bits_low _ hi
    have hset : signedHalf (secondHalf (l.param 9)) = signed (w 9 / 65536) := by
      rw [signedHalf_eq, secondHalf_toNat, hword, hsigned]
    have hclear : signedHalf (firstHalf (l.param 9)) = signed (w 9 % 65536) := by
      rw [signedHalf_eq, firstHalf_toNat, hword, hsigned]
    subst hr
    refine ⟨hset, hclear, hhigh 10 24 (by decide), hbits 10 23 16, hbits 10 15 8, hlow 10 7, hhigh 11 24 (by decide),
      hbits 11 23 16, hbits 11 15 8, hlow 11 7, hhigh 12 27 (by decide), hbits 12 26 22, hbits 12 21 11, hlow 12 10,
      hhigh 13 28 (by decide), hbits 13 27 24, hbits 13 23 20, hbits 13 19 16, hbits 13 15 12, hbits 13 11 8,
      hbits 13 7 4, hlow 13 3, hword 14, ?_, ?_, ?_, ?_, ?_, ?_⟩
    · exact congrArg (fun n => n / 16 * 16) (hlow 4 23)
    · exact congrArg (fun n => n / 32 * 32) (hlow 6 23)
    · exact congrArg (fun n => n / 4 * 4) (hlow 8 23)
    · have hcount : l.intake.count = clampPower (powersFrom 4 8) (2 ^ 4) (w 5 % 65536) :=
        congrArg clampIntakeCount (hlow 5 15)
      rw [hcount]
      exact clampPower_powersFrom 4 8 _
    · have hcount : l.notices.count = clampPower (powersFrom 3 7) (2 ^ 3) (w 7 % 65536) :=
        congrArg clampNoticeCount (hlow 7 15)
      rw [hcount]
      exact clampPower_powersFrom 3 7 _
    · rw [load_clampCount_eq, hlow, hlow, hlow, hlow, hlow]
      rfl
  · have hcount := settings_clampCount_eq r
    rw [← ha] at hcount
    rw [applied_eq] at ha
    subst ha
    exact ⟨rfl, rfl, rfl, rfl, rfl, rfl, rfl, rfl, rfl, rfl, rfl, rfl, rfl, rfl, rfl, hcount⟩

end Sys2Proof.Machine
end

