-- ==== Sys2Proof/Proofs/EntryLaw.lean ====
section
/-! PROOF. Every step keeps the settings in range and the law of every terminal entry (O5), change by change. -/

namespace Sys2Proof.Machine

/-! ## The filter stays in range (R51, R54) -/

theorem clampReading_range (p : Int) : -500 ≤ clampReading p ∧ clampReading p ≤ 100 := by
  unfold clampReading
  omega

/-- A step toward a reading is not longer than the way to it (R54). -/
theorem filterStep_le (k : Nat) (p f : Int) :
    (0 ≤ 16 * p - f → 0 ≤ filterStep k p f ∧ filterStep k p f ≤ 16 * p - f) ∧
    (16 * p - f ≤ 0 → 16 * p - f ≤ filterStep k p f ∧ filterStep k p f ≤ 0) := by
  unfold filterStep
  dsimp only
  generalize 16 * p - f = d
  have hk : (0 : Int) ≤ 2 ^ k := by positivity
  refine ⟨fun hd => ?_, fun hd => ?_⟩
  · have h1 := Int.tdiv_nonneg hd hk
    have h2 := Int.tdiv_le_self (2 ^ k) hd
    split <;> omega
  · have h1 := Int.tdiv_nonneg (Int.neg_nonneg.mpr hd) hk
    have h2 := Int.tdiv_le_self (2 ^ k) (Int.neg_nonneg.mpr hd)
    rw [Int.neg_tdiv] at h1 h2
    split <;> omega

theorem stepFilter_range (k : Nat) {p f : Int} (hp : -500 ≤ p ∧ p ≤ 100) (hf : -8000 ≤ f ∧ f ≤ 1600) :
    -8000 ≤ stepFilter k p f ∧ stepFilter k p f ≤ 1600 := by
  obtain ⟨hup, hdown⟩ := filterStep_le k p f
  unfold stepFilter
  rcases Int.le_total 0 (16 * p - f) with h | h
  · have := hup h
    omega
  · have := hdown h
    omega

theorem seedFilter_range {p : Int} (hp : -500 ≤ p ∧ p ≤ 100) : -8000 ≤ seedFilter p ∧ seedFilter p ≤ 1600 := by
  unfold seedFilter
  omega

/-! ## The law of one entry -/

section
variable {limit : Nat} {e : Entry}

/-- The fall of a provisioned terminal brings it to rest (R34). -/
theorem fallTo_law {link : Link} (hp : e.provisioned = true) (hl : 0 < limit) :
    (e.fallTo link).law limit :=
  ⟨fun hn => absurd (hp.symm.trans hn) (by decide), fun _ => ⟨rfl, rfl, rfl, rfl⟩, fun _ hf => (nomatch hf),
    Nat.zero_le _, hl⟩

/-- A change of a provisioned terminal that stays or comes to be LIT or FADING (R51). -/
theorem live_law (hp : e.provisioned = true) (hlive : e.link = .lit ∨ e.link = .fading)
    (hf : ∀ f, e.filter = some f → -8000 ≤ f ∧ f ≤ 1600) (hm : e.missRun ≤ 15) (hs : e.silence < limit) :
    e.law limit :=
  ⟨fun hn => absurd (hp.symm.trans hn) (by decide), fun hn => absurd hlive (not_or.mpr hn), hf, hm, hs⟩

theorem relit_law (h : e.law limit) (hp : e.provisioned = true) (hl : 0 < limit) (r : Option Byte) :
    (e.relit r).law limit := by
  obtain ⟨-, -, hf, -, -⟩ := h
  exact live_law hp (.inl rfl) hf (Nat.zero_le _) hl

theorem takeFilter_law (h : e.law limit) (hp : e.provisioned = true) (hlit : e.link = .lit) (p : Settings) {f : Int}
    (hf : -8000 ≤ f ∧ f ≤ 1600) : (e.takeFilter p f).law limit := by
  obtain ⟨-, -, -, hm, hs⟩ := h
  refine live_law hp (.inl hlit) (fun g hg => ?_) hm hs
  obtain rfl : f = g := Option.some.inj hg
  exact hf

theorem status_law (p : Settings) (round : Byte) (power : Int) (h : e.law limit) (hp : e.provisioned = true)
    (hl : 0 < limit) : (e.status p round power).law limit := by
  have hr := relit_law h hp hl (some round)
  have hc := clampReading_range power
  rw [status_eq]
  rcases filterStatus_cases p (e.relit (some round)) power with ⟨-, h'⟩ | ⟨-, -, h'⟩ | ⟨f, -, hf, h'⟩
  · rw [h']
    exact hr
  · rw [h']
    exact takeFilter_law hr hp rfl p (seedFilter_range hc)
  · rw [h']
    obtain ⟨-, -, hrange, -, -⟩ := hr
    exact takeFilter_law (relit_law h hp hl _) hp rfl p (stepFilter_range _ hc (hrange f hf))

theorem linked_law (p : Settings) (power : Int) (h : e.law limit) (hp : e.provisioned = true) (hl : 0 < limit) :
    (e.linked p power).law limit := by
  have hr := relit_law h hp hl none
  rw [linked_eq]
  rcases filterLink_cases p (e.relit none) power with ⟨-, h'⟩ | ⟨-, h'⟩
  · rw [h']
    exact hr
  · rw [h']
    exact takeFilter_law hr hp rfl p (seedFilter_range (clampReading_range power))

theorem missed_law (p : Settings) (round : Byte) (h : e.law limit) (hp : e.provisioned = true) (hl : 0 < limit) :
    (e.missed p round).law limit := by
  obtain ⟨-, hrest, hf, hm, hs⟩ := h
  by_cases hlive : e.link = .lit ∨ e.link = .fading
  · rw [missed_live p e round hlive]
    split
    · exact fallTo_law hp hl
    · exact live_law hp hlive hf (Nat.min_le_left _ _) hs
  · obtain ⟨hlit, hfading⟩ := not_or.mp hlive
    rw [missed_dark p e round hlit hfading]
    exact ⟨fun hn => absurd (hp.symm.trans hn) (by decide), hrest, hf, hm, hs⟩

theorem gasped_law (h : e.law limit) (hp : e.provisioned = true) (hl : 0 < limit) : e.gasped.law limit := by
  obtain ⟨-, -, hf, hm, hs⟩ := id h
  cases hlink : e.link with
  | unheard => rw [gasped_live e (.inl hlink)]; exact live_law hp (.inr rfl) hf hm hs
  | lit => rw [gasped_live e (.inr hlink)]; exact live_law hp (.inr rfl) hf hm hs
  | fading => rw [gasped_spent e (.inl hlink)]; exact live_law hp (.inr hlink) hf hm hs
  | dark => rw [gasped_dark e hlink]; exact fallTo_law hp hl
  | spent => rw [gasped_spent e (.inr hlink)]; exact h

/-- Evidence for a provisioned terminal keeps its law (R25 to R29). -/
theorem Evidence.law {p : Settings} {new : Entry} (hn : Evidence p e new) (h : e.law limit)
    (hp : e.provisioned = true) (hl : 0 < limit) : new.law limit := by
  cases hn with
  | repeated => exact h
  | status round power => exact status_law p round power h hp hl
  | linked power => exact linked_law p power h hp hl
  | missed round => exact missed_law p round h hp hl
  | gasped => exact gasped_law h hp hl

/-- A carry of the silence tap keeps the counter below the limit (R31). -/
theorem silent_law (h : e.law limit) (hl : 0 < limit) : (e.silent limit).law limit := by
  by_cases hlive : e.provisioned = true ∧ (e.link = .lit ∨ e.link = .fading)
  · obtain ⟨hp, hlink⟩ := hlive
    obtain ⟨-, -, hf, hm, hs⟩ := id h
    rw [silent_live e limit hp hlink]
    split
    · exact fallTo_law hp hl
    · exact live_law hp hlink hf hm (show e.silence + 1 < limit by omega)
  · rw [silent_other]
    · exact h
    · by_cases hp : e.provisioned = true
      · exact .inr (not_or.mp fun hl => hlive ⟨hp, hl⟩)
      · exact .inl (by simpa using hp)

/-- An entry at rest keeps the law, provisioned or not (R23, R42). -/
theorem rested_law (e : Entry) (hl : 0 < limit) (provisioned : Bool) : Entry.law limit { e.rested with provisioned } :=
  ⟨fun _ => ⟨rfl, rfl, rfl⟩, fun _ => ⟨rfl, rfl, rfl, rfl⟩, fun _ hf => (nomatch hf), Nat.zero_le _, hl⟩

theorem forgotten_law (h : e.law limit) (hl : 0 < limit) : e.forgotten.law limit := by
  obtain ⟨hu, -⟩ := h
  exact ⟨fun hn => ⟨rfl, rfl, (hu hn).2.2⟩, fun _ => ⟨rfl, rfl, rfl, rfl⟩, fun _ hf => (nomatch hf), Nat.zero_le _, hl⟩

theorem applyWord_law (provisioned : Bool) (w : Word) (h : e.law limit) (hl : 0 < limit) :
    (e.applyWord provisioned w).law limit := by
  unfold Entry.applyWord
  dsimp only
  split
  · exact h
  · exact rested_law _ hl provisioned

/-- A silence counter comes below a new limit (R41). -/
theorem limited_law {limit' : Nat} (h : e.law limit) (hl : 0 < limit') : (e.limited limit').law limit' := by
  obtain ⟨hu, hrest, hf, hm, -⟩ := h
  unfold Entry.limited
  split
  · next hs =>
    refine ⟨hu, fun hn => ?_, hf, hm, by dsimp only; omega⟩
    have := (hrest hn).2.2.1
    omega
  · next hs => exact ⟨hu, hrest, hf, hm, by omega⟩

theorem recovered_law {e' : Entry} (hr : e.recovered e') (h : e.law limit) : e'.law limit := by
  obtain ⟨he, hc⟩ := hr
  obtain ⟨hu, hrest, hf, hm, hs⟩ := h
  rw [he]
  exact ⟨fun hn => ⟨(hu hn).1, (hu hn).2.1, hc hn (hu hn).2.2⟩, hrest, hf, hm, hs⟩

end

/-! ## The law of the part, change by change -/

theorem entryLaw_limit_pos {s : State} (h : s.entryLaw) : 0 < s.par.silenceLimit := by
  obtain ⟨⟨-, -, -, -, -, hl, -⟩, -⟩ := h
  omega

variable {s t : State}

/-- An event that changes of settings and entries the covering fields alone. -/
theorem entryLaw_of_recovers (hp : t.settings = s.settings) (hr : s.recovers t) (h : s.entryLaw) : t.entryLaw := by
  have hpar : t.par = s.par := by rw [State.par, hp, State.par]
  obtain ⟨hrange, hlaw⟩ := h
  rw [State.entryLaw, hpar]
  exact ⟨hrange, fun k => recovered_law (hr k) (hlaw k)⟩

/-- An event that touches neither the settings nor the entries. -/
theorem entryLaw_of_same (hp : t.settings = s.settings) (he : t.entries = s.entries) (h : s.entryLaw) : t.entryLaw :=
  entryLaw_of_recovers hp (recovers_of_entries he) h

/-- An event that replaces each entry by one that keeps its law. -/
theorem entryLaw_of_entries (hp : t.settings = s.settings) (h : s.entryLaw)
    (he : ∀ k, (s.entry k).law s.par.silenceLimit → (t.entry k).law s.par.silenceLimit) : t.entryLaw := by
  have hpar : t.par = s.par := by rw [State.par, hp, State.par]
  obtain ⟨hrange, hlaw⟩ := h
  rw [State.entryLaw, hpar]
  exact ⟨hrange, fun k => he k (hlaw k)⟩

/-- An event that replaces one entry by one that keeps its law. -/
theorem entryLaw_of_set {k : Fin 512} {new : Entry} (hp : t.settings = s.settings)
    (he : t.entries = s.entries.set k new) (h : s.entryLaw)
    (hn : (s.entry k).law s.par.silenceLimit → new.law s.par.silenceLimit) : t.entryLaw := by
  refine entryLaw_of_entries hp h (fun j hj => ?_)
  rw [State.entry, he, set_getElem_fin]
  split
  · next hkj => exact hn (hkj ▸ hj)
  · exact hj

theorem softReset_entry (s : State) (k : Fin 512) : (softReset s).entry k = (s.entry k).rested :=
  mapTable_getElem_fin _ _ _

/-- Every change of a passing beat keeps the law of the entries. -/
theorem Move.entryLaw (hm : Move s t) (h : s.entryLaw) : t.entryLaw := by
  have hl := entryLaw_limit_pos h
  cases hm with
  | terminal k new hp hn =>
    have hf := terminalEvent_frame k new s
    have he := terminalEvent_entries k new s
    generalize terminalEvent k new s = u at hf he ⊢
    exact entryLaw_of_set (congrArg State.settings hf :) he h (fun hk => hn.law hk hp hl)
  | trunk down => rw [markIf_eq]; exact h
  | forget k hp =>
    rw [forgetTerminal, dirtyMark_eq, moveEntry_eq]
    exact entryLaw_of_set (s := s) rfl rfl h (fun hk => forgotten_law hk hl)
  | maint made block mask polarity hpart => rw [markIf_eq]; exact h
  | reset =>
    refine entryLaw_of_entries (s := s) rfl h (fun k _ => ?_)
    rw [softReset_entry]
    exact rested_law (s.entry k) hl _
  | take =>
    have hf := takeNotice_frame s
    generalize takeNotice s = u at hf ⊢
    exact entryLaw_of_same (congrArg State.settings hf :) (congrArg State.entries hf :) h
  | pass b w => exact h
  | read w => exact h
  | mark b m => exact h
  | malformed => exact h
  | unknown => exact h
  | latch l => exact h
  | record tag o d => exact h
  | edit tag hpart => exact h
  | commit tag hpart => exact h
  | cut c hc => exact h
  | leave hpart => exact h
  | clock w => exact h
  | census c hc hw => exact h
  | disturb => exact h
  | consume r v hr ha => exact h
  | fault => exact h

theorem parameterApply_settings (l : Load) (s : State) :
    (parameterApply l s).settings = some l.readSettings.applied := by
  rw [parameterApply, markIf_eq]

theorem parameterApply_entry (l : Load) (s : State) (k : Fin 512) :
    (parameterApply l s).entry k = (s.entry k).limited l.readSettings.applied.silenceLimit := by
  rw [parameterApply, markIf_eq]
  exact mapTable_getElem_fin _ s.entries k

/-- The parameter apply brings settings in range, with the silence counters below their limit (R41, R60). -/
theorem parameterApply_entryLaw (l : Load) (h : s.entryLaw) : (parameterApply l s).entryLaw := by
  have hrange := applied_inRange l.readSettings
  have hlimit : 0 < l.readSettings.applied.silenceLimit := by
    obtain ⟨-, -, -, -, -, hl, -⟩ := hrange
    omega
  obtain ⟨-, hlaw⟩ := h
  rw [State.entryLaw, State.par, parameterApply_settings, Option.getD_some]
  refine ⟨hrange, fun k => ?_⟩
  rw [parameterApply_entry]
  exact limited_law (hlaw k) hlimit

/-- A check read stages its word; the last one refuses the setup or applies its parameters (R178, R180). -/
theorem checkReadEvent_entryLaw (l : Load) (h : s.entryLaw) : (checkReadEvent l s).entryLaw := by
  unfold checkReadEvent
  dsimp only
  split
  · unfold checkEnd
    split
    · exact h
    · exact parameterApply_entryLaw _ h
  · exact h

theorem silenceEvent_entries (s : State) :
    (silenceEvent s).entries = mapTable (fun _ e => e.silent s.par.silenceLimit) s.entries := by
  rw [silenceEvent, markIf_eq, addFalls_eq]

/-- Every change of a command keeps the law of the entries. -/
theorem Change.entryLaw {c : Instr} {s0 : State} (hc : Change c s0 s t) (h : s.entryLaw) : t.entryLaw := by
  have hl := entryLaw_limit_pos h
  cases hc with
  | move hm => exact hm.entryLaw h
  | path hp hb hq => rw [hp]; exact h
  | counted b => exact h
  | land w => cases w <;> exact h
  | ending e he =>
    have hf := endingEvent_fixedSetup e s
    simp only [State.fixedSetup, Prod.mk.injEq] at hf
    obtain ⟨-, -, -, hset, -⟩ := hf
    exact entryLaw_of_recovers hset (endingEvent_recovers e s) h
  | mainsFail => rw [dirtyMark_eq]; exact h
  | maintAll => rw [dirtyMark_eq]; exact h
  | silence hd =>
    have hf := silenceEvent_frame { s with time.silenceDue := false }
    have he := silenceEvent_entries { s with time.silenceDue := false }
    generalize silenceEvent _ = u at hf he ⊢
    refine entryLaw_of_entries (congrArg State.settings hf :) h (fun k hk => ?_)
    rw [State.entry, he, mapTable_getElem_fin]
    exact silent_law hk hl
  | leak hd =>
    have hf := leakEvent_frame { s with time.leakDue := false }
    generalize leakEvent _ = u at hf ⊢
    exact entryLaw_of_same (congrArg State.settings hf :) (congrArg State.entries hf :) h
  | settle hd => exact h
  | merged ha => exact h
  | reading ha hp => exact h
  | matching causes hp =>
    have hf := matchingEvent_frame causes s
    have hr := matchingEvent_recovers causes s
    generalize matchingEvent causes s = u at hf hr ⊢
    exact entryLaw_of_recovers (congrArg State.settings hf :) hr h
  | attack k i hd =>
    have hf := attackEvent_frame k i s
    have hr := attackEvent_recovers k i s
    generalize attackEvent k i s = u at hf hr ⊢
    exact entryLaw_of_recovers (congrArg State.settings hf :) hr h
  | release k i hd =>
    have hf := releaseEvent_frame k i s
    have hr := releaseEvent_recovers k i s
    generalize releaseEvent k i s = u at hf hr ⊢
    exact entryLaw_of_recovers (congrArg State.settings hf :) hr h
  | limitEnds ha => exact h
  | checkRead l hc hload ha => exact checkReadEvent_entryLaw l h
  | terminalWord l hc hload ha => exact entryLaw_of_set (s := s) rfl rfl h (fun hk => applyWord_law _ _ hk hl)
  | completion l hc hload ha hn =>
    have hf := completionBeforeTake_frame l s
    have hr := completionEvent_recovers l s
    rw [completionEvent_eq] at hr ⊢
    have ht := takeNotice_frame (completionBeforeTake l s)
    generalize completionBeforeTake l s = u at hf hr ht ⊢
    generalize takeNotice u = v at hr ht ⊢
    exact entryLaw_of_recovers ((congrArg State.settings ht :).trans (congrArg State.settings hf :)) hr h
  | cycle => exact h
  | microsecond levels hm =>
    rw [microsecondEvent, countPatience_eq]
    dsimp only
    split
    · rw [millisecondEvent, countWindows_eq]; exact h
    · exact h
  | millisecond =>
    have hf := runPatience_frame (1000 - s.time.divider) s
    generalize runPatience (1000 - s.time.divider) s = u at hf ⊢
    rw [millisecondEvent, countWindows_eq]
    exact entryLaw_of_same (congrArg State.settings hf :) (congrArg State.entries hf :) h

/-! ## Every command -/

theorem exec_entryLaw {c : Instr} (hx : exec c s = .next t) (h : s.entryLaw) : t.entryLaw := by
  by_cases hc : ∃ p l d, c = .hardwareReset p l d
  · obtain ⟨p, l, d, rfl⟩ := hc
    obtain rfl := Host.Outcome.next.inj ((execHardwareReset_eq p l d s).symm.trans hx)
    exact entryLaw_of_same (s := State.reset) rfl rfl reset_entryLaw
  · exact exec_keeps (P := State.entryLaw) (fun p l d hpld => hc ⟨p, l, d, hpld⟩) hx
      (fun a b hab ha => hab.entryLaw ha) h

/-- Settles O5: a step is one command, whose every change keeps the law, or one REFCLK cycle. -/
theorem stepKeepsEntryLaw : Obligations.StepKeepsEntryLaw := by
  intro s t h hx
  rcases step_cases hx with ⟨c, hx⟩ | ⟨c, rest, hx⟩ | ⟨-, rfl⟩
  · exact exec_entryLaw hx h
  · exact exec_entryLaw (s := { s with pending := rest }) hx h
  · exact h

end Sys2Proof.Machine
end

