-- ==== Sys2Proof/Proofs/Adjustments.lean ====
section
/-! PROOF. Ancestor chains and the adjustments of a terminal event (O16). -/

namespace Sys2Proof.Machine

/-! ## Chains (R63) -/

section
variable (nodes : Vector Node 128)

theorem chainFrom_disabled {n : Fin 128} (h : nodes[n].enabled = false) (fuel : Nat) : chainFrom nodes fuel n = [] := by
  cases fuel with
  | zero => rfl
  | succ fuel => exact if_neg (by rw [h]; exact Bool.false_ne_true)

theorem chainFrom_root {n : Fin 128} (h : nodes[n].enabled = true) (hp : nodes[n].parent = none) (fuel : Nat) :
    chainFrom nodes (fuel + 1) n = [n] := by
  simp only [chainFrom, h, hp, if_true]

theorem chainFrom_parent {n p : Fin 128} (h : nodes[n].enabled = true) (hp : nodes[n].parent = some p) (fuel : Nat) :
    chainFrom nodes (fuel + 1) n = n :: chainFrom nodes fuel p := by
  simp only [chainFrom, h, hp, if_true]

/-- A node is disabled, a root, or has a parent (R63). -/
theorem node_cases (n : Fin 128) : nodes[n].enabled = false ∨ (nodes[n].enabled = true ∧ nodes[n].parent = none) ∨
    ∃ p, nodes[n].enabled = true ∧ nodes[n].parent = some p := by
  cases nodes[n].enabled <;> cases nodes[n].parent <;> simp

theorem chainFrom_length_le (fuel : Nat) (n : Fin 128) : (chainFrom nodes fuel n).length ≤ fuel := by
  induction fuel generalizing n with
  | zero => exact Nat.le_refl 0
  | succ fuel ih =>
    rcases node_cases nodes n with h | ⟨h, hp⟩ | ⟨p, h, hp⟩
    · simp [chainFrom_disabled nodes h]
    · simp [chainFrom_root nodes h hp]
    · simpa [chainFrom_parent nodes h hp] using ih p

/-- A chain that ends before the last step needs no more of them. -/
theorem chainFrom_of_short (fuel : Nat) (n : Fin 128) (h : (chainFrom nodes (fuel + 1) n).length ≤ fuel) :
    chainFrom nodes fuel n = chainFrom nodes (fuel + 1) n := by
  induction fuel generalizing n with
  | zero => exact (List.eq_nil_of_length_eq_zero (Nat.le_zero.mp h)).symm
  | succ fuel ih =>
    rcases node_cases nodes n with he | ⟨he, hp⟩ | ⟨p, he, hp⟩
    · rw [chainFrom_disabled nodes he, chainFrom_disabled nodes he]
    · rw [chainFrom_root nodes he hp, chainFrom_root nodes he hp]
    · rw [chainFrom_parent nodes he hp] at h
      rw [chainFrom_parent nodes he hp, chainFrom_parent nodes he hp, ih p (by simpa using h)]

end

/-! ## Adjustments (R24, R35) -/

theorem bump_same (b : Bool) (c : Nat) : bump b b c = c := by
  cases b
  · rfl
  · rfl

/-- The counts that a node's tree carries are moved, each by its membership (R35, R62). -/
theorem adjustNode_eq (old new : Entry) (n : Node) : adjustNode old new n = { n with
    monitored := bump old.monitored new.monitored n.monitored
    dark := if n.tree = .fibre then bump (old.afflicted .dark) (new.afflicted .dark) n.dark else n.dark
    dim := if n.tree = .fibre then bump (old.afflicted .dim) (new.afflicted .dim) n.dim else n.dim
    spent := if n.tree = .power then bump (old.afflicted .power) (new.afflicted .power) n.spent else n.spent } := by
  unfold adjustNode
  split
  · next h => simp only [h, if_true, reduceCtorEq, if_false]
  · next h => simp only [h, if_true, reduceCtorEq, if_false]

/-- Where no membership moved no count does. -/
theorem adjustNode_unmoved {old new : Entry} (h : membershipMoved old new = false) (n : Node) :
    adjustNode old new n = n := by
  simp only [membershipMoved, Bool.or_eq_false_iff, bne_eq_false_iff_eq] at h
  obtain ⟨⟨⟨hm, hd⟩, hp⟩, hi⟩ := h
  rw [adjustNode_eq, hm, hd, hp, hi]
  simp only [bump_same, ite_self]

/-- The nodes on the terminal's chain in their tree are adjusted, and no others (R35, R67). -/
theorem adjustNodes_node (old new : Entry) (nodes : Vector Node 128) (n : Fin 128) :
    (adjustNodes old new nodes)[n] =
      if n ∈ chain nodes (old.parentIn nodes[n].tree) then adjustNode old new nodes[n] else nodes[n] := by
  unfold adjustNodes
  cases hm : membershipMoved old new with
  | false => simp [adjustNode_unmoved hm]
  | true =>
    simp only [if_true, mapTable_getElem_fin, Fin.ofNat_val_eq_self]
    cases nodes[n].tree <;> rfl

theorem monitored_iff (e : Entry) : e.monitored = true ↔ e.provisioned = true ∧ e.link ≠ .unheard := by
  simp [Entry.monitored]

theorem afflicted_iff (e : Entry) (f : Family) : e.afflicted f = true ↔ e.provisioned = true ∧
    (match f with | .dark => e.link = .dark | .power => e.link = .spent | .dim => e.dim = true) := by
  cases f <;> simp [Entry.afflicted]

/-- Settles O16: the equations of a chain by its node's case, and those of the adjusted table. -/
theorem adjustmentsFollowMemberships : Obligations.AdjustmentsFollowMemberships := by
  refine ⟨fun nodes n => ⟨fun h => chainFrom_disabled nodes h 8, fun h hp => chainFrom_root nodes h hp 7,
      fun p h hp hs => ?_, chainFrom_length_le nodes 8 n⟩, fun c => ⟨rfl, rfl, rfl, rfl⟩,
    fun old new nodes n => ⟨fun h => ?_, fun h => ?_, monitored_iff old, afflicted_iff old .dark,
      afflicted_iff old .power, afflicted_iff old .dim⟩⟩
  · rw [chain, chainFrom_parent nodes h hp, chainFrom_of_short nodes 7 p hs]
    rfl
  · rw [adjustNodes_node, if_neg h]
  · rw [adjustNodes_node, if_pos h, adjustNode_eq]

end Sys2Proof.Machine
end

