-- ==== Sys2Proof/Proofs/Counts.lean ====
section
/-! PROOF. Every step keeps the node counts equal to what the terminal entries give, and the Command Unit's law (O6).
The counts are tallied over a list of entries, so that a change of one entry and a silence carry's change of all, entry by
entry, are one argument. -/

namespace Sys2Proof.Machine

/-! ## Chains go by the shapes of the nodes -/

theorem shape_parts {v w : Vector Node 128} (h : shapes v = shapes w) (i : Fin 128) :
    v[i].enabled = w[i].enabled ∧ v[i].tree = w[i].tree ∧ v[i].parent = w[i].parent := by
  have hi : v[i].shape = w[i].shape := congrFun h i
  simp only [Node.shape, Prod.mk.injEq] at hi
  obtain ⟨he, ht, hp, -, -⟩ := hi
  exact ⟨he, ht, hp⟩

theorem chainFrom_congr {v w : Vector Node 128}
    (h : ∀ i : Fin 128, v[i].enabled = w[i].enabled ∧ v[i].parent = w[i].parent) (fuel : Nat) (n : Fin 128) :
    chainFrom v fuel n = chainFrom w fuel n := by
  induction fuel generalizing n with
  | zero => rfl
  | succ fuel ih =>
    obtain ⟨he, hp⟩ := h n
    simp only [chainFrom, he, hp, ih]

theorem hangsBelow_congr {v w : Vector Node 128} (h : shapes v = shapes w) (i : Fin 128) (e : Entry) :
    hangsBelow v i e = hangsBelow w i e := by
  obtain ⟨-, ht, -⟩ := shape_parts h i
  rw [hangsBelow, hangsBelow, ht, chain, chain, chainFrom_congr fun j => ?_]
  obtain ⟨he, -, hp⟩ := shape_parts h j
  exact ⟨he, hp⟩

theorem hangsBelow_place (nodes : Vector Node 128) (i : Fin 128) {e e' : Entry} (h : e'.place = e.place) :
    hangsBelow nodes i e' = hangsBelow nodes i e := by
  simp only [Entry.place, Prod.mk.injEq] at h
  obtain ⟨-, hf, hp⟩ := h
  have hparent : e'.parentIn = e.parentIn := by
    funext tree
    cases tree
    · exact hf
    · exact hp
  rw [hangsBelow, hangsBelow, hparent]

/-! ## The tally of a node over a list of entries (R66) -/

/-- How many entries of a list hang below node `i` and meet `p`. -/
def below (nodes : Vector Node 128) (i : Fin 128) (l : List Entry) (p : Entry → Bool) : Nat :=
  l.countP (fun e => p e && hangsBelow nodes i e)

/-- The counts of a node. -/
def Node.tally (n : Node) : Nat × Nat × Nat × Nat := (n.monitored, n.dark, n.dim, n.spent)

/-- What the counts of node `i` come to over a list of entries. -/
def tallyBelow (nodes : Vector Node 128) (l : List Entry) (i : Fin 128) : Nat × Nat × Nat × Nat :=
  (below nodes i l Entry.monitored,
    if nodes[i].tree = .fibre then below nodes i l (Entry.afflicted · .dark) else 0,
    if nodes[i].tree = .fibre then below nodes i l (Entry.afflicted · .dim) else 0,
    if nodes[i].tree = .power then below nodes i l (Entry.afflicted · .power) else 0)

/-- Every count of every node is the number of entries that it counts. -/
def Counted (nodes : Vector Node 128) (l : List Entry) : Prop := ∀ i, nodes[i].tally = tallyBelow nodes l i

theorem recountNode_tally (nodes : Vector Node 128) (entries : Vector Entry 512) (i : Fin 128) :
    (recountNode nodes entries i nodes[i]).tally = tallyBelow nodes entries.toList i := rfl

/-- A recount that changes no tally changes no node (R68). -/
theorem recountNode_eq_iff (nodes : Vector Node 128) (entries : Vector Entry 512) (i : Fin 128) (n : Node) :
    recountNode nodes entries i n = n ↔ (recountNode nodes entries i n).tally = n.tally := by
  refine ⟨congrArg Node.tally, fun h => ?_⟩
  simp only [Node.tally, Prod.mk.injEq] at h
  obtain ⟨hm, hd, hi, hs⟩ := h
  calc recountNode nodes entries i n
      _ = { n with
            monitored := (recountNode nodes entries i n).monitored, dark := (recountNode nodes entries i n).dark
            dim := (recountNode nodes entries i n).dim, spent := (recountNode nodes entries i n).spent } := rfl
      _ = n := by rw [hm, hd, hi, hs]

theorem recountNodes_eq_iff (nodes : Vector Node 128) (entries : Vector Entry 512) :
    recountNodes nodes entries = nodes ↔ Counted nodes entries.toList := by
  have hnode (i : Fin 128) : (recountNodes nodes entries)[i] = recountNode nodes entries i nodes[i] := by
    rw [recountNodes, mapTable_getElem_fin, Fin.ofNat_val_eq_self]
  refine ⟨fun h i => ?_, fun h => table_ext fun i => ?_⟩
  · rw [← recountNode_tally, ← hnode, h]
  · rw [hnode, recountNode_eq_iff, recountNode_tally, h i]

theorem tallyBelow_congr {v w : Vector Node 128} (h : shapes v = shapes w) (l : List Entry) (i : Fin 128) :
    tallyBelow v l i = tallyBelow w l i := by
  obtain ⟨-, ht, -⟩ := shape_parts h i
  have hb (p : Entry → Bool) : below v i l p = below w i l p := by
    simp only [below, hangsBelow_congr h]
  simp only [tallyBelow, ht, hb]

/-- Nodes that keep their shapes and their counts stay counted. -/
theorem counted_of_nodes {v w : Vector Node 128} {l : List Entry} (hs : shapes w = shapes v)
    (ht : ∀ i : Fin 128, w[i].tally = v[i].tally) (h : Counted v l) : Counted w l := by
  intro i
  rw [ht, h i, tallyBelow_congr hs]

/-! ## One entry changes (R35) -/

/-- The count of a list moves with the one entry that changes (R35). -/
theorem bump_count (was now : Bool) (a b : Nat) :
    bump was now (a + (b + if was = true then 1 else 0)) = a + (b + if now = true then 1 else 0) := by
  cases was with
  | false => cases now <;> rfl
  | true =>
    cases now with
    | false =>
      show a + (b + 1) - 1 = a + (b + 0)
      omega
    | true => rfl

/-- The count over a list in which one entry changes at the same parents. -/
theorem below_replace (nodes : Vector Node 128) (i : Fin 128) (pre post : List Entry) {old new : Entry}
    (h : new.place = old.place) (p : Entry → Bool) : below nodes i (pre ++ new :: post) p =
      if hangsBelow nodes i old then bump (p old) (p new) (below nodes i (pre ++ old :: post) p)
      else below nodes i (pre ++ old :: post) p := by
  simp only [below, List.countP_append, List.countP_cons, hangsBelow_place nodes i h]
  cases hangsBelow nodes i old with
  | false => simp
  | true => simp only [Bool.and_true, bump_count, if_true]

theorem counted_adjust {nodes : Vector Node 128} {pre post : List Entry} {old new : Entry}
    (h : Counted nodes (pre ++ old :: post)) (hp : new.place = old.place) :
    Counted (adjustNodes old new nodes) (pre ++ new :: post) := by
  intro i
  have ht := h i
  rw [tallyBelow_congr (adjustNodes_shapes old new nodes), adjustNodes_node]
  simp only [tallyBelow, below_replace nodes i pre post hp, Node.tally, Prod.mk.injEq] at ht ⊢
  obtain ⟨hm, hd, hi, hs⟩ := ht
  by_cases hc : i ∈ chain nodes (old.parentIn nodes[i].tree)
  · have hb : hangsBelow nodes i old = true := decide_eq_true hc
    rw [if_pos hc, adjustNode_eq]
    simp only [hb, if_true, ← hm]
    cases htree : nodes[i].tree <;> simp_all
  · have hb : hangsBelow nodes i old = false := decide_eq_false hc
    rw [if_neg hc]
    simp only [hb, Bool.false_eq_true, if_false]
    exact ⟨hm, hd, hi, hs⟩

/-- The change of one entry of the table. -/
theorem counted_set {nodes : Vector Node 128} {entries : Vector Entry 512} {k : Fin 512} {new : Entry}
    (h : Counted nodes entries.toList) (hp : new.place = entries[k].place) :
    Counted (adjustNodes entries[k] new nodes) (entries.set k new).toList := by
  have hk : k.val < entries.toList.length := by simp
  have hsplit : entries.toList = entries.toList.take k ++ entries[k] :: entries.toList.drop (k + 1) := by
    conv_lhs => rw [← List.take_append_drop k.val entries.toList, List.drop_eq_getElem_cons hk]
    rfl
  rw [Vector.toList_set, List.set_eq_take_append_cons_drop, if_pos hk]
  exact counted_adjust (hsplit ▸ h) hp

/-- The change of all entries, one after the other (R31, R67). -/
theorem counted_adjustAll {f : Entry → Entry} (hf : ∀ e, (f e).place = e.place) (pre rest : List Entry)
    {nodes : Vector Node 128} (h : Counted nodes (pre ++ rest)) :
    Counted (adjustAll nodes (rest.zip (rest.map f))) (pre ++ rest.map f) := by
  induction rest generalizing pre nodes with
  | nil => exact h
  | cons e rest ih =>
    have := ih (pre ++ [f e]) (nodes := adjustNodes e (f e) nodes) (by simpa using counted_adjust h (hf e))
    simpa [adjustAll] using this

/-- A change of the covering fields alone changes no tally (R126). -/
theorem counted_recovers {s t : State} (hr : s.recovers t) {nodes : Vector Node 128}
    (h : Counted nodes s.entries.toList) :
    Counted nodes t.entries.toList := by
  have hb (i : Fin 128) (p : Entry → Bool) (hp : ∀ e c, p { e with covering := c } = p e) :
      below nodes i t.entries.toList p = below nodes i s.entries.toList p := by
    simp only [below, toList_eq_indices, List.countP_map]
    refine List.countP_congr fun k _ => ?_
    have hk : t.entry k = { s.entry k with covering := (t.entry k).covering } := (hr k).1
    have hpk : p (t.entry k) = p (s.entry k) := by rw [hk, hp]
    have hhk : hangsBelow nodes i (t.entry k) = hangsBelow nodes i (s.entry k) := by
      rw [hk]
      exact hangsBelow_place nodes i rfl
    show (p (t.entry k) && hangsBelow nodes i (t.entry k)) = true ↔
      (p (s.entry k) && hangsBelow nodes i (s.entry k)) = true
    rw [hpk, hhk]
  intro i
  rw [h i, tallyBelow, tallyBelow, hb i _ fun _ _ => rfl, hb i _ fun _ _ => rfl, hb i _ fun _ _ => rfl,
    hb i _ fun _ _ => rfl]

/-! ## The laws of the part, change by change -/

/-- The Command Unit's law and the counts' law, as the steps keep them together. -/
def State.commandAndCounts (s : State) : Prop := s.loadLaw ∧ s.countsLaw

theorem countsLaw_iff (s : State) : s.countsLaw ↔ (s.applyPass = false → Counted s.nodes s.entries.toList) :=
  imp_congr_right fun _ => recountNodes_eq_iff s.nodes s.entries

variable {s t : State}

/-- Outside a load there is no apply pass (R170). -/
theorem applyPass_of_part (h : s.loadLaw) (hp : s.part ≠ .loading) : s.applyPass = false := by
  obtain ⟨hload, -⟩ := h
  cases hl : s.load with
  | none => rw [State.applyPass, hl]; rfl
  | some l => exact absurd (hload.mpr (by rw [hl]; rfl)) hp

theorem loadLaw_of_same (hp : t.part = s.part) (ho : t.origin = s.origin) (hl : t.load.isSome = s.load.isSome)
    (h : s.loadLaw) : t.loadLaw := by
  unfold State.loadLaw
  rw [hp, ho, hl]
  exact h

/-- The part out of EDIT and LOADING, with no edit origin and no load (R170). -/
theorem loadLaw_settled (hp : t.part = .unconfigured ∨ t.part = .running) (ho : t.origin = none) (hl : t.load = none) :
    t.loadLaw := by
  unfold State.loadLaw
  rw [ho, hl]
  rcases hp with hp | hp <;> simp [hp]

/-- The part in EDIT, with its edit origin and no load (R170). -/
theorem loadLaw_edit {o : PartState} (hp : t.part = .edit) (ho : t.origin = some o) (hl : t.load = none)
    (hu : o = .unconfigured ∨ o = .running) : t.loadLaw := by
  unfold State.loadLaw
  rw [hp, ho, hl]
  simpa using hu

/-- An event that touches of what the counts' law reads the covering fields alone, with no apply pass that it ends. -/
theorem countsLaw_of_same (ha : t.applyPass = false → s.applyPass = false) (hn : t.nodes = s.nodes) (hr : s.recovers t)
    (h : s.countsLaw) : t.countsLaw := by
  rw [countsLaw_iff] at h ⊢
  intro hta
  rw [hn]
  exact counted_recovers hr (h (ha hta))

/-- An event that keeps the shapes and the counts of the nodes. -/
theorem countsLaw_of_nodes (hl : t.load = s.load) (hs : shapes t.nodes = shapes s.nodes)
    (ht : ∀ i : Fin 128, t.nodes[i].tally = s.nodes[i].tally) (he : t.entries = s.entries) (h : s.countsLaw) :
    t.countsLaw := by
  rw [countsLaw_iff] at h ⊢
  rw [State.applyPass, hl, he]
  exact fun hta => counted_of_nodes hs ht (h hta)

/-- The change of one entry with its adjustments (R35, R38). -/
theorem countsLaw_of_set {k : Fin 512} {new : Entry} (hl : t.load = s.load) (he : t.entries = s.entries.set k new)
    (hn : t.nodes = if s.applyPass then s.nodes else adjustNodes (s.entry k) new s.nodes)
    (hp : new.place = (s.entry k).place) (h : s.countsLaw) : t.countsLaw := by
  rw [countsLaw_iff] at h ⊢
  intro hta
  have hsa : s.applyPass = false := by rwa [State.applyPass, hl] at hta
  rw [he, hn, hsa]
  exact counted_set (h hsa) hp

/-- The fields that the two laws read, but for the entries. -/
def State.commandPart (s : State) : PartState × Option PartState × Option Load × Vector Node 128 :=
  (s.part, s.origin, s.load, s.nodes)

theorem withEnding_commandPart (s0 s : State) : (s0.withEnding s).commandPart = s.commandPart := rfl

theorem endingEvent_commandPart (e : Ending) (s : State) : (endingEvent e s).commandPart = s.commandPart := by
  simpa only [withEnding_commandPart] using congrArg State.commandPart (endingEvent_frame s e s)

/-- An event away from the load, the nodes and the entries but for their covering fields. -/
theorem commandAndCounts_of_same (hf : t.commandPart = s.commandPart) (hr : s.recovers t) (h : s.commandAndCounts) :
    t.commandAndCounts := by
  simp only [State.commandPart, Prod.mk.injEq] at hf
  obtain ⟨hp, ho, hl, hn⟩ := hf
  obtain ⟨hload, hcounts⟩ := h
  exact ⟨loadLaw_of_same hp ho (by rw [hl]) hload,
    countsLaw_of_same (fun ha => by rwa [State.applyPass, hl] at ha) hn hr hcounts⟩

theorem maintNodes_tally (block : Nat) (mask : Half) (polarity : Bool) (nodes : Vector Node 128) (i : Fin 128) :
    (maintNodes block mask polarity nodes)[i].tally = nodes[i].tally := by
  rw [maintNodes, mapTable_getElem_fin]
  unfold maintMark
  split
  · rfl
  · rfl

theorem struckNodes_tally (s : State) (i : Fin 128) : s.struckNodes[i].tally = s.nodes[i].tally := by
  rw [State.struckNodes, mapTable_getElem_fin]
  unfold State.struckNode
  split
  · rfl
  · rfl

theorem entry_of_mem {e : Entry} (h : e ∈ s.entries.toList) : ∃ k, e = s.entry k := by
  rw [toList_eq_indices] at h
  obtain ⟨k, -, rfl⟩ := List.mem_map.mp h
  exact ⟨k, rfl⟩

/-- A part at rest counts nothing (R46, R79). -/
theorem softReset_counted (s : State) : Counted (softReset s).nodes (softReset s).entries.toList := by
  intro i
  have hb (p : Entry → Bool) (hp : ∀ e : Entry, p e.rested = false) :
      below (softReset s).nodes i (softReset s).entries.toList p = 0 := by
    refine List.countP_eq_zero.mpr fun e he => ?_
    obtain ⟨k, rfl⟩ := entry_of_mem he
    rw [softReset_entry, hp, Bool.false_and]
    exact Bool.false_ne_true
  have hn : (softReset s).nodes[i] = s.nodes[i].soft := mapTable_getElem_fin _ _ _
  have hm (e : Entry) : e.rested.monitored = false := by simp [Entry.monitored, Entry.rested, Entry.forgotten]
  have ha (f : Family) (e : Entry) : e.rested.afflicted f = false := by
    cases f <;> simp [Entry.afflicted, Entry.rested, Entry.forgotten]
  rw [hn, tallyBelow, hb _ hm, hb _ (ha .dark), hb _ (ha .dim), hb _ (ha .power), ite_self, ite_self]
  rfl

/-- The rebuilt counts are what the entries give (R68, R72). -/
theorem rebuiltNodes_counted (s : State) : Counted s.rebuiltNodes s.entries.toList := by
  intro i
  have hc (n : Node) : (clearDisabled n).tally = n.tally := by
    unfold clearDisabled
    split
    · rfl
    · rfl
  rw [rebuiltNodes_node, hc, recountNode_tally, tallyBelow_congr (rebuiltNodes_shapes s)]

end Sys2Proof.Machine
end

