-- ==== Sys2Proof/Proofs/CountsLaw.lean ====
section
/-! PROOF. Every step keeps the Command Unit's law and the counts' law (O6), change by change. -/

namespace Sys2Proof.Machine

variable {s t : State}

/-- The return from EDIT or LOADING to the edit origin (R176, R177). -/
theorem leaveEdit_commandAndCounts (hpart : s.part = .edit ∨ s.part = .loading ∧ s.applyPass = false)
    (h : s.commandAndCounts) : (leaveEdit s).commandAndCounts := by
  obtain ⟨hload, hcounts⟩ := h
  obtain ⟨-, horigin, hvalid⟩ := id hload
  obtain ⟨o, ho⟩ := Option.isSome_iff_exists.mp (horigin.mp (hpart.imp_right And.left))
  have hpass : s.applyPass = false := by
    rcases hpart with hp | ⟨-, hp⟩
    · exact applyPass_of_part hload (by simp [hp])
    · exact hp
  refine ⟨loadLaw_settled ?_ rfl rfl, countsLaw_of_same (fun _ => hpass) rfl (recovers_of_entries rfl) hcounts⟩
  have hback : (leaveEdit s).part = o := by
    show s.origin.getD .unconfigured = o
    rw [ho]
    rfl
  rw [hback]
  exact hvalid o ho

/-- A RESET leaves UNCONFIGURED or RUNNING, and nothing counted (R184). -/
theorem softReset_commandAndCounts (s : State) : (softReset s).commandAndCounts := by
  refine ⟨loadLaw_settled ?_ rfl rfl, (countsLaw_iff _).mpr fun _ => softReset_counted s⟩
  show s.stateAfterReset = _ ∨ s.stateAfterReset = _
  unfold State.stateAfterReset
  split
  · exact .inl rfl
  · exact .inr rfl
  · split
    · exact .inr rfl
    · exact .inl rfl
  · exact .inl rfl

/-- Every change of a passing beat keeps the two laws. -/
theorem Move.commandAndCounts (hm : Move s t) (h : s.commandAndCounts) : t.commandAndCounts := by
  obtain ⟨hload, hcounts⟩ := id h
  cases hm with
  | terminal k new hp hn =>
    rw [terminalEvent_eq]
    exact ⟨hload, countsLaw_of_set (s := s) rfl rfl rfl hn.place hcounts⟩
  | trunk down => rw [markIf_eq]; exact h
  | edit tag hpart =>
    have hl : s.load = none := by
      obtain ⟨hiff, -⟩ := hload
      rcases hpart with hp | hp <;> simpa [hp] using hiff
    exact ⟨loadLaw_edit rfl rfl hl hpart, hcounts⟩
  | commit tag hpart =>
    obtain ⟨-, horigin, hvalid⟩ := id hload
    have ho : s.origin.isSome = true := horigin.mp (.inl hpart)
    have hpass : s.applyPass = false := applyPass_of_part hload (by simp [hpart])
    refine ⟨⟨iff_of_true rfl rfl, iff_of_true (.inr rfl) ho, hvalid⟩, ?_⟩
    exact countsLaw_of_same (fun _ => hpass) rfl (recovers_of_entries rfl) hcounts
  | leave hpart => exact leaveEdit_commandAndCounts hpart h
  | forget k hp =>
    rw [forgetTerminal, dirtyMark_eq, moveEntry_eq]
    exact ⟨hload, countsLaw_of_set (s := s) rfl rfl rfl rfl hcounts⟩
  | maint made block mask polarity hpart =>
    rw [markIf_eq]
    exact ⟨hload, countsLaw_of_nodes (s := s) rfl (maintNodes_shapes block mask polarity s.nodes)
      (maintNodes_tally block mask polarity s.nodes) rfl hcounts⟩
  | reset => exact softReset_commandAndCounts s
  | take =>
    have hf := takeNotice_frame s
    generalize takeNotice s = u at hf ⊢
    exact commandAndCounts_of_same (s := s) (congrArg State.commandPart hf :)
      (recovers_of_entries (congrArg State.entries hf :)) h
  | disturb =>
    refine ⟨loadLaw_of_same (s := s) rfl rfl Option.isSome_map hload, ?_⟩
    refine countsLaw_of_same (s := s) (fun ha => ?_) rfl (recovers_of_entries rfl) hcounts
    rw [← ha, State.applyPass, State.applyPass, Option.map_map]
    rfl
  | pass b w => exact h
  | read w => exact h
  | mark b m => exact h
  | malformed => exact h
  | unknown => exact h
  | latch l => exact h
  | record tag o d => exact h
  | cut c hc => exact h
  | clock w => exact h
  | census c hc hw => exact h
  | consume r v hr ha => exact h
  | fault => exact h

/-- A check read goes on with the load, refuses the setup back in EDIT, or begins the apply pass (R178 to R181). -/
theorem checkReadEvent_commandAndCounts {l : Load} (hl : s.load = some l) (ha : l.applying = false)
    (h : s.commandAndCounts) : (checkReadEvent l s).commandAndCounts := by
  obtain ⟨hload, hcounts⟩ := h
  have hsome (l' : Load) : (some l').isSome = s.load.isSome := by rw [hl]; rfl
  have hpass : s.applyPass = false := by rw [State.applyPass, hl]; exact ha
  unfold checkReadEvent
  dsimp only
  split
  · unfold checkEnd
    split
    · obtain ⟨hpart, horigin, hvalid⟩ := hload
      obtain ⟨o, ho⟩ := Option.isSome_iff_exists.mp (horigin.mp (.inr (hpart.mpr (by rw [hl]; rfl))))
      refine ⟨loadLaw_edit rfl ho rfl (hvalid o ho), ?_⟩
      exact countsLaw_of_same (s := s) (fun _ => hpass) rfl (recovers_of_entries rfl) hcounts
    · rw [parameterApply, markIf_eq]
      exact ⟨loadLaw_of_same (s := s) rfl rfl (hsome _) hload, fun hta => nomatch hta⟩
  · exact ⟨loadLaw_of_same (s := s) rfl rfl (hsome _) hload,
      countsLaw_of_same (s := s) (fun _ => hpass) rfl (recovers_of_entries rfl) hcounts⟩

/-- A silence carry moves the counts with the entries, one after the other (R31, R67). -/
theorem silenceEvent_commandAndCounts (h : s.commandAndCounts) : (silenceEvent s).commandAndCounts := by
  obtain ⟨hload, hcounts⟩ := h
  rw [silenceEvent, markIf_eq, addFalls_eq]
  refine ⟨hload, ?_⟩
  rw [countsLaw_iff] at hcounts ⊢
  intro ha
  have hs : s.applyPass = false := ha
  have hmap : (mapTable (fun _ e => Entry.silent s.par.silenceLimit e) s.entries).toList =
      s.entries.toList.map (Entry.silent s.par.silenceLimit) := by
    rw [toList_eq_indices, toList_eq_indices, List.map_map]
    refine List.map_congr_left fun k _ => ?_
    exact mapTable_getElem_fin _ _ k
  dsimp only
  rw [hs, hmap]
  exact counted_adjustAll (silent_place s.par.silenceLimit) [] s.entries.toList (hcounts hs)

/-- The completion rebuilds every count and ends the load in RUNNING (R68, R183). -/
theorem completionBeforeTake_commandAndCounts (l : Load) (s : State) :
    (completionBeforeTake l s).commandAndCounts := by
  have hn := completionBeforeTake_nodes l s
  have hr := completionBeforeTake_recovers l s
  have hu := completionBeforeTake_eq l s
  have hpart := (congrArg State.part hu :)
  have horigin := (congrArg State.origin hu :)
  have hload := (congrArg State.load hu :)
  generalize completionBeforeTake l s = u at hn hr hpart horigin hload ⊢
  refine ⟨loadLaw_settled (.inr hpart) horigin hload, (countsLaw_iff u).mpr fun _ => ?_⟩
  rw [hn]
  exact counted_recovers hr (rebuiltNodes_counted s)

/-- Every change of a command keeps the two laws. -/
theorem Change.commandAndCounts {c : Instr} {s0 : State} (hc : Change c s0 s t) (h : s.commandAndCounts) :
    t.commandAndCounts := by
  cases hc with
  | move hm => exact hm.commandAndCounts h
  | path hp hb hq => rw [hp]; exact h
  | counted b => exact h
  | land w => cases w <;> exact h
  | ending e he =>
    have hf := endingEvent_commandPart e s
    have hr := endingEvent_recovers e s
    generalize endingEvent e s = u at hf hr ⊢
    exact commandAndCounts_of_same hf hr h
  | mainsFail => rw [dirtyMark_eq]; exact h
  | maintAll => rw [dirtyMark_eq]; exact h
  | silence hd => exact silenceEvent_commandAndCounts (s := { s with time.silenceDue := false }) h
  | leak hd =>
    have hf := leakEvent_frame { s with time.leakDue := false }
    generalize leakEvent _ = u at hf ⊢
    exact commandAndCounts_of_same (s := s) (congrArg State.commandPart hf :)
      (recovers_of_entries (congrArg State.entries hf :)) h
  | settle hd => exact h
  | merged ha => exact h
  | reading ha hp =>
    obtain ⟨hload, hcounts⟩ := h
    exact ⟨hload, countsLaw_of_nodes (s := s) rfl (struckNodes_shapes s) (struckNodes_tally s) rfl hcounts⟩
  | matching causes hp =>
    have hf := matchingEvent_frame causes s
    have hr := matchingEvent_recovers causes s
    generalize matchingEvent causes s = u at hf hr ⊢
    exact commandAndCounts_of_same (s := s) (congrArg State.commandPart hf :) hr h
  | attack k i hd =>
    have hf := attackEvent_frame k i s
    have hr := attackEvent_recovers k i s
    generalize attackEvent k i s = u at hf hr ⊢
    exact commandAndCounts_of_same (s := s) (congrArg State.commandPart hf :) hr h
  | release k i hd =>
    have hf := releaseEvent_frame k i s
    have hr := releaseEvent_recovers k i s
    generalize releaseEvent k i s = u at hf hr ⊢
    exact commandAndCounts_of_same (s := s) (congrArg State.commandPart hf :) hr h
  | limitEnds ha => exact h
  | checkRead l hc hl ha => exact checkReadEvent_commandAndCounts hl ha h
  | terminalWord l hc hl ha =>
    obtain ⟨hload, -⟩ := h
    refine ⟨loadLaw_of_same (s := s) rfl rfl ?_ hload, fun hta => ?_⟩
    · rw [hl]
      rfl
    · exact absurd (ha.symm.trans hta) (by decide)
  | completion l hc hl ha hn =>
    rw [completionEvent_eq]
    exact (Move.take _).commandAndCounts (completionBeforeTake_commandAndCounts l s)
  | cycle => exact h
  | microsecond levels hm =>
    rw [microsecondEvent, countPatience_eq]
    dsimp only
    split
    · rw [millisecondEvent, countWindows_eq]; exact h
    · exact h
  | millisecond =>
    have hf := runPatience_frame (1000 - s.time.divider) s
    generalize runPatience (1000 - s.time.divider) s = u at hf ⊢
    rw [millisecondEvent, countWindows_eq]
    exact commandAndCounts_of_same (s := s) (congrArg State.commandPart hf :)
      (recovers_of_entries (congrArg State.entries hf :)) h

/-! ## Every command -/

theorem exec_commandAndCounts {c : Instr} (hx : exec c s = .next t) (h : s.commandAndCounts) : t.commandAndCounts := by
  by_cases hc : ∃ p l d, c = .hardwareReset p l d
  · obtain ⟨p, l, d, rfl⟩ := hc
    obtain rfl := Host.Outcome.next.inj ((execHardwareReset_eq p l d s).symm.trans hx)
    exact commandAndCounts_of_same (s := State.reset) rfl (recovers_of_entries rfl)
      ⟨reset_loadLaw, reset_countsLaw⟩
  · exact exec_keeps (P := State.commandAndCounts) (fun p l d hpld => hc ⟨p, l, d, hpld⟩) hx
      (fun a b hab ha => hab.commandAndCounts ha) h

/-- Settles O6: a step is one command, whose every change keeps the two laws, or one REFCLK cycle. -/
theorem stepKeepsCountsLaw : Obligations.StepKeepsCountsLaw := by
  intro s t hload hcounts hx
  rcases step_cases hx with ⟨c, hx⟩ | ⟨c, rest, hx⟩ | ⟨-, rfl⟩
  · exact exec_commandAndCounts hx ⟨hload, hcounts⟩
  · exact exec_commandAndCounts (s := { s with pending := rest }) hx ⟨hload, hcounts⟩
  · exact ⟨hload, hcounts⟩

end Sys2Proof.Machine
end

