-- ==== Sys2Proof/Proofs/SilenceCarry.lean ====
section
/-! PROOF. A silence carry advances every terminal entry in one event (O31). -/

namespace Sys2Proof.Machine

/-! ## The entries before and after, side by side -/

/-- Two tables side by side, index by index. -/
theorem zip_toList {α : Type} {n : Nat} [NeZero n] (v w : Vector α n) :
    v.toList.zip w.toList = (indices n).map fun k => (v[k], w[k]) := by
  rw [toList_eq_indices, toList_eq_indices, List.zip_map']

/-- Of the falls of R37 a silence carry knows the one from LIT to DARK (R31). -/
theorem isFall_silent (limit : Nat) (e : Entry) :
    isFall e (e.silent limit) = decide (e.link = .lit ∧ (e.silent limit).link = .dark) := by
  have hnot : ¬ ((e.link = .unheard ∨ e.link = .lit) ∧ (e.silent limit).link = .fading) := by
    rintro ⟨hold, hnew⟩
    by_cases hlive : e.provisioned = true ∧ (e.link = .lit ∨ e.link = .fading)
    · obtain ⟨hp, hl⟩ := hlive
      rw [silent_live e limit hp hl] at hnew
      split at hnew
      · rcases hold with hu | hu <;> simp [Entry.fallTo, hu] at hnew
      · rcases hold with hu | hu <;> simp [hu] at hnew
    · rw [silent_other] at hnew
      · rcases hold with hu | hu <;> simp [hu] at hnew
      · by_cases hp : e.provisioned = true
        · exact .inr (not_or.mp fun hl => hlive ⟨hp, hl⟩)
        · exact .inl (by simpa using hp)
  rw [Bool.eq_iff_iff, isFall_iff, decide_eq_true_eq, or_iff_left hnot]

/-! ## The gauge after falls (R94, R96) -/

/-- The gauge after `n` falls (R94). -/
def State.gaugeWith (s : State) (n : Nat) : Nat := if n = 0 then s.gauge else min 1023 (s.gauge + n)

/-- The STORM flag after `n` falls (R96). -/
def State.stormWith (s : State) (n : Nat) : Bool :=
  if s.gaugeWith n = s.gauge then s.storm else stormTest s.par.stormEnter s.par.stormExit (s.gaugeWith n) s.storm

theorem addFalls_with (n : Nat) (s : State) :
    addFalls n s = { s with gauge := s.gaugeWith n, storm := s.stormWith n } := by
  rw [addFalls_eq]
  unfold State.stormWith State.gaugeWith
  by_cases hn : n = 0
  · simp [hn]
  · simp [hn, Config.gaugeMax]

/-! ## The event -/

section
variable (limit : Nat) (v : Vector Entry 512)

/-- The entries after a silence carry (R31). -/
def silentEntries : Vector Entry 512 := mapTable (fun _ e => e.silent limit) v

theorem silentEntries_entry (k : Fin 512) : (silentEntries limit v)[k] = v[k].silent limit :=
  mapTable_getElem_fin _ _ k

/-- How many LIT terminals a silence carry brings to DARK (R37). -/
def silenceFalls : Nat :=
  (indices 512).countP fun k => v[k].link = .lit ∧ (silentEntries limit v)[k].link = .dark

/-- A silence carry changes a link state or a DIM flag (R36). -/
def silenceChanges : Bool := (indices 512).any fun k => linkOrDimChanged v[k] (silentEntries limit v)[k]

theorem silenceChanges_iff : silenceChanges limit v = true ↔
    ∃ k : Fin 512, (silentEntries limit v)[k].link ≠ v[k].link ∨ (silentEntries limit v)[k].dim ≠ v[k].dim := by
  unfold silenceChanges
  simp only [List.any_eq_true, mem_indices, true_and, linkOrDimChanged_iff]

theorem countP_isFall_silent :
    (v.toList.zip (silentEntries limit v).toList).countP (fun p => isFall p.1 p.2) = silenceFalls limit v := by
  rw [zip_toList, List.countP_map, silenceFalls]
  refine List.countP_congr fun k _ => ?_
  rw [Function.comp_apply, silentEntries_entry]
  exact Iff.of_eq (congrArg (· = true) (isFall_silent limit _))

theorem any_linkOrDimChanged_silent :
    (v.toList.zip (silentEntries limit v).toList).any (fun p => linkOrDimChanged p.1 p.2) =
      silenceChanges limit v := by
  rw [zip_toList, List.any_map]
  rfl

end

/-- How many falls a silence carry brings (R31, R37). -/
abbrev State.falls (s : State) : Nat := silenceFalls s.par.silenceLimit s.entries

/-- A silence carry as one update (R31, R35 to R37, R94, R96). -/
theorem silenceEvent_eq (s : State) : silenceEvent s = { s with
    entries := silentEntries s.par.silenceLimit s.entries
    nodes := if s.applyPass then s.nodes
      else adjustAll s.nodes (s.entries.toList.zip (silentEntries s.par.silenceLimit s.entries).toList)
    gauge := s.gaugeWith s.falls
    storm := s.stormWith s.falls
    settle := if silenceChanges s.par.silenceLimit s.entries || s.stormWith s.falls != s.storm then
      s.settleAfterMark (s.stormWith s.falls) else s.settle } := by
  rw [silenceEvent, markIf_eq]
  simp only [← silentEntries.eq_1, countP_isFall_silent, any_linkOrDimChanged_silent, addFalls_with]
  rfl

/-- An event away from the bus with its closing, as one update (R185, R191). -/
theorem event_update {c : Instr} {s u : State} (h : exec c s = .next (finish s u)) (ha : u.arb = s.arb) :
    ∃ A, exec c s = .next { u with writeMarks := (markStatusWords s u).writeMarks, arb := A } ∧
      A = s.arbAfterEvent { u with writeMarks := (markStatusWords s u).writeMarks, arb := A } := by
  obtain ⟨A, ht, hA, -⟩ := finish_update s u
  have harb := hA ha
  rw [ht] at h harb
  exact ⟨A, h, harb⟩

/-- The event of SILENCE_CARRY as one update. -/
theorem silenceCarry_eq (s : State) : silenceEvent { s with time.silenceDue := false } = { s with
    time.silenceDue := false
    entries := silentEntries s.par.silenceLimit s.entries
    nodes := if s.applyPass then s.nodes
      else adjustAll s.nodes (s.entries.toList.zip (silentEntries s.par.silenceLimit s.entries).toList)
    gauge := s.gaugeWith s.falls
    storm := s.stormWith s.falls
    settle := if silenceChanges s.par.silenceLimit s.entries || s.stormWith s.falls != s.storm then
      s.settleAfterMark (s.stormWith s.falls) else s.settle } := silenceEvent_eq _

/-- Settles O31: the carry's event is one update of the part, closed as every event away from the bus is. -/
theorem silenceCarryIsOneEvent : Obligations.SilenceCarryIsOneEvent := by
  intro s hdue
  have hexec : exec .silenceCarry s = .next (finish s (silenceEvent { s with time.silenceDue := false })) := if_pos hdue
  have hcount : s.falls = (indices 512).countP fun k => (s.entry k).link = .lit ∧
    (silentEntries s.par.silenceLimit s.entries)[k].link = .dark := rfl
  have hchanges := silenceChanges_iff s.par.silenceLimit s.entries
  rw [silenceCarry_eq] at hexec
  generalize s.falls = n at hexec hcount
  generalize silenceChanges s.par.silenceLimit s.entries = changed at hexec hchanges
  obtain ⟨A, ht, harb⟩ := event_update hexec rfl
  refine ⟨_, n, ht, rfl, silentEntries_entry _ s.entries, rfl, hcount, rfl, rfl,
    fun h => if_pos ?_, fun hsame hstorm => if_neg ?_, rfl, harb, rfl⟩
  · rw [Bool.or_eq_true, hchanges, bne_iff_ne]
    exact h
  · rw [Bool.or_eq_true, hchanges, bne_iff_ne]
    rintro (⟨k, hl | hd⟩ | hne)
    · exact hl (hsame k).1
    · exact hd (hsame k).2
    · exact hne hstorm

end Sys2Proof.Machine
end

