-- ==== Sys2Proof/Proofs/ForgetAndMaint.lean ====
section
/-! PROOF. FORGET and MAINT complete (O44). -/

namespace Sys2Proof.Machine

/-! ## A command that records its outcome -/

/-- A command taken from its beat, whose body ends by recording the outcome over `u` (R171, R172). -/
theorem command_served {s u : State} {row : BeatRow} {eff : Beat → State → State} {b : Beat} {tag : Byte}
    {o : CmdOutcome} {detail : Nat} (ht : s.takesCommands = true) (hwf : Memory.wf s.mem = true) (hr : s.rowOf b = row)
    (he : eff b s = record tag o detail u) (hm : u.mem = (s.passBeat b b.data).mem) (ha : u.arb = s.arb)
    (hw : u.writeMarks = s.writeMarks) :
    ∃ W A, present row eff b s = .next { record tag o detail u with writeMarks := W, arb := A } ∧
      s.commandDone { record tag o detail u with writeMarks := W, arb := A } b tag o detail := by
  obtain ⟨A, hp, hd⟩ := serves_update (w := b.data) ⟨((takesCommands_iff s).mp ht).1, hr, hwf⟩ he ha hm
  refine ⟨_, A, hp, hd, rfl, ?_⟩
  rw [markStatusWords_eq, record_eq, hw]
  rfl

/-! ## FORGET -/

theorem forgetTarget_some {s : State} {arg : Half} {k : Fin 512} (hk : k.val = arg.toNat)
    (hp : (s.entry k).provisioned = true) : s.forgetTarget arg = some k := by
  have hlt : arg.toNat < 512 := hk ▸ k.isLt
  have hkk : (⟨arg.toNat, hlt⟩ : Fin 512) = k := Fin.ext hk.symm
  rw [State.forgetTarget, dif_pos hlt, hkk, if_pos hp]

theorem forgetTarget_none {s : State} {arg : Half}
    (h : ∀ k : Fin 512, k.val = arg.toNat → (s.entry k).provisioned = false) : s.forgetTarget arg = none := by
  unfold State.forgetTarget
  split
  · rw [if_neg]
    rw [h _ rfl]
    exact Bool.false_ne_true
  · rfl

/-- FORGET's body in the states that take it (R173). -/
theorem forgetBody_eq (tag : Byte) (arg : Half) {s : State} (hpart : s.part = .running ∨ s.part = .edit) :
    forgetBody tag arg s = match s.forgetTarget arg with
      | none => record tag .badArgument 0 s
      | some k => record tag .done 0 (forgetTerminal k s) := by
  unfold forgetBody
  rcases hpart with hp | hp
  · rw [hp]; rfl
  · rw [hp]; rfl

/-- A FORGET's change of the part as one update (R35, R38, R39). -/
theorem forgetTerminal_eq (k : Fin 512) (s : State) : forgetTerminal k s = { s with
    entries := s.entries.set k (s.entry k).forgotten
    nodes := if s.applyPass then s.nodes else adjustNodes (s.entry k) (s.entry k).forgotten s.nodes
    settle := s.settleAfterMark s.storm } := by
  rw [forgetTerminal, dirtyMark_eq, moveEntry_eq]
  rfl

/-- The state that the body of a command finds: the beat has passed and the latch is consumed (R171, R174). -/
def State.afterMailbox (s : State) (b : Beat) : State := { s.passBeat b b.data with latch := none }

theorem effForget_eq (s : State) (tag : Byte) (arg : Half) (burst : Bool) :
    effForget (s.mailboxBeat 6 tag arg burst) s =
      forgetBody tag arg (s.afterMailbox (s.mailboxBeat 6 tag arg burst)) := by
  rw [effForget, beatTag_mailboxBeat, mailboxArg_mailboxBeat]
  rfl

/-! ## MAINT -/

/-- MAINT's body in the states that take it (R173). -/
theorem maintBody_eq (tag : Byte) (mask : Half) (latch : Option Half) {s : State}
    (hpart : s.part = .running ∨ s.part = .edit) : maintBody tag mask latch s = maintEvent tag mask latch s := by
  unfold maintBody
  rcases hpart with hp | hp
  · rw [hp]
  · rw [hp]

theorem effMaint_eq (s : State) (tag : Byte) (arg : Half) (burst : Bool) :
    effMaint (s.mailboxBeat 7 tag arg burst) s =
      maintBody tag arg s.latch (s.afterMailbox (s.mailboxBeat 7 tag arg burst)) := by
  rw [effMaint, beatTag_mailboxBeat, mailboxArg_mailboxBeat]
  rfl

theorem marksChanged_eq (before after : Vector Node 128) : marksChanged before after =
    (indices 128).countP (fun n => decide (after[n].maint ≠ before[n].maint)) := by
  refine List.countP_congr fun n _ => ?_
  rw [bne_iff_ne, decide_eq_true_eq, ne_comm]

/-- A MAINT as one update before its outcome (R74). -/
theorem maintEvent_eq (tag : Byte) (mask : Half) (latch : Option Half) (s : State) (changed : Nat)
    (hc : changed = marksChanged s.nodes (maintNodes (maintBlock latch) mask (maintPolarity latch) s.nodes)) :
    maintEvent tag mask latch s = record tag .done changed { s with
      nodes := maintNodes (maintBlock latch) mask (maintPolarity latch) s.nodes
      settle := if changed = 0 then s.settle else s.settleAfterMark s.storm } := by
  rw [maintEvent, ← hc, markIf_eq]
  by_cases h : changed = 0
  · simp [h]
  · simp [h, Nat.pos_of_ne_zero h]
    rfl

/-- Settles O44: each command is taken from its beat, and its body is one update with its outcome recorded. -/
theorem forgetAndMaintComplete : Obligations.ForgetAndMaintComplete := by
  intro tag arg burst s ht hwf hpart
  have hplain := ((takesCommands_iff s).mp ht).2
  have hforget : s.rowOf (s.mailboxBeat 6 tag arg burst) = .forget := rowOf_mailboxBeat s 6 tag arg burst hplain
  have hmaint : s.rowOf (s.mailboxBeat 7 tag arg burst) = .maint := rowOf_mailboxBeat s 7 tag arg burst hplain
  have hparts (b : Beat) : (s.afterMailbox b).part = .running ∨ (s.afterMailbox b).part = .edit := hpart
  refine ⟨fun k e hk he hp => ?_, fun hnone => ?_, ?_⟩
  · subst he
    have heff := effForget_eq s tag arg burst
    rw [forgetBody_eq tag arg (hparts _), forgetTarget_some (s := s.afterMailbox _) hk hp] at heff
    dsimp only at heff
    rw [forgetTerminal_eq] at heff
    obtain ⟨W, A, hx, hd⟩ := command_served ht hwf hforget heff rfl rfl rfl
    exact ⟨_, _, hx, hd, rfl, rfl, rfl, rfl, rfl, rfl⟩
  · have heff := effForget_eq s tag arg burst
    rw [forgetBody_eq tag arg (hparts _), forgetTarget_none (s := s.afterMailbox _) hnone] at heff
    obtain ⟨W, A, hx, hd⟩ := command_served ht hwf hforget heff rfl rfl rfl
    exact ⟨_, hx, hd, rfl, rfl⟩
  · have heff := effMaint_eq s tag arg burst
    have hchanged := marksChanged_eq s.nodes (maintNodes (maintBlock s.latch) arg (maintPolarity s.latch) s.nodes)
    rw [maintBody_eq tag arg s.latch (hparts _), maintEvent_eq tag arg s.latch (s.afterMailbox _) _ rfl] at heff
    obtain ⟨W, A, hx, hd⟩ := command_served ht hwf hmaint heff rfl rfl rfl
    refine ⟨_, maintBlock s.latch, maintPolarity s.latch, _, hx, hd, rfl, fun h => ?_, fun v h => ?_, fun n => ?_,
      hchanged, rfl, rfl⟩
    · rw [h]
      exact ⟨rfl, rfl⟩
    · rw [h]
      exact ⟨rfl, rfl⟩
    · exact mapTable_getElem_fin _ s.nodes n

end Sys2Proof.Machine
end

