-- ==== Sys2Proof/Proofs/LoaderReads.lean ====
section
/-! PROOF. The loader's reads: the check pass and its end (O50), and the terminal words (O51). -/

namespace Sys2Proof.Machine

variable {s : State} {l : Load}

/-! ## The terminal words -/

/-- A loader read of the apply pass is a grant to the loader (R181, R190). -/
theorem terminalWordApply_grant {k : Fin 512} (hl : s.load = some l) (ha : l.applying = true) (hk : k.val = l.applied) :
    exec .terminalWordApply s = grant .loader none (terminalWordEvent l k) none s := by
  have hfin : Fin.ofNat 512 l.applied = k := by rw [← hk, Fin.ofNat_val_eq_self]
  show execTerminalWordApply s = _
  rw [execTerminalWordApply, hl]
  dsimp only
  rw [if_pos ha, hfin]

/-- The fields of a terminal word that name its parents (12.4). -/
theorem terminalWordFibre_eq (w : Word) : terminalWordFibre w = Fin.ofNat 128 (w.toNat / 256 % 128) := rfl

theorem terminalWordPower_eq (w : Word) : terminalWordPower w = Fin.ofNat 128 (w.toNat % 128) :=
  congrArg (Fin.ofNat 128) (bits_low w 6)

theorem parentsValid_iff (s : State) {w : Word} {f p : Fin 128} (hf : terminalWordFibre w = f)
    (hp : terminalWordPower w = p) : s.parentsValid w = true ↔ s.nodes[f].enabled = true ∧ s.nodes[f].tree = .fibre ∧
      s.nodes[p].enabled = true ∧ s.nodes[p].tree = .power := by
  subst hf hp
  simp only [State.parentsValid, Bool.and_eq_true, decide_eq_true_eq, and_assoc]

/-- A terminal that stays provisioned keeps its evidence (R42). -/
theorem applyWord_kept {e : Entry} {provisioned : Bool} (w : Word) (h : (provisioned && e.provisioned) = true) :
    e.applyWord provisioned w = { e with fibreParent := terminalWordFibre w, powerParent := terminalWordPower w } :=
  if_pos (Bool.and_eq_true_iff.mp h)

/-- Every other terminal comes to rest (R42). -/
theorem applyWord_rested {e : Entry} {provisioned : Bool} (w : Word) (h : (provisioned && e.provisioned) = false) :
    e.applyWord provisioned w =
      { e.rested with provisioned, fibreParent := terminalWordFibre w, powerParent := terminalWordPower w } :=
  if_neg fun hc => Bool.false_ne_true (h.symm.trans (Bool.and_eq_true_iff.mpr hc))

/-- What a terminal word fixes of its entry (R42). -/
theorem applyWord_place (e : Entry) (provisioned : Bool) (w : Word) :
    (e.applyWord provisioned w).place = (provisioned, terminalWordFibre w, terminalWordPower w) := by
  cases h : provisioned && e.provisioned with
  | true =>
    obtain ⟨rfl, he⟩ := Bool.and_eq_true_iff.mp h
    rw [applyWord_kept w h, ← he]
    rfl
  | false => rw [applyWord_rested w h]; rfl

/-- A word that asks for more than its parents allow is a clamp (R181). -/
theorem flag_terminalClamp (wanted valid : Bool) :
    flag (wanted && !(wanted && valid)) = if wanted && !valid then 1 else 0 := by
  cases wanted <;> rfl

/-- A granted read of terminal word `w`, as one update (R42, R181). -/
theorem terminalWordApply_eq {k : Fin 512} {w : Word} (hl : s.load = some l) (ha : l.applying = true)
    (hk : k.val = l.applied) (hg : s.grants .loader = true) (hheld : s.arb.held = none) (hready : s.arb.ready = true)
    (hw : w = readWord s.mem (s.setupAddr (16 + k.val))) :
    exec .terminalWordApply s = .next
      { s.putEntry k ((s.entry k).applyWord (w.getLsbD 31 && s.parentsValid w) w) with
        load := some { l with
          applied := l.applied + 1
          clamps := l.clamps + if w.getLsbD 31 && !s.parentsValid w then 1 else 0 }
        arb := s.arbAfterGrant } := by
  have hmarks := markStatusWords_same (s := s) (s1 := terminalWordEvent l k (endWindow s)) rfl rfl rfl
  rw [terminalWordApply_grant hl ha hk, grant_update (event := terminalWordEvent l k) hg hheld hready rfl, hmarks,
    ← flag_terminalClamp, hw]
  rfl

/-- Settles O51: the entry is `Entry.applyWord`'s, which keeps the evidence or brings the terminal to rest. -/
theorem terminalWordIsApplied : Obligations.TerminalWordIsApplied := by
  intro s l k w hl ha hk hg hheld hready hw
  have hexec := terminalWordApply_eq hl ha hk hg hheld hready hw
  have hvalid := parentsValid_iff s (terminalWordFibre_eq w) (terminalWordPower_eq w)
  generalize s.parentsValid w = valid at hexec hvalid
  generalize w.getLsbD 31 = wanted at hexec
  have hplace := applyWord_place (s.entry k) (wanted && valid) w
  rw [Entry.place, Prod.mk.injEq, Prod.mk.injEq, terminalWordPower_eq] at hplace
  obtain ⟨hprovisioned, hfibre, hpower⟩ := hplace
  have hentry (j : Fin 512) := putEntry_entry s k j ((s.entry k).applyWord (wanted && valid) w)
  have hk' := (hentry k).trans (if_pos rfl)
  refine ⟨_, s.entry k, wanted, valid, hexec, rfl, ?_, ?_, rfl, fun j hj => ?_, ?_, ?_, ?_, fun h => ?_, fun h => ?_,
    rfl, rfl⟩
  · rfl
  · rintro _ _ rfl rfl
    exact hvalid
  · exact (hentry j).trans (if_neg hj.symm)
  · exact (congrArg Entry.provisioned hk').trans hprovisioned
  · exact (congrArg Entry.fibreParent hk').trans hfibre
  · exact (congrArg Entry.powerParent hk').trans hpower
  · exact congrArg (fun x : Entry =>
      { x with fibreParent := (s.entry k).fibreParent, powerParent := (s.entry k).powerParent })
      (hk'.trans (applyWord_kept w h))
  · have hrested := hk'.trans (applyWord_rested w h)
    exact ⟨congrArg Entry.link hrested, congrArg Entry.filter hrested, congrArg Entry.dim hrested,
      congrArg Entry.silence hrested, congrArg Entry.missRun hrested, congrArg Entry.lastRound hrested,
      congrArg Entry.covering hrested⟩

end Sys2Proof.Machine
end

