-- ==== Sys2Proof/Proofs/CheckPass.lean ====
section
/-! PROOF. The check pass reads and its end (O50). -/

namespace Sys2Proof.Machine

variable {s : State} {l full : Load}

/-- The Setup Block words of the check pass: 4 to 14, then 528 to 655 (R178). -/
theorem checkWord_eq (k : Nat) : checkWord k = if k < 11 then 4 + k else 528 + (k - 11) := by
  unfold checkWord
  split <;> omega

/-- A granted check read stages its word, and the last one ends the pass (R178, R190). -/
theorem loaderCheckRead_eq {word : Nat} (hl : s.load = some l) (ha : l.applying = false)
    (hg : s.grants .loader = true) (hheld : s.arb.held = none) (hready : s.arb.ready = true)
    (hword : word = if l.staged.length < 11 then 4 + l.staged.length else 528 + (l.staged.length - 11))
    (hfull : full = { l with staged := l.staged ++ [readWord s.mem (s.setupAddr word)] }) {u : State}
    (hu : (if l.staged.length = 138 then checkEnd full { endWindow s with load := some full }
      else { endWindow s with load := some full }) = u) (harb : u.arb = s.arbAfterGrant) :
    exec .loaderCheckRead s =
      .next { u with writeMarks := (markStatusWords s u).writeMarks, arb := s.arbAfterGrant } := by
  have hevent : checkReadEvent l (endWindow s) = u := by
    rw [← hu, hfull, hword, ← checkWord_eq]
    unfold checkReadEvent
    simp only [List.length_append, List.length_singleton, Nat.reduceEqDiff]
    rfl
  show execLoaderCheckRead s = _
  rw [execLoaderCheckRead, hl]
  dsimp only
  rw [if_neg (by rw [ha]; exact Bool.false_ne_true), grant_update hg hheld hready (hevent ▸ harb), hevent]
  rfl

/-! ## The parameter apply -/

/-- The tag of a node word is its low byte (12.4). -/
theorem nodeWordTag_eq (w : Word) : nodeWordTag w = w.setWidth 8 := by
  rw [nodeWordTag, byteAt, Nat.mul_zero, BitVec.ushiftRight_zero]

/-- A node as the staged words place it, its depth that of its chain (R71). -/
theorem appliedNodes_node (nodes : Vector Node 128) (n : Fin 128) : (full.appliedNodes nodes)[n] =
    { full.appliedNode n.val nodes[n] with depth := (chain (full.appliedNodes nodes) n).length - 1 } := by
  have hnode (i : Fin 128) : (full.appliedNodes nodes)[i] = { full.appliedNode i.val nodes[i] with
      depth := depthIn (mapTable full.appliedNode nodes) i } := by
    rw [Load.appliedNodes, mapTable_getElem_fin, mapTable_getElem_fin, Fin.ofNat_val_eq_self]
  have hchain : chain (full.appliedNodes nodes) n = chain (mapTable full.appliedNode nodes) n :=
    chainFrom_congr (fun i => by rw [hnode, mapTable_getElem_fin]; exact ⟨rfl, rfl⟩) 8 n
  rw [hnode, depthIn, hchain]

/-- A root keeps its place (R71). -/
theorem appliedNode_root {n : Fin 128} (h : n.val < 2) (x : Node) :
    full.appliedNode n.val x = { x with tag := nodeWordTag (full.nodeWord n) } := by
  rw [Load.appliedNode, Fin.ofNat_val_eq_self, if_pos h]

/-- Every other node is placed by its staged word (R71). -/
theorem appliedNode_placed {n : Fin 128} (h : 2 ≤ n.val) (x : Node) : full.appliedNode n.val x =
    { x with enabled := nodeWordEnabled (full.nodeWord n), tree := nodeWordTree (full.nodeWord n),
             parent := some (nodeWordParent (full.nodeWord n)), tag := nodeWordTag (full.nodeWord n) } := by
  rw [Load.appliedNode, Fin.ofNat_val_eq_self, if_neg (by omega)]

theorem appliedNode_tag (n : Fin 128) (x : Node) : (full.appliedNode n.val x).tag = nodeWordTag (full.nodeWord n) := by
  by_cases h : n.val < 2
  · rw [appliedNode_root h]
  · rw [appliedNode_placed (by omega)]

/-- What STORM is after the test against the new thresholds (R98). -/
def stormApplied (full : Load) (s : State) : Bool :=
  stormTest full.readSettings.applied.stormEnter full.readSettings.applied.stormExit s.gauge s.storm

/-- The settle window after that test: a change of STORM makes a dirty mark, with the code newly applied (R98, R101). -/
def settleApplied (full : Load) (s : State) : Option Window :=
  if stormApplied full s = s.storm then s.settle else
    match s.settle with
    | some w => some w
    | none => if s.setupInUse then some (s.msStart (duration (if stormApplied full s then
        full.readSettings.applied.settleStorm else full.readSettings.applied.settleCalm))) else none

theorem parameterApply_eq (full : Load) (s : State) : parameterApply full s = { s with
    settings := some full.readSettings.applied
    storm := stormApplied full s
    time := s.time.retapped full.readSettings.applied.silenceTap
    entries := mapTable (fun _ e => e.limited full.readSettings.applied.silenceLimit) s.entries
    nodes := full.appliedNodes s.nodes
    settle := settleApplied full s } := by
  have hsettle : (if stormApplied full s != s.storm then
      State.settleAfterMark { s with settings := some full.readSettings.applied } (stormApplied full s) else s.settle) =
      settleApplied full s := by
    rw [settleApplied]
    generalize stormApplied full s = storm
    by_cases h : storm = s.storm
    · rw [if_pos h, h, bne_self_eq_false]
      rfl
    · rw [if_neg h, bne_iff_ne.mpr h]
      rfl
  rw [parameterApply, markIf_eq, ← hsettle]
  rfl

/-- Settles O50: a granted read whose event stages a word, and with the last one is `checkEnd`, refused or applied. -/
theorem checkReadsStageAndEndTheCheckPass : Obligations.CheckReadsStageAndEndTheCheckPass := by
  intro s l full word hl ha hg hheld hready hword hfull
  have hexec (u : State) := loaderCheckRead_eq (u := u) hl ha hg hheld hready hword hfull
  refine ⟨fun hshort => ?_, fun offset hlast hfault => ?_, fun hlast hfits => ?_⟩
  · have hread := hexec _ (if_neg (by omega)) rfl
    rw [markStatusWords_same (s := s) (s1 := { endWindow s with load := some full }) rfl rfl rfl] at hread
    exact ⟨_, hread, rfl, rfl, rfl⟩
  · have hend : checkEnd full { endWindow s with load := some full } =
        record full.tag .badSetup offset { endWindow s with part := .edit, load := none } := by
      have hfault' : State.setupFault { endWindow s with load := some full } full = some offset := hfault
      rw [checkEnd, hfault']
    have htag : full.tag = l.tag := hfull ▸ rfl
    exact ⟨_, hexec _ ((if_pos hlast).trans hend) rfl, rfl, rfl, by rw [← htag]; rfl, rfl, rfl, rfl⟩
  · have hend : checkEnd full { endWindow s with load := some full } = parameterApply full
        { endWindow s with load := some { full with applying := true, clamps := full.clampCount } } := by
      have hfits' : State.setupFault { endWindow s with load := some full } full = none := hfits
      rw [checkEnd, hfits']
    rw [parameterApply_eq] at hend
    have hnode (n : Fin 128) := appliedNodes_node (full := full) s.nodes n
    refine ⟨_, _, hexec _ ((if_pos hlast).trans hend) rfl, rfl, rfl, rfl, fun k => ?_,
      fun n => ⟨?_, fun hn => ?_, fun hn => ?_, ?_⟩, rfl, fun h => ?_, fun h => ?_, rfl, rfl, rfl, rfl⟩
    · exact mapTable_getElem_fin _ s.entries k
    · exact (congrArg Node.tag (hnode n)).trans ((appliedNode_tag n _).trans (nodeWordTag_eq _))
    · have hroot := hnode n
      rw [appliedNode_root hn] at hroot
      exact congrArg (fun x : Node => { x with tag := s.nodes[n].tag, depth := s.nodes[n].depth }) hroot
    · have hplaced := hnode n
      rw [appliedNode_placed hn] at hplaced
      exact ⟨congrArg Node.enabled hplaced, congrArg Node.tree hplaced, congrArg Node.parent hplaced,
        congrArg (fun x : Node => { x with
          enabled := s.nodes[n].enabled, tree := s.nodes[n].tree, parent := s.nodes[n].parent
          tag := s.nodes[n].tag, depth := s.nodes[n].depth }) hplaced⟩
    · exact congrArg Node.depth (hnode n)
    · exact if_pos h
    · exact if_neg h

end Sys2Proof.Machine
end

