-- ==== Sys2Proof/Proofs/LevelFilter.lean ====
section
/-! PROOF. The arithmetic of the Level Filter and of the DIM test (O15). A quotient rounded toward zero changes sign
with its dividend, so what holds toward a stronger reading gives what holds toward a weaker one. -/

namespace Sys2Proof.Machine

/-! ## The step (R53, R54) -/

/-- A mirrored reading and filter value give the mirrored step (R53). -/
theorem filterStep_neg (k : Nat) (p f : Int) : filterStep k (-p) (-f) = -filterStep k p f := by
  have hd : 16 * -p - -f = -(16 * p - f) := by omega
  unfold filterStep
  simp only [hd, Int.neg_tdiv]
  generalize 16 * p - f = d
  split_ifs <;> omega

section
variable {k : Nat} {p f d : Int}

/-- A filter value at its reading does not move (R53). -/
theorem filterStep_arrived (h : 16 * p = f) : filterStep k p f = 0 := by
  simp [filterStep, h]

/-- A difference of 2^k or more has a quotient that is not 0. -/
theorem one_le_quotient (h : 2 ^ k ≤ d) : 1 ≤ d / 2 ^ k :=
  (Int.le_ediv_iff_mul_le (by positivity)).mpr (by rwa [one_mul])

/-- A difference of 2^k or more is divided (R53). -/
theorem filterStep_far (h : 2 ^ k ≤ 16 * p - f) : filterStep k p f = (16 * p - f) / 2 ^ k := by
  have hk : (0 : Int) < 2 ^ k := by positivity
  have hq := one_le_quotient h
  unfold filterStep
  dsimp only
  rw [Int.tdiv_eq_ediv_of_nonneg (by omega), if_neg (by omega)]

/-- A smaller difference has the quotient 0 and moves the filter by one unit (R53). -/
theorem filterStep_near (hpos : 0 < 16 * p - f) (h : 16 * p - f < 2 ^ k) : filterStep k p f = 1 := by
  unfold filterStep
  dsimp only
  rw [Int.tdiv_eq_zero_of_lt hpos.le h, if_pos rfl, if_pos hpos]

/-- A filter value below its reading moves by a unit or more (R54). -/
theorem filterStep_pos (h : f < 16 * p) : 1 ≤ filterStep k p f := by
  rcases Int.lt_or_le (16 * p - f) (2 ^ k) with hnear | hfar
  · rw [filterStep_near (by omega) hnear]
  · rw [filterStep_far hfar]
    exact one_le_quotient hfar

end

/-- The step of R53, by the size of the difference. -/
theorem filterStep_quotient (k : Nat) (p f d : Int) (hd : d = 16 * p - f) :
    (d = 0 → filterStep k p f = 0) ∧
    (2 ^ k ≤ d → filterStep k p f = d / 2 ^ k) ∧ (0 < d → d < 2 ^ k → filterStep k p f = 1) ∧
    (d ≤ -2 ^ k → filterStep k p f = -(-d / 2 ^ k)) ∧ (-2 ^ k < d → d < 0 → filterStep k p f = -1) := by
  have hmirror : filterStep k p f = -filterStep k (-p) (-f) := by rw [filterStep_neg, neg_neg]
  have hd' : -d = 16 * -p - -f := by omega
  refine ⟨fun h => filterStep_arrived (by omega), fun h => hd ▸ filterStep_far (hd ▸ h),
    fun hpos h => filterStep_near (hd ▸ hpos) (hd ▸ h), fun h => ?_, fun h hneg => ?_⟩
  · rw [hmirror, hd', filterStep_far (by omega)]
  · rw [hmirror, filterStep_near (by omega) (by omega)]

/-! ## The level and the DIM test (R55, R56) -/

theorem level_of_nonneg {f : Int} (h : 0 ≤ f) : level f = f / 16 := Int.tdiv_eq_ediv_of_nonneg h

theorem level_neg (f : Int) : level (-f) = -level f := Int.neg_tdiv f 16

theorem level_of_neg {f : Int} (h : f < 0) : level f = -(-f / 16) := by
  rw [← level_of_nonneg (by omega), level_neg, neg_neg]

/-- The filter values whose level is at most `a`: the DIM_SET table of R56. -/
theorem level_le_iff (f a : Int) :
    level f ≤ a ↔ (a < 0 ∧ f ≤ 16 * a) ∨ (a = 0 ∧ f ≤ 15) ∨ (0 < a ∧ f ≤ 16 * a + 15) := by
  rcases Int.lt_or_le f 0 with h | h
  · rw [level_of_neg h]
    omega
  · rw [level_of_nonneg h]
    omega

/-- The filter values whose level is at least `a`: the DIM_CLEAR table of R56. -/
theorem le_level_iff (f a : Int) :
    a ≤ level f ↔ (a < 0 ∧ 16 * a - 15 ≤ f) ∨ (a = 0 ∧ -15 ≤ f) ∨ (0 < a ∧ 16 * a ≤ f) := by
  rw [← neg_le_neg_iff, ← level_neg, level_le_iff]
  omega

/-- A filter value in its range has a level in the range of a reading (R54, R55). -/
theorem level_range {f : Int} (h : -8000 ≤ f ∧ f ≤ 1600) : -500 ≤ level f ∧ level f ≤ 100 := by
  rw [le_level_iff, level_le_iff]
  omega

/-- Settles O15: the step by `filterStep_quotient`, its way and range from the bounds of one step, the DIM test from the
two threshold tables. -/
theorem filterArithmetic : Obligations.FilterArithmetic := by
  refine ⟨filterStep_quotient, fun k p f hp0 hp1 hf0 hf1 => ?_, fun f => ⟨level_of_nonneg, level_of_neg⟩,
    fun dimSet dimClear f was horder => ?_⟩
  · obtain ⟨hup, hdown⟩ := filterStep_le k p f
    have hrange := stepFilter_range k ⟨hp0, hp1⟩ ⟨hf0, hf1⟩
    obtain ⟨hlow, hhigh⟩ := level_range hrange
    refine ⟨rfl, filterStep_arrived, fun h => ⟨filterStep_pos h, (hup (by omega)).2⟩,
      fun h => ⟨(hdown (by omega)).1, ?_⟩, hrange.1, hrange.2, hlow, hhigh⟩
    have hmirror := filterStep_pos (k := k) (p := -p) (f := -f) (by omega)
    rw [filterStep_neg] at hmirror
    omega
  · rw [← level_le_iff, ← le_level_iff]
    unfold dimTest
    refine ⟨fun hset => if_pos hset, fun hclear => ?_, fun hset hclear => ?_⟩
    · rw [if_neg (by omega), if_pos hclear]
    · rw [if_neg hset, if_neg hclear]

end Sys2Proof.Machine
end

