-- ==== Sys2Proof/Proofs/EdgesAndExpiries.lean ====
section
/-! PROOF. The input edges, the settle and patience expiries, and the hold of an impatient arbiter (O33). -/

namespace Sys2Proof.Machine

/-! ## The status words after an event (R185) -/

/-- Bit 22 of part status word A is the MAINS_FAIL level that the part has taken (12.4). -/
theorem partStatusA_mainsFail (s : State) : s.partStatusA.getLsbD 22 = s.inputs.mainsFail := by
  simp only [State.partStatusA, BitVec.getLsbD_append]
  simp

/-- Bit 21 of part status word A is the MAINT_ALL level that the part has taken (12.4). -/
theorem partStatusA_maintAll (s : State) : s.partStatusA.getLsbD 21 = s.inputs.maintAll := by
  simp only [State.partStatusA, BitVec.getLsbD_append]
  simp

/-- An event that changes part status word A alone marks it alone (R185). -/
theorem markStatusWords_partA {s s1 : State} (hA : s1.partStatusA ≠ s.partStatusA)
    (hB : s1.partStatusB = s.partStatusB) (hw : s1.writeMarks = s.writeMarks) :
    (markStatusWords s s1).writeMarks = { s.writeMarks with partA := true } := by
  simp [markStatusWords_eq, hA, hB, hw]

/-- An event away from the bus that leaves both part status words as they stand, with its closing, as one update. -/
theorem event_quiet {c : Instr} {s u : State} (h : exec c s = .next (finish s u)) (ha : u.arb = s.arb)
    (hA : u.partStatusA = s.partStatusA) (hB : u.partStatusB = s.partStatusB) (hw : u.writeMarks = s.writeMarks) :
    ∃ A, exec c s = .next { u with arb := A } ∧ A = s.arbAfterEvent { u with arb := A } := by
  obtain ⟨A, ht, harb⟩ := event_update h ha
  rw [markStatusWords_same hA hB hw, ← hw] at ht harb
  exact ⟨A, ht, harb⟩

/-- An event that leaves the arbiter impatient and both part status words as they stand closes with no change: no
patience window starts (R191). -/
theorem finish_impatient {s u : State} (hi : u.arb.impatient = true) (hA : u.partStatusA = s.partStatusA)
    (hB : u.partStatusB = s.partStatusB) : finish s u = u := by
  have hmark : markStatusWords s u = u := by
    rw [markStatusWords_eq, hA, hB]
    simp
  rw [finish, hmark, watchPatience_eq, State.windowAfter, hi]
  simp

/-! ## The edges and the expiries -/

/-- An edge of an input takes its level, makes one dirty mark, and changes part status word A (R76, R77, R101, R193). -/
theorem edge_update {c : Instr} {s : State} {i : Inputs}
    (h : exec c s = .next (finish s (dirtyMark { s with inputs := i })))
    (hi : i.mainsFail ≠ s.inputs.mainsFail ∨ i.maintAll ≠ s.inputs.maintAll) :
    ∃ t, exec c s = .next t ∧ t.inputs = i ∧ t.settle = s.settleAfterMark s.storm ∧
      t.writeMarks = { s.writeMarks with partA := true } ∧ t.arb = s.arbAfterEvent t ∧
      { t with inputs := s.inputs, settle := s.settle, writeMarks := s.writeMarks, arb := s.arb } = s := by
  rw [dirtyMark_eq] at h
  obtain ⟨A, ht, harb⟩ := event_update h rfl
  refine ⟨_, ht, rfl, rfl, markStatusWords_partA (fun hA => ?_) rfl rfl, harb, rfl⟩
  rcases hi with hmains | hmaint
  · exact hmains ((partStatusA_mainsFail _).symm.trans (hA ▸ partStatusA_mainsFail s))
  · exact hmaint ((partStatusA_maintAll _).symm.trans (hA ▸ partStatusA_maintAll s))

/-- The settle window's expiry waits once its last carry has been given, unless it is frozen (R102, R104). -/
theorem settleDue_of {s : State} {w : Window} (hw : s.settle = some w) (hd : w.due = true) (hf : s.frozen = false) :
    s.settleDue = true := by
  simp [State.settleDue, isDue, hw, hd, hf]

/-- A window whose last carry has been given is due (R88). -/
theorem isDue_some {w : Window} (hd : w.due = true) : isDue (some w) = true := hd

/-- An impatient arbiter between bursts holds a passing access while an internal request waits (R191). -/
theorem holdsPassing_iff (s : State) :
    s.holdsPassing = true ↔ s.arb.impatient = true ∧ s.arb.beatsLeft = 0 ∧ s.head ≠ none := by
  simp [State.holdsPassing, and_assoc, Option.isSome_iff_ne_none]

/-- A beat that the arbiter holds back is held with WAIT and changes nothing else (R191). -/
theorem present_holds {s : State} {row : BeatRow} {eff : Beat → State → State} {b : Beat} (hh : s.arb.held = none)
    (hp : s.holdsPassing = true) : present row eff b s = .next { s with arb := { s.arb with held := some b } } := by
  unfold present
  rw [if_neg (by simp [hh]), if_pos (by simp [hp])]

/-- Settles O33: both edges by `edge_update`, the settle expiry as a quiet event, the patience expiry and the hold by
what an impatient arbiter does. -/
theorem edgesAndExpiriesComplete : Obligations.EdgesAndExpiriesComplete := by
  intro s
  refine ⟨fun hne => edge_update (if_neg hne) (.inl hne), fun hne => edge_update (if_neg hne) (.inr hne),
    fun w hw hd hf => ?settle, fun w hw hd => ?patience, fun b hh hi hl hr => ?hold⟩
  case settle =>
    have hexec : exec .settleExpiry s = .next (finish s { s with settle := none, passRequest := true }) :=
      if_pos (settleDue_of hw hd hf)
    obtain ⟨A, ht, harb⟩ := event_quiet hexec rfl rfl rfl rfl
    exact ⟨_, ht, rfl, rfl, harb, rfl⟩
  case patience =>
    have hexec : exec .patienceExpiry s = .next (finish s { s with arb.window := none, arb.impatient := true }) :=
      if_pos (hw ▸ isDue_some hd)
    exact ⟨_, hexec.trans (congrArg _ (finish_impatient rfl rfl rfl)), rfl, rfl⟩
  case hold => exact ⟨_, present_holds hh ((holdsPassing_iff s).mpr ⟨hi, hl, hr⟩), rfl, rfl, rfl⟩

end Sys2Proof.Machine
end

