-- ==== Sys2Proof/Proofs/CoveringTests.lean ====
section
/-! PROOF. What the tests of the pass and of the Incident Table ask (O22): one `↔` per test. -/

namespace Sys2Proof.Machine

/-! ## Covering (R114, R125) -/

section
variable (nodes : Vector Node 128) (i : Incident)

theorem inSubtree_iff (m n : Fin 128) : inSubtree nodes m n = true ↔ m ∈ chain nodes n := decide_eq_true_iff

theorem covering_iff : i.covering = true ↔ i.phase = .opened ∨ i.phase = .clearing := decide_eq_true_iff

theorem aboveNode_iff (n : Fin 128) :
    i.aboveNode nodes n = true ↔ ∃ m, i.subject = .node m ∧ m ≠ n ∧ m ∈ chain nodes n := by
  unfold Incident.aboveNode
  cases i.subject with
  | node m => simp [inSubtree_iff, ne_comm]
  | terminal t => simp
  | nothing => simp

theorem aboveTerminal_iff (e : Entry) : i.aboveTerminal nodes e = true ↔
    ∃ m f, i.subject = .node m ∧ i.kind.family = some f ∧ m ∈ chain nodes (e.parentIn f.tree) := by
  unfold Incident.aboveTerminal
  cases i.subject with
  | node m => cases i.kind.family <;> simp [inSubtree_iff]
  | terminal t => simp
  | nothing => simp

theorem coversNode_iff (f : Family) (n : Fin 128) : i.coversNode nodes f n = true ↔
    (i.phase = .opened ∨ i.phase = .clearing) ∧ i.kind.family = some f ∧
      ∃ m, i.subject = .node m ∧ m ≠ n ∧ m ∈ chain nodes n := by
  rw [Incident.coversNode, Bool.and_eq_true, Bool.and_eq_true, covering_iff, decide_eq_true_iff, aboveNode_iff,
    and_assoc]

theorem coversTerminal_iff (e : Entry) : i.coversTerminal nodes e = true ↔
    (i.phase = .opened ∨ i.phase = .clearing) ∧ ∃ m f, i.subject = .node m ∧ i.kind.family = some f ∧
      e.afflicted f = true ∧ m ∈ chain nodes (e.parentIn f.tree) := by
  rw [Incident.coversTerminal, Bool.and_eq_true, Bool.and_eq_true, covering_iff, aboveTerminal_iff, and_assoc]
  cases i.kind.family with
  | none => simp
  | some f => simp [and_left_comm]

end

/-! ## Tests of the table (R119, R121, R122) -/

section
variable (s : State)

/-- A test over the table asks it of some incident. -/
theorem slots_any_iff (p : Incident → Bool) :
    s.slots.toList.any (fun o => (o.map p).getD false) = true ↔ ∃ k i, s.slot k = some i ∧ p i = true := by
  rw [toList_eq_indices]
  simp only [List.any_map, List.any_eq_true, mem_indices, true_and, Function.comp_apply, ← State.slot.eq_1]
  refine exists_congr fun k => ?_
  cases s.slot k <;> simp

theorem nodeCovered_iff (f : Family) (n : Fin 128) :
    s.nodeCovered f n = true ↔ ∃ k i, s.slot k = some i ∧ i.coversNode s.nodes f n = true :=
  slots_any_iff s _

theorem slotCovers_iff (e : Entry) (k : Fin 32) :
    s.slotCovers e k = true ↔ ∃ i, s.slot k = some i ∧ i.coversTerminal s.nodes e = true := by
  unfold State.slotCovers
  cases s.slot k <;> simp

/-- The incident that the covering field names, if it covers the terminal, is one that covers it (R117). -/
theorem terminalCovered_iff (e : Entry) :
    s.terminalCovered e = true ↔ ∃ k i, s.slot k = some i ∧ i.coversTerminal s.nodes e = true := by
  have hany : (indices 32).any (s.slotCovers e) = true ↔ ∃ k, s.slotCovers e k = true := by simp
  have hnamed : (e.covering.map (s.slotCovers e)).getD false = true → ∃ k, s.slotCovers e k = true := by
    cases e.covering with
    | none => exact fun h => absurd h Bool.false_ne_true
    | some k => exact fun h => ⟨k, h⟩
  rw [State.terminalCovered, Bool.or_eq_true, hany, or_iff_right_of_imp hnamed]
  exact exists_congr (slotCovers_iff s e)

theorem causeCovered_iff (c : Cause) : s.causeCovered c = true ↔
    ∃ f k i, c.kind.family = some f ∧ s.slot k = some i ∧
      ((∃ n, c.subject = .node n ∧ i.coversNode s.nodes f n = true) ∨
        ∃ m, c.subject = .terminal m ∧ (s.entry m).afflicted f = true ∧
          i.coversTerminal s.nodes (s.entry m) = true) := by
  unfold State.causeCovered
  cases c.kind.family with
  | none => cases c.subject <;> simp
  | some f =>
    cases c.subject with
    | node n => simp [nodeCovered_iff]
    | terminal m => simp [terminalCovered_iff, and_left_comm]
    | nothing => simp

theorem fits_iff (c : Cause) (i : Incident) : c.fits i = true ↔ i.kind = c.kind ∧ i.subject = c.subject :=
  decide_eq_true_iff

theorem matched_iff (c : Cause) : s.matched c = true ↔
    ∃ k i, s.slot k = some i ∧ i.close = none ∧ i.kind = c.kind ∧ i.subject = c.subject := by
  rw [State.matched, slots_any_iff]
  simp only [Bool.and_eq_true, Option.isNone_iff_eq_none, fits_iff]

theorem leaving_iff (c : Cause) : s.leaving c = true ↔
    ∃ k i, s.slot k = some i ∧ i.close ≠ none ∧ i.kind = c.kind ∧ i.subject = c.subject := by
  rw [State.leaving, slots_any_iff]
  simp only [Bool.and_eq_true, Option.isSome_iff_ne_none, fits_iff]

/-! ## The maintenance test and the emit predicate (R73, R149) -/

theorem nodeUnderMaint_iff (n : Fin 128) : s.nodeUnderMaint n = true ↔
    s.inputs.maintAll = true ∨ s.nodes[n].maint = true ∨ ∃ m ∈ chain s.nodes n, s.nodes[m].maint = true := by
  rw [State.nodeUnderMaint, Bool.or_eq_true, Bool.or_eq_true, List.any_eq_true, or_assoc]

theorem subjectUnderMaint_node {i : Incident} {n : Fin 128} (h : i.subject = .node n) :
    s.subjectUnderMaint i = s.nodeUnderMaint n := by
  rw [State.subjectUnderMaint, h]

theorem subjectUnderMaint_terminal {i : Incident} {m : Fin 512} {f : Family} (h : i.subject = .terminal m)
    (hf : i.kind.family = some f) : s.subjectUnderMaint i = s.nodeUnderMaint ((s.entry m).parentIn f.tree) := by
  rw [State.subjectUnderMaint, h, hf]
  rfl

theorem subjectUnderMaint_nothing {i : Incident} (h : i.subject = .nothing) :
    s.subjectUnderMaint i = s.inputs.maintAll := by
  rw [State.subjectUnderMaint, h]

theorem flag_eq_toNat (b : Bool) : flag b = b.toNat := by
  cases b
  · rfl
  · rfl

/-- The predicate bit of an incident: four bits for each kind, from code 1 on (R149). -/
theorem permitted_eq (i : Incident) : s.permitted i =
    s.par.predicates.getLsbD (4 * i.kind.code - 4 + 2 * i.storm.toNat + i.maint.toNat) := by
  rw [State.permitted, permittedBy, flag_eq_toNat, flag_eq_toNat, Nat.mul_sub, ← Nat.add_assoc]

end

/-- Settles O22, test by test. -/
theorem coveringAndFlagTests : Obligations.CoveringAndFlagTests := by
  refine ⟨fun nodes i => ⟨coversNode_iff nodes i, coversTerminal_iff nodes i⟩, fun kind => ?family,
    fun s c => ⟨causeCovered_iff s c, matched_iff s c, leaving_iff s c⟩,
    fun s i => ⟨fun n h => ?node, fun m f h hf => ?terminal, subjectUnderMaint_nothing s, fun k hk => ?emit⟩⟩
  case family => cases kind <;> rfl
  case node => rw [subjectUnderMaint_node s h, nodeUnderMaint_iff]
  case terminal => rw [subjectUnderMaint_terminal s h hf, nodeUnderMaint_iff, exists_eq_left]
  case emit =>
    have hcode : k = i.kind.code := hk.trans (by cases i.kind <;> rfl)
    rw [permitted_eq, hcode]

end Sys2Proof.Machine
end

