-- ==== Sys2Proof/Proofs/Queue.lean ====
section
/-! PROOF. What a step runs (O1): the front of the queue, the event that waits, or one REFCLK cycle. -/

namespace Sys2Proof.Machine

theorem step_pending {s : State} {c : Instr} {rest : List Instr} (h : s.pending = c :: rest) :
    step s = exec c { s with pending := rest } := by
  rw [step, h]

theorem step_waiting {s : State} {c : Instr} (h : s.pending = []) (hw : s.waiting = some c) : step s = exec c s := by
  rw [step, h]
  show idle s = _
  rw [idle, hw]

theorem step_refclk {s : State} (h : s.pending = []) (hw : s.waiting = none) : step s = .next (refclk s) := by
  rw [step, h]
  show idle s = _
  rw [idle, hw]

/-- The REFCLK cycle past 24 is the row of the carry with the levels as they stand (R81). -/
theorem refclk_carry {s : State} (hw : s.waiting = none) (hp : 24 ≤ s.time.prescaler) :
    .next (refclk s) = exec (.microsecondCarry s.inputs.sample { ready := s.arb.ready, upTo := false }) s := by
  show _ = execMicrosecondCarry _ _ s
  rw [refclk, if_pos hp, execMicrosecondCarry, if_neg (by simp [hw]), if_neg (by simp)]

/-- Settles O1, by what the queue and the events that wait give a step. -/
theorem stepServesTheQueue : Obligations.StepServesTheQueue := by
  refine ⟨fun c rest s h => step_pending h, fun s h => ⟨fun c hw => step_waiting h hw, fun hw hp => ?_, fun hw hp => ?_⟩⟩
  · rw [step_refclk h hw, refclk, if_neg (Nat.not_le.mpr hp)]
  · rw [step_refclk h hw, refclk_carry hw hp]

end Sys2Proof.Machine
end

