-- ==== Sys2Proof/Proofs/EditCommands.lean ====
section
/-! PROOF. EXTEND and SETTIME complete (O42); EDIT, COMMIT and ABANDON complete (O43). -/

namespace Sys2Proof.Machine

/-! ## EXTEND and SETTIME -/

theorem effExtend_eq (s : State) (tag : Byte) (arg : Half) (burst : Bool) :
    effExtend (s.mailboxBeat 1 tag arg burst) s =
      extendBody tag arg (s.afterMailbox (s.mailboxBeat 1 tag arg burst)) := by
  rw [effExtend, beatTag_mailboxBeat, mailboxArg_mailboxBeat]
  rfl

theorem effSettime_eq (s : State) (tag : Byte) (arg : Half) (burst : Bool) :
    effSettime (s.mailboxBeat 5 tag arg burst) s =
      settimeBody tag arg s.latch (s.afterMailbox (s.mailboxBeat 5 tag arg burst)) := by
  rw [effSettime, beatTag_mailboxBeat, mailboxArg_mailboxBeat]
  rfl

/-- Settles O42: each command is taken from its beat, and its body is one update with its outcome recorded. -/
theorem extendAndSettimeComplete : Obligations.ExtendAndSettimeComplete := by
  intro tag arg burst s ht hwf
  have hplain := ((takesCommands_iff s).mp ht).2
  have hextend : s.rowOf (s.mailboxBeat 1 tag arg burst) = .extend := rowOf_mailboxBeat s 1 tag arg burst hplain
  have hsettime : s.rowOf (s.mailboxBeat 5 tag arg burst) = .settime := rowOf_mailboxBeat s 5 tag arg burst hplain
  constructor
  · obtain ⟨W, A, hx, hd⟩ := command_served ht hwf hextend (effExtend_eq s tag arg burst) rfl rfl rfl
    exact ⟨_, hx, hd, rfl, rfl⟩
  · obtain ⟨W, A, hx, hd⟩ := command_served ht hwf hsettime (effSettime_eq s tag arg burst) rfl rfl rfl
    exact ⟨_, hx, hd, rfl, rfl, rfl⟩

/-! ## EDIT -/

theorem effEdit_eq (s : State) (tag : Byte) (arg : Half) (burst : Bool) :
    effEdit (s.mailboxBeat 2 tag arg burst) s = editBody tag (s.afterMailbox (s.mailboxBeat 2 tag arg burst)) := by
  rw [effEdit, beatTag_mailboxBeat]
  rfl

/-- EDIT's body in the states that take it (R173, R175). -/
theorem editBody_eq (tag : Byte) {s : State} (h : s.part = .unconfigured ∨ s.part = .running) :
    editBody tag s = record tag .done 0 { freezeWindows s with
      origin := some s.part, editTag := tag, part := .edit, editLimit := some (s.msStart 10000) } := by
  unfold editBody
  rcases h with h | h
  · rw [h, msWindow_eq]; rfl
  · rw [h, msWindow_eq]; rfl

/-- The freeze of the soaks changes no other field of an incident (R90, R141). -/
theorem freezeWindows_slot (s : State) (k : Fin 32) : (freezeWindows s).slot k = (s.slot k).map Incident.frozen :=
  mapTable_getElem_fin _ _ k

/-! ## COMMIT -/

theorem effCommit_eq (s : State) (tag : Byte) (arg : Half) (burst : Bool) :
    effCommit (s.mailboxBeat 3 tag arg burst) s = commitBody tag (s.afterMailbox (s.mailboxBeat 3 tag arg burst)) := by
  rw [effCommit, beatTag_mailboxBeat]
  rfl

/-- COMMIT's body in EDIT (R173, R178). -/
theorem commitBody_eq (tag : Byte) {s : State} (h : s.part = .edit) :
    commitBody tag s = cutCensus { s with part := .loading, load := some (Load.start tag) } := by
  unfold commitBody
  rw [h]

/-- A census that is cut already, or none, is left as it is (R168). -/
theorem census_map_cut {s : State} (h : ∀ c, s.census = some c → c.cut = true) :
    s.census = s.census.map (fun c => { c with cut := true }) := by
  cases hs : s.census with
  | none => rfl
  | some c => rw [Option.map_some, ← h c hs]

/-! ## ABANDON -/

theorem effAbandon_eq (s : State) (tag : Byte) (arg : Half) (burst : Bool) :
    effAbandon (s.mailboxBeat 4 tag arg burst) s =
      abandonBody tag (s.afterMailbox (s.mailboxBeat 4 tag arg burst)) := by
  rw [effAbandon, beatTag_mailboxBeat]
  rfl

/-- ABANDON's body in EDIT (R173, R177). -/
theorem abandonBody_edit (tag : Byte) {s : State} (h : s.part = .edit) :
    abandonBody tag s = record tag .done 0 (leaveEdit s) := by
  unfold abandonBody
  rw [h]

/-- ABANDON's body in a check pass: its DONE replaces the ABANDONED of the COMMIT that it stopped (R173, R177). -/
theorem abandonBody_check (tag : Byte) {s : State} {l : Load} (h : s.part = .loading) (hl : s.load = some l)
    (ha : l.applying = false) : abandonBody tag s = record tag .done 1 (leaveEdit s) := by
  unfold abandonBody
  rw [h, hl]
  simp only [ha, Bool.false_eq_true, if_false]
  rfl

/-- Settles O43: each command is taken from its beat; COMMIT's body cuts a census or finds none to cut. -/
theorem editCommitAndAbandonComplete : Obligations.EditCommitAndAbandonComplete := by
  intro tag arg burst s ht hwf
  have hplain := ((takesCommands_iff s).mp ht).2
  have hedit : s.rowOf (s.mailboxBeat 2 tag arg burst) = .edit := rowOf_mailboxBeat s 2 tag arg burst hplain
  have hcommit : s.rowOf (s.mailboxBeat 3 tag arg burst) = .commit := rowOf_mailboxBeat s 3 tag arg burst hplain
  have habandon : s.rowOf (s.mailboxBeat 4 tag arg burst) = .abandon := rowOf_mailboxBeat s 4 tag arg burst hplain
  refine ⟨fun hpart => ?edit, fun hpart => ?commit, fun hlaw hpart => ?abandon⟩
  case edit =>
    have heff := effEdit_eq s tag arg burst
    rw [editBody_eq tag (s := s.afterMailbox _) hpart] at heff
    obtain ⟨W, A, hx, hd⟩ := command_served ht hwf hedit heff rfl rfl rfl
    exact ⟨_, hx, hd, rfl, rfl, rfl, rfl, rfl, rfl, freezeWindows_slot s, rfl⟩
  case commit =>
    have heff := effCommit_eq s tag arg burst
    have hserves : s.serves .commit (s.mailboxBeat 3 tag arg burst) := ⟨((takesCommands_iff s).mp ht).1, hcommit, hwf⟩
    rw [commitBody_eq tag (s := s.afterMailbox _) hpart] at heff
    rcases cutCensus_cases { s.afterMailbox (s.mailboxBeat 3 tag arg burst) with
      part := .loading, load := some (Load.start tag) } with ⟨hcut, hc⟩ | ⟨c, hs, hc, hcut⟩
    · rw [hcut] at heff
      obtain ⟨A, hx, hd⟩ := serves_update (w := mailboxWord 3 tag arg) hserves heff rfl rfl
      refine ⟨_, false, hx, hd, rfl, rfl, rfl, census_map_cut (s := s) hc, ⟨by simp, ?_⟩,
        fun _ => ⟨rfl, markStatusWords_marksAfter rfl⟩, by simp, rfl⟩
      rintro ⟨c, hs, hn⟩
      exact absurd (hc c hs) (by simp [hn])
    · rw [hcut] at heff
      obtain ⟨A, hx, hd⟩ := serves_update (w := mailboxWord 3 tag arg) hserves heff rfl rfl
      have hs' : s.census = some c := hs
      refine ⟨_, true, hx, hd, rfl, rfl, rfl, by rw [hs']; rfl, by simpa using ⟨c, hs', hc⟩, by simp,
        fun c' _ hc' => ?_, rfl⟩
      obtain rfl := Option.some.inj (hs'.symm.trans hc')
      exact ⟨rfl, rfl⟩
  case abandon =>
    have heff := effAbandon_eq s tag arg burst
    obtain ⟨hloading, horigin, -⟩ := hlaw
    obtain ⟨o, ho⟩ := Option.isSome_iff_exists.mp (horigin.mp (hpart.imp_right And.left))
    have hend : s.origin = some (s.origin.getD .unconfigured) := by rw [ho]; rfl
    rcases hpart with hp | ⟨hp, hpass⟩
    · rw [abandonBody_edit tag (s := s.afterMailbox _) hp] at heff
      obtain ⟨W, A, hx, hd⟩ := command_served ht hwf habandon heff rfl rfl rfl
      exact ⟨_, hx, by simpa [hp] using hd, rfl, hend, rfl, rfl, rfl, rfl⟩
    · obtain ⟨l, hl⟩ := Option.isSome_iff_exists.mp (hloading.mp hp)
      have ha : l.applying = false := by simpa [State.applyPass, hl] using hpass
      rw [abandonBody_check tag (s := s.afterMailbox _) hp hl ha] at heff
      obtain ⟨W, A, hx, hd⟩ := command_served ht hwf habandon heff rfl rfl rfl
      exact ⟨_, hx, by simpa [hp] using hd, rfl, hend, rfl, rfl, rfl, rfl⟩

end Sys2Proof.Machine
end

