-- ==== Sys2Proof/Proofs/Arbiter.lean ====
section
/-! SUPPORT. What passing beats and the ends of accesses leave of the arbiter and of the prescaler (R81, R93, R186, R190). -/

namespace Sys2Proof.Machine

variable {s t : State}

/-- An event leaves the arbiter and the prescaler as they stand, or it clears the counting chain and the patience window
is past the moment of its start (R93). -/
def State.keepsArb (s t : State) : Prop :=
  (t.time.prescaler = s.time.prescaler ∧ t.arb = s.arb) ∨
  (t.time.prescaler = 0 ∧ t.arb = { s.arb with window := s.arb.window.map windowPassed })

theorem keepsArb_trans {u : State} (h : s.keepsArb t) (h' : t.keepsArb u) : s.keepsArb u := by
  have hpass : (s.arb.window.map windowPassed).map windowPassed = s.arb.window.map windowPassed := by
    cases s.arb.window <;> rfl
  rcases h with ⟨hp, ha⟩ | ⟨hp, ha⟩ <;> rcases h' with ⟨hp', ha'⟩ | ⟨hp', ha'⟩
  · exact .inl ⟨hp'.trans hp, ha'.trans ha⟩
  · exact .inr ⟨hp', ha ▸ ha'⟩
  · exact .inr ⟨hp'.trans hp, ha'.trans ha⟩
  · rw [ha] at ha'
    exact .inr ⟨hp', by rw [ha', hpass]⟩

/-- Of the changes of a passing beat only RESET's touches the arbiter or the prescaler (R93). -/
theorem Move.keepsArb (h : Move s t) : s.keepsArb t := by
  cases h with
  | terminal k new hp hn =>
    have hf := terminalEvent_frame k new s
    exact .inl ⟨(congrArg (·.time.prescaler) hf :), (congrArg State.arb hf :)⟩
  | trunk down => rw [markIf_eq]; exact .inl ⟨rfl, rfl⟩
  | forget k hp => rw [forgetTerminal_eq]; exact .inl ⟨rfl, rfl⟩
  | maint made block mask polarity h => rw [markIf_eq]; exact .inl ⟨rfl, rfl⟩
  | take =>
    have hf := takeNotice_frame s
    exact .inl ⟨(congrArg (·.time.prescaler) hf :), (congrArg State.arb hf :)⟩
  | reset => exact .inr ⟨rfl, rfl⟩
  | _ => exact .inl ⟨rfl, rfl⟩

theorem Moves.keepsArb (h : Moves s t) : s.keepsArb t := by
  induction h with
  | refl => exact .inl ⟨rfl, rfl⟩
  | tail _ hm ih => exact keepsArb_trans ih hm.keepsArb

theorem withEnding_time_arb (s0 s : State) :
    ((s0.withEnding s).time, (s0.withEnding s).arb) = (s.time, s.arb) := rfl

/-- The event of an internal access touches neither the counting chain nor the arbiter (R163, R164, R166, R168). -/
theorem endingEvent_arb (e : Ending) (s : State) :
    (endingEvent e s).time = s.time ∧ (endingEvent e s).arb = s.arb := by
  have hf := congrArg (fun u : State => (u.time, u.arb)) (endingEvent_frame s e s)
  simpa only [withEnding_time_arb, Prod.mk.injEq] using hf

theorem land_time (w : Option Store) (s : State) : (land w s).time = s.time := by
  cases w <;> rfl

/-! ## The level of M_READY -/

/-- With M_READY asserted and the memory side free, a beat held with WAIT is forwarded at once (R186). -/
theorem releaseHeld_settled (hr : s.arb.ready = true) (hb : s.arb.busy = none) :
    (releaseHeld s).time.prescaler ≤ s.time.prescaler ∧ (releaseHeld s).arb.ready = true ∧
      (releaseHeld s).arb.busy = none := by
  unfold releaseHeld
  split
  · exact ⟨Nat.le_refl _, hr, hb⟩
  · next b _ =>
    have hk : State.keepsArb { s with arb := { s.arb with held := none } }
        (takeBeat b { s with arb := { s.arb with held := none } }) := (takeBeat_moves b _).keepsArb
    dsimp only
    generalize takeBeat b { s with arb := { s.arb with held := none } } = u at hk ⊢
    have hu : u.time.prescaler ≤ s.time.prescaler ∧ u.arb.ready = true := by
      rcases hk with ⟨hp, ha⟩ | ⟨hp, ha⟩
      · exact ⟨Nat.le_of_eq hp, ha ▸ hr⟩
      · exact ⟨hp ▸ Nat.zero_le _, ha ▸ hr⟩
    rw [finishBeat_eq, startWindow_eq]
    exact ⟨hu.1, hu.2, if_pos hu.2⟩

/-- The closing of an event leaves the memory side as it stands (R191). -/
theorem finish_side (s0 s : State) :
    (finish s0 s).arb.ready = s.arb.ready ∧ (finish s0 s).arb.busy = s.arb.busy := by
  rw [finish_eq]
  dsimp only
  split
  · exact ⟨rfl, rfl⟩
  · exact ⟨rfl, rfl⟩

/-- The end of an access changes neither the counting chain nor the memory side (R186, R190). -/
theorem endAccess_side (w : Option Store) (e : Option Ending) (s : State) :
    (endAccess w e s).time = s.time ∧ (endAccess w e s).arb.ready = s.arb.ready ∧
      (endAccess w e s).arb.busy = s.arb.busy := by
  cases e with
  | none => exact ⟨land_time w s, by rw [endAccess, land_arb], by rw [endAccess, land_arb]⟩
  | some e =>
    obtain ⟨htime, harb⟩ := endingEvent_arb e (land w s)
    obtain ⟨hr, hb⟩ := finish_side (land w s) (endingEvent e (land w s))
    rw [land_time] at htime
    rw [harb, land_arb] at hr hb
    exact ⟨by rw [endAccess, finish_eq]; exact htime, hr, hb⟩

/-- A level of M_READY is taken, and asserted it leaves the memory side free (R186). -/
theorem memoryReady_settled (ready : Bool) (s : State) :
    (memoryReady ready s).time.prescaler ≤ s.time.prescaler ∧ (memoryReady ready s).arb.ready = ready ∧
      (ready = false ∨ (memoryReady ready s).arb.busy = none) := by
  rcases memoryReady_cases ready s with ⟨hi, h⟩ | ⟨rfl, -, ⟨-, h⟩ | ⟨-, h⟩⟩ | ⟨w, e, rfl, -, h⟩
  · rw [h]
    exact ⟨Nat.le_refl _, rfl, hi⟩
  · rw [h]
    exact ⟨Nat.le_refl _, rfl, .inr rfl⟩
  · rw [h]
    obtain ⟨hp, hr, hb⟩ := releaseHeld_settled (s := { s with arb := { s.arb with ready := true, busy := none } }) rfl rfl
    exact ⟨hp, hr, .inr hb⟩
  · obtain ⟨htime, hr, hb⟩ := endAccess_side w e { s with arb := { s.arb with ready := true, busy := none } }
    rw [h]
    obtain ⟨hp, hr, hb⟩ := releaseHeld_settled hr hb
    exact ⟨hp.trans (Nat.le_of_eq (congrArg Timebase.prescaler htime)), hr, .inr hb⟩

end Sys2Proof.Machine
end

