-- ==== Sys2Proof/Proofs/Carries.lean ====
section
/-! PROOF. The millisecond carry (O29) and the microsecond carry (O30): each event as one update of the part, and what the
closing of an event leaves of the patience window. -/

namespace Sys2Proof.Machine

/-! ## The patience window at the closing of an event -/

/-- The arbiter at the closing of an event: behind a passing access a waiting request starts the window `w` (R191). -/
def Arbiter.watched (a : Arbiter) (w : Window) (requested : Bool) : Arbiter :=
  { a with window := if a.passing = true ∧ requested = true ∧ a.window = none ∧ a.impatient = false
      then some w else a.window }

theorem watchPatience_watched (s : State) :
    watchPatience s = { s with arb := s.arb.watched (s.usStart 5) s.head.isSome } := by
  have harb : (if s.arb.passing = true then { s.arb with window := s.windowAfter s } else s.arb) =
      s.arb.watched (s.usStart 5) s.head.isSome := by
    unfold State.windowAfter Arbiter.watched
    generalize s.arb = a
    cases hp : a.passing
    · simp
    · cases s.head <;> cases a.window <;> cases hi : a.impatient <;> simp [hi]
  rw [watchPatience_eq, harb]

/-- The window does not start where no request waits, or it runs already, or the arbiter is impatient (R191). -/
theorem watched_same {a : Arbiter} {r : Bool} (w : Window)
    (h : r = false ∨ a.window.isSome = true ∨ a.impatient = true) : a.watched w r = a := by
  rw [Arbiter.watched, if_neg]
  rintro ⟨-, hr, hw, hi⟩
  simp [hr, hw, hi] at h

/-- The closing of an event as one update (R185, R191). -/
theorem finish_watched (s u : State) : finish s u = { u with
    writeMarks := (markStatusWords s u).writeMarks
    arb := u.arb.watched (u.usStart 5) (markStatusWords s u).head.isSome } := by
  rw [finish, watchPatience_watched, markStatusWords_eq]
  rfl

/-- The closing of an event that leaves both part status words as they stand (R185, R191). -/
theorem finish_same {s u : State} (hA : u.partStatusA = s.partStatusA) (hB : u.partStatusB = s.partStatusB) :
    finish s u = { u with arb := u.arb.watched (u.usStart 5) u.head.isSome } := by
  have hmark : markStatusWords s u = u := by
    rw [markStatusWords_eq, hA, hB]
    simp
  rw [finish, hmark, watchPatience_watched]

/-- Part status word A tells of the slots only which of them are free (12.4). -/
theorem partStatusA_slots {s t : State} (h : State.partStatusA { t with slots := s.slots } = s.partStatusA)
    (hs : ∀ k, (t.slot k).isSome = (s.slot k).isSome) : t.partStatusA = s.partStatusA := by
  have hn : t.slotsInUse = State.slotsInUse { t with slots := s.slots } := by
    simp only [slotsInUse_eq, hs]
    rfl
  rw [← h]
  unfold State.partStatusA
  rw [hn, hs 0]
  rfl

/-! ## A millisecond carry -/

/-- What a millisecond carry does to a settle window or a soak (R88, R90, R104, R141). -/
def State.msCarried (s : State) : Window → Window := if s.frozen then windowPassed else windowCounted

/-- The incidents after a millisecond carry (R141). -/
def State.carriedSlots (s : State) : Vector (Option Incident) 32 :=
  mapTable (fun _ o => o.map (fun i => { i with soak := i.soak.map s.msCarried })) s.slots

theorem carriedSlots_slot (s : State) (k : Fin 32) :
    s.carriedSlots[k] = (s.slot k).map (fun i => { i with soak := i.soak.map s.msCarried }) :=
  mapTable_getElem_fin _ s.slots k

/-- The counting chain after a millisecond carry: the counter and the ms clock advance, and the taps are given (R82, R83,
R84). -/
def State.carriedTime (s : State) : Timebase :=
  { s.time with
    counter := (s.time.counter + 1) % 1024, clock := s.time.clock + 1
    leakDue := decide ((s.time.counter + 1) % 1024 % 16 = 0)
    silenceDue := decide (s.settings ≠ none ∧ (s.time.counter + 1) % 1024 % tapPeriod s.par.silenceTap = 0) }

/-- The part after a millisecond carry (R82, R83, R84, R102, R141, R175). -/
def State.millisecondCarried (s : State) : State :=
  { s with
    time := s.carriedTime, editLimit := s.editLimit.map windowCounted, settle := s.settle.map s.msCarried
    slots := s.carriedSlots }

theorem millisecondEvent_eq (s : State) : millisecondEvent s = s.millisecondCarried := by
  have hcarried : Window.carried = windowCounted := funext carried_eq
  have hsilence (n : Nat) : (s.settings.isSome && decide (n = 0)) = decide (s.settings ≠ none ∧ n = 0) := by
    cases s.settings <;> simp
  rw [millisecondEvent, countWindows_eq, hcarried, State.millisecondCarried, State.carriedTime, ← hsilence]
  rfl

/-- A carry frees no slot and fills none. -/
theorem partStatusA_carried {s t : State} (h : State.partStatusA { t with slots := s.slots } = s.partStatusA)
    (hs : t.slots = s.carriedSlots) : t.partStatusA = s.partStatusA := by
  refine partStatusA_slots h fun k => ?_
  show t.slots[k].isSome = _
  rw [hs, carriedSlots_slot, Option.isSome_map]

/-! ## MILLISECOND_CARRY -/

/-- A run of REFCLK changes the arbiter alone (R191). -/
theorem runPatience_update (n : Nat) (s : State) : runPatience n s = { s with arb := (runPatience n s).arb } := by
  have h := runPatience_frame n s
  generalize runPatience n s = u at h ⊢
  exact (congrArg (fun v : State => { v with arb := u.arb }) h :)

/-- With no patience window a run of REFCLK changes nothing (R191). -/
theorem runPatience_none {s : State} (n : Nat) (h : s.arb.window = none) : runPatience n s = s := by
  rw [runPatience, h]

/-- The patience window of an arbiter with no request waiting keeps its count (R191, log entry 31). -/
theorem runPatience_idle {s : State} (n : Nat) {w : Window} (h : s.arb.window = some w) (hh : s.head = none) :
    runPatience n s = { s with arb := { s.arb with window := some (windowPassed w) } } := by
  rw [runPatience, h]
  simp [hh, passed_eq]

/-- The patience window counts a run's carries while a request waits (R88, R191). -/
theorem runPatience_counts {s : State} (n : Nat) {w : Window} (h : s.arb.window = some w) (hh : s.head ≠ none)
    {count : Nat} (hc : count = if w.fresh then n - 1 else n) : runPatience n s =
      if count < w.left then
        { s with arb := { s.arb with window := some { left := w.left - count, due := w.due, fresh := false } } }
      else if count = w.left then { s with arb := { s.arb with window := some { left := 1, due := true, fresh := false } } }
      else { s with arb := { s.arb with window := none, impatient := true } } := by
  rw [runPatience, h, hc]
  simp [hh, passed_eq, windowPassed]

/-- The carry at the end of a run of REFCLK that leaves the arbiter `a` (R81, R84, R191). -/
theorem millisecondRun_eq {s : State} {a : Arbiter} (ha : (runPatience (1000 - s.time.divider) s).arb = a) :
    millisecondEvent { runPatience (1000 - s.time.divider) s with
        time.prescaler := 0, time.divider := 0, inputs.sampled := true } =
      { s.millisecondCarried with
        time := { s.carriedTime with prescaler := 0, divider := 0 }, inputs := { s.inputs with sampled := true }
        arb := a } := by
  rw [millisecondEvent_eq, runPatience_update, ha]
  rfl

/-- MILLISECOND_CARRY as one update, with the arbiter `a` of the run's end (R81, R84, R191). -/
theorem millisecondCarry_eq {s : State} {a : Arbiter} (hw : s.waiting = none)
    (ha : (runPatience (1000 - s.time.divider) s).arb = a) : exec .millisecondCarry s = .next
      { s.millisecondCarried with
        time := { s.carriedTime with prescaler := 0, divider := 0 }, inputs := { s.inputs with sampled := true }
        arb := a.watched { left := 5, due := false, fresh := false } s.head.isSome } := by
  have hexec : exec .millisecondCarry s = .next (finish s (millisecondEvent { runPatience (1000 - s.time.divider) s with
      time.prescaler := 0, time.divider := 0, inputs.sampled := true })) := if_neg (by simp [hw])
  rw [millisecondRun_eq ha] at hexec
  exact hexec.trans (congrArg Host.Outcome.next (finish_same (partStatusA_carried rfl rfl) rfl))

/-- Settles O29: the row is one update; the patience window's run by the cases of `runPatience`. -/
theorem millisecondCarryCounts : Obligations.MillisecondCarryCounts := by
  intro s
  refine ⟨fun hw => if_pos (Option.isSome_iff_ne_none.mpr hw), fun hw => ?_⟩
  obtain ⟨a, ha⟩ : ∃ a, (runPatience (1000 - s.time.divider) s).arb = a := ⟨_, rfl⟩
  refine ⟨_, _, _, millisecondCarry_eq hw ha, rfl, rfl, rfl, rfl, rfl, rfl, carriedSlots_slot s, fun hh => ?idle,
    fun hh hn => ?starts, fun w hh hs count hc => ?counts, rfl⟩
  case idle =>
    refine (watched_same _ (.inl (by simp [hh]))).trans ?_
    rw [← ha]
    cases hs : s.arb.window with
    | none => rw [runPatience_none _ hs, Option.map_none, ← hs]
    | some w => rw [runPatience_idle _ hs hh]; rfl
  case starts =>
    rw [← ha, runPatience_none _ hn]
    simp [Arbiter.watched, hn, Option.isSome_iff_ne_none.mpr hh]
  case counts =>
    rw [runPatience_counts _ hs hh hc] at ha
    refine ⟨fun h => ?_, fun h => ?_, fun h => ?_⟩
    · rw [if_pos h] at ha
      exact ha ▸ watched_same _ (.inr (.inl rfl))
    · rw [if_neg (by omega), if_pos h] at ha
      exact ha ▸ watched_same _ (.inr (.inl rfl))
    · rw [if_neg (by omega), if_neg (by omega)] at ha
      exact ha ▸ watched_same _ (.inr (.inr rfl))

/-! ## MICROSECOND_CARRY -/

/-- In the cycle of the carry, a part that M_READY has been taken by stays as it is (R81, R186, log entry 34). -/
theorem toMicrosecond_again {s : State} {ready : Bool} (h : 24 ≤ (toMicrosecond ready s).time.prescaler) :
    toMicrosecond ready (toMicrosecond ready s) = toMicrosecond ready s := by
  obtain ⟨hp, hr, hb⟩ := memoryReady_settled ready { s with time.prescaler := 24 }
  change (toMicrosecond ready s).time.prescaler ≤ 24 at hp
  change (toMicrosecond ready s).arb.ready = ready at hr
  change ready = false ∨ (toMicrosecond ready s).arb.busy = none at hb
  rw [toMicrosecond_idle hb]
  generalize toMicrosecond ready s = t at h hp hr
  have h24 : t.time.prescaler = 24 := Nat.le_antisymm hp h
  subst hr
  rw [← h24]

theorem microsecondCarry_waiting {s : State} (levels : Levels) (run : CarryRun) (hw : s.waiting ≠ none) :
    exec (.microsecondCarry levels run) s = .next s := if_pos (Option.isSome_iff_ne_none.mpr hw)

theorem microsecondCarry_upTo {s : State} (levels : Levels) (ready : Bool) (hw : s.waiting = none) :
    exec (.microsecondCarry levels { ready, upTo := true }) s = .next (toMicrosecond ready s) := by
  show execMicrosecondCarry _ _ s = _
  rw [execMicrosecondCarry, if_neg (by simp [hw]), if_pos rfl]

theorem microsecondCarry_whole {s : State} (levels : Levels) (ready : Bool) (hw : s.waiting = none) :
    exec (.microsecondCarry levels { ready, upTo := false }) s = .next (microsecond levels ready s) := by
  show execMicrosecondCarry _ _ s = _
  rw [execMicrosecondCarry, if_neg (by simp [hw]), if_neg (by simp)]

/-- What the event of a microsecond carry leaves of the part but for the arbiter: with the divider at 999 the carry of a
millisecond comes too (R81, R193). -/
def State.microsecondCarried (s : State) (levels : Levels) : State :=
  { s with
    time := if s.time.divider < 999 then { s.time with prescaler := 0, divider := s.time.divider + 1 }
      else { s.carriedTime with prescaler := 0, divider := 0 }
    editLimit := if s.time.divider < 999 then s.editLimit else s.editLimit.map windowCounted
    settle := if s.time.divider < 999 then s.settle else s.settle.map s.msCarried
    slots := if s.time.divider < 999 then s.slots else s.carriedSlots
    inputs := s.inputs.take levels }

/-- The patience window after a microsecond carry (R88, R191, log entry 31). -/
def State.patienceCarried (s : State) : Option Window :=
  s.arb.window.map (if s.head ≠ none then windowCounted else windowPassed)

/-- A microsecond carry as one update (R81, R88, R191, R193). -/
theorem microsecondEvent_eq (levels : Levels) (s : State) : microsecondEvent levels s =
    { s.microsecondCarried levels with arb := { s.arb with window := s.patienceCarried } } := by
  have hcount : countPatience s = { s with arb := { s.arb with window := s.patienceCarried } } := by
    rw [countPatience_eq, State.patienceCarried]
    simp only [Option.isSome_iff_ne_none]
  rw [microsecondEvent, hcount, State.microsecondCarried]
  by_cases hd : s.time.divider < 999
  · simp only [if_neg (Nat.not_le.mpr hd), if_pos hd]
  · simp only [if_pos (Nat.le_of_not_lt hd), if_neg hd, millisecondEvent_eq]
    rfl

theorem microsecondCarried_slot (s : State) (levels : Levels) (k : Fin 32) :
    (s.microsecondCarried levels).slot k = if s.time.divider < 999 then s.slot k else
      (s.slot k).map (fun i => { i with soak := i.soak.map s.msCarried }) := by
  show (if s.time.divider < 999 then s.slots else s.carriedSlots)[k] = _
  split
  · rfl
  · exact carriedSlots_slot s k

/-- The cycle of a microsecond carry in which M_READY ends no access, with its carry, as one update. -/
theorem microsecond_idle {s : State} (levels : Levels) {ready : Bool} (h : ready = false ∨ s.arb.busy = none) :
    ∃ t, microsecond levels ready s = t ∧ t.writeMarks = s.marksAfter t ∧
      t.arb = Arbiter.watched { s.arb with ready, window := s.patienceCarried } { left := 5, due := false, fresh := false }
        t.head.isSome ∧
      t = { s.microsecondCarried levels with writeMarks := t.writeMarks, arb := t.arb } := by
  have hcycle : microsecond levels ready s =
      finish (toMicrosecond ready s) (microsecondEvent levels (toMicrosecond ready s)) := by
    rw [microsecond, toMicrosecond_idle h]
    exact if_pos rfl
  have hevent : microsecondEvent levels { s with
        time := { s.time with prescaler := 24 }, arb := { s.arb with ready } } =
      { s.microsecondCarried levels with arb := { s.arb with ready, window := s.patienceCarried } } :=
    microsecondEvent_eq levels _
  have hstart : (s.microsecondCarried levels).time.prescaler = 0 := by
    show (if s.time.divider < 999 then _ else _ : Timebase).prescaler = 0
    split
    · rfl
    · rfl
  rw [toMicrosecond_idle h, hevent, finish_watched] at hcycle
  refine ⟨_, hcycle, rfl, ?_, rfl⟩
  simp only [State.usStart, hstart]
  rfl

/-- Settles O30: with `upTo` the cycle alone, which comes to itself again; with no access ended, the carry is one
update. -/
theorem microsecondCarryCounts : Obligations.MicrosecondCarryCounts := by
  intro levels ready s
  refine ⟨fun upTo hw => microsecondCarry_waiting levels _ hw, fun hw hi => ?upTo,
    fun t hw hx ht => ⟨fun hp => ?again, fun hp => ?cleared⟩, fun hw hi => ?carry⟩
  case upTo => rw [microsecondCarry_upTo levels ready hw, toMicrosecond_idle hi]
  case again =>
    obtain rfl := Host.Outcome.next.inj ((microsecondCarry_upTo levels ready hw).symm.trans hx)
    rw [microsecondCarry_whole levels ready hw, microsecondCarry_whole levels ready ht, microsecond, microsecond,
      toMicrosecond_again hp]
  case cleared =>
    obtain rfl := Host.Outcome.next.inj ((microsecondCarry_upTo levels ready hw).symm.trans hx)
    rw [microsecondCarry_whole levels ready hw, microsecond]
    exact congrArg _ (if_neg (by simpa [State.atMicrosecond] using hp))
  case carry =>
    obtain ⟨t, ht, hmarks, harb, hframe⟩ := microsecond_idle levels (s := s) (ready := ready) hi
    have hexec := (microsecondCarry_whole levels ready hw).trans (congrArg _ ht)
    simp only [Arbiter.watched, Option.isSome_iff_ne_none] at harb
    refine ⟨t, s.patienceCarried, _, hexec, rfl, (congrArg State.time hframe :), (congrArg State.editLimit hframe :),
      (congrArg State.settle hframe :), fun k => ?_, (congrArg State.inputs hframe :), rfl, ?_, hmarks, ?_⟩
    · rw [← State.msCarried, ← microsecondCarried_slot s levels k]
      exact (congrArg (·.slot k) hframe :)
    · exact harb
    · generalize t.writeMarks = W, t.arb = A at hframe
      subst hframe
      rfl

end Sys2Proof.Machine
end

