-- ==== Sys2Proof/Proofs/IncidentForms.lean ====
section
/-! SUPPORT. The law of one incident (R131, R135, R142, R150) through each change that the Incident Table makes of one. -/

namespace Sys2Proof.Machine

namespace Incident
variable {k : Fin 32} {i : Incident}

/-- An ordinary slot holds no residue (R131). -/
theorem law.kind_ne (h : i.law k) (hk : k ≠ 0) : i.kind ≠ .residue := fun hr => hk (h.1.mp hr)

/-- A change of the soak that ends none and starts none keeps the law. -/
theorem law.with_soak (h : i.law k) {w : Option Window} (hw : w.isSome = i.soak.isSome) :
    Incident.law k { i with soak := w } := by
  obtain ⟨hkind, hzero, hsoak, hrest⟩ := h
  exact ⟨hkind, hzero, hw ▸ hsoak, hrest⟩

/-- A CLEARING incident that enters OPEN again (R119, R140). -/
theorem law.present (h : i.law k) (hk : k ≠ 0) (c : Cause) : (i.present c).law k := by
  unfold Incident.present
  split
  · obtain ⟨hkind, -, -, -, hann, hdue, hclose⟩ := h
    exact ⟨hkind, fun h0 => absurd h0 hk, by simp, nofun, hann, hdue, hclose⟩
  · exact h

/-- An OPEN incident whose cause is absent starts its release soak (R119, R138). -/
theorem law.clearing (h : i.law k) (hk : k ≠ 0) (hc : i.close = none) (w : Window) :
    Incident.law k { i with phase := .clearing, soak := some w } := by
  obtain ⟨hkind, -, -, -, hann, hdue, hclose⟩ := h
  exact ⟨hkind, fun h0 => absurd h0 hk, by simp [hc], nofun, hann, hdue, hclose⟩

/-- An announced incident becomes close-due and its soak ends (R142). -/
theorem law.closed (h : i.law k) (ha : i.announced = true) (c : Close) :
    Incident.law k { i with close := some c, soak := none } := by
  obtain ⟨hkind, hzero, -, hwait, hann, hdue, -⟩ := h
  refine ⟨hkind, hzero, by simp, fun hw => ?_, hann, hdue, fun _ => ha⟩
  exact absurd ((hwait hw).1.symm.trans ha) Bool.false_ne_true

/-- The predicate test leaves an OPEN incident open-due or withheld (R136, R150). -/
theorem law.tested (h : i.law k) (ho : i.phase = .opened) (ha : i.announced = false) (hd : i.openDue = false) (s : State) :
    (s.tested i).law k := by
  obtain ⟨hkind, hzero, hsoak, hwait, hann, hdue, hclose⟩ := h
  unfold State.tested
  split
  · exact ⟨hkind, hzero, hsoak, fun hw => absurd (ho.symm.trans hw) (by decide),
      fun h' => absurd (ha.symm.trans h') (by decide),
      fun _ => rfl, hclose⟩
  · exact ⟨hkind, hzero, hsoak, fun hw => absurd (ho.symm.trans hw) (by decide),
      fun h' => absurd (ha.symm.trans h') (by decide),
      fun h' => absurd (hd.symm.trans h') (by decide), hclose⟩

/-- The incident of an attack expiry (R136): PENDING enters OPEN, and its predicate is tested. -/
theorem law.attacked (h : i.law k) (hk : k ≠ 0) (hp : i.phase = .waiting) (s : State) :
    (s.tested { i with phase := .opened, soak := none }).law k := by
  obtain ⟨hkind, -, -, hwait, hann, hdue, hclose⟩ := h
  obtain ⟨ha, hd, -⟩ := hwait hp
  have hopened : Incident.law k { i with phase := .opened, soak := none } :=
    ⟨hkind, fun h0 => absurd h0 hk, by simp, nofun, hann, hdue, hclose⟩
  exact hopened.tested rfl ha hd s

theorem law.updated (h : i.law k) (old : Option Incident) : (i.updated old).law k := by
  obtain ⟨hkind, hzero, hsoak, hwait, hann, hdue, hclose⟩ := h
  unfold Incident.updated
  split
  · next hu =>
    refine ⟨hkind, hzero, hsoak, fun hw => ?_, hann, hdue, hclose⟩
    obtain ⟨ha, hd, -⟩ := hwait hw
    simp [ha, hd] at hu
  · exact ⟨hkind, hzero, hsoak, hwait, hann, hdue, hclose⟩

/-- The evaluation at a matching (R148, R150, R152). -/
theorem law.evaluated (h : i.law k) (s : State) (old : Option Incident) : (s.evaluated old i).law k := by
  have hu : ((s.reflagged i).updated old).law k := law.updated (i := s.reflagged i) h old
  unfold State.evaluated
  split
  · exact h
  · dsimp only
    split
    · next ht => exact hu.tested ht.1 ht.2.1 ht.2.2 s
    · exact hu

/-- An incident that is due its OPEN is open-due (R161). -/
theorem due_opening (hd : i.due = some .opening) : i.openDue = true := by
  unfold Incident.due at hd
  split at hd
  · assumption
  · split at hd
    · cases hd
    · split at hd <;> cases hd

/-- The take of a notice that the incident is due (R153, R161). -/
theorem law.taken (h : i.law k) {d : NoticeKind} (hd : i.due = some d) : (i.taken d).law k := by
  obtain ⟨hkind, hzero, hsoak, hwait, hann, hdue, hclose⟩ := h
  cases d with
  | opening =>
    have ho := due_opening hd
    refine ⟨hkind, hzero, hsoak, fun hw => ?_, fun _ => ⟨rfl, hdue ho⟩, fun h' => absurd h' Bool.false_ne_true, fun _ => rfl⟩
    obtain ⟨-, hn, -⟩ := hwait hw
    exact absurd (hn.symm.trans ho) (by decide)
  | updating =>
    refine ⟨hkind, hzero, hsoak, fun hw => ?_, hann, hdue, hclose⟩
    obtain ⟨ha, hn, -, hh, -, hc⟩ := hwait hw
    exact ⟨ha, hn, rfl, hh, rfl, hc⟩
  | closing => exact ⟨hkind, hzero, hsoak, hwait, hann, hdue, hclose⟩
  | restarting => exact ⟨hkind, hzero, hsoak, hwait, hann, hdue, hclose⟩

end Incident

/-- A new incident of a cause (R122, R131, R135). -/
theorem newIncident_law (s : State) {c : Cause} (hc : c.kind ≠ .residue) {k : Fin 32} (hk : k ≠ 0) :
    (s.newIncident c).law k :=
  ⟨iff_of_false hc hk, fun h0 => absurd h0 hk, by simp [State.newIncident],
    fun _ => ⟨rfl, rfl, rfl, rfl, rfl, rfl⟩, nofun, fun _ => rfl, fun h => absurd rfl h⟩

/-- A new residue (R123, R147). -/
theorem newResidue_law (s : State) (u : Unplaced) : (s.newResidue u).law 0 :=
  ⟨iff_of_true rfl rfl, fun _ => ⟨rfl, rfl⟩, by simp [State.newResidue], nofun,
    nofun, fun _ => rfl, fun h => absurd rfl h⟩

end Sys2Proof.Machine
end

