-- ==== Sys2Proof/Proofs/IncidentTable.lean ====
section
/-! SUPPORT. The law of the incident table (R118, R131) through the events that change it: every incident keeps its law, with
one on its soak besides, and no two share kind and subject. -/

namespace Sys2Proof.Machine

section
variable {F : Option Window → Prop} {s t : State}

/-! ## Tables that follow one another -/

/-- Every incident keeps its law, its soak meets `F`, and no two share kind and subject. -/
def State.tableLaw (F : Option Window → Prop) (s : State) : Prop :=
  (∀ k i, s.slot k = some i → i.law k ∧ F i.soak) ∧
  ∀ j k i i', s.slot j = some i → s.slot k = some i' → i.kind = i'.kind → i.subject = i'.subject → j = k

/-- The incident `i'` of slot `k` goes on from `i`: kind and subject stay, a close-due mark stays, the law is kept. -/
structure Incident.GoesOn (F : Option Window → Prop) (k : Fin 32) (i i' : Incident) : Prop where
  kind : i'.kind = i.kind
  subject : i'.subject = i.subject
  close : i.close ≠ none → i'.close ≠ none
  law : i.law k ∧ F i.soak → i'.law k ∧ F i'.soak

theorem Incident.GoesOn.refl (k : Fin 32) (i : Incident) : i.GoesOn F k i := ⟨rfl, rfl, id, id⟩

theorem Incident.GoesOn.trans {k : Fin 32} {i i' i'' : Incident} (h : i.GoesOn F k i') (h' : i'.GoesOn F k i'') :
    i.GoesOn F k i'' :=
  ⟨h'.kind.trans h.kind, h'.subject.trans h.subject, h'.close ∘ h.close, h'.law ∘ h.law⟩

/-- Every incident of `t` goes on from the one that its slot held in `s`. -/
def State.follows (F : Option Window → Prop) (s t : State) : Prop :=
  ∀ k i', t.slot k = some i' → ∃ i, s.slot k = some i ∧ i.GoesOn F k i'

theorem tableLaw_of_follows (hs : s.tableLaw F) (h : s.follows F t) : t.tableLaw F := by
  obtain ⟨hlaw, huniq⟩ := hs
  refine ⟨fun k i' hk => ?_, fun j k i i' hj hk hkind hsubj => ?_⟩
  · obtain ⟨i, hi, hgo⟩ := h k i' hk
    exact hgo.law (hlaw k i hi)
  · obtain ⟨x, hx, hgx⟩ := h j i hj
    obtain ⟨y, hy, hgy⟩ := h k i' hk
    exact huniq j k x y hx hy (hgx.kind ▸ hgy.kind ▸ hkind) (hgx.subject ▸ hgy.subject ▸ hsubj)

theorem follows_of_slot (h : ∀ k, t.slot k = s.slot k) : s.follows F t := fun k i hk => ⟨i, h k ▸ hk, .refl k i⟩

theorem follows_of_slots (h : t.slots = s.slots) : s.follows F t := follows_of_slot fun k => by rw [State.slot, h, State.slot]

theorem follows_trans {u : State} (h : s.follows F t) (h' : t.follows F u) : s.follows F u := fun k i'' hk => by
  obtain ⟨i', hi', hgo'⟩ := h' k i'' hk
  obtain ⟨i, hi, hgo⟩ := h k i' hi'
  exact ⟨i, hi, hgo.trans hgo'⟩

theorem follows_putSlot {k : Fin 32} {i i' : Incident} (hk : s.slot k = some i) (h : i.GoesOn F k i') :
    s.follows F (s.putSlot k i') := fun j x hj => by
  rw [putSlot_slot] at hj
  split at hj
  · next hkj =>
    subst hkj
    exact ⟨i, hk, Option.some.inj hj ▸ h⟩
  · exact ⟨x, hj, .refl j x⟩

theorem follows_freeSlot (k : Fin 32) (s : State) : s.follows F (freeSlot k s) := fun j x hj => by
  rw [freeSlot_slot] at hj
  split at hj
  · cases hj
  · exact ⟨x, hj, .refl j x⟩

/-- A map over the incidents. -/
theorem follows_map {g : Fin 32 → Incident → Incident} (h : ∀ k, t.slot k = (s.slot k).map (g k))
    (hg : ∀ k i, Incident.GoesOn F k i (g k i)) : s.follows F t := fun k i' hk => by
  rw [h, Option.map_eq_some_iff] at hk
  obtain ⟨i, hi, rfl⟩ := hk
  exact ⟨i, hi, hg k i⟩

/-! ## Soaks that start -/

/-- `F` holds of no soak, and of every soak as it starts at this moment. -/
def State.startsSoaks (F : Option Window → Prop) (s : State) : Prop := F none ∧ ∀ d, 1 ≤ d → F (some (s.msStart d))

theorem startsSoaks_of_time (h : t.time = s.time) (hF : s.startsSoaks F) : t.startsSoaks F := by
  unfold State.startsSoaks State.msStart at hF ⊢
  rwa [h]

theorem duration_pos (n : Nat) : 1 ≤ duration n := by
  unfold duration
  split <;> decide

theorem family_isSome {kind : CauseKind} (h : kind ≠ .residue) : ∃ f, kind.family = some f := by
  cases kind with
  | residue => exact absurd rfl h
  | _ => exact ⟨_, rfl⟩

theorem releaseSoak_pos (s : State) {kind : CauseKind} (h : kind ≠ .residue) : 1 ≤ s.releaseSoak kind := by
  obtain ⟨f, hf⟩ := family_isSome h
  rw [State.releaseSoak, hf]
  exact duration_pos _

theorem attackSoak_pos (s : State) {kind : CauseKind} (h : kind ≠ .residue) : 1 ≤ s.attackSoak kind := by
  obtain ⟨f, hf⟩ := family_isSome h
  rw [State.attackSoak, hf]
  exact duration_pos _

/-- A fold of events that keep the time, each of which the table follows. -/
theorem foldl_follows {α : Type} {f : State → α → State}
    (hf : ∀ (s : State) a, s.startsSoaks F → s.follows F (f s a))
    (ht : ∀ s a, (f s a).time = s.time) (l : List α) {s : State} (hF : s.startsSoaks F) : s.follows F (l.foldl f s) := by
  induction l generalizing s with
  | nil => exact follows_of_slots rfl
  | cons a l ih => exact follows_trans (hf s a hF) (ih (startsSoaks_of_time (ht s a) hF))

/-! ## Closes and absorptions -/

theorem closeIncident_follows {k : Fin 32} {i : Incident} (hk : s.slot k = some i) (r : CloseReason) (n : Nat)
    (hF : s.startsSoaks F) : s.follows F (closeIncident k r n i s) := by
  rcases closeIncident_cases k r n i s with ⟨ha, h⟩ | ⟨-, h⟩
  · rw [h]
    exact follows_putSlot hk ⟨rfl, rfl, fun _ => Option.some_ne_none _, fun hl => ⟨hl.1.closed ha _, hF.1⟩⟩
  · rw [h]
    exact follows_freeSlot k s

theorem absorbSlot_follows (k : Fin 32) (i : Incident) (s : State) (j : Fin 32) (hF : s.startsSoaks F) :
    s.follows F (absorbSlot k i s j) := by
  rcases absorbSlot_cases k i s j with h | ⟨other, ho, -, h⟩
  · rw [h]
    exact follows_of_slots rfl
  · rw [h]
    exact closeIncident_follows ho _ _ hF

theorem absorbSlot_time (k : Fin 32) (i : Incident) (s : State) (j : Fin 32) : (absorbSlot k i s j).time = s.time := by
  rcases absorbSlot_cases k i s j with h | ⟨other, -, -, h⟩
  · rw [h]
  · rw [h]
    exact (congrArg State.time (closeIncident_frame s j .absorbed i.number other s) :)

theorem absorbAll_follows (k : Fin 32) (i : Incident) (s : State) (hF : s.startsSoaks F) :
    s.follows F (absorbAll k i s) :=
  foldl_follows (absorbSlot_follows k i) (absorbSlot_time k i) _ hF

theorem reconfigured_follows (hF : F none) (h : ∀ k, t.slot k = s.reconfigured k) : s.follows F t := fun k i' hk => by
  rw [h, State.reconfigured, Option.bind_eq_some_iff] at hk
  obtain ⟨i, hi, hk⟩ := hk
  refine ⟨i, hi, ?_⟩
  split at hk
  · split at hk
    · next ha =>
      obtain rfl := Option.some.inj hk
      exact ⟨rfl, rfl, fun _ => Option.some_ne_none _, fun hl => ⟨hl.1.closed ha _, hF⟩⟩
    · cases hk
  · obtain rfl := Option.some.inj hk
    exact .refl k i

/-! ## Matching -/

theorem present_goesOn {k : Fin 32} (hk : k ≠ 0) (hF : F none) (i : Incident) (c : Cause) : i.GoesOn F k (i.present c) := by
  have hparts : (i.present c).kind = i.kind ∧ (i.present c).subject = i.subject ∧ (i.present c).close = i.close ∧
      ((i.present c).soak = none ∨ (i.present c).soak = i.soak) := by
    unfold Incident.present
    split
    · exact ⟨rfl, rfl, rfl, .inl rfl⟩
    · exact ⟨rfl, rfl, rfl, .inr rfl⟩
  obtain ⟨hkind, hsubj, hclose, hsoak⟩ := hparts
  refine ⟨hkind, hsubj, fun h => hclose ▸ h, fun hl => ⟨hl.1.present hk c, ?_⟩⟩
  rcases hsoak with h | h
  · rw [h]; exact hF
  · rw [h]; exact hl.2

theorem matchSlot_follows (causes : List Cause) (s : State) (k : Fin 32) (hF : s.startsSoaks F) :
    s.follows F (matchSlot causes s k) := by
  rcases matchSlot_cases causes s k with h | ⟨i, hi, hk, hc, ⟨c, -, -, h⟩ | ⟨-, ⟨-, h⟩ | ⟨-, h⟩⟩⟩
  · rw [h]
    exact follows_of_slots rfl
  · rw [h]
    exact follows_putSlot hi (present_goesOn hk hF.1 i c)
  · rw [h]
    exact follows_freeSlot k s
  · rw [h, msWindow_eq]
    exact follows_putSlot hi ⟨rfl, rfl, id, fun hl =>
      ⟨hl.1.clearing hk hc _, hF.2 _ (releaseSoak_pos s (hl.1.kind_ne hk))⟩⟩

theorem absorbRecurred_follows (s : State) (k : Fin 32) (hF : s.startsSoaks F) : s.follows F (absorbRecurred s k) := by
  unfold absorbRecurred
  split
  · exact follows_of_slots rfl
  · split
    · exact absorbAll_follows k _ s hF
    · exact follows_of_slots rfl

theorem matchAll_time (causes : List Cause) (s : State) : (matchAll causes s).time = s.time := by
  have h := matchAll_frame s causes s
  generalize matchAll causes s = u at h ⊢
  exact (congrArg State.time h :)

theorem matchAll_follows (causes : List Cause) (s : State) (hF : s.startsSoaks F) : s.follows F (matchAll causes s) := by
  have hm : ∀ s k, (matchSlot causes s k).time = s.time := fun s k =>
    (congrArg State.time (matchSlot_frame s causes s k) :)
  have ha : ∀ s k, (absorbRecurred s k).time = s.time := fun s k => (congrArg State.time (absorbRecurred_frame s s k) :)
  rw [matchAll]
  generalize indices 32 = l
  have hfirst := foldl_follows (matchSlot_follows causes) hm l hF
  have htime := foldl_keeps (g := State.time) hm l s
  exact follows_trans hfirst (foldl_follows absorbRecurred_follows ha _ (startsSoaks_of_time htime hF))

/-- The evaluation of a close-due incident leaves it as it is. -/
theorem evaluated_close {i : Incident} (h : i.close ≠ none) (s : State) (old : Option Incident) : s.evaluated old i = i := by
  rw [State.evaluated, if_pos (Option.isSome_iff_ne_none.mpr h)]

/-- The predicate of an incident is tested if it is OPEN, and neither announced nor open-due (R150). -/
def Incident.testable (i : Incident) : Bool := decide (i.phase = .opened) && !i.announced && !i.openDue

theorem testable_iff (i : Incident) :
    i.testable = true ↔ i.phase = .opened ∧ i.announced = false ∧ i.openDue = false := by
  simp [Incident.testable, and_assoc]

/-- The update that a matching makes due (R152). -/
def Incident.updates (i : Incident) (old : Option Incident) : Bool :=
  (i.announced || i.openDue) && (old.map (fun o => updateReasons o i)).getD false

theorem updated_eq (i : Incident) (old : Option Incident) :
    i.updated old = { i with updateDue := i.updateDue || i.updates old } := by
  rw [Incident.updated, ← Incident.updates]
  cases i.updates old <;> simp

/-- A testable incident is left open-due or withheld (R136, R150). -/
theorem tested_eq {i : Incident} (h : i.openDue = false) (s : State) :
    s.tested i = { i with openDue := s.permitted i, withheld := !s.permitted i } := by
  rw [State.tested]
  cases s.permitted i
  · show { i with withheld := true } = { i with openDue := false, withheld := true }
    rw [← h]
  · rfl

/-- The evaluation of an incident that is not close-due (R148, R150, R152). -/
theorem evaluated_open {i : Incident} (h : i.close = none) (s : State) (old : Option Incident) :
    s.evaluated old i = { s.reflagged i with
      updateDue := i.updateDue || (s.reflagged i).updates old
      openDue := if i.testable then s.permitted (s.reflagged i) else i.openDue
      withheld := if i.testable then !s.permitted (s.reflagged i) else i.withheld } := by
  have hj := updated_eq (s.reflagged i) old
  rw [State.evaluated, if_neg (by simp [h])]
  dsimp only
  generalize (s.reflagged i).updated old = j at hj
  have htest : (j.phase = .opened ∧ j.announced = false ∧ j.openDue = false) ↔ i.testable = true := by
    rw [testable_iff, hj]
    rfl
  cases ht : i.testable
  · rw [if_neg (fun hc => Bool.false_ne_true (ht.symm.trans (htest.mp hc))), hj]
    rfl
  · rw [if_pos (htest.mpr ht), tested_eq (htest.mpr ht).2.2, hj]
    rfl

theorem evaluated_goesOn (s : State) (old : Option Incident) (k : Fin 32) (i : Incident) :
    Incident.GoesOn F k i (s.evaluated old i) := by
  by_cases hc : i.close = none
  · have hlaw (hl : i.law k) := hl.evaluated s old
    rw [evaluated_open hc] at hlaw ⊢
    exact ⟨rfl, rfl, id, fun hl => ⟨hlaw hl.1, hl.2⟩⟩
  · rw [evaluated_close hc]
    exact .refl k i

theorem evaluateAll_follows (s0 s : State) : s.follows F (evaluateAll s0 s) :=
  follows_map (evaluateAll_slot s0 s) fun k i => evaluated_goesOn s (s0.slot k) k i

/-! ## Creation -/

theorem createIncident_tableLaw {k : Fin 32} {i : Incident} (hs : s.tableLaw F) (hl : i.law k) (hF : F i.soak)
    (hnew : ∀ j x, s.slot j = some x → i.kind = x.kind → i.subject = x.subject → k = j) :
    (createIncident k i s).tableLaw F := by
  obtain ⟨hlaw, huniq⟩ := hs
  refine ⟨fun j x hj => ?_, fun j j' x x' hj hj' hkind hsubj => ?_⟩
  · rw [createIncident_slot] at hj
    split at hj
    · next hkj =>
      subst hkj
      exact Option.some.inj hj ▸ ⟨hl, hF⟩
    · exact hlaw j x hj
  · rw [createIncident_slot] at hj hj'
    split at hj
    · next hkj =>
      obtain rfl := Option.some.inj hj
      split at hj'
      · next hkj' => exact hkj.symm.trans hkj'
      · exact hkj.symm.trans (hnew j' x' hj' hkind hsubj)
    · split at hj'
      · next hkj' =>
        obtain rfl := Option.some.inj hj'
        exact (hnew j x hj hkind.symm hsubj.symm).symm.trans hkj'
      · exact huniq j j' x x' hj hj' hkind hsubj

/-- The new causes of a matching may be placed: none is a residue, none comes twice, and none is an incident's that is not
close-due (R118, R121, R122). -/
structure State.Placeable (s : State) (causes : List Cause) : Prop where
  kinds : ∀ c ∈ causes, c.kind ≠ .residue
  nodup : (causes.map (fun c => (c.kind, c.subject))).Nodup
  fresh : ∀ c ∈ causes, ∀ k i, s.slot k = some i → i.close = none → i.kind = c.kind → i.subject ≠ c.subject

theorem State.Placeable.tail {c : Cause} {rest : List Cause} (h : s.Placeable (c :: rest)) : s.Placeable rest :=
  ⟨fun x hx => h.kinds x (.tail _ hx), (List.nodup_cons.mp h.nodup).2, fun x hx => h.fresh x (.tail _ hx)⟩

/-- The other causes may be placed after one has been. -/
theorem State.Placeable.created {c : Cause} {rest : List Cause} (h : s.Placeable (c :: rest)) (k : Fin 32) :
    (createIncident k (s.newIncident c) s).Placeable rest := by
  refine ⟨h.tail.kinds, h.tail.nodup, fun x hx j i hj hc hkind hsubj => ?_⟩
  rw [createIncident_slot] at hj
  split at hj
  · obtain rfl := Option.some.inj hj
    exact (List.nodup_cons.mp h.nodup).1 (List.mem_map.mpr ⟨x, hx, by rw [← hkind, ← hsubj]; rfl⟩)
  · exact h.tail.fresh x hx j i hj hc hkind hsubj

theorem freeOrdinary_some {k : Fin 32} (h : s.freeOrdinary = some k) : k ≠ 0 ∧ s.slot k = none := by
  have := List.find?_some h
  simpa using this

/-- The placing of new causes keeps the law of the table (R122). -/
theorem placeCauses_tableLaw (causes : List Cause) {s : State} (hs : s.tableLaw F) (hF : s.startsSoaks F)
    (hp : s.Placeable causes) : (placeCauses causes s).1.tableLaw F := by
  induction causes generalizing s with
  | nil => exact hs
  | cons c rest ih =>
    unfold placeCauses
    split
    · exact ih hs hF hp.tail
    · next hleave =>
      split
      · next k hk =>
        have hkind := hp.kinds c (.head _)
        refine ih (createIncident_tableLaw hs (newIncident_law s hkind (freeOrdinary_some hk).1) ?_ ?_) hF (hp.created k)
        · show F (some (s.msWindow _))
          rw [msWindow_eq]
          exact hF.2 _ (attackSoak_pos s hkind)
        · intro j x hj hk' hs'
          by_cases hx : x.close = none
          · exact absurd hs'.symm (hp.fresh c (.head _) j x hj hx hk'.symm)
          · exact absurd ((leaving_iff s c).mpr ⟨j, x, hj, hx, hk'.symm, hs'.symm⟩) hleave
      · exact ih hs hF hp.tail

theorem placeCauses_time (causes : List Cause) (s : State) : (placeCauses causes s).1.time = s.time :=
  (congrArg State.time (placeCauses_frame s causes s) :)

/-- The residue's recount keeps the law of the table (R123, R147). -/
theorem residueRecount_tableLaw (u : Unplaced) (hs : s.tableLaw F) (hF : s.startsSoaks F) :
    (residueRecount u s).tableLaw F := by
  rcases residueRecount_cases u s with h | ⟨h0, -, h⟩ | ⟨i, hi, -, ⟨-, h⟩ | ⟨-, h⟩⟩
  · rw [h]; exact hs
  · rw [h]
    refine createIncident_tableLaw hs (newResidue_law s u) hF.1 fun j x hj hkind _ => ?_
    have hj0 : j = 0 := ((hs.1 j x hj).1).1.mp hkind.symm
    exact hj0.symm
  · rw [h]
    have hput : s.follows F (s.putSlot 0 { i with unplaced := u }) := follows_putSlot hi ⟨rfl, rfl, id, id⟩
    rcases closeIncident_cases 0 .cleared 0 { i with unplaced := u } s with ⟨ha, h⟩ | ⟨-, h⟩
    · rw [h]
      exact tableLaw_of_follows hs (follows_putSlot hi
        ⟨rfl, rfl, fun _ => Option.some_ne_none _, fun hl => ⟨hl.1.closed ha _, hF.1⟩⟩)
    · rw [h]
      exact tableLaw_of_follows hs (follows_freeSlot 0 s)
  · rw [h]
    exact tableLaw_of_follows hs (follows_putSlot hi ⟨rfl, rfl, id, id⟩)

/-- The causes of the pass in progress are none twice and no residue (R118). -/
def causesLaw (causes : List Cause) : Prop :=
  (∀ c ∈ causes, c.kind ≠ .residue) ∧ (causes.map (fun c => (c.kind, c.subject))).Nodup

/-- A matching keeps the law of the table (R108). -/
theorem matchingEvent_tableLaw {causes : List Cause} (hs : s.tableLaw F) (hF : s.startsSoaks F) (hc : causesLaw causes) :
    (matchingEvent causes s).tableLaw F := by
  simp only [matchingEvent]
  set live := causes.filter (fun c => !s.causeCovered c)
  set s3 := matchAll live s with hs3
  set new := live.filter (fun c => !s.matched c && !s3.causeCovered c) with hnew
  have hfollows : s.follows F s3 := matchAll_follows live s hF
  have htime : s3.time = s.time := matchAll_time live s
  have hsub : new.Sublist causes := List.filter_sublist.trans List.filter_sublist
  have hplace : s3.Placeable new := by
    refine ⟨fun c hx => hc.1 c (hsub.subset hx), hc.2.sublist (hsub.map _), fun c hx k i hk hi hkind hsubj => ?_⟩
    obtain ⟨i0, hi0, hgo⟩ := hfollows k i hk
    have hopen : i0.close = none := by
      by_contra hne
      exact hgo.close hne hi
    have hmatched := (matched_iff s c).mpr ⟨k, i0, hi0, hopen, hgo.kind ▸ hkind, hgo.subject ▸ hsubj⟩
    have := (List.mem_filter.mp hx).2
    simp [hmatched] at this
  have h3 := tableLaw_of_follows hs hfollows
  have hF3 := startsSoaks_of_time htime hF
  have h4 := placeCauses_tableLaw new h3 hF3 hplace
  have h5 := residueRecount_tableLaw (unplacedCounts (placeCauses new s3).2) h4
    (startsSoaks_of_time (placeCauses_time new s3) hF3)
  exact tableLaw_of_follows h5 (follows_trans (follows_of_slots rfl) (evaluateAll_follows s _))

/-! ## The other events -/

theorem attackDue_slot {k : Fin 32} {i : Incident} (h : s.attackDue k i = true) :
    s.slot k = some i ∧ k ≠ 0 ∧ i.phase = .waiting ∧ i.close = none := by
  simp only [State.attackDue, Bool.and_eq_true, decide_eq_true_eq, Option.isNone_iff_eq_none] at h
  obtain ⟨⟨⟨⟨⟨hs, hk⟩, hp⟩, hc⟩, -⟩, -⟩ := h
  exact ⟨hs, hk, hp, hc⟩

theorem releaseDue_slot {k : Fin 32} {i : Incident} (h : s.releaseDue k i = true) : s.slot k = some i := by
  simp only [State.releaseDue, Bool.and_eq_true, decide_eq_true_eq] at h
  obtain ⟨⟨⟨⟨⟨hs, -⟩, -⟩, -⟩, -⟩, -⟩ := h
  exact hs

theorem markIf_slots (m : Bool) (s : State) : (markIf m s).slots = s.slots := by rw [markIf_eq]

theorem attackEvent_follows {k : Fin 32} {i : Incident} (h : s.attackDue k i = true) (hF : s.startsSoaks F) :
    s.follows F (attackEvent k i s) := by
  obtain ⟨hs, hk, hp, hc⟩ := attackDue_slot h
  simp only [attackEvent]
  set opened := s.tested { i with phase := .opened, soak := none } with ho
  have hgo : i.GoesOn F k opened := by
    have hlaw : i.law k → opened.law k := fun hl => hl.attacked hk hp s
    have hparts : opened.kind = i.kind ∧ opened.subject = i.subject ∧ opened.soak = none := by
      rw [ho, State.tested]
      split
      · exact ⟨rfl, rfl, rfl⟩
      · exact ⟨rfl, rfl, rfl⟩
    obtain ⟨hkind, hsubj, hsoak⟩ := hparts
    exact ⟨hkind, hsubj, fun hne => absurd hc hne, fun hl => ⟨hlaw hl.1, hsoak ▸ hF.1⟩⟩
  have habsorb := follows_trans (follows_putSlot hs hgo) (absorbAll_follows k opened (s.putSlot k opened) hF)
  generalize absorbAll k opened (s.putSlot k opened) = u at habsorb ⊢
  exact follows_trans habsorb (follows_of_slots (markIf_slots _ (coverAtOpening k opened u)))

theorem releaseEvent_follows {k : Fin 32} {i : Incident} (h : s.releaseDue k i = true) (hF : s.startsSoaks F) :
    s.follows F (releaseEvent k i s) :=
  follows_trans (closeIncident_follows (releaseDue_slot h) .cleared 0 hF) (follows_of_slots (markIf_slots _ _))

theorem takeNotice_follows (s : State) : s.follows F (takeNotice s) := by
  rcases takeNotice_cases s with h | ⟨-, r, -, h⟩ | ⟨-, -, k, i, d, hch, h⟩
  · rw [h]; exact follows_of_slots rfl
  · rw [h]; exact follows_of_slots rfl
  · rw [h]
    obtain ⟨-, hk, hd⟩ := chosen_slot hch
    have hparts : (i.taken d).kind = i.kind ∧ (i.taken d).subject = i.subject ∧ (i.taken d).close = i.close ∧
        (i.taken d).soak = i.soak := by cases d <;> exact ⟨rfl, rfl, rfl, rfl⟩
    obtain ⟨hkind, hsubj, hclose, hsoak⟩ := hparts
    exact follows_trans (follows_putSlot hk ⟨hkind, hsubj, fun hne => hclose ▸ hne,
      fun hl => ⟨hl.1.taken hd, hsoak ▸ hl.2⟩⟩) (follows_of_slots rfl)

theorem freeClosed_follows (f : Option (Fin 32)) (s : State) : s.follows F (freeClosed f s) := by
  rcases freeClosed_cases f s with ⟨-, h⟩ | ⟨k, -, h⟩
  · rw [h]; exact follows_of_slots rfl
  · rw [h, dirtyMark_eq]
    exact follows_trans (follows_freeSlot k s) (follows_of_slots rfl)

theorem initWaiting_slots (s : State) : (initWaiting s).slots = s.slots :=
  (congrArg State.slots (initWaiting_frame s s) :)

theorem producerEvent_follows (n : Notice) (s : State) : s.follows F (producerEvent n s) :=
  follows_trans (follows_trans (follows_of_slots (t := { s with producer := s.producer + 1, notice := none }) rfl)
    (freeClosed_follows n.frees _)) (follows_trans (follows_of_slots (initWaiting_slots _)) (takeNotice_follows _))

theorem endingEvent_follows (e : Ending) (s : State) : s.follows F (endingEvent e s) := by
  rcases endingEvent_cases e s with h | ⟨n, -, -, h⟩ | ⟨n, -, -, h⟩ | ⟨r, -, -, h⟩ | ⟨c, -, -, h⟩ | ⟨c, -, -, h⟩ |
    ⟨-, h⟩
  · rw [h]; exact follows_of_slots rfl
  · rw [h]; exact follows_of_slots rfl
  · rw [h]; exact producerEvent_follows n s
  · rw [h]; exact follows_trans (follows_of_slots (t := { s with headerDue := false }) rfl) (takeNotice_follows _)
  · rw [h]; exact follows_of_slots rfl
  · rw [h]; exact follows_of_slots rfl
  · rw [h]; exact follows_of_slots rfl

theorem completionBeforeTake_follows (l : Load) (s : State) (hF : F none) :
    s.follows F (completionBeforeTake l s) :=
  follows_trans (follows_of_slots (t := s.rebuilt) rfl) (reconfigured_follows hF (completionBeforeTake_slot l s))

end

/-! ## The cause list of a reading -/

/-- Causes of one kind on distinct subjects. -/
def CausesOf (kind : CauseKind) (causes : List Cause) : Prop :=
  (∀ c ∈ causes, c.kind = kind) ∧ (causes.map Cause.subject).Nodup

theorem nodeCauses_of (s : State) (f : Family) (kind : CauseKind) (p : Fin 128 → Bool) :
    CausesOf kind (s.nodeCauses f kind p) := by
  refine ⟨fun c hc => ?_, ?_⟩
  · obtain ⟨i, -, rfl⟩ := List.mem_map.mp hc
    rfl
  · rw [State.nodeCauses, List.map_map]
    exact (indices_nodup.filter _).map fun i j h => Subject.node.inj h

theorem terminalCauses_of (s : State) (f : Family) (kind : CauseKind) : CausesOf kind (s.terminalCauses f kind) := by
  refine ⟨fun c hc => ?_, ?_⟩
  · obtain ⟨i, -, rfl⟩ := List.mem_map.mp hc
    rfl
  · rw [State.terminalCauses, List.map_map]
    exact (indices_nodup.filter _).map fun i j h => Subject.terminal.inj h

theorem CausesOf.nodup {kind : CauseKind} {causes : List Cause} (h : CausesOf kind causes) :
    (causes.map (fun c => (c.kind, c.subject))).Nodup := by
  refine List.Nodup.of_map Prod.snd ?_
  rw [List.map_map]
  exact h.2

/-- A cause list in parts, each of a kind of its own. -/
theorem causesLaw_flatMap {parts : List (CauseKind × List Cause)} (hparts : ∀ p ∈ parts, CausesOf p.1 p.2)
    (hkinds : (parts.map Prod.fst).Nodup) (hres : ∀ p ∈ parts, p.1 ≠ .residue) : causesLaw (parts.flatMap Prod.snd) := by
  refine ⟨fun c hc => ?_, ?_⟩
  · obtain ⟨p, hp, hc⟩ := List.mem_flatMap.mp hc
    exact (hparts p hp).1 c hc ▸ hres p hp
  · rw [List.map_flatMap, List.nodup_flatMap]
    refine ⟨fun p hp => (hparts p hp).nodup, ?_⟩
    refine (List.pairwise_map.mp hkinds).imp_of_mem fun {p q} hp hq hne x hx hx' => hne ?_
    obtain ⟨c, hc, rfl⟩ := List.mem_map.mp hx
    obtain ⟨c', hc', he⟩ := List.mem_map.mp hx'
    exact ((hparts p hp).1 c hc).symm.trans ((Prod.mk.inj he).1.symm.trans ((hparts q hq).1 c' hc'))

/-- The cause list of a reading holds no cause twice and no residue: its parts are of seven kinds (R118). -/
theorem causes_law (s : State) : causesLaw s.causes := by
  have hflat : s.causes =
      [(CauseKind.trunkLoss, s.nodeCauses .dark .trunkLoss (fun i => decide (i = 0) && s.trunk)),
        (.branchDark, s.nodeCauses .dark .branchDark (fun i => !(decide (i = 0) && s.trunk))),
        (.mainsLoss, s.nodeCauses .power .mainsLoss (fun _ => true)),
        (.branchDim, s.nodeCauses .dim .branchDim (fun _ => true)),
        (.terminalDark, s.terminalCauses .dark .terminalDark),
        (.terminalPower, s.terminalCauses .power .terminalPower),
        (.terminalDim, s.terminalCauses .dim .terminalDim)].flatMap Prod.snd := by
    simp only [State.causes, List.flatMap_cons, List.flatMap_nil, List.append_nil, List.append_assoc]
  rw [hflat]
  refine causesLaw_flatMap ?_ (by simp) (by simp)
  simp only [List.forall_mem_cons]
  exact ⟨nodeCauses_of s _ _ _, nodeCauses_of s _ _ _, nodeCauses_of s _ _ _, nodeCauses_of s _ _ _,
    terminalCauses_of s _ _, terminalCauses_of s _ _, terminalCauses_of s _ _, nofun⟩

end Sys2Proof.Machine
end

