-- ==== Sys2Proof/Proofs/Windows.lean ====
section
/-! SUPPORT. The law of a window (R81, R88, R90) through its start, its carries and its freeze, and where the Settle Timer's
window comes from. -/

namespace Sys2Proof.Machine

variable {s t : State}

/-! ## One window -/

theorem windowOk_none (p : Prop) : windowOk p none := fun _ h => nomatch h

theorem windowOk_mono {p q : Prop} {w : Option Window} (hpq : p → q) (h : windowOk p w) : windowOk q w := fun x hx =>
  ⟨(h x hx).1, (h x hx).2.1, hpq ∘ (h x hx).2.2⟩

/-- A window of `d` carries as it starts (R88). -/
theorem windowOk_start {p : Prop} {d : Nat} {fresh : Bool} (hd : 1 ≤ d) (hf : fresh = true → p) :
    windowOk p (some { left := d, due := false, fresh }) := by
  rintro x hx
  obtain rfl := Option.some.inj hx
  exact ⟨hd, nofun, hf⟩

/-- A window after a carry that it does not count (R88, R90). -/
theorem windowOk_passed {p : Prop} (q : Prop) {w : Option Window} (h : windowOk p w) : windowOk q (w.map windowPassed) := by
  intro x hx
  obtain ⟨y, hy, rfl⟩ := Option.map_eq_some_iff.mp hx
  obtain ⟨hleft, hdue, -⟩ := h y hy
  exact ⟨hleft, fun hd => ⟨(hdue hd).1, rfl⟩, nofun⟩

/-- A window after a carry that it counts (R88). -/
theorem windowOk_counted {p : Prop} (q : Prop) {w : Option Window} (h : windowOk p w) :
    windowOk q (w.map windowCounted) := by
  intro x hx
  obtain ⟨y, hy, rfl⟩ := Option.map_eq_some_iff.mp hx
  obtain ⟨hleft, hdue, -⟩ := h y hy
  unfold windowCounted
  split
  · exact ⟨hleft, fun hd => ⟨(hdue hd).1, rfl⟩, nofun⟩
  · split
    · next hlast => exact ⟨hleft, fun _ => ⟨Nat.le_antisymm hlast hleft, rfl⟩, nofun⟩
    · next hmore =>
      exact ⟨Nat.le_sub_of_add_le (Nat.lt_of_not_le hmore), fun hd => absurd (Nat.le_of_eq (hdue hd).1) hmore, nofun⟩

/-- A frozen window has no last carry to take (R90). -/
theorem windowOk_frozen {p : Prop} {w : Option Window} (h : windowOk p w) : windowOk p (w.map Window.frozen) := by
  intro x hx
  obtain ⟨y, hy, rfl⟩ := Option.map_eq_some_iff.mp hx
  obtain ⟨hleft, -, hfresh⟩ := h y hy
  exact ⟨hleft, nofun, hfresh⟩

theorem isDue_frozen (w : Option Window) : isDue (w.map Window.frozen) = false := by cases w <;> rfl

theorem isDue_passed (w : Option Window) : isDue (w.map windowPassed) = isDue w := by cases w <;> rfl

/-! ## Windows of millisecond carries -/

/-- The REFCLK cycle that stands gives the millisecond carry (R81). -/
def State.msCycle (s : State) : Prop := 24 ≤ s.time.prescaler ∧ 999 ≤ s.time.divider

theorem windowOk_msStart (s : State) {d : Nat} (hd : 1 ≤ d) : windowOk s.msCycle (some (s.msStart d)) :=
  windowOk_start hd of_decide_eq_true

/-- The law of a settle window or a soak: none that is frozen has a last carry to take (R90, R104, R141). -/
def State.soakOk (s : State) (w : Option Window) : Prop := windowOk s.msCycle w ∧ (s.frozen = true → isDue w = false)

theorem soakOk_none (s : State) : s.soakOk none := ⟨windowOk_none _, fun _ => rfl⟩

theorem soakOk_msStart (s : State) {d : Nat} (hd : 1 ≤ d) : s.soakOk (some (s.msStart d)) :=
  ⟨windowOk_msStart s hd, fun _ => rfl⟩

theorem soakOk_mono {w : Option Window} (hm : s.msCycle → t.msCycle) (hf : t.frozen = true → s.frozen = true)
    (h : s.soakOk w) : t.soakOk w :=
  ⟨windowOk_mono hm h.1, h.2 ∘ hf⟩

/-- A settle window or a soak after a millisecond carry (R88, R90, R104, R141). -/
theorem soakOk_carried {w : Option Window} (hf : t.frozen = s.frozen) (h : s.soakOk w) :
    t.soakOk (w.map s.msCarried) := by
  obtain ⟨hok, hdue⟩ := h
  unfold State.msCarried
  cases hs : s.frozen
  · exact ⟨windowOk_counted _ hok, fun ht => absurd (hs.symm.trans (hf.symm.trans ht)) Bool.false_ne_true⟩
  · exact ⟨windowOk_passed _ hok, fun _ => (isDue_passed w).trans (hdue hs)⟩

/-- The freeze of a settle window or a soak (R90, R104, R141). -/
theorem soakOk_frozen {w : Option Window} (hm : s.msCycle → t.msCycle) (h : s.soakOk w) :
    t.soakOk (w.map Window.frozen) :=
  ⟨windowOk_mono hm (windowOk_frozen h.1), fun _ => isDue_frozen w⟩

/-! ## The Settle Timer -/

/-- The Settle Timer of `t` runs on as in `s`, or is IDLE, or starts at this moment (R101, R102). -/
def State.settlesAs (s t : State) : Prop :=
  t.settle = s.settle ∨ t.settle = none ∨ ∃ n, t.settle = some (s.msStart (duration n))

theorem settleAfterMark_cases (s : State) (storm : Bool) :
    s.settleAfterMark storm = s.settle ∨ ∃ n, s.settleAfterMark storm = some (s.msStart (duration n)) := by
  unfold State.settleAfterMark
  cases s.settle with
  | some w => exact .inl rfl
  | none =>
    dsimp only
    split
    · exact .inr ⟨_, rfl⟩
    · exact .inl rfl

/-- An event of `s` before its dirty mark has left the Settle Timer and the moment. -/
theorem settlesAs_markIf {u : State} (made : Bool) (hs : u.settle = s.settle)
    (hp : u.time.prescaler = s.time.prescaler) (hd : u.time.divider = s.time.divider) : s.settlesAs (markIf made u) := by
  have hstart (d : Nat) : u.msStart d = s.msStart d := by rw [State.msStart, hp, hd, State.msStart]
  rw [markIf_eq]
  cases made with
  | false => exact .inl hs
  | true =>
    rcases settleAfterMark_cases u u.storm with h | ⟨n, h⟩
    · exact .inl (h.trans hs)
    · exact .inr (.inr ⟨n, h.trans (congrArg some (hstart _))⟩)

theorem soakOk_settlesAs (h : s.settlesAs t) (hs : s.soakOk s.settle) : s.soakOk t.settle := by
  rcases h with h | h | ⟨n, h⟩
  · rwa [h]
  · rw [h]; exact soakOk_none s
  · rw [h]; exact soakOk_msStart s (duration_pos n)

theorem terminalEvent_settlesAs (k : Fin 512) (new : Entry) (s : State) : s.settlesAs (terminalEvent k new s) := by
  rw [terminalEvent, terminalChange_eq]
  exact settlesAs_markIf _ rfl rfl rfl

theorem forgetTerminal_settlesAs (k : Fin 512) (s : State) : s.settlesAs (forgetTerminal k s) := by
  rw [forgetTerminal, moveEntry_eq]
  exact settlesAs_markIf true rfl rfl rfl

theorem silenceEvent_settlesAs (s : State) : s.settlesAs (silenceEvent s) := by
  rw [silenceEvent, addFalls_eq]
  exact settlesAs_markIf _ rfl rfl rfl

theorem leakEvent_settlesAs (s : State) : s.settlesAs (leakEvent s) := by
  rw [leakEvent, setGauge_eq]
  exact settlesAs_markIf _ rfl rfl rfl

theorem attackEvent_settlesAs (k : Fin 32) (i : Incident) (s : State) : s.settlesAs (attackEvent k i s) := by
  simp only [attackEvent]
  generalize s.tested { i with phase := .opened, soak := none } = opened
  have h := absorbAll_frame s k opened (s.putSlot k opened)
  generalize absorbAll k opened (s.putSlot k opened) = u at h ⊢
  have htime : u.time = s.time := (congrArg State.time h :)
  exact settlesAs_markIf _ (congrArg State.settle h :) (congrArg Timebase.prescaler htime :)
    (congrArg Timebase.divider htime :)

theorem releaseEvent_settlesAs (k : Fin 32) (i : Incident) (s : State) : s.settlesAs (releaseEvent k i s) := by
  have h := closeIncident_frame s k .cleared 0 i s
  rw [releaseEvent]
  generalize closeIncident k .cleared 0 i s = u at h ⊢
  have htime : u.time = s.time := (congrArg State.time h :)
  exact settlesAs_markIf _ (congrArg State.settle h :) (congrArg Timebase.prescaler htime :)
    (congrArg Timebase.divider htime :)

theorem parameterApply_settlesAs (l : Load) (s : State) : s.settlesAs (parameterApply l s) :=
  settlesAs_markIf _ rfl rfl rfl

theorem takeNotice_settle (s : State) : (takeNotice s).settle = s.settle :=
  (congrArg State.settle (takeNotice_frame s) :)

theorem initWaiting_settle (s : State) : (initWaiting s).settle = s.settle :=
  (congrArg State.settle (initWaiting_frame s s) :)

theorem producerEvent_settlesAs (n : Notice) (s : State) : s.settlesAs (producerEvent n s) := by
  have hsettle := (takeNotice_settle (initWaiting (freeClosed n.frees
    { s with producer := s.producer + 1, notice := none }))).trans (initWaiting_settle _)
  unfold State.settlesAs
  rw [producerEvent, hsettle]
  rcases freeClosed_cases n.frees { s with producer := s.producer + 1, notice := none } with ⟨-, h⟩ | ⟨k, -, h⟩
  · rw [h]
    exact .inl rfl
  · rw [h]
    exact settlesAs_markIf (u := freeSlot k { s with producer := s.producer + 1, notice := none }) true rfl rfl rfl

theorem endingEvent_settlesAs (e : Ending) (s : State) : s.settlesAs (endingEvent e s) := by
  rcases endingEvent_cases e s with h | ⟨n, -, -, h⟩ | ⟨n, -, -, h⟩ | ⟨r, -, -, h⟩ | ⟨c, -, -, h⟩ | ⟨c, -, -, h⟩ |
    ⟨-, h⟩
  · rw [h]; exact .inl rfl
  · rw [h]; exact .inl rfl
  · rw [h]; exact producerEvent_settlesAs n s
  · rw [h]; exact .inl (takeNotice_settle _)
  · rw [h]; exact .inl rfl
  · rw [h]; exact .inl rfl
  · rw [h]; exact .inl rfl

end Sys2Proof.Machine
end

