-- ==== Sys2Proof/Proofs/IncidentLaw.lean ====
section
/-! PROOF. The Incident Table's law and the law of the windows counted in milliseconds, change by change (O8). Both laws read
the soaks, so one invariant holds both: with `W` false it is the Incident Table's law alone. -/

namespace Sys2Proof.Machine

variable {s t : State} {W : Prop}

/-! ## The two laws -/

/-- What the invariant asks of a soak. -/
def State.soakLaw (W : Prop) (s : State) (w : Option Window) : Prop := W → s.soakOk w

/-- The law of the settle window and of the edit limit; a load is only in a state that freezes (R90, R170). -/
def State.timersOk (s : State) : Prop :=
  s.soakOk s.settle ∧ windowOk s.msCycle s.editLimit ∧ (s.load.isSome = true → s.frozen = true)

/-- The Incident Table's law, and where `W` holds that of the windows counted in milliseconds. -/
structure State.lawsWith (W : Prop) (s : State) : Prop where
  table : s.tableLaw (s.soakLaw W)
  causes : ∀ causes, s.pass = some causes → causesLaw causes
  timers : W → s.timersOk

theorem lawsWith_false : s.lawsWith False ↔ s.incidentLaw := by
  constructor
  · rintro ⟨⟨hlaw, huniq⟩, hpass, -⟩
    exact ⟨fun k i hk => (hlaw k i hk).1, huniq, hpass⟩
  · rintro ⟨hlaw, huniq, hpass⟩
    exact ⟨⟨fun k i hk => ⟨hlaw k i hk, False.elim⟩, huniq⟩, hpass, False.elim⟩

theorem startsSoaks_soakLaw (W : Prop) (s : State) : s.startsSoaks (s.soakLaw W) :=
  ⟨fun _ => soakOk_none s, fun _ hd _ => soakOk_msStart s hd⟩

/-! ## Events that leave the moment and the part state -/

/-- The fields that the laws read, but for the slots and the settle window. -/
def State.lawFields (s : State) : Option (List Cause) × Option Window × PartState × Bool × Nat × Nat :=
  (s.pass, s.editLimit, s.part, s.load.isSome, s.time.prescaler, s.time.divider)

theorem soakOk_congr (hp : t.part = s.part) (hq : t.time.prescaler = s.time.prescaler)
    (hd : t.time.divider = s.time.divider) : t.soakOk = s.soakOk := by
  unfold State.soakOk State.msCycle State.frozen
  rw [hp, hq, hd]

theorem lawsWith_of_table (h : State.lawFields { t with pass := s.pass } = s.lawFields)
    (hk : t.tableLaw (s.soakLaw W)) (hc : ∀ causes, t.pass = some causes → causesLaw causes) (hs : s.settlesAs t)
    (ht : W → s.timersOk) : t.lawsWith W := by
  simp only [State.lawFields, Prod.mk.injEq] at h
  obtain ⟨-, hlimit, hpart, hload, hq, hd⟩ := h
  have hok : t.soakOk = s.soakOk := soakOk_congr hpart hq hd
  have hsame : t.soakLaw W = s.soakLaw W := by
    funext w
    rw [State.soakLaw, hok, State.soakLaw]
  refine ⟨hsame ▸ hk, hc, fun hW => ?_⟩
  obtain ⟨hsettle, hedit, hloads⟩ := ht hW
  refine ⟨hok ▸ soakOk_settlesAs hs hsettle, ?_, fun hl => ?_⟩
  · rw [hlimit, State.msCycle, hq, hd]
    exact hedit
  · rw [State.frozen, hpart]
    exact hloads (hload ▸ hl)

theorem lawsWith_of_fields (h : t.lawFields = s.lawFields) (hf : s.follows (s.soakLaw W) t) (hs : s.settlesAs t)
    (hl : s.lawsWith W) : t.lawsWith W := by
  simp only [State.lawFields, Prod.mk.injEq] at h
  obtain ⟨hpass, hrest⟩ := h
  obtain ⟨htable, hcauses, htimers⟩ := hl
  refine lawsWith_of_table ?_ (tableLaw_of_follows htable hf) (hpass ▸ hcauses) hs htimers
  simpa only [State.lawFields, Prod.mk.injEq, true_and] using hrest

/-- An event that touches none of what the laws read. -/
theorem lawsWith_of_same (hf : t.lawFields = s.lawFields) (hk : t.slots = s.slots) (hs : t.settle = s.settle)
    (h : s.lawsWith W) : t.lawsWith W :=
  lawsWith_of_fields hf (follows_of_slots hk) (.inl hs) h

/-- An event whose dirty mark is all that it does to what the laws read. -/
theorem lawsWith_of_settle (hf : t.lawFields = s.lawFields) (hk : t.slots = s.slots) (hs : s.settlesAs t)
    (h : s.lawsWith W) : t.lawsWith W :=
  lawsWith_of_fields hf (follows_of_slots hk) hs h

theorem lawsWith_markIf {u : State} (made : Bool) (hf : u.lawFields = s.lawFields) (hk : u.slots = s.slots)
    (hs : u.settle = s.settle) (h : s.lawsWith W) : (markIf made u).lawsWith W := by
  have hu : u.lawsWith W := lawsWith_of_same hf hk hs h
  refine lawsWith_of_settle ?_ (markIf_slots made u) (settlesAs_markIf made rfl rfl rfl) hu
  rw [markIf_eq]
  rfl

/-! ## Events that free every slot, end the load, or pass a carry -/

/-- A state with no incident and no pass keeps the laws if its timers do. -/
theorem lawsWith_of_empty (hk : ∀ k, t.slot k = none) (hp : t.pass = none) (ht : W → t.timersOk) : t.lawsWith W :=
  ⟨⟨fun k _ h => absurd ((hk k).symm.trans h) nofun, fun j _ _ _ h => absurd ((hk j).symm.trans h) nofun⟩,
    fun _ h => absurd (hp.symm.trans h) nofun, ht⟩

/-- The laws where every window is changed alike. -/
theorem lawsWith_of_map {g : Window → Window} (hk : ∀ k, t.slot k = (s.slot k).map (fun i => { i with soak := i.soak.map g }))
    (hp : t.pass = s.pass) (hg : W → ∀ w, s.soakOk w → t.soakOk (w.map g)) (ht : W → s.timersOk → t.timersOk)
    (h : s.lawsWith W) : t.lawsWith W := by
  obtain ⟨⟨hlaw, huniq⟩, hcauses, htimers⟩ := h
  refine ⟨⟨fun k i' hk' => ?_, fun j k i i' hj hk' hkind hsubj => ?_⟩, hp ▸ hcauses, fun hW => ht hW (htimers hW)⟩
  · rw [hk] at hk'
    obtain ⟨i, hi, rfl⟩ := Option.map_eq_some_iff.mp hk'
    obtain ⟨hl, hsoak⟩ := hlaw k i hi
    exact ⟨hl.with_soak Option.isSome_map, fun hW => hg hW _ (hsoak hW)⟩
  · rw [hk] at hj hk'
    obtain ⟨x, hx, rfl⟩ := Option.map_eq_some_iff.mp hj
    obtain ⟨y, hy, rfl⟩ := Option.map_eq_some_iff.mp hk'
    exact huniq j k x y hx hy hkind hsubj

/-- The laws where every window stands as it was. -/
theorem lawsWith_of_windows (hk : t.slots = s.slots) (hp : t.pass = s.pass) (hok : W → ∀ w, s.soakOk w → t.soakOk w)
    (ht : W → s.timersOk → t.timersOk) (h : s.lawsWith W) : t.lawsWith W := by
  refine lawsWith_of_map (g := id) (fun k => ?_) hp (fun hW w hw => ?_) ht h
  · rw [State.slot, hk]
    simp [State.slot]
  · rw [Option.map_id]
    exact hok hW w hw

/-- EDIT freezes the windows (R90, R175). -/
theorem freeze_lawsWith (tag : Byte) (h : s.lawsWith W) : State.lawsWith W { freezeWindows s with
    origin := some s.part, editTag := tag, part := .edit, editLimit := some (s.msWindow Config.editLimit) } := by
  refine lawsWith_of_map (g := Window.frozen) (freezeWindows_slot s) rfl (fun _ w hw => soakOk_frozen (s := s) id hw)
    (fun _ ht => ?_) h
  obtain ⟨hsettle, -, -⟩ := ht
  refine ⟨soakOk_frozen (s := s) id hsettle, ?_, fun _ => rfl⟩
  show windowOk s.msCycle (some (s.msWindow Config.editLimit))
  rw [msWindow_eq]
  exact windowOk_msStart s (by decide)

/-- The part returns to its edit origin, with no load and no edit limit (R176, R177). -/
theorem leaveEdit_lawsWith (hpart : s.part = .edit ∨ s.part = .loading) (h : s.lawsWith W) : (leaveEdit s).lawsWith W := by
  have hfrozen : s.frozen = true := decide_eq_true hpart
  have hok (w : Option Window) : s.soakOk w → (leaveEdit s).soakOk w := soakOk_mono (s := s) id fun _ => hfrozen
  exact lawsWith_of_windows (s := s) rfl rfl (fun _ => hok) (fun _ ht => ⟨hok _ ht.1, windowOk_none _, nofun⟩) h

/-- Every change of a passing beat keeps the laws. -/
theorem Move.lawsWith (hm : Move s t) (h : s.lawsWith W) : t.lawsWith W := by
  cases hm with
  | terminal k new hp hn =>
    refine lawsWith_of_settle ?_ ?_ (terminalEvent_settlesAs k new s) h
    · rw [terminalEvent_eq]; rfl
    · rw [terminalEvent_eq]
  | trunk down => exact lawsWith_markIf (s := s) _ rfl rfl rfl h
  | edit tag hp => exact freeze_lawsWith tag h
  | commit tag hp =>
    have hok (w : Option Window) := soakOk_mono (s := s) (w := w)
      (t := { s with part := .loading, load := some (Load.start tag) }) id fun _ => decide_eq_true (.inl hp)
    exact lawsWith_of_windows (s := s) rfl rfl (fun _ => hok) (fun _ ht => ⟨hok _ ht.1, ht.2.1, fun _ => rfl⟩) h
  | leave hp => exact leaveEdit_lawsWith (hp.imp_right And.left) h
  | forget k hp =>
    refine lawsWith_of_settle ?_ ?_ (forgetTerminal_settlesAs k s) h
    · rw [forgetTerminal_eq]; rfl
    · rw [forgetTerminal_eq]
  | maint made block mask polarity hp => exact lawsWith_markIf (s := s) _ rfl rfl rfl h
  | reset =>
    refine lawsWith_of_empty (fun k => Vector.getElem_replicate _) rfl fun _ => ?_
    exact ⟨soakOk_none _, windowOk_none _, nofun⟩
  | take =>
    refine lawsWith_of_fields ?_ (takeNotice_follows s) (.inl (takeNotice_settle s)) h
    have hf := takeNotice_frame s
    generalize takeNotice s = u at hf ⊢
    exact (congrArg State.lawFields hf :)
  | disturb => exact lawsWith_of_same (s := s) (by simp [State.lawFields]) rfl rfl h
  | _ => exact lawsWith_of_same (s := s) rfl rfl rfl h

/-! ## The other changes -/

/-- A millisecond carry counts every window, or passes it where they are frozen (R88, R90, R102, R141, R175). -/
theorem carried_lawsWith (hk : t.slots = s.carriedSlots) (hp : t.pass = s.pass)
    (hs : t.settle = s.settle.map s.msCarried) (he : t.editLimit = s.editLimit.map windowCounted) (hpart : t.part = s.part)
    (hl : t.load = s.load) (h : s.lawsWith W) : t.lawsWith W := by
  have hf : t.frozen = s.frozen := by rw [State.frozen, hpart, State.frozen]
  refine lawsWith_of_map (g := s.msCarried) (fun k => ?_) hp (fun _ w hw => soakOk_carried hf hw) (fun _ ht => ?_) h
  · rw [State.slot, hk]
    exact carriedSlots_slot s k
  · obtain ⟨hsettle, hedit, hload⟩ := ht
    refine ⟨hs ▸ soakOk_carried hf hsettle, he ▸ windowOk_counted _ hedit, fun h' => ?_⟩
    rw [hf]
    exact hload (hl ▸ h')

theorem microsecondEvent_lawsWith (levels : Levels) (h : s.lawsWith W) : (microsecondEvent levels s).lawsWith W := by
  rw [microsecondEvent_eq]
  by_cases hd : s.time.divider < 999
  · have hno : ¬ s.msCycle := fun hc => Nat.not_le.mpr hd hc.2
    refine lawsWith_of_windows (s := s) (if_pos hd) rfl (fun _ w => soakOk_mono (s := s) (fun hc => absurd hc hno) id)
      (fun _ ht => ?_) h
    obtain ⟨hsettle, hedit, hload⟩ := ht
    refine ⟨?_, ?_, hload⟩
    · show State.soakOk _ (if s.time.divider < 999 then s.settle else _)
      rw [if_pos hd]
      exact soakOk_mono (s := s) (fun hc => absurd hc hno) id hsettle
    · show windowOk _ (if s.time.divider < 999 then s.editLimit else _)
      rw [if_pos hd]
      exact windowOk_mono (fun hc => absurd hc hno) hedit
  · exact carried_lawsWith (s := s) (if_neg hd) rfl (if_neg hd) (if_neg hd) rfl rfl h

theorem completionBeforeTake_lawsWith (l : Load) (h : s.lawsWith W) : (completionBeforeTake l s).lawsWith W := by
  have hf := completionBeforeTake_frame l s
  have hfollows : s.follows (s.soakLaw W) (completionBeforeTake l s) :=
    completionBeforeTake_follows l s (startsSoaks_soakLaw W s).1
  have hends : (completionBeforeTake l s).settle = none ∧ (completionBeforeTake l s).editLimit = none ∧
      (completionBeforeTake l s).load = none ∧ (completionBeforeTake l s).part = .running := by
    rw [completionBeforeTake_eq]
    exact ⟨rfl, rfl, rfl, rfl⟩
  generalize completionBeforeTake l s = u at hf hfollows hends ⊢
  obtain ⟨hsettle, hedit, hload, hpart⟩ := hends
  have hrunning : u.frozen = false := by rw [State.frozen, hpart]; rfl
  have htime : u.time = s.time := (congrArg State.time hf :)
  have hok : ∀ w, s.soakOk w → u.soakOk w := fun w hw =>
    soakOk_mono (by rw [State.msCycle, State.msCycle, htime]; exact id) (fun ht => by simp [hrunning] at ht) hw
  obtain ⟨htable, hcauses, -⟩ := h
  obtain ⟨hlaw, huniq⟩ := tableLaw_of_follows htable hfollows
  refine ⟨⟨fun k i hk => ⟨(hlaw k i hk).1, fun hW => hok _ ((hlaw k i hk).2 hW)⟩, huniq⟩,
    (congrArg State.pass hf :) ▸ hcauses, fun _ => ⟨hsettle ▸ soakOk_none u, hedit ▸ windowOk_none _, fun hl => ?_⟩⟩
  simp [hload] at hl

/-- A check read in a load: a load stays in a state that freezes, EDIT or LOADING (R178). -/
theorem checkReadEvent_lawsWith {l : Load} (hl : s.load = some l) (h : s.lawsWith W) :
    (checkReadEvent l s).lawsWith W := by
  have hloads (l' : Load) : State.lawFields { s with load := some l' } = s.lawFields := by
    rw [State.lawFields, State.lawFields, hl]
    rfl
  unfold checkReadEvent
  dsimp only
  split
  · unfold checkEnd
    split
    · have hfrozen (hW : W) : s.frozen = true := (h.timers hW).2.2 (hl ▸ rfl)
      refine lawsWith_of_windows (s := s) rfl rfl (fun hW _ => soakOk_mono (s := s) id fun _ => hfrozen hW)
        (fun hW ht => ?_) h
      exact ⟨soakOk_mono (s := s) id (fun _ => hfrozen hW) ht.1, ht.2.1, nofun⟩
    · refine lawsWith_of_settle (s := s) ?_ ?_ (parameterApply_settlesAs _ _) h
      · rw [parameterApply_eq]
        exact hloads _
      · rw [parameterApply_eq]
  · exact lawsWith_of_same (s := s) (hloads _) rfl rfl h

theorem withEnding_lawFields (s0 s : State) : (s0.withEnding s).lawFields = s.lawFields := rfl

/-- Every change of a command keeps the laws. -/
theorem Change.lawsWith {c : Instr} {s0 : State} (hc : Change c s0 s t) (h : s.lawsWith W) : t.lawsWith W := by
  have hF := startsSoaks_soakLaw W s
  cases hc with
  | move hm => exact hm.lawsWith h
  | path hp hb hq => rw [hp]; exact lawsWith_of_same (s := s) rfl rfl rfl h
  | counted b => exact lawsWith_of_same (s := s) rfl rfl rfl h
  | land w => cases w <;> exact lawsWith_of_same (s := s) rfl rfl rfl h
  | ending e he =>
    refine lawsWith_of_fields ?_ (endingEvent_follows e s) (endingEvent_settlesAs e s) h
    simpa only [withEnding_lawFields] using congrArg State.lawFields (endingEvent_frame s e s)
  | mainsFail => exact lawsWith_markIf (s := s) true rfl rfl rfl h
  | maintAll => exact lawsWith_markIf (s := s) true rfl rfl rfl h
  | silence hd =>
    have hf := silenceEvent_frame { s with time.silenceDue := false }
    have hs := silenceEvent_settlesAs { s with time.silenceDue := false }
    generalize silenceEvent _ = u at hf hs ⊢
    exact lawsWith_of_settle (s := s) (congrArg State.lawFields hf :) (congrArg State.slots hf :) hs h
  | leak hd =>
    have hf := leakEvent_frame { s with time.leakDue := false }
    have hs := leakEvent_settlesAs { s with time.leakDue := false }
    generalize leakEvent _ = u at hf hs ⊢
    exact lawsWith_of_settle (s := s) (congrArg State.lawFields hf :) (congrArg State.slots hf :) hs h
  | settle hd => exact lawsWith_of_settle (s := s) rfl rfl (.inr (.inl rfl)) h
  | merged ha => exact lawsWith_of_same (s := s) rfl rfl rfl h
  | reading ha hp =>
    obtain ⟨htable, -, htimers⟩ := h
    exact ⟨htable, fun causes hc => Option.some.inj hc ▸ causes_law _, htimers⟩
  | matching causes hp =>
    have htable := matchingEvent_tableLaw h.table hF (h.causes causes hp)
    have hf := matchingEvent_frame causes s
    have hpass : (matchingEvent causes s).pass = none := rfl
    generalize matchingEvent causes s = u at htable hf hpass ⊢
    exact lawsWith_of_table (s := s) (congrArg State.lawFields hf :) htable (fun _ hc => absurd (hpass.symm.trans hc) nofun)
      (.inl (congrArg State.settle hf :)) h.timers
  | attack k i hd =>
    have hf := attackEvent_frame k i s
    have hs := attackEvent_settlesAs k i s
    have hk := attackEvent_follows hd hF
    generalize attackEvent k i s = u at hf hs hk ⊢
    exact lawsWith_of_fields (congrArg State.lawFields hf :) hk hs h
  | release k i hd =>
    have hf := releaseEvent_frame k i s
    have hs := releaseEvent_settlesAs k i s
    have hk := releaseEvent_follows hd hF
    generalize releaseEvent k i s = u at hf hs hk ⊢
    exact lawsWith_of_fields (congrArg State.lawFields hf :) hk hs h
  | limitEnds ha =>
    exact lawsWith_of_windows (s := s) rfl rfl (fun _ _ => id) (fun _ ht => ⟨ht.1, windowOk_none _, ht.2.2⟩) h
  | checkRead l hc hl ha => exact checkReadEvent_lawsWith hl h
  | terminalWord l hc hl ha =>
    refine lawsWith_of_same (s := s) ?_ rfl rfl h
    rw [State.lawFields, State.lawFields, hl]
    rfl
  | completion l hc hl ha hn =>
    rw [completionEvent_eq]
    exact (Move.take _).lawsWith (completionBeforeTake_lawsWith l h)
  | cycle =>
    have hm : s.msCycle → State.msCycle { s with time.prescaler := 24 } := fun hc => ⟨Nat.le_refl _, hc.2⟩
    have hok (w : Option Window) : s.soakOk w → State.soakOk { s with time.prescaler := 24 } w := soakOk_mono hm id
    exact lawsWith_of_windows (s := s) rfl rfl (fun _ => hok)
      (fun _ ht => ⟨hok _ ht.1, windowOk_mono hm ht.2.1, ht.2.2⟩) h
  | microsecond levels hm => exact microsecondEvent_lawsWith levels h
  | millisecond =>
    rw [millisecondRun_eq rfl]
    exact carried_lawsWith (s := s) rfl rfl rfl rfl rfl rfl h

/-- Every command keeps the laws; hardware reset meets them anew. -/
theorem exec_lawsWith {c : Instr} (hx : exec c s = .next t) (h : s.lawsWith W) : t.lawsWith W := by
  by_cases hc : ∃ p l d, c = .hardwareReset p l d
  · obtain ⟨p, l, d, rfl⟩ := hc
    obtain rfl := Host.Outcome.next.inj ((execHardwareReset_eq p l d s).symm.trans hx)
    exact lawsWith_of_empty reset_slot rfl fun _ => ⟨soakOk_none _, windowOk_none _, nofun⟩
  · exact exec_keeps (P := State.lawsWith W) (fun p l d hpld => hc ⟨p, l, d, hpld⟩) hx
      (fun a b hab ha => hab.lawsWith ha) h

/-- A step keeps the laws: a REFCLK cycle below 24 leaves every window, and none has started in it. -/
theorem step_lawsWith (hx : step s = .next t) (h : s.lawsWith W) : t.lawsWith W := by
  rcases step_cases hx with ⟨c, hx⟩ | ⟨c, rest, hx⟩ | ⟨hp, rfl⟩
  · exact exec_lawsWith hx h
  · exact exec_lawsWith (s := { s with pending := rest }) hx (lawsWith_of_same (s := s) rfl rfl rfl h)
  · have hm : s.msCycle → State.msCycle { s with time.prescaler := s.time.prescaler + 1 } :=
      fun hc => absurd hc.1 (Nat.not_le.mpr hp)
    have hok (w : Option Window) := soakOk_mono (w := w) (t := { s with time.prescaler := s.time.prescaler + 1 }) hm id
    exact lawsWith_of_windows (s := s) rfl rfl (fun _ => hok)
      (fun _ ht => ⟨hok _ ht.1, windowOk_mono hm ht.2.1, ht.2.2⟩) h

end Sys2Proof.Machine
end

