-- ==== Sys2Proof/Proofs/Patience.lean ====
section
/-! PROOF. The law of the patience window (R81, R88, R191), command by command, and with the laws of the Incident Table and
of the other windows the law that every step keeps (O8). -/

namespace Sys2Proof.Machine

variable {s t u : State}

/-- The law of the patience window. -/
def State.patienceOk (s : State) : Prop := windowOk (24 ≤ s.time.prescaler) s.arb.window

/-- An event that leaves the window and the prescaler, but may have left the cycle of a carry. -/
theorem patienceOk_of_same (hw : t.arb.window = s.arb.window) (hp : s.time.prescaler ≤ t.time.prescaler)
    (h : s.patienceOk) : t.patienceOk := by
  unfold State.patienceOk
  rw [hw]
  exact windowOk_mono (fun hc => hc.trans hp) h

theorem patienceOk_of_none (hw : t.arb.window = none) : t.patienceOk := by
  rw [State.patienceOk, hw]
  exact windowOk_none _

theorem patienceOk_of_keepsArb (hk : s.keepsArb t) (h : s.patienceOk) : t.patienceOk := by
  rcases hk with ⟨hp, ha⟩ | ⟨hp, ha⟩
  · exact patienceOk_of_same (by rw [ha]) (Nat.le_of_eq hp.symm) h
  · rw [State.patienceOk, ha]
    exact windowOk_passed _ h

/-! ## The closing of an event -/

/-- The window starts at this moment, or stays as it is (R191). -/
theorem startWindow_patienceOk (h : s.patienceOk) : (startWindow s).patienceOk := by
  rw [startWindow_eq]
  show windowOk (24 ≤ s.time.prescaler) (s.windowAfter s)
  unfold State.windowAfter
  split
  · exact windowOk_start (by decide) of_decide_eq_true
  · exact h

theorem finish_patienceOk (s0 : State) (h : s.patienceOk) : (finish s0 s).patienceOk := by
  rw [finish, watchPatience, markStatusWords_eq]
  split
  · exact startWindow_patienceOk (patienceOk_of_same (s := s) rfl (Nat.le_refl _) h)
  · exact h

theorem finishBeat_patienceOk (b : Beat) (s0 : State) (h : s.patienceOk) : (finishBeat b s0 s).patienceOk := by
  rw [finishBeat_eq, markStatusWords_eq]
  exact startWindow_patienceOk (patienceOk_of_same (s := s) rfl (Nat.le_refl _) h)

/-! ## Beats and accesses -/

theorem takeBeat_patienceOk (b : Beat) (h : s.patienceOk) : (takeBeat b s).patienceOk :=
  patienceOk_of_keepsArb (takeBeat_moves b s).keepsArb h

theorem present_patienceOk {row : BeatRow} {eff : Beat → State → State} {b : Beat}
    (he : s.rowOf b = row → takeBeat b s = eff b s) (hx : present row eff b s = .next t) (h : s.patienceOk) :
    t.patienceOk := by
  have hbeat : (finishBeat b s (takeBeat b s)).patienceOk := finishBeat_patienceOk b s (takeBeat_patienceOk b h)
  rcases present_cases row eff b s with ⟨-, hs⟩ | ⟨-, -, hs⟩ | ⟨-, hr, hs⟩ | ⟨-, -, hs⟩
  · exact Host.Outcome.next.inj (hs.symm.trans hx) ▸ h
  · exact Host.Outcome.next.inj (hs.symm.trans hx) ▸ h
  · exact Host.Outcome.next.inj (hs.symm.trans hx) ▸ he hr ▸ hbeat
  · exact Host.Outcome.next.inj (hs.symm.trans hx) ▸ hbeat

theorem releaseHeld_patienceOk (h : s.patienceOk) : (releaseHeld s).patienceOk := by
  unfold releaseHeld
  split
  · exact h
  · exact finishBeat_patienceOk _ _ (takeBeat_patienceOk _ h)

theorem endAccess_patienceOk (w : Option Store) (e : Option Ending) (h : s.patienceOk) :
    (endAccess w e s).patienceOk := by
  have hland : (land w s).patienceOk := patienceOk_of_same (by rw [land_arb]) (by rw [land_time]) h
  cases e with
  | none => exact hland
  | some e =>
    obtain ⟨htime, harb⟩ := endingEvent_arb e (land w s)
    exact finish_patienceOk _ (patienceOk_of_same (by rw [harb]) (by rw [htime]) hland)

theorem memoryReady_patienceOk (ready : Bool) (h : s.patienceOk) : (memoryReady ready s).patienceOk := by
  rcases memoryReady_cases ready s with ⟨-, he⟩ | ⟨-, -, ⟨-, he⟩ | ⟨-, he⟩⟩ | ⟨w, e, -, -, he⟩
  · exact he ▸ h
  · exact he ▸ h
  · rw [he]; exact releaseHeld_patienceOk h
  · rw [he]; exact releaseHeld_patienceOk (endAccess_patienceOk w e h)

/-- A grant ends the window (R191); its event leaves the arbiter. -/
theorem grant_patienceOk {r : Requester} {w : Option Store} {event : State → State} {e : Option Ending}
    (he : (event (endWindow s)).arb.window = none) (hx : grant r w event e s = .next t) (h : s.patienceOk) :
    t.patienceOk := by
  have hf : (finish s (event (endWindow s))).patienceOk := finish_patienceOk s (patienceOk_of_none he)
  cases hg : s.grants r with
  | false =>
    rw [grant, if_neg (by simp [hg])] at hx
    exact Host.Outcome.next.inj hx ▸ h
  | true =>
    cases hm : s.arb.ready with
    | true =>
      rw [grant_served hg hm] at hx
      exact Host.Outcome.next.inj hx ▸ releaseHeld_patienceOk (endAccess_patienceOk w e hf)
    | false =>
      rw [grant_slow hg hm] at hx
      exact Host.Outcome.next.inj hx ▸ hf

/-! ## Events away from the bus -/

/-- An event that is due and leaves the arbiter and the prescaler, or none (log entry 4). -/
theorem due_patienceOk {p : Prop} [Decidable p] (hk : p → s.keepsArb u)
    (hx : (if p then .next (finish s u) else .next s : Host.Outcome State Fault Refusal) = .next t)
    (h : s.patienceOk) : t.patienceOk := by
  split at hx
  · next hd => exact Host.Outcome.next.inj hx ▸ finish_patienceOk s (patienceOk_of_keepsArb (hk hd) h)
  · exact Host.Outcome.next.inj hx ▸ h

theorem next_patienceOk (hx : (.next u : Host.Outcome State Fault Refusal) = .next t) (h : u.patienceOk) :
    t.patienceOk := Host.Outcome.next.inj hx ▸ h

theorem dirtyMark_keepsArb (ha : u.arb = s.arb) (hp : u.time.prescaler = s.time.prescaler) :
    s.keepsArb (dirtyMark u) := by
  rw [dirtyMark_eq]
  exact .inl ⟨hp, ha⟩

theorem silenceEvent_keepsArb (s : State) : s.keepsArb (silenceEvent { s with time.silenceDue := false }) := by
  have hf := silenceEvent_frame { s with time.silenceDue := false }
  generalize silenceEvent _ = u at hf ⊢
  exact .inl ⟨(congrArg (·.time.prescaler) hf :), (congrArg State.arb hf :)⟩

theorem leakEvent_keepsArb (s : State) : s.keepsArb (leakEvent { s with time.leakDue := false }) := by
  have hf := leakEvent_frame { s with time.leakDue := false }
  generalize leakEvent _ = u at hf ⊢
  exact .inl ⟨(congrArg (·.time.prescaler) hf :), (congrArg State.arb hf :)⟩

theorem takeNotice_keepsArb (s : State) : s.keepsArb (takeNotice s) := (Move.take s).keepsArb

theorem matchingEvent_keepsArb (causes : List Cause) (s : State) : s.keepsArb (matchingEvent causes s) := by
  have hf := matchingEvent_frame causes s
  generalize matchingEvent causes s = u at hf ⊢
  exact .inl ⟨(congrArg (·.time.prescaler) hf :), (congrArg State.arb hf :)⟩

theorem attackEvent_keepsArb (k : Fin 32) (i : Incident) (s : State) : s.keepsArb (attackEvent k i s) := by
  have hf := attackEvent_frame k i s
  generalize attackEvent k i s = u at hf ⊢
  exact .inl ⟨(congrArg (·.time.prescaler) hf :), (congrArg State.arb hf :)⟩

theorem releaseEvent_keepsArb (k : Fin 32) (i : Incident) (s : State) : s.keepsArb (releaseEvent k i s) := by
  have hf := releaseEvent_frame k i s
  generalize releaseEvent k i s = u at hf ⊢
  exact .inl ⟨(congrArg (·.time.prescaler) hf :), (congrArg State.arb hf :)⟩

theorem completionEvent_keepsArb (l : Load) (s : State) : s.keepsArb (completionEvent l s) := by
  rw [completionEvent_eq]
  refine keepsArb_trans ?_ (takeNotice_keepsArb _)
  have hf := completionBeforeTake_frame l s
  generalize completionBeforeTake l s = u at hf ⊢
  exact .inl ⟨(congrArg (·.time.prescaler) hf :), (congrArg State.arb hf :)⟩

theorem editLimitEvent_keepsArb (s : State) : s.keepsArb (editLimitEvent s) := by
  unfold editLimitEvent
  split
  · exact .inl ⟨rfl, rfl⟩
  · split
    · exact .inl ⟨rfl, rfl⟩
    · exact .inl ⟨rfl, rfl⟩

theorem checkReadEvent_arb (l : Load) (s : State) : (checkReadEvent l s).arb = s.arb :=
  (congrArg State.arb (checkReadEvent_frame l s) :)

theorem execPassReading_patienceOk (hx : execPassReading s = .next t) (h : s.patienceOk) : t.patienceOk := by
  refine due_patienceOk (fun _ => ?_) hx h
  split
  · exact .inl ⟨rfl, rfl⟩
  · exact .inl ⟨rfl, rfl⟩

theorem execPassMatching_patienceOk (hx : execPassMatching s = .next t) (h : s.patienceOk) : t.patienceOk := by
  unfold execPassMatching at hx
  split at hx
  · exact next_patienceOk hx h
  · next causes _ =>
    exact next_patienceOk hx (finish_patienceOk s (patienceOk_of_keepsArb
      (keepsArb_trans (matchingEvent_keepsArb causes s) (takeNotice_keepsArb _)) h))

theorem execAttackExpiry_patienceOk (k : Fin 32) (hx : execAttackExpiry k s = .next t) (h : s.patienceOk) :
    t.patienceOk := by
  unfold execAttackExpiry at hx
  split at hx
  · exact next_patienceOk hx h
  · exact due_patienceOk (fun _ => keepsArb_trans (attackEvent_keepsArb k _ s) (takeNotice_keepsArb _)) hx h

theorem execReleaseExpiry_patienceOk (k : Fin 32) (hx : execReleaseExpiry k s = .next t) (h : s.patienceOk) :
    t.patienceOk := by
  unfold execReleaseExpiry at hx
  split at hx
  · exact next_patienceOk hx h
  · exact due_patienceOk (fun _ => keepsArb_trans (releaseEvent_keepsArb k _ s) (takeNotice_keepsArb _)) hx h

theorem execCommitCompletion_patienceOk (hx : execCommitCompletion s = .next t) (h : s.patienceOk) : t.patienceOk := by
  unfold execCommitCompletion at hx
  split at hx
  · exact next_patienceOk hx h
  · exact due_patienceOk (fun _ => completionEvent_keepsArb _ s) hx h

/-! ## The grants -/

theorem grantWrite_patienceOk {r : Requester} {w : Store} {e : Ending} (hx : grantWrite r w e s = .next t)
    (h : s.patienceOk) : t.patienceOk :=
  grant_patienceOk (event := id) rfl hx h

theorem execLoaderCheckRead_patienceOk (hx : execLoaderCheckRead s = .next t) (h : s.patienceOk) : t.patienceOk := by
  unfold execLoaderCheckRead at hx
  split at hx
  · exact next_patienceOk hx h
  · split at hx
    · exact next_patienceOk hx h
    · exact grant_patienceOk (by rw [checkReadEvent_arb]; rfl) hx h

theorem execTerminalWordApply_patienceOk (hx : execTerminalWordApply s = .next t) (h : s.patienceOk) :
    t.patienceOk := by
  unfold execTerminalWordApply at hx
  split at hx
  · exact next_patienceOk hx h
  · split at hx
    · exact grant_patienceOk rfl hx h
    · exact next_patienceOk hx h

theorem ownedWordEvent_window (s : State) : (ownedWordEvent s).arb.window = s.arb.window := by
  unfold ownedWordEvent
  split
  · rfl
  · split
    · rfl
    · rfl

/-- A write that is granted under a condition, or does not come (log entry 4). -/
theorem grantIf_patienceOk {p : Prop} [Decidable p] {r : Requester} {w : Store} {e : Ending}
    (hx : (if p then grantWrite r w e s else .next s) = .next t) (h : s.patienceOk) : t.patienceOk := by
  split at hx
  · exact grantWrite_patienceOk hx h
  · exact next_patienceOk hx h

theorem execNoticeWordWrite_patienceOk (hx : execNoticeWordWrite s = .next t) (h : s.patienceOk) : t.patienceOk := by
  unfold execNoticeWordWrite at hx
  split at hx
  · exact grantIf_patienceOk hx h
  · exact next_patienceOk hx h

theorem execProducerWrite_patienceOk (hx : execProducerWrite s = .next t) (h : s.patienceOk) : t.patienceOk := by
  unfold execProducerWrite at hx
  split at hx
  · exact grantIf_patienceOk hx h
  · exact next_patienceOk hx h

theorem execRingHeaderInitWrite_patienceOk (hx : execRingHeaderInitWrite s = .next t) (h : s.patienceOk) :
    t.patienceOk := by
  unfold execRingHeaderInitWrite at hx
  split at hx
  · exact next_patienceOk hx h
  · exact grantIf_patienceOk hx h

theorem execCensusWordWrite_patienceOk (hx : execCensusWordWrite s = .next t) (h : s.patienceOk) : t.patienceOk := by
  unfold execCensusWordWrite at hx
  split at hx
  · exact next_patienceOk hx h
  · exact grantIf_patienceOk hx h

theorem execCensusDoneWrite_patienceOk (hx : execCensusDoneWrite s = .next t) (h : s.patienceOk) : t.patienceOk := by
  unfold execCensusDoneWrite at hx
  split at hx
  · exact next_patienceOk hx h
  · exact grantIf_patienceOk hx h

theorem execCensusCutWrite_patienceOk (hx : execCensusCutWrite s = .next t) (h : s.patienceOk) : t.patienceOk := by
  unfold execCensusCutWrite at hx
  split at hx
  · exact next_patienceOk hx h
  · exact grantIf_patienceOk hx h

/-! ## The carries -/

/-- A run of REFCLK to the millisecond carry leaves a count above 0, or the window's last carry (R88, R191). -/
theorem runPatience_window (n : Nat) (q : Prop) (h : s.patienceOk) : windowOk q (runPatience n s).arb.window := by
  cases hs : s.arb.window with
  | none =>
    rw [runPatience_none n hs, hs]
    exact windowOk_none q
  | some w =>
    obtain ⟨hleft, hdue, -⟩ := h w hs
    by_cases hh : s.head = none
    · rw [runPatience_idle n hs hh]
      have hok : windowOk (24 ≤ s.time.prescaler) (some w) := by
        rw [← hs]
        exact h
      exact windowOk_passed q hok
    · rw [runPatience_counts n hs hh rfl]
      generalize (if w.fresh = true then n - 1 else n) = count
      split
      · next hlt =>
        rintro x hx
        obtain rfl := Option.some.inj hx
        refine ⟨Nat.sub_pos_of_lt hlt, fun hd => ⟨?_, rfl⟩, nofun⟩
        have := (hdue hd).1
        show w.left - count = 1
        omega
      · split
        · rintro x hx
          obtain rfl := Option.some.inj hx
          exact ⟨Nat.le_refl 1, fun _ => ⟨rfl, rfl⟩, nofun⟩
        · exact windowOk_none q

theorem execMillisecondCarry_patienceOk (hx : execMillisecondCarry s = .next t) (h : s.patienceOk) : t.patienceOk := by
  unfold execMillisecondCarry at hx
  split at hx
  · exact next_patienceOk hx h
  · refine next_patienceOk hx (finish_patienceOk s ?_)
    rw [millisecondRun_eq rfl]
    exact runPatience_window _ _ h

theorem microsecondEvent_patienceOk (levels : Levels) (h : s.patienceOk) : (microsecondEvent levels s).patienceOk := by
  rw [microsecondEvent_eq]
  show windowOk _ s.patienceCarried
  unfold State.patienceCarried
  split
  · exact windowOk_counted _ h
  · exact windowOk_passed _ h

theorem toMicrosecond_patienceOk (ready : Bool) (h : s.patienceOk) : (toMicrosecond ready s).patienceOk :=
  memoryReady_patienceOk ready (windowOk_mono (fun _ => Nat.le_refl 24) h)

theorem execMicrosecondCarry_patienceOk (levels : Levels) (run : CarryRun)
    (hx : execMicrosecondCarry levels run s = .next t) (h : s.patienceOk) : t.patienceOk := by
  have hcycle := toMicrosecond_patienceOk run.ready h
  rcases execMicrosecondCarry_cases levels run s with ⟨-, hs⟩ | ⟨-, -, hs⟩ | ⟨-, -, hs⟩
  · exact next_patienceOk (hs.symm.trans hx) h
  · exact next_patienceOk (hs.symm.trans hx) hcycle
  · refine next_patienceOk (hs.symm.trans hx) ?_
    unfold microsecond
    dsimp only
    split
    · exact finish_patienceOk _ (microsecondEvent_patienceOk levels hcycle)
    · exact hcycle

/-! ## Every command -/

/-- Hardware reset leaves no window, or one that has started in no carry's cycle (R191, R192). -/
theorem atRelease_patienceOk (straps : BitVec 8) (levels : Levels) (s : State) :
    (s.atRelease straps levels).patienceOk := by
  show windowOk _ (if s.arb.passing then some { left := 5, due := false, fresh := false } else none)
  split
  · exact windowOk_start (by decide) nofun
  · exact windowOk_none _

theorem exec_patienceOk {c : Instr} (hx : exec c s = .next t) (h : s.patienceOk) : t.patienceOk := by
  cases c with
  | hardwareReset p l d =>
    obtain rfl := Host.Outcome.next.inj ((execHardwareReset_eq p l d s).symm.trans hx)
    exact atRelease_patienceOk p l _
  | passingWrite b | intakeWord0Write b | intakeWord1Write b | intakePartialWrite b | intakePartialWord3Write b
  | emptyRecord b | malformedRecord b | statusRecord b | missRecord b | gaspRecord b | linkRecord b | treeDown b
  | treeUp b | extendCmd tag arg burst | editCmd tag arg burst | commitCmd tag arg burst | abandonCmd tag arg burst
  | settimeCmd tag arg burst | forgetCmd tag arg burst | maintCmd tag arg burst | censusCmd tag arg burst
  | resetCmd tag arg burst | badOpcode b | ownedWordWrite b | disturbingWrite b | consumerIndexWrite b =>
    exact present_patienceOk (fun hr => by simp only [takeBeat, hr]) hx h
  | mainsFailEdge =>
    change execMainsFailEdge s = _ at hx
    unfold execMainsFailEdge at hx
    split at hx
    · exact next_patienceOk hx h
    · exact next_patienceOk hx (finish_patienceOk s (patienceOk_of_keepsArb (dirtyMark_keepsArb rfl rfl) h))
  | maintAllEdge =>
    change execMaintAllEdge s = _ at hx
    unfold execMaintAllEdge at hx
    split at hx
    · exact next_patienceOk hx h
    · exact next_patienceOk hx (finish_patienceOk s (patienceOk_of_keepsArb (dirtyMark_keepsArb rfl rfl) h))
  | silenceCarry => exact due_patienceOk (fun _ => silenceEvent_keepsArb s) hx h
  | stormLeak => exact due_patienceOk (fun _ => leakEvent_keepsArb s) hx h
  | settleExpiry =>
    exact due_patienceOk (s := s) (u := { s with settle := none, passRequest := true })
      (fun _ => .inl ⟨rfl, rfl⟩) hx h
  | passReading => exact execPassReading_patienceOk hx h
  | passMatching => exact execPassMatching_patienceOk hx h
  | attackExpiry k => exact execAttackExpiry_patienceOk k hx h
  | releaseExpiry k => exact execReleaseExpiry_patienceOk k hx h
  | loaderCheckRead => exact execLoaderCheckRead_patienceOk hx h
  | terminalWordApply => exact execTerminalWordApply_patienceOk hx h
  | commitCompletion => exact execCommitCompletion_patienceOk hx h
  | editLimitExpiry => exact due_patienceOk (fun _ => editLimitEvent_keepsArb s) hx h
  | noticeWordWrite => exact execNoticeWordWrite_patienceOk hx h
  | producerWrite => exact execProducerWrite_patienceOk hx h
  | ringHeaderInitWrite => exact execRingHeaderInitWrite_patienceOk hx h
  | ownedWordWriterGrant => exact grant_patienceOk (ownedWordEvent_window _) hx h
  | censusWordWrite => exact execCensusWordWrite_patienceOk hx h
  | censusDoneWrite => exact execCensusDoneWrite_patienceOk hx h
  | censusCutWrite => exact execCensusCutWrite_patienceOk hx h
  | patienceExpiry =>
    change execPatienceExpiry s = _ at hx
    unfold execPatienceExpiry at hx
    split at hx
    · exact next_patienceOk hx (finish_patienceOk s (patienceOk_of_none rfl))
    · exact next_patienceOk hx h
  | millisecondCarry => exact execMillisecondCarry_patienceOk hx h
  | microsecondCarry levels run => exact execMicrosecondCarry_patienceOk levels run hx h

theorem step_patienceOk (hx : step s = .next t) (h : s.patienceOk) : t.patienceOk := by
  rcases step_cases hx with ⟨c, hx⟩ | ⟨c, rest, hx⟩ | ⟨-, rfl⟩
  · exact exec_patienceOk hx h
  · exact exec_patienceOk (s := { s with pending := rest }) hx h
  · exact patienceOk_of_same (s := s) rfl (Nat.le_succ _) h

/-! ## Every step -/

/-- The two laws of a step, where a load is only in LOADING. -/
theorem lawsWith_true (hl : s.loadLaw) (hi : s.incidentLaw) (hw : s.windowLaw) : s.lawsWith True := by
  obtain ⟨hlaw, huniq, hcauses⟩ := hi
  obtain ⟨hsettle, hedit, -, hsoak, hfrozen⟩ := hw
  refine ⟨⟨fun k i hk => ⟨hlaw k i hk, fun _ => ⟨hsoak k i hk, fun hf => (hfrozen hf).2 k i hk⟩⟩, huniq⟩, hcauses,
    fun _ => ⟨⟨hsettle, fun hf => (hfrozen hf).1⟩, hedit, fun h => decide_eq_true (.inr (hl.1.mpr h))⟩⟩

theorem windowLaw_of (h : s.lawsWith True) (hp : s.patienceOk) : s.windowLaw := by
  obtain ⟨⟨hlaw, -⟩, -, htimers⟩ := h
  obtain ⟨hsettle, hedit, -⟩ := htimers trivial
  exact ⟨hsettle.1, hedit, hp, fun k i hk => ((hlaw k i hk).2 trivial).1,
    fun hf => ⟨hsettle.2 hf, fun k i hk => ((hlaw k i hk).2 trivial).2 hf⟩⟩

/-- Settles O8: a step is one command, whose every change keeps the laws, or one REFCLK cycle. -/
theorem stepKeepsIncidentLaw : Obligations.StepKeepsIncidentLaw := by
  intro s t hi hx
  refine ⟨lawsWith_false.mp (step_lawsWith hx (lawsWith_false.mpr hi)), fun hl hw => ?_⟩
  exact windowLaw_of (step_lawsWith hx (lawsWith_true hl hi hw)) (step_patienceOk hx hw.2.2.1)

end Sys2Proof.Machine
end

