-- ==== Sys2Proof/Proofs/MatchingStages.lean ====
section
/-! SUPPORT. The stages of a matching (R108, R119 to R123): each changes the Incident Table alone, so that every test of a
later stage reads what the matching began with; and what stage 2 makes of each slot. -/

namespace Sys2Proof.Machine

section
variable {s t u : State} {causes live : List Cause} {i other x : Incident} {j k : Fin 32}

/-! ## States that differ in the Incident Table -/

/-- `t` differs from `s` in the Incident Table, the covering fields and the write-pending marks alone. -/
def State.onTable (s t : State) : Prop := s.withIncidents t = s ∧ s.recovers t

theorem onTable_refl (s : State) : s.onTable s := ⟨rfl, recovers_of_entries rfl⟩

theorem onTable_step (h : s.onTable t) (hw : s.withIncidents u = s.withIncidents t) (hr : t.recovers u) : s.onTable u :=
  ⟨hw.trans h.1, recovers_trans h.2 hr⟩

theorem onTable_createIncident (h : s.onTable t) (k : Fin 32) (i : Incident) : s.onTable (createIncident k i t) :=
  onTable_step h rfl (recovers_of_entries rfl)

theorem onTable_matchSlot (h : s.onTable t) (live : List Cause) (k : Fin 32) : s.onTable (matchSlot live t k) :=
  onTable_step h (withIncidents_of_withTable (matchSlot_frame s live t k)) (matchSlot_recovers live t k)

theorem onTable_absorbSlot (h : s.onTable t) (k : Fin 32) (i : Incident) (j : Fin 32) : s.onTable (absorbSlot k i t j) := by
  rcases absorbSlot_cases k i t j with he | ⟨other, -, -, he⟩
  · rw [he]
    exact h
  · rw [he]
    exact onTable_step h (withIncidents_of_withTable (closeIncident_frame s j _ _ other t)) (closeIncident_recovers j _ _ other t)

theorem onTable_matchAll (h : s.onTable t) (live : List Cause) : s.onTable (matchAll live t) :=
  onTable_step h (withIncidents_of_withTable (matchAll_frame s live t)) (matchAll_recovers live t)

theorem onTable_placeCauses (h : s.onTable t) (new : List Cause) : s.onTable (placeCauses new t).1 :=
  onTable_step h (placeCauses_frame s new t) (recovers_of_entries (placeCauses_entries new t))

theorem onTable_residueRecount (h : s.onTable t) (v : Unplaced) : s.onTable (residueRecount v t) :=
  onTable_step h (residueRecount_frame s v t) (residueRecount_recovers v t)

theorem onTable_rewriteCovering (h : s.onTable t) : s.onTable (rewriteCovering t) :=
  onTable_step h rfl (rewriteCovering_recovers t)

theorem onTable_time (h : s.onTable t) : t.time = s.time := (congrArg State.time h.1 :)

theorem onTable_nodes (h : s.onTable t) : t.nodes = s.nodes := (congrArg State.nodes h.1 :)

theorem onTable_inputs (h : s.onTable t) : t.inputs = s.inputs := (congrArg State.inputs h.1 :)

theorem onTable_storm (h : s.onTable t) : t.storm = s.storm := (congrArg State.storm h.1 :)

theorem onTable_settings (h : s.onTable t) : t.settings = s.settings := (congrArg State.settings h.1 :)

theorem onTable_par (h : s.onTable t) : t.par = s.par := by
  rw [State.par, onTable_settings h]
  rfl

theorem onTable_parentIn (h : s.onTable t) (m : Fin 512) (tree : Tree) :
    (t.entry m).parentIn tree = (s.entry m).parentIn tree := by
  rw [(h.2 m).1]
  rfl

theorem onTable_afflicted (h : s.onTable t) (m : Fin 512) (f : Family) :
    (t.entry m).afflicted f = (s.entry m).afflicted f := by
  rw [(h.2 m).1]
  rfl

theorem onTable_msStart (h : s.onTable t) (d : Nat) : t.msStart d = s.msStart d := by
  rw [State.msStart, onTable_time h]
  rfl

theorem onTable_releaseSoak (h : s.onTable t) (kind : CauseKind) : t.releaseSoak kind = s.releaseSoak kind := by
  rw [State.releaseSoak, onTable_par h]
  rfl

theorem onTable_attackSoak (h : s.onTable t) (kind : CauseKind) : t.attackSoak kind = s.attackSoak kind := by
  rw [State.attackSoak, onTable_par h]
  rfl

theorem onTable_subjectUnderMaint (h : s.onTable t) (i : Incident) : t.subjectUnderMaint i = s.subjectUnderMaint i := by
  have hnode (n : Fin 128) : t.nodeUnderMaint n = s.nodeUnderMaint n := by
    rw [State.nodeUnderMaint, onTable_inputs h, onTable_nodes h]
    rfl
  unfold State.subjectUnderMaint
  rw [onTable_inputs h]
  cases i.subject with
  | node n => exact hnode n
  | terminal m => simp only [hnode, onTable_parentIn h]
  | nothing => rfl

theorem onTable_reflagged (h : s.onTable t) (i : Incident) : t.reflagged i = s.reflagged i := by
  rw [State.reflagged, onTable_subjectUnderMaint h, onTable_storm h]
  rfl

theorem onTable_permitted (h : s.onTable t) (i : Incident) : t.permitted i = s.permitted i := by
  rw [State.permitted, onTable_par h]
  rfl

theorem onTable_evaluated (h : s.onTable t) (old : Option Incident) (i : Incident) : t.evaluated old i = s.evaluated old i := by
  by_cases hc : i.close = none
  · rw [evaluated_open hc, evaluated_open hc, onTable_reflagged h, onTable_permitted h]
  · rw [evaluated_close hc, evaluated_close hc]

/-- The absorption test reads kinds and subjects, and the places in the trees (R125). -/
theorem onTable_absorbs (h : s.onTable t) {i' other' : Incident} (hkind : i'.kind = i.kind) (hsubj : i'.subject = i.subject)
    (hkind' : other'.kind = other.kind) (hsubj' : other'.subject = other.subject) (hc : other'.close = none)
    (ha : t.absorbs k i j other) : s.absorbs k i' j other' := by
  obtain ⟨hjk, -, hrest⟩ := ha
  refine ⟨hjk, hc, ?_⟩
  rw [hkind, hsubj, hkind', hsubj']
  simpa only [onTable_nodes h, onTable_parentIn h] using hrest

/-! ## Stage 2: matching -/

/-- What stage 2 makes of the incident of a slot (R119). -/
def State.matchedTo (s : State) (live : List Cause) (k : Fin 32) (i : Incident) : Option Incident :=
  if k = 0 ∨ i.close.isSome = true then some i
  else match live.find? (·.fits i) with
    | some c => some (i.present c)
    | none =>
      match i.phase with
      | .waiting => none
      | .opened => some { i with phase := .clearing, soak := some (s.msStart (s.releaseSoak i.kind)) }
      | .clearing => some i

theorem onTable_matchedTo (h : s.onTable t) (live : List Cause) (k : Fin 32) (i : Incident) :
    t.matchedTo live k i = s.matchedTo live k i := by
  unfold State.matchedTo
  rw [onTable_releaseSoak h, onTable_msStart h]

theorem matchSlot_slot (live : List Cause) (s : State) (k j : Fin 32) :
    (matchSlot live s k).slot j = if k = j then (s.slot k).bind (s.matchedTo live k) else s.slot j := by
  unfold matchSlot State.matchedTo
  cases hs : s.slot k with
  | none =>
    dsimp only
    split
    · next hj => rw [← hj, hs]; rfl
    · rfl
  | some i =>
    simp only [Option.bind_some, msWindow_eq]
    have hsame : s.slot j = if k = j then some i else s.slot j := by
      split
      · next hj => rw [← hj, hs]
      · rfl
    by_cases hkept : k = 0 ∨ i.close.isSome = true
    · rw [if_pos hkept, if_pos hkept]
      exact hsame
    · rw [if_neg hkept, if_neg hkept]
      cases live.find? (·.fits i) with
      | some c => exact putSlot_slot s k j _
      | none =>
        cases i.phase with
        | waiting => exact freeSlot_slot s k j
        | opened => exact putSlot_slot s k j _
        | clearing => exact hsame

/-- Stage 2 makes of each slot of the list what it makes of that slot alone. -/
theorem foldl_matchSlot_slot {l : List (Fin 32)} (hl : l.Nodup) (h : s.onTable t) (j : Fin 32) :
    (l.foldl (matchSlot live) t).slot j = if j ∈ l then (t.slot j).bind (s.matchedTo live j) else t.slot j := by
  induction l generalizing t with
  | nil => simp
  | cons k l ih =>
    obtain ⟨hk, hl⟩ := List.nodup_cons.mp hl
    have hto : t.matchedTo live k = s.matchedTo live k := funext (onTable_matchedTo h live k)
    rw [List.foldl_cons, ih hl (onTable_matchSlot h live k), matchSlot_slot, hto]
    by_cases hj : k = j
    · subst hj
      simp [hk]
    · simp [hj, Ne.symm hj]

/-- The state after stage 2 (R119). -/
def State.afterStage2 (s : State) (live : List Cause) : State := (indices 32).foldl (matchSlot live) s

theorem afterStage2_onTable (s : State) (live : List Cause) : s.onTable (s.afterStage2 live) := by
  rw [State.afterStage2]
  generalize indices 32 = l
  suffices ∀ t : State, s.onTable t → s.onTable (l.foldl (matchSlot live) t) from this s (onTable_refl s)
  induction l with
  | nil => exact fun _ h => h
  | cons k l ih => exact fun t h => ih _ (onTable_matchSlot h live k)

theorem afterStage2_slot (s : State) (live : List Cause) (k : Fin 32) :
    (s.afterStage2 live).slot k = (s.slot k).bind (s.matchedTo live k) := by
  rw [State.afterStage2, foldl_matchSlot_slot indices_nodup (onTable_refl s), if_pos (mem_indices k)]

theorem matchAll_eq (live : List Cause) (s : State) : matchAll live s =
    ((s.afterStage2 live).order.filter (recurredAt s (s.afterStage2 live))).foldl absorbRecurred (s.afterStage2 live) := rfl

theorem afterStage2_follows (s : State) (live : List Cause) : s.follows (fun _ => True) (s.afterStage2 live) := by
  rw [State.afterStage2]
  generalize indices 32 = l
  exact foldl_follows (matchSlot_follows live) (fun s k => (congrArg State.time (matchSlot_frame s live s k) :)) l
    ⟨trivial, fun _ _ => trivial⟩

/-! ### The cases of stage 2 -/

/-- The causes that the matching keeps at its start (R121). -/
def State.keptCauses (s : State) (causes : List Cause) : List Cause := causes.filter (fun c => !s.causeCovered c)

theorem causePresent_eq (s : State) (causes : List Cause) (i : Incident) :
    s.causePresent causes i = ((s.keptCauses causes).find? (·.fits i)).isSome := by
  rw [Bool.eq_iff_iff]
  simp [State.causePresent, State.keptCauses]

theorem matchedTo_kept (h : k = 0 ∨ i.close ≠ none) : s.matchedTo live k i = some i := by
  rw [State.matchedTo, if_pos (h.imp_right Option.isSome_iff_ne_none.mpr)]

theorem matchedTo_present (hk : k ≠ 0) (hc : i.close = none) (h : s.causePresent causes i = true) :
    ∃ c ∈ s.keptCauses causes, c.fits i = true ∧ s.matchedTo (s.keptCauses causes) k i = some (i.present c) := by
  rw [causePresent_eq, Option.isSome_iff_exists] at h
  obtain ⟨c, hfind⟩ := h
  have hfits : c.fits i = true := by simpa using List.find?_some hfind
  refine ⟨c, List.mem_of_find?_eq_some hfind, hfits, ?_⟩
  rw [State.matchedTo, if_neg (by simp [hk, hc]), hfind]

theorem matchedTo_absent (hk : k ≠ 0) (hc : i.close = none) (h : s.causePresent causes i = false) :
    s.matchedTo (s.keptCauses causes) k i = match i.phase with
      | .waiting => none
      | .opened => some { i with phase := .clearing, soak := some (s.msStart (s.releaseSoak i.kind)) }
      | .clearing => some i := by
  rw [causePresent_eq, Option.isSome_eq_false_iff, Option.isNone_iff_eq_none] at h
  rw [State.matchedTo, if_neg (by simp [hk, hc]), h]

/-- An incident that is OPEN after stage 2 and was CLEARING before has its cause present (R119). -/
theorem recurs_of_recurredAt (h : recurredAt s (s.afterStage2 (s.keptCauses causes)) k = true) : s.recurs causes k := by
  unfold recurredAt at h
  split at h
  · next old new hold hnew =>
    obtain ⟨hphase, hphase', -⟩ := of_decide_eq_true h
    have hto : s.matchedTo (s.keptCauses causes) k old = some new := by
      rwa [afterStage2_slot, hold] at hnew
    have hk : ¬ (k = 0 ∨ old.close ≠ none) := fun hkept => by
      rw [matchedTo_kept hkept, Option.some.injEq] at hto
      rw [hto, hphase'] at hphase
      cases hphase
    obtain ⟨hk0, hc⟩ := not_or.mp hk
    refine ⟨old, hk0, hold, hphase, not_not.mp hc, ?_⟩
    by_contra habs
    rw [matchedTo_absent hk0 (not_not.mp hc) (Bool.eq_false_iff.mpr habs), hphase] at hto
    obtain rfl := Option.some.inj hto
    rw [hphase'] at hphase
    cases hphase
  · cases h

/-! ## Stage 3: absorptions -/

/-- Through the absorptions of a matching that began with `s`, slot `k` holds `o` in `t`. -/
structure State.SlotStays (s : State) (k : Fin 32) (o : Option Incident) (t : State) : Prop where
  onTable : s.onTable t
  follows : s.follows (fun _ => True) t
  slot : t.slot k = o

theorem absorbSlot_stays {o : Option Incident} (hs : s.slot k = some other) (hc : other.close = none)
    (hno : ¬ s.absorbs j i k other) (h : s.SlotStays k o t) (m : Fin 32) : s.SlotStays k o (absorbSlot j i t m) := by
  refine ⟨onTable_absorbSlot h.onTable j i m,
    follows_trans h.follows (absorbSlot_follows j i t m ⟨trivial, fun _ _ => trivial⟩), ?_⟩
  rcases absorbSlot_cases j i t m with he | ⟨x, hx, habs, he⟩
  · rw [he, h.slot]
  · have hm : m ≠ k := by
      rintro rfl
      obtain ⟨y, hy, hgo⟩ := h.follows m x hx
      obtain rfl := Option.some.inj (hs.symm.trans hy)
      exact hno (onTable_absorbs h.onTable rfl rfl hgo.kind.symm hgo.subject.symm hc habs)
    rw [he]
    rcases closeIncident_cases m .absorbed i.number x t with ⟨-, hclose⟩ | ⟨-, hclose⟩
    · rw [hclose, putSlot_slot, if_neg hm, h.slot]
    · rw [hclose, freeSlot_slot, if_neg hm, h.slot]

theorem absorbRecurred_stays {o : Option Incident} (hs : s.slot k = some other) (hc : other.close = none)
    (hno : ∀ i, s.slot j = some i → ¬ s.absorbs j i k other) (h : s.SlotStays k o t) :
    s.SlotStays k o (absorbRecurred t j) := by
  unfold absorbRecurred
  split
  · exact h
  · next i hi =>
    obtain ⟨y, hy, hgo⟩ := h.follows j i hi
    have hno' : ¬ s.absorbs j i k other := fun ha =>
      hno y hy (onTable_absorbs (onTable_refl s) hgo.kind.symm hgo.subject.symm rfl rfl hc ha)
    split
    · exact List.foldlRecOn (motive := s.SlotStays k o) _ _ h fun t ht m _ => absorbSlot_stays hs hc hno' ht m
    · exact h

/-- An incident that no recurring one absorbs is after stage 3 what stage 2 made of it (R119, R125). -/
theorem matchAll_slot (hs : s.slot k = some other) (hc : other.close = none)
    (hno : ∀ j i, s.slot j = some i → s.recurs causes j → ¬ s.absorbs j i k other) :
    (matchAll (s.keptCauses causes) s).slot k = s.matchedTo (s.keptCauses causes) k other := by
  have hslot : (s.afterStage2 (s.keptCauses causes)).slot k = s.matchedTo (s.keptCauses causes) k other := by
    rw [afterStage2_slot, hs, Option.bind_some]
  rw [matchAll_eq]
  refine State.SlotStays.slot (s := s) (List.foldlRecOn (motive := s.SlotStays k _) _ _
    ⟨afterStage2_onTable s _, afterStage2_follows s _, hslot⟩ fun t ht j hj => ?_)
  have hrec := recurs_of_recurredAt (List.mem_filter.mp hj).2
  exact absorbRecurred_stays hs hc (fun i hi => hno j i hi hrec) ht

/-- With nothing that recurs, stage 3 does nothing (R125). -/
theorem matchAll_of_none (h : ∀ k, ¬ s.recurs causes k) :
    matchAll (s.keptCauses causes) s = s.afterStage2 (s.keptCauses causes) := by
  rw [matchAll_eq, List.filter_eq_nil_iff.mpr fun k _ hk => h k (recurs_of_recurredAt hk), List.foldl_nil]

/-! ## The stages of a matching -/

/-- The causes that stage 4 places (R121, R122). -/
def State.toPlace (s : State) (causes : List Cause) : List Cause :=
  (s.keptCauses causes).filter (fun c => !s.matched c && !(matchAll (s.keptCauses causes) s).causeCovered c)

/-- Stage 4: the table with the new causes placed, and the causes unplaced (R122). -/
def State.afterStage4 (s : State) (causes : List Cause) : State × List Cause :=
  placeCauses (s.toPlace causes) (matchAll (s.keptCauses causes) s)

/-- Stage 5: the residue recounted (R123). -/
def State.afterStage5 (s : State) (causes : List Cause) : State :=
  residueRecount (unplacedCounts (s.afterStage4 causes).2) (s.afterStage4 causes).1

theorem matchingEvent_eq (causes : List Cause) (s : State) : matchingEvent causes s =
    { evaluateAll s (rewriteCovering (s.afterStage5 causes)) with pass := none } := rfl

theorem afterStage5_onTable (s : State) (causes : List Cause) : s.onTable (s.afterStage5 causes) :=
  onTable_residueRecount (onTable_placeCauses (onTable_matchAll (onTable_refl s) _) _) _

/-- The last stage evaluates what the fifth leaves in each slot (R108). -/
theorem matchingEvent_slot (causes : List Cause) (s : State) (k : Fin 32) :
    (matchingEvent causes s).slot k = ((s.afterStage5 causes).slot k).map (s.evaluated (s.slot k)) := by
  have heval : (rewriteCovering (s.afterStage5 causes)).evaluated (s.slot k) = s.evaluated (s.slot k) :=
    funext (onTable_evaluated (onTable_rewriteCovering (afterStage5_onTable s causes)) (s.slot k))
  rw [matchingEvent_eq, ← heval]
  exact evaluateAll_slot s (rewriteCovering (s.afterStage5 causes)) k

/-- The residue's recount leaves the ordinary slots (R123). -/
theorem residueRecount_slot (v : Unplaced) (hk : k ≠ 0) : (residueRecount v s).slot k = s.slot k := by
  rcases residueRecount_cases v s with h | ⟨-, -, h⟩ | ⟨i, -, -, ⟨-, h⟩ | ⟨-, h⟩⟩
  · rw [h]
  · rw [h, createIncident_slot, if_neg hk.symm]
  · rw [h]
    rcases closeIncident_cases 0 .cleared 0 { i with unplaced := v } s with ⟨-, hc⟩ | ⟨-, hc⟩
    · rw [hc, putSlot_slot, if_neg hk.symm]
    · rw [hc, freeSlot_slot, if_neg hk.symm]
  · rw [h, putSlot_slot, if_neg hk.symm]

/-! ## The event -/

/-- PASS_MATCHING with a pass in progress (R108, R161). -/
theorem exec_passMatching (h : s.pass = some causes) :
    exec .passMatching s = .next (finish s (takeNotice (matchingEvent causes s))) := by
  change execPassMatching s = _
  rw [execPassMatching, h]

/-- An event that closes with a take from `u` (R161). -/
theorem finish_takesInto (s u : State) : u.takesInto (finish s (takeNotice u)) := by
  have ha : (takeNotice u).arb = u.arb := (congrArg State.arb (takeNotice_frame u) :)
  have hw : (takeNotice u).writeMarks = u.writeMarks := (congrArg State.writeMarks (takeNotice_frame u) :)
  rw [State.takesInto, finish_watched, ← ha, ← hw]

end

end Sys2Proof.Machine
end

