-- ==== Sys2Proof/Proofs/Placing.lean ====
section
/-! SUPPORT. Stage 4 of a matching (R122, R132, R133): the placing as a fold over the free ordinary slots and the causes
that take them, and the numbers that new incidents take. -/

namespace Sys2Proof.Machine

/-! ## Numbers -/

/-- The `d`-th number from `n` on (R133). -/
def numberFrom (n d : Nat) : Nat := (n - 1 + d) % 65535 + 1

theorem numberFrom_zero {n : Nat} (h1 : 1 ≤ n) (h2 : n ≤ 65535) : numberFrom n 0 = n := by
  unfold numberFrom
  omega

theorem numberFrom_pos (n d : Nat) : 1 ≤ numberFrom n d := Nat.le_add_left 1 _

theorem numberFrom_le (n d : Nat) : numberFrom n d ≤ 65535 := by
  unfold numberFrom
  omega

theorem nextNumberAfter_eq {n : Nat} (h1 : 1 ≤ n) (h2 : n ≤ 65535) : nextNumberAfter n = numberFrom n 1 := by
  unfold nextNumberAfter numberFrom
  split <;> omega

theorem numberFrom_numberFrom (n d : Nat) : numberFrom (numberFrom n 1) d = numberFrom n (d + 1) := by
  unfold numberFrom
  omega

/-- Fewer than 65,535 numbers from one on are distinct. -/
theorem numberFrom_inj {n a b : Nat} (ha : a < 65535) (hb : b < 65535) (h : numberFrom n a = numberFrom n b) : a = b := by
  unfold numberFrom at h
  omega

section
variable {s t : State}

theorem numberHeld_iff (s : State) (n : Nat) : s.numberHeld n = true ↔ ∃ k i, s.slot k = some i ∧ i.number = n := by
  rw [State.numberHeld, slots_any_iff]
  simp only [decide_eq_true_eq]

theorem numberHeld_eq_false {n : Nat} (h : ∀ k i, s.slot k = some i → i.number ≠ n) : s.numberHeld n = false := by
  rw [Bool.eq_false_iff, ne_eq, numberHeld_iff]
  rintro ⟨k, i, hk, hn⟩
  exact h k i hk hn

/-- The search passes the numbers held, and stops at one that is not unless its steps run out (R133). -/
theorem freshNumberFrom_spec (s : State) (fuel : Nat) {n : Nat} (h1 : 1 ≤ n) (h2 : n ≤ 65535) :
    ∃ d, d ≤ fuel ∧ s.freshNumberFrom fuel n = numberFrom n d ∧
      (d < fuel → s.numberHeld (numberFrom n d) = false) ∧ ∀ e, e < d → s.numberHeld (numberFrom n e) = true := by
  induction fuel generalizing n with
  | zero => exact ⟨0, Nat.le_refl 0, (numberFrom_zero h1 h2).symm, nofun, nofun⟩
  | succ fuel ih =>
    rw [State.freshNumberFrom]
    cases hheld : s.numberHeld n with
    | false =>
      refine ⟨0, Nat.zero_le _, ?_, fun _ => ?_, nofun⟩
      · exact (numberFrom_zero h1 h2).symm
      · rwa [numberFrom_zero h1 h2]
    | true =>
      obtain ⟨d, hd, hnum, hfree, hbefore⟩ := ih (numberFrom_pos n 1) (numberFrom_le n 1)
      simp only [numberFrom_numberFrom] at hnum hfree hbefore
      refine ⟨d + 1, Nat.succ_le_succ hd, ?_, fun h => hfree (Nat.lt_of_succ_lt_succ h), fun e he => ?_⟩
      · rw [if_pos rfl, nextNumberAfter_eq h1 h2, hnum]
      · cases e with
        | zero => rwa [numberFrom_zero h1 h2]
        | succ e => exact hbefore e (Nat.lt_of_succ_lt_succ he)

/-- The 32 slots do not hold 33 numbers in a row (R133). -/
theorem exists_not_held (s : State) (n : Nat) : ∃ e, e < 33 ∧ s.numberHeld (numberFrom n e) = false := by
  by_contra hall
  simp only [not_exists, not_and, Bool.not_eq_false, numberHeld_iff] at hall
  choose slotOf i hslot hnum using fun e : Fin 33 => hall e e.isLt
  have hinj : Function.Injective slotOf := fun a b hab => by
    have hi : i a = i b := Option.some.inj ((hslot a).symm.trans (hab ▸ hslot b))
    have hn : numberFrom n a = numberFrom n b := by rw [← hnum a, ← hnum b, hi]
    exact Fin.ext (numberFrom_inj (by omega) (by omega) hn)
  simpa using Fintype.card_le_of_injective slotOf hinj

/-- The number of a new incident is the first from the counter on that no incident holds (R133). -/
theorem freshNumber_spec (h1 : 1 ≤ s.nextNumber) (h2 : s.nextNumber ≤ 65535) : ∃ d, d ≤ 32 ∧
    s.freshNumber = numberFrom s.nextNumber d ∧ s.numberHeld s.freshNumber = false ∧
    ∀ e, e < d → s.numberHeld (numberFrom s.nextNumber e) = true := by
  obtain ⟨d, hd, hnum, hfree, hbefore⟩ := freshNumberFrom_spec s 33 h1 h2
  have hlt : d < 33 := by
    obtain ⟨e, he, hnot⟩ := exists_not_held s s.nextNumber
    by_contra hge
    exact Bool.false_ne_true (hnot.symm.trans (hbefore e (by omega)))
  refine ⟨d, Nat.le_of_lt_succ hlt, hnum, ?_, hbefore⟩
  rw [State.freshNumber, hnum]
  exact hfree hlt

/-- A number at the counter that no incident holds is the next (R133). -/
theorem freshNumber_of_not_held (h : s.numberHeld s.nextNumber = false) : s.freshNumber = s.nextNumber := by
  rw [State.freshNumber, State.freshNumberFrom, h, if_neg Bool.false_ne_true]

/-! ## The free ordinary slots -/

/-- The free ordinary slots, ascending (R122). -/
def State.freeSlots (s : State) : List (Fin 32) := (indices 32).filter (fun k => k ≠ 0 && (s.slot k).isNone)

theorem mem_freeSlots {k : Fin 32} : k ∈ s.freeSlots ↔ k ≠ 0 ∧ s.slot k = none := by
  simp [State.freeSlots]

theorem freeSlots_nodup (s : State) : s.freeSlots.Nodup := indices_nodup.filter _

theorem freeSlots_length_le (s : State) : s.freeSlots.length ≤ 32 := by
  simpa using (freeSlots_nodup s).length_le_card

theorem freeOrdinary_eq (s : State) : s.freeOrdinary = s.freeSlots.head? := by
  rw [State.freeOrdinary, State.freeSlots, List.head?_filter]

theorem slot_of_freeSlots {k : Fin 32} {rest : List (Fin 32)} (h : s.freeSlots = k :: rest) : s.slot k = none :=
  (mem_freeSlots.mp (h ▸ List.mem_cons_self)).2

/-- The placing of an incident takes the lowest free slot (R122). -/
theorem freeSlots_createIncident {k : Fin 32} {rest : List (Fin 32)} (h : s.freeSlots = k :: rest) (i : Incident) :
    (createIncident k i s).freeSlots = rest := by
  have hk : k ∉ rest := (List.nodup_cons.mp (h ▸ freeSlots_nodup s)).1
  have hfilter : (createIncident k i s).freeSlots = s.freeSlots.filter (fun j => j ≠ k) := by
    rw [State.freeSlots, State.freeSlots, List.filter_filter]
    refine List.filter_congr fun j _ => ?_
    rw [createIncident_slot]
    by_cases hj : k = j
    · simp [hj]
    · simp [hj, Ne.symm hj]
  rw [hfilter, h, List.filter_cons, if_neg (by simp), List.filter_eq_self]
  intro j hj
  exact decide_eq_true fun he : j = k => hk (he ▸ hj)

theorem leaving_createIncident {k : Fin 32} {i : Incident} (hk : s.slot k = none) (hi : i.close = none) :
    (createIncident k i s).leaving = s.leaving := by
  funext c
  rw [Bool.eq_iff_iff, leaving_iff, leaving_iff]
  refine exists_congr fun j => exists_congr fun o => ?_
  rw [createIncident_slot]
  split
  · next hj =>
    subst hj
    rw [hk]
    refine iff_of_false (fun ⟨ho, hc, _⟩ => ?_) (fun ⟨ho, _⟩ => nomatch ho)
    exact hc (Option.some.inj ho ▸ hi)
  · exact Iff.rfl

/-! ## The placing, cause by cause -/

theorem placeCauses_leaving {c : Cause} (rest : List Cause) (h : s.leaving c = true) :
    placeCauses (c :: rest) s = ((placeCauses rest s).1, c :: (placeCauses rest s).2) := by
  rw [placeCauses, if_pos h]

theorem placeCauses_full {c : Cause} (rest : List Cause) (h : s.freeSlots = []) :
    placeCauses (c :: rest) s = ((placeCauses rest s).1, c :: (placeCauses rest s).2) := by
  have hnone : s.freeOrdinary = none := by rw [freeOrdinary_eq, h, List.head?_nil]
  rw [placeCauses, hnone, ite_self]

theorem placeCauses_placed {c : Cause} (rest : List Cause) {k : Fin 32} {free : List (Fin 32)}
    (hl : s.leaving c = false) (h : s.freeSlots = k :: free) :
    placeCauses (c :: rest) s = placeCauses rest (createIncident k (s.newIncident c) s) := by
  have hsome : s.freeOrdinary = some k := by rw [freeOrdinary_eq, h, List.head?_cons]
  rw [placeCauses, hl, if_neg Bool.false_ne_true, hsome]

/-- A cause takes a slot as a new incident. -/
def fillSlot (s : State) (p : Fin 32 × Cause) : State := createIncident p.1 (s.newIncident p.2) s

/-- The causes that no close-due incident keeps from being placed take the free slots in order (R122). -/
theorem placeCauses_fst (causes : List Cause) (s : State) : (placeCauses causes s).1 =
    (s.freeSlots.zip (causes.filter (fun c => !s.leaving c))).foldl fillSlot s := by
  induction causes generalizing s with
  | nil => rw [List.filter_nil, List.zip_nil_right]; rfl
  | cons c rest ih =>
    cases hl : s.leaving c with
    | true => rw [placeCauses_leaving rest hl, ih, List.filter_cons, if_neg (by simp [hl])]
    | false =>
      rw [List.filter_cons, if_pos (by simp [hl])]
      cases hfree : s.freeSlots with
      | nil => rw [placeCauses_full rest hfree, ih, hfree, List.zip_nil_left, List.zip_nil_left]
      | cons k free =>
        rw [placeCauses_placed rest hl hfree, ih, freeSlots_createIncident hfree,
          leaving_createIncident (slot_of_freeSlots hfree) rfl]
        rfl

/-- The causes without a place: those beyond the free slots, and those that a close-due incident keeps out (R122). -/
theorem placeCauses_snd (causes : List Cause) (s : State) : (placeCauses causes s).2.Perm
    ((causes.filter (fun c => !s.leaving c)).drop s.freeSlots.length ++ causes.filter s.leaving) := by
  induction causes generalizing s with
  | nil => simp [placeCauses]
  | cons c rest ih =>
    cases hl : s.leaving c with
    | true =>
      rw [placeCauses_leaving rest hl, List.filter_cons, if_neg (by simp [hl]), List.filter_cons, if_pos hl]
      exact ((ih s).cons c).trans List.perm_middle.symm
    | false =>
      rw [List.filter_cons, if_pos (by simp [hl]), List.filter_cons, if_neg (by simp [hl])]
      cases hfree : s.freeSlots with
      | nil =>
        have := ih s
        rw [hfree] at this
        rw [placeCauses_full rest hfree]
        exact this.cons c
      | cons k free =>
        have := ih (createIncident k (s.newIncident c) s)
        rw [freeSlots_createIncident hfree, leaving_createIncident (slot_of_freeSlots hfree) rfl] at this
        rw [placeCauses_placed rest hl hfree]
        exact this

/-! ## The slots filled -/

theorem foldl_fillSlot_order (pairs : List (Fin 32 × Cause)) (s : State) :
    (pairs.foldl fillSlot s).order = s.order ++ pairs.map Prod.fst := by
  induction pairs generalizing s with
  | nil => simp
  | cons p pairs ih => simp [ih, fillSlot]

theorem foldl_fillSlot_other {pairs : List (Fin 32 × Cause)} {j : Fin 32} (h : j ∉ pairs.map Prod.fst) (s : State) :
    (pairs.foldl fillSlot s).slot j = s.slot j := by
  induction pairs generalizing s with
  | nil => rfl
  | cons p pairs ih =>
    rw [List.map_cons, List.mem_cons, not_or] at h
    rw [List.foldl_cons, ih h.2, fillSlot, createIncident_slot, if_neg (Ne.symm h.1)]

/-- What the `n`-th pair places: a new incident of its cause, which takes the `n`-th number from the counter on if the
numbers up to it are free (R131, R133). -/
theorem foldl_fillSlot_slot {pairs : List (Fin 32 × Cause)} (hnd : (pairs.map Prod.fst).Nodup) {s0 : State}
    (hon : s0.onTable s) {n : Nat} {k : Fin 32} {c : Cause} (hn : pairs[n]? = some (k, c)) :
    ∃ t, s0.onTable t ∧ (pairs.foldl fillSlot s).slot k = some (t.newIncident c) ∧
      (1 ≤ s.nextNumber → s.nextNumber ≤ 65535 → n < 65535 →
        (∀ e, e ≤ n → s.numberHeld (numberFrom s.nextNumber e) = false) →
        t.freshNumber = numberFrom s.nextNumber n) := by
  induction pairs generalizing s n with
  | nil => simp at hn
  | cons p pairs ih =>
    rw [List.map_cons, List.nodup_cons] at hnd
    cases n with
    | zero =>
      rw [List.getElem?_cons_zero, Option.some.injEq] at hn
      subst hn
      refine ⟨s, hon, ?_, fun h1 h2 _ hfree => ?_⟩
      · rw [List.foldl_cons, foldl_fillSlot_other hnd.1, fillSlot, createIncident_slot, if_pos rfl]
      · have h0 := hfree 0 (Nat.le_refl 0)
        rw [numberFrom_zero h1 h2] at h0 ⊢
        exact freshNumber_of_not_held h0
    | succ n =>
      obtain ⟨t, ht, hslot, hnum⟩ := ih hnd.2 (onTable_createIncident hon p.1 (s.newIncident p.2)) hn
      refine ⟨t, ht, hslot, fun h1 h2 hlt hfree => ?_⟩
      have hfresh : s.freshNumber = s.nextNumber := by
        have h0 := hfree 0 (Nat.zero_le _)
        rw [numberFrom_zero h1 h2] at h0
        exact freshNumber_of_not_held h0
      have hnext : (fillSlot s p).nextNumber = numberFrom s.nextNumber 1 := by
        rw [← nextNumberAfter_eq h1 h2, ← hfresh]
        rfl
      rw [← numberFrom_numberFrom, ← hnext]
      refine hnum (hnext ▸ numberFrom_pos _ _) (hnext ▸ numberFrom_le _ _) (by omega) fun e he => ?_
      refine numberHeld_eq_false fun j i hj => ?_
      rw [createIncident_slot] at hj
      show i.number ≠ numberFrom (fillSlot s p).nextNumber e
      rw [hnext, numberFrom_numberFrom]
      split at hj
      · obtain rfl := Option.some.inj hj
        show s.freshNumber ≠ _
        rw [hfresh]
        intro heq
        have := numberFrom_inj (n := s.nextNumber) (a := 0) (b := e + 1) (by omega) (by omega)
          ((numberFrom_zero h1 h2).trans heq)
        omega
      · intro heq
        have := hfree (e + 1) (by omega)
        rw [Bool.eq_false_iff, ne_eq, numberHeld_iff] at this
        exact this ⟨j, i, hj, heq⟩

theorem map_fst_zip_take {α β : Type} (l : List α) (l' : List β) : (l.zip l').map Prod.fst = l.take l'.length := by
  induction l generalizing l' with
  | nil => simp
  | cons a l ih => cases l' <;> simp [ih]

/-- What stage 4 leaves in a slot: what was there, or in a free ordinary slot a new incident of one of the causes
(R122). -/
theorem placeCauses_slot_cases {s0 : State} (hon : s0.onTable s) (causes : List Cause) (k : Fin 32) :
    (placeCauses causes s).1.slot k = s.slot k ∨
    s.slot k = none ∧ ∃ c ∈ causes, ∃ t, s0.onTable t ∧ (placeCauses causes s).1.slot k = some (t.newIncident c) := by
  rw [placeCauses_fst]
  set pairs := s.freeSlots.zip (causes.filter (fun c => !s.leaving c)) with hpairs
  have hkeys : pairs.map Prod.fst = s.freeSlots.take (causes.filter (fun c => !s.leaving c)).length :=
    map_fst_zip_take _ _
  by_cases hk : k ∈ pairs.map Prod.fst
  · right
    obtain ⟨⟨j, c⟩, hp, rfl⟩ := List.mem_map.mp hk
    obtain ⟨n, hn⟩ := List.getElem?_of_mem hp
    obtain ⟨hj, hc⟩ := List.of_mem_zip hp
    obtain ⟨t, ht, hslot, -⟩ := foldl_fillSlot_slot (hkeys ▸ (freeSlots_nodup s).sublist (List.take_sublist _ _)) hon hn
    exact ⟨(mem_freeSlots.mp hj).2, c, List.mem_of_mem_filter hc, t, ht, hslot⟩
  · exact .inl (foldl_fillSlot_other hk s)

end

end Sys2Proof.Machine
end

