-- ==== Sys2Proof/Proofs/MatchingFollows.lean ====
section
/-! PROOF. What a matching does to an ordinary incident (R119, R138, R140, R148, R150, R152): O36. -/

namespace Sys2Proof.Machine

section
variable {s u : State} {causes : List Cause} {i x : Incident} {k : Fin 32}

/-! ## Stage 2 of an incident that stays -/

/-- The matching makes `x` of an incident that stays, its cause present or absent by `here` (R119, R138, R140). -/
structure Incident.MatchedInto (s : State) (causes : List Cause) (i : Incident) (here : Bool) (x : Incident) : Prop where
  phase : x.phase = if here then (if i.phase = .waiting then .waiting else .opened) else .clearing
  soak : x.soak = if here then (if i.phase = .clearing then none else i.soak)
    else if i.phase = .opened then some (s.msStart (s.releaseSoak i.kind)) else i.soak
  counts : here = true → ∀ c ∈ causes, s.causeCovered c = false → c.kind = i.kind → c.subject = i.subject →
    x.afflicted = c.afflicted ∧ x.monitored = c.monitored ∧ x.exceptions = c.exceptions ∧ x.truncated = c.truncated
  countsKept : here = false → x.afflicted = i.afflicted ∧ x.monitored = i.monitored ∧ x.exceptions = i.exceptions ∧
    x.truncated = i.truncated
  recurred : x.recurred = (i.recurred || (here && decide (i.phase = .clearing) && i.announced))
  rest : { x with phase := i.phase, soak := i.soak, afflicted := i.afflicted, monitored := i.monitored,
                  exceptions := i.exceptions, truncated := i.truncated, recurred := i.recurred } = i

/-- No two causes of a pass have one kind and subject (R118). -/
theorem cause_unique (hnd : (causes.map (fun c => (c.kind, c.subject))).Nodup) {c c' : Cause} (hc : c ∈ causes)
    (hc' : c' ∈ causes) (hkind : c.kind = c'.kind) (hsubj : c.subject = c'.subject) : c = c' :=
  List.inj_on_of_nodup_map hnd hc hc' (Prod.ext hkind hsubj)

/-- An incident whose cause is present, field by field (R119, R140). -/
theorem present_eq (i : Incident) (c : Cause) : i.present c = { i with
    phase := if i.phase = .waiting then .waiting else .opened
    soak := if i.phase = .clearing then none else i.soak
    afflicted := c.afflicted, monitored := c.monitored, exceptions := c.exceptions, truncated := c.truncated
    recurred := i.recurred || (decide (i.phase = .clearing) && i.announced) } := by
  rcases i with ⟨_, _, _, _ | _ | _⟩
  · simp [Incident.present, Incident.refreshed]
  · simp [Incident.present, Incident.refreshed]
  · simp [Incident.present, Incident.refreshed, Bool.or_comm]

theorem present_matchedInto (hnd : (causes.map (fun c => (c.kind, c.subject))).Nodup) {c : Cause} (hc : c ∈ causes)
    (hfits : c.fits i = true) : i.MatchedInto s causes true (i.present c) := by
  obtain ⟨hkind, hsubj⟩ := (fits_iff c i).mp hfits
  have hunique : ∀ c' ∈ causes, c'.kind = i.kind → c'.subject = i.subject → c' = c := fun c' hc' hk hs =>
    cause_unique hnd hc' hc (hk.trans hkind) (hs.trans hsubj)
  rw [present_eq]
  exact ⟨rfl, rfl, fun _ c' hc' _ hk hs => by rw [hunique c' hc' hk hs]; exact ⟨rfl, rfl, rfl, rfl⟩, nofun,
    by rw [Bool.true_and], rfl⟩

/-- An ordinary incident stays through stage 2 unless it is PENDING and its cause absent (R119). -/
theorem matchedTo_stays (hnd : (causes.map (fun c => (c.kind, c.subject))).Nodup) (hk : k ≠ 0) (hc : i.close = none)
    {here : Bool} (hhere : s.causePresent causes i = here) (h : i.phase ≠ .waiting ∨ here = true) :
    ∃ x, s.matchedTo (s.keptCauses causes) k i = some x ∧ i.MatchedInto s causes here x := by
  cases here with
  | true =>
    obtain ⟨c, hmem, hfits, hto⟩ := matchedTo_present hk hc hhere
    exact ⟨_, hto, present_matchedInto hnd (List.mem_of_mem_filter hmem) hfits⟩
  | false =>
    have hphase : i.phase ≠ .waiting := h.resolve_right Bool.false_ne_true
    rw [matchedTo_absent hk hc hhere]
    cases hp : i.phase with
    | waiting => exact absurd hp hphase
    | opened => exact ⟨_, rfl, rfl, by simp [hp], nofun, fun _ => ⟨rfl, rfl, rfl, rfl⟩, by simp, rfl⟩
    | clearing => exact ⟨_, rfl, hp, by simp [hp], nofun, fun _ => ⟨rfl, rfl, rfl, rfl⟩, by simp, rfl⟩

/-! ## The stages after it -/

/-- The later stages evaluate an ordinary incident that stays through stage 3 (R108). -/
theorem matchingEvent_slot_some (hk : k ≠ 0) (h : (matchAll (s.keptCauses causes) s).slot k = some x) :
    (matchingEvent causes s).slot k = some (s.evaluated (s.slot k) x) := by
  have hplaced : (s.afterStage4 causes).1.slot k = some x := by
    rcases placeCauses_slot_cases (onTable_matchAll (onTable_refl s) _) (s.toPlace causes) k with he | ⟨hnone, -⟩
    · exact he.trans h
    · exact absurd (h.symm.trans hnone) (Option.some_ne_none x)
  rw [matchingEvent_slot, State.afterStage5, residueRecount_slot _ hk, hplaced, Option.map_some]

theorem mem_newCauses_of_toPlace {c : Cause} (h : c ∈ s.toPlace causes) : c ∈ s.newCauses causes := by
  simp only [State.toPlace, State.keptCauses, List.mem_filter, Bool.and_eq_true] at h
  simp only [State.newCauses, List.mem_filter, Bool.and_eq_true]
  exact ⟨h.1.1, h.1.2, h.2.1⟩

/-- An ordinary slot free after stage 3 stays free or takes a new incident (R122). -/
theorem matchingEvent_slot_none (hk : k ≠ 0) (h : (matchAll (s.keptCauses causes) s).slot k = none) :
    s.freedOrTaken (matchingEvent causes s) causes k := by
  rw [State.freedOrTaken, matchingEvent_slot, State.afterStage5, residueRecount_slot _ hk]
  rcases placeCauses_slot_cases (onTable_matchAll (onTable_refl s) _) (s.toPlace causes) k with
    he | ⟨-, c, hc, t, ht, hslot⟩
  · exact .inl (by rw [State.afterStage4, he, h, Option.map_none])
  · refine .inr ⟨c, mem_newCauses_of_toPlace hc, _, by rw [State.afterStage4, hslot, Option.map_some], ?_⟩
    rw [evaluated_open (show (t.newIncident c).close = none from rfl)]
    exact ⟨(fits_iff c _).mpr ⟨rfl, rfl⟩, rfl, congrArg Timebase.clock (onTable_time ht)⟩

theorem updateReasons_iff (old new : Incident) : updateReasons old new = true ↔
    new.afflicted ≠ old.afflicted ∨ new.monitored ≠ old.monitored ∨ new.exceptions ≠ old.exceptions ∨
      new.truncated ≠ old.truncated ∨ new.maint ≠ old.maint ∨ new.storm ≠ old.storm ∨ new.unplaced ≠ old.unplaced ∨
      (old.phase = .clearing ∧ new.phase = .opened) := by
  simp only [updateReasons, Bool.or_eq_true, bne_iff_ne, Bool.and_eq_true, decide_eq_true_eq, or_assoc, ne_comm]

theorem releaseSoak_eq (s : State) (kind : CauseKind) : s.releaseSoak kind = match kind.family with
    | some .dark => duration s.par.releaseDark | some .power => duration s.par.releasePower
    | some .dim => duration s.par.releaseDim | none => 0 := by
  rw [State.releaseSoak]
  rcases kind.family with _ | _ | _ | _
  · rfl
  · rfl
  · rfl
  · rfl

theorem subjectUnderMaint_congr (hkind : x.kind = i.kind) (hsubj : x.subject = i.subject) :
    s.subjectUnderMaint x = s.subjectUnderMaint i := by
  rw [State.subjectUnderMaint, State.subjectUnderMaint, hkind, hsubj]

end

/-- Settles O36: stage 2 by the incident's phase and its cause, then the evaluation, which the stages between leave alone. -/
theorem matchingFollowsTheCauses : Obligations.MatchingFollowsTheCauses := by
  intro s causes k i here hpass hlaw _ hk hs hc hhere hno
  obtain ⟨-, -, hcauses⟩ := hlaw
  have hnd := (hcauses causes hpass).2
  have hslot := matchAll_slot hs hc fun j other hj hrec => hno j other hj hrec
  refine ⟨matchingEvent causes s, _, exec_passMatching hpass, finish_takesInto s _, fun hp habs => ?freed, fun h => ?stays⟩
  case freed =>
    refine matchingEvent_slot_none hk ?_
    rw [hslot, matchedTo_absent hk hc (hhere ▸ habs), hp]
  case stays =>
    obtain ⟨x, hto, hx⟩ := matchedTo_stays hnd hk hc hhere.symm h
    have hu := matchingEvent_slot_some hk (hslot.trans hto)
    have hxc : x.close = none := (congrArg Incident.close hx.rest).trans hc
    have hann : x.announced = i.announced := (congrArg Incident.announced hx.rest :)
    have hdue : x.openDue = i.openDue := (congrArg Incident.openDue hx.rest :)
    have hupd : x.updateDue = i.updateDue := (congrArg Incident.updateDue hx.rest :)
    have hheld : x.withheld = i.withheld := (congrArg Incident.withheld hx.rest :)
    have hunp : x.unplaced = i.unplaced := (congrArg Incident.unplaced hx.rest :)
    rw [hs, evaluated_open hxc] at hu
    refine ⟨_, hu, hx.phase, ?soak, hx.counts, hx.countsKept, hx.recurred, ?maint, rfl, ?update, ?tested, ?untested, ?rest⟩
    case soak => exact hx.soak.trans (congrArg (fun d => if here then (if i.phase = .clearing then none else i.soak)
      else if i.phase = .opened then some (s.msStart d) else i.soak) (releaseSoak_eq s i.kind))
    case maint => exact subjectUnderMaint_congr (congrArg Incident.kind hx.rest :) (congrArg Incident.subject hx.rest :)
    case update =>
      have hreasons := updateReasons_iff i (s.reflagged x)
      rw [show (s.reflagged x).unplaced = i.unplaced from hunp] at hreasons
      simp only [ne_eq, not_true, false_or] at hreasons
      rw [Bool.or_eq_true, hupd, Incident.updates, Bool.and_eq_true, Bool.or_eq_true, Option.map_some, Option.getD_some,
        hreasons, ← hann, ← hdue]
      exact Iff.rfl
    case tested =>
      intro hp ha hd
      have ht : x.testable = true := (testable_iff x).mpr ⟨hp, hann.trans ha, hdue.trans hd⟩
      simp only [ht, if_true]
      exact ⟨rfl, rfl⟩
    case untested =>
      intro hnot
      have ht : x.testable = false := by
        rw [Bool.eq_false_iff, ne_eq, testable_iff, hann, hdue]
        rintro ⟨hp, ha, hd⟩
        rcases hnot with h' | h' | h'
        · exact h' hp
        · exact Bool.false_ne_true (ha.symm.trans h')
        · exact Bool.false_ne_true (hd.symm.trans h')
      simp only [ht, if_false, Bool.false_eq_true]
      exact ⟨hdue, hheld⟩
    case rest =>
      have hflags := congrArg (fun y : Incident => { y with
        maint := i.maint, storm := i.storm, updateDue := i.updateDue, openDue := i.openDue, withheld := i.withheld }) hx.rest
      exact hflags

end Sys2Proof.Machine
end

