-- ==== Sys2Proof/Proofs/MatchingPlaces.lean ====
section
/-! PROOF. The new causes that a matching places (R118, R122, R131 to R133, R135): O38. -/

namespace Sys2Proof.Machine

section
variable {s t u : State} {causes live : List Cause} {i x : Incident} {k : Fin 32}

/-! ## What stage 2 leaves for the placing -/

/-- An incident that stays through stage 2 keeps number, kind, subject, close, and whether it covers (R114, R119). -/
theorem matchedTo_keeps (h : s.matchedTo live k i = some x) : x.number = i.number ∧ x.kind = i.kind ∧
    x.subject = i.subject ∧ x.close = i.close ∧ x.covering = i.covering := by
  unfold State.matchedTo at h
  split at h
  · obtain rfl := Option.some.inj h
    exact ⟨rfl, rfl, rfl, rfl, rfl⟩
  · cases hfind : live.find? (·.fits i) with
    | some c =>
      rw [hfind] at h
      obtain rfl := Option.some.inj h
      rw [present_eq]
      refine ⟨rfl, rfl, rfl, rfl, ?_⟩
      cases hp : i.phase <;> simp [Incident.covering, hp]
    | none =>
      rw [hfind] at h
      cases hp : i.phase with
      | waiting =>
        rw [hp] at h
        cases h
      | opened =>
        rw [hp] at h
        obtain rfl := Option.some.inj h
        exact ⟨rfl, rfl, rfl, rfl, by simp [Incident.covering, hp]⟩
      | clearing =>
        rw [hp] at h
        obtain rfl := Option.some.inj h
        exact ⟨rfl, rfl, rfl, rfl, rfl⟩

/-- Stage 2 frees the PENDING incidents whose cause is absent (R119). -/
theorem matchedTo_eq_none_iff : s.matchedTo (s.keptCauses causes) k i = none ↔
    k ≠ 0 ∧ i.phase = .waiting ∧ i.close = none ∧ s.causePresent causes i = false := by
  by_cases hkept : k = 0 ∨ i.close ≠ none
  · rw [matchedTo_kept hkept]
    refine iff_of_false (Option.some_ne_none i) fun ⟨hk, _, hc, _⟩ => ?_
    exact hkept.elim hk (fun h => h hc)
  · obtain ⟨hk, hc⟩ := not_or.mp hkept
    rw [not_not] at hc
    cases hhere : s.causePresent causes i with
    | true =>
      obtain ⟨c, -, -, hto⟩ := matchedTo_present hk hc hhere
      rw [hto]
      exact iff_of_false (Option.some_ne_none _) fun ⟨_, _, _, h⟩ => Bool.false_ne_true h.symm
    | false =>
      rw [matchedTo_absent hk hc hhere]
      cases hp : i.phase <;> simp [hk, hc]

/-- A test of the table reads the same after stage 2, if no incident that stage 2 frees meets it. -/
theorem exists_afterStage2 {P : Incident → Prop} (hP : ∀ i x : Incident, x.kind = i.kind → x.subject = i.subject →
      x.close = i.close → x.covering = i.covering → (P x ↔ P i))
    (hwait : ∀ i, P i → i.phase = .waiting → i.close ≠ none) :
    (∃ x, (s.afterStage2 (s.keptCauses causes)).slot k = some x ∧ P x) ↔ ∃ i, s.slot k = some i ∧ P i := by
  rw [afterStage2_slot]
  constructor
  · rintro ⟨x, hx, hPx⟩
    obtain ⟨i, hi, hto⟩ := Option.bind_eq_some_iff.mp hx
    obtain ⟨-, hkind, hsubj, hclose, hcov⟩ := matchedTo_keeps hto
    exact ⟨i, hi, (hP i x hkind hsubj hclose hcov).mp hPx⟩
  · rintro ⟨i, hi, hPi⟩
    rw [hi, Option.bind_some]
    cases hto : s.matchedTo (s.keptCauses causes) k i with
    | none =>
      obtain ⟨-, hp, hc, -⟩ := matchedTo_eq_none_iff.mp hto
      exact absurd hc (hwait i hPi hp)
    | some x =>
      obtain ⟨-, hkind, hsubj, hclose, hcov⟩ := matchedTo_keeps hto
      exact ⟨x, rfl, (hP i x hkind hsubj hclose hcov).mpr hPi⟩

theorem afterStage2_leaving : (s.afterStage2 (s.keptCauses causes)).leaving = s.leaving := by
  funext c
  rw [Bool.eq_iff_iff, leaving_iff, leaving_iff]
  refine exists_congr fun k => exists_afterStage2 (fun i x hkind hsubj hclose _ => ?_) fun i h _ => h.1
  rw [hkind, hsubj, hclose]

theorem covering_not_waiting (h : i.covering = true) : i.phase ≠ .waiting := by
  rcases of_decide_eq_true h with hp | hp
  · exact hp ▸ nofun
  · exact hp ▸ nofun

/-- The covering test of a terminal does not read its covering field (R114). -/
theorem coversTerminal_covering (i : Incident) (nodes : Vector Node 128) {e e' : Entry} {o : Option (Fin 32)}
    (h : e' = { e with covering := o }) : i.coversTerminal nodes e' = i.coversTerminal nodes e := by
  subst h
  rfl

/-- Stage 2 leaves every cause covered or not as it was (R114, R121). -/
theorem afterStage2_causeCovered (c : Cause) :
    (s.afterStage2 (s.keptCauses causes)).causeCovered c = s.causeCovered c := by
  have hon := afterStage2_onTable s (s.keptCauses causes)
  rw [Bool.eq_iff_iff, causeCovered_iff, causeCovered_iff]
  refine exists_congr fun f => exists_congr fun k => ?_
  have hentry (m : Fin 512) (i : Incident) :=
    coversTerminal_covering i s.nodes (hon.2 m).1
  simp only [onTable_nodes hon, onTable_afflicted hon, hentry, and_left_comm (a := c.kind.family = some f)]
  refine exists_afterStage2 (fun i x hkind hsubj _ hcov => ?_) fun i h hw => absurd hw (covering_not_waiting ?_)
  · simp only [Incident.coversNode, Incident.coversTerminal, Incident.aboveNode, Incident.aboveTerminal, hkind, hsubj, hcov]
  · obtain ⟨-, ⟨n, -, hn⟩ | ⟨m, -, -, hm⟩⟩ := h
    · simp only [Incident.coversNode, Bool.and_eq_true] at hn
      exact hn.1.1
    · simp only [Incident.coversTerminal, Bool.and_eq_true] at hm
      exact hm.1.1

theorem afterStage2_nextNumber (s : State) (live : List Cause) : (s.afterStage2 live).nextNumber = s.nextNumber := by
  have hstep (t : State) (k : Fin 32) : (matchSlot live t k).nextNumber = t.nextNumber :=
    (congrArg State.nextNumber (matchSlot_frame t live t k) :)
  rw [State.afterStage2]
  generalize indices 32 = l
  exact foldl_keeps hstep l s

theorem afterStage2_slot_zero : (s.afterStage2 (s.keptCauses causes)).slot 0 = s.slot 0 := by
  rw [afterStage2_slot]
  cases s.slot 0 with
  | none => rfl
  | some i => exact matchedTo_kept (.inl rfl)

/-- The slots free at the placing are those free after stage 2 (R122). -/
theorem afterStage2_freeSlots : (s.afterStage2 (s.keptCauses causes)).freeSlots = s.freeAtPlacing causes := by
  refine List.filter_congr fun k _ => ?_
  rw [afterStage2_slot]
  cases hs : s.slot k with
  | none => rfl
  | some i =>
    rw [Option.bind_some, Bool.eq_iff_iff]
    simp [matchedTo_eq_none_iff, and_assoc]

/-- A matching step keeps the creation-order list at the slots in use, in order (R132). -/
theorem matchSlot_order (h : t.order = s.order.filter (fun k => (t.slot k).isSome)) (k : Fin 32) :
    (matchSlot live t k).order = s.order.filter (fun j => ((matchSlot live t k).slot j).isSome) := by
  have hput {i i' : Incident} (hi : t.slot k = some i) : (t.putSlot k i').order =
      s.order.filter (fun j => ((t.putSlot k i').slot j).isSome) := by
    refine h.trans (List.filter_congr fun j _ => ?_)
    rw [putSlot_slot]
    split
    · next hj => rw [← hj, hi]; rfl
    · rfl
  rcases matchSlot_cases live t k with he | ⟨i, hi, -, -, ⟨c, -, -, he⟩ | ⟨-, ⟨-, he⟩ | ⟨-, he⟩⟩⟩
  · rw [he, ← h]
  · rw [he]
    exact hput hi
  · rw [he, freeSlot_order, h, List.filter_filter]
    refine List.filter_congr fun j _ => ?_
    rw [freeSlot_slot]
    by_cases hj : k = j
    · simp [hj]
    · simp [hj, Ne.symm hj]
  · rw [he]
    exact hput hi

theorem afterStage2_order (ho : s.orderLaw) :
    (s.afterStage2 live).order = s.order.filter (fun k => ((s.afterStage2 live).slot k).isSome) := by
  refine List.foldlRecOn (motive := fun t : State => t.order = s.order.filter (fun k => (t.slot k).isSome)) _ _ ?_
    fun t ht k _ => matchSlot_order ht k
  exact (List.filter_eq_self.mpr fun k hk => (ho.2 k).mp hk).symm

/-! ## The placing -/

section
variable (hnone : ∀ k, ¬ s.recurs causes k)
include hnone

theorem toPlace_eq : s.toPlace causes = s.newCauses causes := by
  rw [State.toPlace, matchAll_of_none hnone, State.keptCauses, State.newCauses, List.filter_filter]
  refine List.filter_congr fun c _ => ?_
  rw [← State.keptCauses, afterStage2_causeCovered]
  cases s.causeCovered c <;> simp

theorem afterStage4_fst : (s.afterStage4 causes).1 =
    ((s.freeAtPlacing causes).zip (s.placeable causes)).foldl fillSlot (s.afterStage2 (s.keptCauses causes)) := by
  rw [State.afterStage4, toPlace_eq hnone, matchAll_of_none hnone, placeCauses_fst, afterStage2_freeSlots,
    afterStage2_leaving, State.placeable]

theorem afterStage4_snd : (s.afterStage4 causes).2.Perm (s.unplacedCauses causes) := by
  have h := placeCauses_snd (s.newCauses causes) (s.afterStage2 (s.keptCauses causes))
  rw [afterStage2_freeSlots, afterStage2_leaving] at h
  rw [State.afterStage4, toPlace_eq hnone, matchAll_of_none hnone]
  exact h

end

theorem unplacedCauses_kind (h : ∀ c ∈ causes, c.kind ≠ .residue) {c : Cause} (hc : c ∈ s.unplacedCauses causes) :
    c.kind ≠ .residue := by
  refine h c ?_
  rcases List.mem_append.mp hc with hc | hc
  · exact List.mem_of_mem_filter (List.mem_of_mem_filter (List.mem_of_mem_drop hc))
  · exact List.mem_of_mem_filter (List.mem_of_mem_filter hc)

/-- Every cause is counted in its family (R123). -/
theorem unplacedCounts_eq_none_iff {l : List Cause} (h : ∀ c ∈ l, c.kind ≠ .residue) :
    unplacedCounts l = Unplaced.none ↔ l = [] := by
  refine ⟨fun he => ?_, fun he => he ▸ rfl⟩
  have hzero : ∀ f, countFamily l f = 0 := fun f => by
    cases f with
    | dark => exact congrArg Unplaced.dark he
    | power => exact congrArg Unplaced.power he
    | dim => exact congrArg Unplaced.dim he
  refine List.eq_nil_iff_forall_not_mem.mpr fun c hc => ?_
  obtain ⟨f, hf⟩ := family_isSome (h c hc)
  exact List.countP_eq_zero.mp (hzero f) c hc (decide_eq_true hf)

/-! ## The new incidents -/

theorem newIncident_onTable (h : s.onTable t) (c : Cause) :
    t.newIncident c = { s.newIncident c with number := t.freshNumber } := by
  rw [State.newIncident, State.newIncident, msWindow_eq, msWindow_eq, onTable_msStart h, onTable_attackSoak h, onTable_time h]

/-- The evaluation of a new incident takes its flags alone: it is PENDING (R148, R150, R152). -/
theorem evaluated_newIncident (s t : State) (old : Option Incident) (c : Cause) :
    s.evaluated old (t.newIncident c) = s.reflagged (t.newIncident c) := by
  rw [evaluated_open (show (t.newIncident c).close = none from rfl)]
  rfl

theorem attackSoak_eq (s : State) (kind : CauseKind) : s.attackSoak kind = match kind.family with
    | some .dark => duration s.par.attackDark | some .power => duration s.par.attackPower
    | some .dim => duration s.par.attackDim | none => 0 := by
  rw [State.attackSoak]
  rcases kind.family with _ | _ | _ | _
  · rfl
  · rfl
  · rfl
  · rfl

/-! ## The residue and the creation-order list -/

/-- The recount keeps the list's order, loses a residue that is freed, and adds one that opens (R123, R132). -/
theorem residueRecount_order (v : Unplaced) (h : 0 ∈ s.order → (s.slot 0).isSome = true) :
    (residueRecount v s).order = s.order.filter (fun k => k ≠ 0 || ((residueRecount v s).slot 0).isSome) ++
      if s.slot 0 = none ∧ v ≠ Unplaced.none then [0] else [] := by
  have hkeeps {o : Option Incident} (ho : o.isSome = true) : s.order.filter (fun k => k ≠ 0 || o.isSome) = s.order :=
    List.filter_eq_self.mpr fun k _ => by rw [ho, Bool.or_true]
  unfold residueRecount
  cases hs : s.slot 0 with
  | none =>
    by_cases hv : v = Unplaced.none
    · simp only [hv, if_true, hs, ne_eq, not_true, and_false, if_false, List.append_nil]
      refine (List.filter_eq_self.mpr fun k hk => ?_).symm
      have hk0 : k ≠ 0 := by
        rintro rfl
        simpa [hs] using h hk
      simp [hk0]
    · simp only [hv, if_false, ne_eq, not_false_eq_true, and_self, if_true]
      rw [hkeeps (by rw [createIncident_slot, if_pos rfl]; rfl)]
      rfl
  | some i =>
    simp only [reduceCtorEq, false_and, if_false, List.append_nil]
    split
    · exact (hkeeps (by rw [hs]; rfl)).symm
    · split
      · rcases closeIncident_cases 0 .cleared 0 { i with unplaced := v } s with ⟨-, hc⟩ | ⟨-, hc⟩
        · rw [hc]
          exact (hkeeps (by rw [putSlot_slot, if_pos rfl]; rfl)).symm
        · rw [hc, freeSlot_slot, if_pos rfl, freeSlot_order]
          exact List.filter_congr fun k _ => by simp
      · exact (hkeeps (by rw [putSlot_slot, if_pos rfl]; rfl)).symm

/-! ## Part status word A -/

theorem takeNotice_slotsInUse (u : State) : (takeNotice u).slotsInUse = u.slotsInUse := by
  rw [slotsInUse_eq, slotsInUse_eq]
  simp only [takeNotice_slot_isSome]

/-- Part status word A holds the slots in use (12.4). -/
theorem slotsInUse_of_partStatusA (h : s.partStatusA = t.partStatusA) : s.slotsInUse = t.slotsInUse := by
  have hn := congrArg BitVec.toNat h
  rw [partStatusA_toNat, partStatusA_toNat] at hn
  have hs := slotsInUse_le s
  have ht := slotsInUse_le t
  omega

/-- An event that changes the slots in use marks part status word A (R185). -/
theorem finish_marks_partA (h : u.slotsInUse ≠ s.slotsInUse) : (finish s (takeNotice u)).writeMarks.partA = true := by
  have hne : (takeNotice u).partStatusA ≠ s.partStatusA := fun he =>
    h ((takeNotice_slotsInUse u).symm.trans (slotsInUse_of_partStatusA he))
  rw [finish_watched, markStatusWords_eq]
  simp [hne]

/-! ## The obligation -/

/-- A number of the table after stage 2 is one of the table before (R133). -/
theorem afterStage2_numberHeld {n : Nat} (h : ∀ k i, s.slot k = some i → i.number ≠ n) :
    (s.afterStage2 live).numberHeld n = false := by
  refine numberHeld_eq_false fun k x hx => ?_
  rw [afterStage2_slot] at hx
  obtain ⟨i, hi, hto⟩ := Option.bind_eq_some_iff.mp hx
  obtain ⟨hnum, -⟩ := matchedTo_keeps hto
  exact hnum ▸ h k i hi

theorem freeAtPlacing_ne_zero (h : k ∈ s.freeAtPlacing causes) : k ≠ 0 := by
  rw [← afterStage2_freeSlots] at h
  exact (mem_freeSlots.mp h).1

theorem afterStage2_slot_free (h : k ∈ s.freeAtPlacing causes) : (s.afterStage2 (s.keptCauses causes)).slot k = none := by
  rw [← afterStage2_freeSlots] at h
  exact (mem_freeSlots.mp h).2

/-- A free slot past the first `m` is none of them. -/
theorem getElem?_not_mem_take {n m : Nat} (hk : (s.freeAtPlacing causes)[n]? = some k) (hm : m ≤ n) :
    k ∉ (s.freeAtPlacing causes).take m := by
  have hnd : (s.freeAtPlacing causes).Nodup := afterStage2_freeSlots (s := s) ▸ freeSlots_nodup _
  intro h
  obtain ⟨e, he, heq⟩ := List.mem_take_iff_getElem.mp h
  obtain ⟨hn, hkn⟩ := List.getElem?_eq_some_iff.mp hk
  have := (hnd.getElem_inj_iff).mp (heq.trans hkn.symm)
  omega

/-- The list after stage 2 has lost the slots that are free for the placing (R132, R146). -/
theorem afterStage2_order_eq (ho : s.orderLaw) : (s.afterStage2 (s.keptCauses causes)).order =
    s.order.filter (fun k => !(s.freeAtPlacing causes).contains k) := by
  rw [afterStage2_order ho]
  refine List.filter_congr fun k hk => ?_
  rw [Bool.eq_iff_iff, Bool.not_eq_true', Bool.eq_false_iff, ne_eq, List.contains_iff_mem, ← afterStage2_freeSlots,
    mem_freeSlots, not_and, Option.isSome_iff_ne_none]
  refine ⟨fun h _ => h, fun h => ?_⟩
  by_cases hk0 : k = 0
  · rw [hk0, afterStage2_slot_zero, ← Option.isSome_iff_ne_none, ← hk0]
    exact (ho.2 k).mp hk
  · exact h hk0

/-- The list that a matching leaves is that after the recount (R108). -/
theorem matchingEvent_order_eq (causes : List Cause) (s : State) :
    (matchingEvent causes s).order = (s.afterStage5 causes).order := by
  rw [matchingEvent_eq]
  rfl

section
variable (hnone : ∀ k, ¬ s.recurs causes k)
include hnone

/-- A slot that no new cause takes is after stage 4 what stage 2 left (R122). -/
theorem afterStage4_slot_other (h : k ∉ (s.freeAtPlacing causes).take (s.placeable causes).length) :
    (s.afterStage4 causes).1.slot k = (s.afterStage2 (s.keptCauses causes)).slot k := by
  rw [afterStage4_fst hnone]
  exact foldl_fillSlot_other (by rwa [map_fst_zip_take]) _

/-- The `n`-th free slot takes the `n`-th cause (R122, R131, R133). -/
theorem afterStage4_slot {n : Nat} {c : Cause} (hk : (s.freeAtPlacing causes)[n]? = some k)
    (hc : (s.placeable causes)[n]? = some c) (hnum : s.numberLaw) :
    ∃ t, s.onTable t ∧ (s.afterStage4 causes).1.slot k = some (t.newIncident c) ∧
      ((∀ e, e ≤ n → ∀ j o, s.slot j = some o → o.number ≠ numberFrom s.nextNumber e) →
        t.freshNumber = numberFrom s.nextNumber n) := by
  have hnd : (((s.freeAtPlacing causes).zip (s.placeable causes)).map Prod.fst).Nodup := by
    rw [map_fst_zip_take, ← afterStage2_freeSlots]
    exact (freeSlots_nodup _).sublist (List.take_sublist _ _)
  have hlt : n < 65535 := by
    have hlen := freeSlots_length_le (s.afterStage2 (s.keptCauses causes))
    rw [afterStage2_freeSlots] at hlen
    have := (List.getElem?_eq_some_iff.mp hk).1
    omega
  obtain ⟨t, ht, hslot, hfresh⟩ := foldl_fillSlot_slot hnd (afterStage2_onTable s (s.keptCauses causes))
    (List.getElem?_zip_eq_some.mpr ⟨hk, hc⟩)
  rw [afterStage2_nextNumber] at hfresh
  obtain ⟨h1, h2, -⟩ := hnum
  rw [afterStage4_fst hnone]
  exact ⟨t, ht, hslot, fun hfree => hfresh h1 h2 hlt fun e he => afterStage2_numberHeld (hfree e he)⟩

theorem afterStage4_slot_zero : (s.afterStage4 causes).1.slot 0 = s.slot 0 := by
  rw [afterStage4_slot_other hnone, afterStage2_slot_zero]
  exact fun h => freeAtPlacing_ne_zero (List.mem_of_mem_take h) rfl

theorem afterStage4_order (ho : s.orderLaw) : (s.afterStage4 causes).1.order =
    s.order.filter (fun k => !(s.freeAtPlacing causes).contains k) ++
      (s.freeAtPlacing causes).take (s.placeable causes).length := by
  rw [afterStage4_fst hnone, foldl_fillSlot_order, map_fst_zip_take, afterStage2_order_eq ho]

/-- The creation-order list that a matching leaves: what was not freed, the new incidents, a residue that opens (R132). -/
theorem matchingEvent_order (ho : s.orderLaw) (hkinds : ∀ c ∈ causes, c.kind ≠ .residue) :
    (matchingEvent causes s).order =
      s.order.filter (fun k => !(s.freeAtPlacing causes).contains k && (k ≠ 0 || ((matchingEvent causes s).slot 0).isSome)) ++
      (s.freeAtPlacing causes).take (s.placeable causes).length ++
      if s.slot 0 = none ∧ s.unplacedCauses causes ≠ [] then [0] else [] := by
  have hperm := afterStage4_snd hnone
  have hcounts : unplacedCounts (s.afterStage4 causes).2 = Unplaced.none ↔ s.unplacedCauses causes = [] := by
    rw [unplacedCounts_eq_none_iff fun c hc => unplacedCauses_kind hkinds (hperm.subset hc)]
    exact ⟨fun h => (h ▸ hperm).nil_eq.symm, fun h => (h ▸ hperm).eq_nil⟩
  have hzero : 0 ∈ (s.afterStage4 causes).1.order → ((s.afterStage4 causes).1.slot 0).isSome = true := fun h => by
    rw [afterStage4_slot_zero hnone]
    rw [afterStage4_order hnone ho, List.mem_append] at h
    rcases h with h | h
    · exact (ho.2 0).mp (List.mem_of_mem_filter h)
    · exact absurd rfl (freeAtPlacing_ne_zero (List.mem_of_mem_take h))
  have hslot : ((matchingEvent causes s).slot 0).isSome = ((s.afterStage5 causes).slot 0).isSome := by
    rw [matchingEvent_slot, Option.isSome_map]
  have hplaced : ((s.freeAtPlacing causes).take (s.placeable causes).length).filter
      (fun k => k ≠ 0 || ((s.afterStage5 causes).slot 0).isSome) =
      (s.freeAtPlacing causes).take (s.placeable causes).length :=
    List.filter_eq_self.mpr fun k hk => by simp [freeAtPlacing_ne_zero (List.mem_of_mem_take hk)]
  have horder := residueRecount_order (unplacedCounts (s.afterStage4 causes).2) hzero
  rw [← State.afterStage5, afterStage4_order hnone ho, afterStage4_slot_zero hnone, List.filter_append, hplaced,
    List.filter_filter] at horder
  simp only [ne_eq, hcounts] at horder
  rw [hslot, matchingEvent_order_eq, horder]
  simp only [Bool.and_comm, ne_eq]

end

end

/-- Settles O38: stage 2 leaves the free slots and the causes as the statement reads them, stage 4 is a fold over the two,
and the recount adds the residue. -/
theorem matchingPlacesNewCauses : Obligations.MatchingPlacesNewCauses := by
  refine ⟨fun s h1 h2 => ?number, fun s causes free placed hpass hlaw ho hnum hnone hfree hplaced => ?places⟩
  case number =>
    obtain ⟨d, hd, hfresh, hheld, hbefore⟩ := freshNumber_spec h1 h2
    refine ⟨d, hd, hfresh, fun k i hk hn => ?_, fun e he => (numberHeld_iff s _).mp (hbefore e he)⟩
    exact Bool.false_ne_true (hheld.symm.trans ((numberHeld_iff s _).mpr ⟨k, i, hk, hn⟩))
  case places =>
    subst hfree hplaced
    obtain ⟨-, -, hcauses⟩ := hlaw
    have hslot {k : Fin 32} (hk : k ∈ s.freeAtPlacing causes) : (matchingEvent causes s).slot k =
        ((s.afterStage4 causes).1.slot k).map (s.evaluated (s.slot k)) := by
      rw [matchingEvent_slot, State.afterStage5, residueRecount_slot _ (freeAtPlacing_ne_zero hk)]
    refine ⟨matchingEvent causes s, _, decide (s.slot 0 = none ∧ s.unplacedCauses causes ≠ []), exec_passMatching hpass,
      finish_takesInto s _, fun n k c hk hc => ?taken, fun n k hk hn => ?stays, decide_eq_true_iff, ?order, ?settle,
      finish_marks_partA⟩
    case taken =>
      obtain ⟨t, ht, hnew, hfresh⟩ := afterStage4_slot hnone hk hc hnum
      have hu := hslot (List.mem_of_getElem? hk)
      rw [hnew, Option.map_some, evaluated_newIncident, newIncident_onTable ht] at hu
      refine ⟨_, hu, ?_, hfresh⟩
      have hsoak := (msWindow_eq s (s.attackSoak c.kind)).trans (congrArg s.msStart (attackSoak_eq s c.kind))
      have hfields := congrArg (fun w => { s.reflagged { s.newIncident c with number := t.freshNumber } with soak := some w })
        hsoak
      exact hfields
    case stays =>
      rw [hslot (List.mem_of_getElem? hk), afterStage4_slot_other hnone (getElem?_not_mem_take hk hn),
        afterStage2_slot_free (List.mem_of_getElem? hk), Option.map_none]
    case order =>
      simp only [decide_eq_true_eq]
      exact matchingEvent_order hnone ho (hcauses causes hpass).1
    case settle => exact (congrArg State.settle (afterStage5_onTable s causes).1 :)

end Sys2Proof.Machine
end

