-- ==== Sys2Proof/Proofs/LeakAndReading.lean ====
section
/-! PROOF. The leak of the storm gauge (O32) and the reading of a pass (O34). -/

namespace Sys2Proof.Machine

/-! ## The leak (R95, R96) -/

/-- The gauge after a leak, which stops at 0 (R95). -/
def State.gaugeLeaked (s : State) : Nat := if s.gauge < s.par.stormLeak then 0 else s.gauge - s.par.stormLeak

/-- The STORM flag after a leak: a changed gauge is tested (R96). -/
def State.stormLeaked (s : State) : Bool :=
  if s.gaugeLeaked = s.gauge then s.storm else stormTest s.par.stormEnter s.par.stormExit s.gaugeLeaked s.storm

theorem gaugeLeaked_eq (s : State) : s.gaugeLeaked = s.gauge - s.par.stormLeak := by
  unfold State.gaugeLeaked
  split <;> omega

/-- A leak as one update (R95, R96, R101). -/
theorem leakEvent_eq (s : State) : leakEvent s = { s with
    gauge := s.gaugeLeaked
    storm := s.stormLeaked
    settle := if s.stormLeaked = s.storm then s.settle else s.settleAfterMark s.stormLeaked } := by
  rw [leakEvent, markIf_eq, ← gaugeLeaked_eq, setGauge_eq, ← State.stormLeaked]
  simp only [bne_iff_ne, ite_not]
  rfl

/-- Settles O32: the leak is one update of the part, closed as every event away from the bus is. -/
theorem stormLeakDrainsTheGauge : Obligations.StormLeakDrainsTheGauge := by
  intro s hdue
  have hexec : exec .stormLeak s = .next (finish s (leakEvent { s with time.leakDue := false })) := if_pos hdue
  rw [leakEvent_eq] at hexec
  obtain ⟨A, ht, harb⟩ := event_update hexec rfl
  exact ⟨_, ht, rfl, rfl, rfl, rfl, rfl, harb, rfl⟩

/-! ## The reading (R103, R108, R109) -/

/-- A waiting request with no pass in progress is taken: by the reading, or with no effect in an apply pass. -/
theorem exec_passReading {s : State} (hr : s.passRequest = true) (hp : s.pass = none) :
    exec .passReading s = .next (finish s (if s.applyPass then { s with passRequest := false } else readingEvent s)) :=
  if_pos (by rw [hr, hp]; rfl)

/-- Settles O34: neither form of the event touches a field of a part status word, so each closes as a quiet event. -/
theorem passReadingFormsTheCauses : Obligations.PassReadingFormsTheCauses := by
  intro s hr hp
  have hexec := exec_passReading hr hp
  refine ⟨fun ha => ?reading, fun ha => ?merged⟩
  case reading =>
    rw [ha, if_neg Bool.false_ne_true] at hexec
    obtain ⟨A, ht, harb⟩ := event_quiet hexec rfl rfl rfl rfl
    exact ⟨_, ht, rfl, rfl, rfl, harb, rfl⟩
  case merged =>
    rw [ha, if_pos rfl] at hexec
    obtain ⟨A, ht, harb⟩ := event_quiet hexec rfl rfl rfl rfl
    exact ⟨_, ht, rfl, harb, rfl⟩

end Sys2Proof.Machine
end

