-- ==== Sys2Proof/Proofs/Causes.lean ====
section
/-! PROOF. The struck flags that a reading writes (O17), and the cause list that it forms from them (O18). -/

namespace Sys2Proof.Machine

section
variable (s : State)

/-! ## The quorum test and the struck flags (R110 to R113) -/

theorem quorum_iff (q minAffected monitored afflicted : Nat) : quorum q minAffected monitored afflicted = true ↔
    1 ≤ monitored ∧ minAffected ≤ afflicted ∧ q * monitored ≤ 16 * afflicted := by
  simp [quorum, and_assoc]

theorem struckNodes_node (i : Fin 128) : s.struckNodes[i] = s.struckNode i s.nodes[i] := by
  rw [State.struckNodes, mapTable_getElem_fin, Fin.ofNat_val_eq_self]

/-- A node is struck in the families of its own tree alone (R111). -/
theorem isStruck_other_tree {f : Family} {i : Fin 128} (h : s.nodes[i].tree ≠ f.tree) : s.isStruck f i = false := by
  simp only [State.isStruck, decide_eq_false h, Bool.and_false, Bool.false_and]

theorem isStruck_dark {i : Fin 128} (he : s.nodes[i].enabled = true) (ht : s.nodes[i].tree = .fibre) :
    s.isStruck .dark i = true ↔ (i = 0 ∧ s.trunk = true) ∨
      (1 ≤ s.nodes[i].monitored ∧ s.par.minAffected ≤ s.nodes[i].dark ∧
        s.par.qDark * s.nodes[i].monitored ≤ 16 * s.nodes[i].dark) := by
  simp only [State.isStruck, he, ht, Family.tree, decide_true, Bool.and_self, Bool.true_and, Bool.or_eq_true,
    Bool.and_eq_true, decide_eq_true_eq, quorum_iff]

theorem isStruck_dim {i : Fin 128} (he : s.nodes[i].enabled = true) (ht : s.nodes[i].tree = .fibre) :
    s.isStruck .dim i = true ↔ 1 ≤ s.nodes[i].monitored ∧ s.par.minAffected ≤ s.nodes[i].dim ∧
      s.par.qDim * s.nodes[i].monitored ≤ 16 * s.nodes[i].dim := by
  simp only [State.isStruck, he, ht, Family.tree, decide_true, Bool.and_self, Bool.true_and, quorum_iff]

theorem isStruck_power {i : Fin 128} (he : s.nodes[i].enabled = true) (ht : s.nodes[i].tree = .power) :
    s.isStruck .power i = true ↔ 1 ≤ s.nodes[i].monitored ∧ s.par.minAffected ≤ s.nodes[i].spent ∧
      (if i = 1 ∧ s.inputs.mainsFail = true then s.par.qMains else s.par.qPower) * s.nodes[i].monitored ≤
        16 * s.nodes[i].spent := by
  simp only [State.isStruck, he, ht, Family.tree, decide_true, Bool.and_self, Bool.true_and, quorum_iff]

end

/-- Settles O17, by the node's state and tree. -/
theorem struckByQuorum : Obligations.StruckByQuorum := by
  intro s i n hn
  subst hn
  rw [struckNodes_node, State.struckNode]
  cases he : s.nodes[i].enabled with
  | false => exact ⟨fun _ => rfl, nofun, nofun, rfl⟩
  | true =>
    refine ⟨nofun, fun _ ht => ⟨isStruck_dark s he ht, isStruck_dim s he ht, ?_⟩, fun _ ht =>
      ⟨isStruck_power s he ht, ?_, ?_⟩, ?_⟩
    · exact isStruck_other_tree s (ht ▸ nofun)
    · exact isStruck_other_tree s (ht ▸ nofun)
    · exact isStruck_other_tree s (ht ▸ nofun)
    · show { s.nodes[i] with enabled := true } = s.nodes[i]
      rw [← he]

section
variable (s : State) {c : Cause}

/-! ## Membership of the cause list (R112, R115, R117) -/

theorem isNodeCause_iff (f : Family) (n : Fin 128) : s.isNodeCause f n = true ↔
    s.nodes[n].enabled = true ∧ s.nodes[n].struck f = true ∧
      (∀ m ∈ (chain s.nodes n).tail, s.nodes[m].struck f = false) ∧
      ∀ k i, s.slot k = some i → i.coversNode s.nodes f n = false := by
  have hcov : s.nodeCovered f n = false ↔ ∀ k i, s.slot k = some i → i.coversNode s.nodes f n = false := by
    rw [Bool.eq_false_iff, ne_eq, nodeCovered_iff]
    simp only [not_exists, not_and, Bool.not_eq_true]
  simp only [State.isNodeCause, Bool.and_eq_true, Bool.not_eq_true', List.any_eq_false, Bool.not_eq_true, hcov, and_assoc]

theorem isTerminalCause_iff (f : Family) (t : Fin 512) : s.isTerminalCause f t = true ↔
    (s.entry t).afflicted f = true ∧
      (∀ m ∈ chain s.nodes ((s.entry t).parentIn f.tree), s.nodes[m].struck f = false) ∧
      ∀ k i, s.slot k = some i → i.coversTerminal s.nodes (s.entry t) = false := by
  have hcov : s.terminalCovered (s.entry t) = false ↔
      ∀ k i, s.slot k = some i → i.coversTerminal s.nodes (s.entry t) = false := by
    rw [Bool.eq_false_iff, ne_eq, terminalCovered_iff]
    simp only [not_exists, not_and, Bool.not_eq_true]
  simp only [State.isTerminalCause, Bool.and_eq_true, Bool.not_eq_true', List.any_eq_false, Bool.not_eq_true, hcov,
    and_assoc]

theorem mem_nodeCauses {f : Family} {kind : CauseKind} {p : Fin 128 → Bool} : c ∈ s.nodeCauses f kind p ↔
    ∃ n, s.isNodeCause f n = true ∧ p n = true ∧ c = s.nodeCause kind f n := by
  simp only [State.nodeCauses, List.mem_map, List.mem_filter, mem_indices, true_and, Bool.and_eq_true, and_assoc,
    @eq_comm _ _ c]

theorem mem_terminalCauses {f : Family} {kind : CauseKind} : c ∈ s.terminalCauses f kind ↔
    ∃ t, s.isTerminalCause f t = true ∧ c = terminalCause kind t := by
  simp only [State.terminalCauses, List.mem_map, List.mem_filter, mem_indices, true_and, @eq_comm _ _ c]

/-- The kind of a node cause: node 0 is TRUNK_LOSS while the trunk flag is set (R112, R115). -/
def State.nodeCauseKind (s : State) (n : Fin 128) : Family → CauseKind
  | .dark => if n = 0 ∧ s.trunk = true then .trunkLoss else .branchDark
  | .power => .mainsLoss
  | .dim => .branchDim

/-- The kind of a terminal cause (R117). -/
def Family.terminalCauseKind : Family → CauseKind
  | .dark => .terminalDark
  | .power => .terminalPower
  | .dim => .terminalDim

theorem exists_family {p : Family → Prop} : (∃ f, p f) ↔ p .dark ∨ p .power ∨ p .dim := by
  refine ⟨fun ⟨f, hf⟩ => ?_, ?_⟩
  · cases f with
    | dark => exact .inl hf
    | power => exact .inr (.inl hf)
    | dim => exact .inr (.inr hf)
  · rintro (h | h | h)
    · exact ⟨_, h⟩
    · exact ⟨_, h⟩
    · exact ⟨_, h⟩

/-- The two lists of dark node causes hold each of them once, under its kind (R112). -/
theorem mem_darkNodeCauses :
    (c ∈ s.nodeCauses .dark .trunkLoss (fun i => decide (i = 0) && s.trunk) ∨
      c ∈ s.nodeCauses .dark .branchDark (fun i => !(decide (i = 0) && s.trunk))) ↔
    ∃ n, s.isNodeCause .dark n = true ∧ c = s.nodeCause (s.nodeCauseKind n .dark) .dark n := by
  rw [mem_nodeCauses, mem_nodeCauses, ← exists_or]
  refine exists_congr fun n => ?_
  rw [← and_or_left, State.nodeCauseKind]
  by_cases h : n = 0 ∧ s.trunk = true
  · simp [h]
  · have h' : (decide (n = 0) && s.trunk) = false := by simpa using h
    simp [h, h']

theorem mem_causes : c ∈ s.causes ↔
    (∃ f n, s.isNodeCause f n = true ∧ c = s.nodeCause (s.nodeCauseKind n f) f n) ∨
    ∃ f t, s.isTerminalCause f t = true ∧ c = terminalCause f.terminalCauseKind t := by
  simp only [State.causes, List.mem_append, mem_darkNodeCauses, exists_family, or_assoc]
  simp only [mem_nodeCauses, mem_terminalCauses, true_and]
  rfl

/-! ## The order of the cause list (R118) -/

theorem indices_sorted {n : Nat} [NeZero n] : (indices n).Pairwise (· < ·) := by
  refine List.pairwise_map.mpr (List.pairwise_lt_range.imp_of_mem fun {a b} ha hb h => ?_)
  rw [Fin.lt_def]
  simpa [Fin.ofNat, Nat.mod_eq_of_lt (List.mem_range.mp ha), Nat.mod_eq_of_lt (List.mem_range.mp hb)] using h

/-- Causes of rising rank, in the 4096 ranks from `b` on. -/
structure RankedFrom (b : Nat) (causes : List Cause) : Prop where
  band : ∀ c ∈ causes, b ≤ c.rank ∧ c.rank < b + 4096
  sorted : causes.Pairwise (fun c d => c.rank < d.rank)

/-- The causes of one kind on rising numbers. -/
theorem rankedFrom_map {n : Nat} [NeZero n] (hn : n ≤ 4096) {b : Nat} {g : Fin n → Cause} (hg : ∀ k, (g k).rank = b + k.val)
    (p : Fin n → Bool) : RankedFrom b (((indices n).filter p).map g) := by
  refine ⟨fun c hc => ?_, ?_⟩
  · obtain ⟨k, -, rfl⟩ := List.mem_map.mp hc
    have := k.isLt
    rw [hg]
    omega
  · refine List.pairwise_map.mpr ((indices_sorted.filter p).imp fun {j k} h => ?_)
    have : j.val < k.val := h
    rw [hg, hg]
    omega

/-- A cause list in parts, each in ranks of its own. -/
theorem pairwise_rank_flatMap {parts : List (Nat × List Cause)} (hparts : ∀ p ∈ parts, RankedFrom p.1 p.2)
    (hbands : parts.Pairwise (fun p q => p.1 + 4096 ≤ q.1)) :
    (parts.flatMap Prod.snd).Pairwise (fun c d => c.rank < d.rank) := by
  rw [List.pairwise_flatMap]
  refine ⟨fun p hp => (hparts p hp).sorted, hbands.imp_of_mem fun {p q} hp hq h c hc d hd => ?_⟩
  have hlow := (hparts p hp).band c hc
  have hhigh := (hparts q hq).band d hd
  omega

/-- The rank that a kind's node causes begin from (R118). -/
theorem nodeCauses_ranked {b : Nat} (f : Family) (kind : CauseKind) (p : Fin 128 → Bool)
    (hb : ∀ n, (s.nodeCause kind f n).rank = b + n.val) : RankedFrom b (s.nodeCauses f kind p) :=
  rankedFrom_map (by decide) hb _

/-- The rank that a kind's terminal causes begin from (R118). -/
theorem terminalCauses_ranked {b : Nat} (f : Family) (kind : CauseKind)
    (hb : ∀ t, (terminalCause kind t).rank = b + t.val) : RankedFrom b (s.terminalCauses f kind) :=
  rankedFrom_map (by decide) hb _

theorem causes_sorted : s.causes.Pairwise (fun c d => c.rank < d.rank) := by
  have hflat : s.causes =
      [(4096 * 1, s.nodeCauses .dark .trunkLoss (fun i => decide (i = 0) && s.trunk)),
        (4096 * 2, s.nodeCauses .dark .branchDark (fun i => !(decide (i = 0) && s.trunk))),
        (4096 * 4, s.nodeCauses .power .mainsLoss (fun _ => true)),
        (4096 * 6, s.nodeCauses .dim .branchDim (fun _ => true)),
        (4096 * 3 + 65536, s.terminalCauses .dark .terminalDark),
        (4096 * 5 + 65536, s.terminalCauses .power .terminalPower),
        (4096 * 7 + 65536, s.terminalCauses .dim .terminalDim)].flatMap Prod.snd := by
    simp only [State.causes, List.flatMap_cons, List.flatMap_nil, List.append_nil, List.append_assoc]
  have hnode (b : Nat) (n : Fin 128) : n.val + b = b + n.val := Nat.add_comm _ _
  have hterminal (b : Nat) (t : Fin 512) : 65536 + t.val + b = b + 65536 + t.val := by omega
  rw [hflat]
  refine pairwise_rank_flatMap ?_ (by simp)
  simp only [List.forall_mem_cons]
  exact ⟨nodeCauses_ranked s _ _ _ (hnode _), nodeCauses_ranked s _ _ _ (hnode _), nodeCauses_ranked s _ _ _ (hnode _),
    nodeCauses_ranked s _ _ _ (hnode _), terminalCauses_ranked s _ _ (hterminal _),
    terminalCauses_ranked s _ _ (hterminal _), terminalCauses_ranked s _ _ (hterminal _), nofun⟩

/-! ## The exceptions (R116) -/

theorem exceptionsOf_sorted (f : Family) (n : Fin 128) : (s.exceptionsOf f n).Pairwise (· < ·) := indices_sorted.filter _

theorem mem_exceptionsOf {f : Family} {n : Fin 128} {t : Fin 512} : t ∈ s.exceptionsOf f n ↔
    (s.entry t).monitored = true ∧ (s.entry t).afflicted f = false ∧
      n ∈ chain s.nodes ((s.entry t).parentIn f.tree) := by
  simp [State.exceptionsOf, inSubtree_iff, and_assoc]

end

/-- Settles O18: the members by the two tests of a cause, their order by the bands of ranks that the seven parts of the
list lie in. -/
theorem causesAreTheTopmostStruck : Obligations.CausesAreTheTopmostStruck := by
  refine ⟨fun s c => ?members, causes_sorted, fun _ _ => rfl, fun s kind f n => ?counts⟩
  case members =>
    simp only [mem_causes, isNodeCause_iff, isTerminalCause_iff, and_assoc]
    exact Iff.rfl
  case counts =>
    refine ⟨s.exceptionsOf f n, exceptionsOf_sorted s f n, fun t => mem_exceptionsOf s, ?_⟩
    rw [State.nodeCause]
    cases f with
    | dark => rfl
    | power => rfl
    | dim => rfl

end Sys2Proof.Machine
end

