-- ==== Sys2Proof/Proofs/Absorptions.lean ====
section
/-! SUPPORT. What the absorptions of one entering incident make of each slot (R125, R142). -/

namespace Sys2Proof.Machine

section
variable {s t : State} {i i' other other' : Incident} {j k m : Fin 32}

/-- What an absorption by the incident of number `n` makes of an incident: close-due if it is announced, else freed
(R125, R142). -/
def Incident.absorbedBy (n : Nat) (other : Incident) : Option Incident :=
  if other.announced then some { other with close := some { reason := .absorbed, absorber := n }, soak := none } else none

/-! ## One slot -/

/-- The test of an absorption reads kinds, subjects and places, which the events of the Incident Table keep (R125). -/
theorem absorbs_onTable (h : s.onTable t) : t.absorbs k i j other ↔ s.absorbs k i j other := by
  unfold State.absorbs
  simp only [onTable_nodes h, onTable_parentIn h]

theorem absorbs_congr (hkind : i'.kind = i.kind) (hsubj : i'.subject = i.subject) (hkind' : other'.kind = other.kind)
    (hsubj' : other'.subject = other.subject) (hclose : other'.close = other.close) :
    s.absorbs k i' j other' ↔ s.absorbs k i j other := by
  unfold State.absorbs
  rw [hkind, hsubj, hkind', hsubj', hclose]

theorem absorbSlot_of_absorbs (hs : s.slot j = some other) (h : s.absorbs k i j other) :
    absorbSlot k i s j = closeIncident j .absorbed i.number other s := by
  unfold absorbSlot
  rw [hs]
  exact if_pos ((absorbs_iff s k i j other).mp h)

theorem absorbSlot_of_not_absorbs (h : ∀ other, s.slot j = some other → ¬ s.absorbs k i j other) :
    absorbSlot k i s j = s := by
  rcases absorbSlot_cases k i s j with he | ⟨other, hs, habs, -⟩
  · exact he
  · exact absurd habs (h other hs)

theorem closeIncident_slot_other (r : CloseReason) (n : Nat) (h : k ≠ j) : (closeIncident k r n i s).slot j = s.slot j := by
  rcases closeIncident_cases k r n i s with ⟨-, he⟩ | ⟨-, he⟩
  · rw [he, putSlot_slot, if_neg h]
  · rw [he, freeSlot_slot, if_neg h]

theorem closeIncident_slot_same (r : CloseReason) (n : Nat) (i : Incident) (s : State) : (closeIncident k r n i s).slot k =
    if i.announced then some { i with close := some { reason := r, absorber := n }, soak := none } else none := by
  rcases closeIncident_cases k r n i s with ⟨ha, he⟩ | ⟨ha, he⟩
  · rw [he, putSlot_slot, if_pos rfl, ha, if_pos rfl]
  · rw [he, freeSlot_slot, if_pos rfl, ha, if_neg Bool.false_ne_true]

theorem absorbSlot_slot_other (h : m ≠ j) : (absorbSlot k i s m).slot j = s.slot j := by
  rcases absorbSlot_cases k i s m with he | ⟨other, -, -, he⟩
  · rw [he]
  · rw [he, closeIncident_slot_other _ _ h]

/-! ## All slots -/

theorem foldl_absorbSlot_other (l : List (Fin 32)) (h : j ∉ l) : (l.foldl (absorbSlot k i) s).slot j = s.slot j := by
  induction l generalizing s with
  | nil => rfl
  | cons m l ih =>
    rw [List.mem_cons, not_or] at h
    rw [List.foldl_cons, ih h.2, absorbSlot_slot_other (Ne.symm h.1)]

theorem foldl_absorbSlot_onTable (l : List (Fin 32)) (h : s.onTable t) : s.onTable (l.foldl (absorbSlot k i) t) :=
  List.foldlRecOn (motive := s.onTable) l _ h fun _ hu m _ => onTable_absorbSlot hu k i m

/-- A slot is after the absorptions what its own test makes of it, in a state that holds the slot as it was. -/
theorem absorbAll_slot (k : Fin 32) (i : Incident) (s : State) (j : Fin 32) : ∃ t, s.onTable t ∧ t.slot j = s.slot j ∧
    (absorbAll k i s).slot j = (absorbSlot k i t j).slot j := by
  obtain ⟨before, after, hsplit⟩ := List.append_of_mem (mem_indices j)
  have hnd : (before ++ j :: after).Nodup := hsplit ▸ indices_nodup
  have hafter : j ∉ after := (List.nodup_cons.mp hnd.of_append_right).1
  have hbefore : j ∉ before := fun h => List.disjoint_of_nodup_append hnd h List.mem_cons_self
  refine ⟨before.foldl (absorbSlot k i) s, foldl_absorbSlot_onTable before (onTable_refl s),
    foldl_absorbSlot_other before hbefore, ?_⟩
  rw [absorbAll, hsplit, List.foldl_append, List.foldl_cons, foldl_absorbSlot_other after hafter]

theorem absorbAll_slot_absorbed (hs : s.slot j = some other) (h : s.absorbs k i j other) :
    (absorbAll k i s).slot j = other.absorbedBy i.number := by
  obtain ⟨t, hon, ht, he⟩ := absorbAll_slot k i s j
  rw [he, absorbSlot_of_absorbs (ht.trans hs) ((absorbs_onTable hon).mpr h)]
  exact closeIncident_slot_same .absorbed i.number other t

theorem absorbAll_slot_kept (h : ∀ other, s.slot j = some other → ¬ s.absorbs k i j other) :
    (absorbAll k i s).slot j = s.slot j := by
  obtain ⟨t, hon, ht, he⟩ := absorbAll_slot k i s j
  rw [he, absorbSlot_of_not_absorbs fun other ho => (absorbs_onTable hon).not.mpr (h other (ht.symm.trans ho)), ht]

/-- A free slot, and one whose incident is close-due, are past every absorption (R125). -/
def State.settled (s : State) (j : Fin 32) : Prop := ∀ other, s.slot j = some other → other.close ≠ none

theorem absorbRecurred_settled (h : s.settled j) (m : Fin 32) : (absorbRecurred s m).slot j = s.slot j := by
  unfold absorbRecurred
  split
  · rfl
  · split
    · exact absorbAll_slot_kept fun other ho habs => h other ho habs.2.1
    · rfl

theorem foldl_absorbRecurred_settled (l : List (Fin 32)) (h : s.settled j) :
    (l.foldl absorbRecurred s).slot j = s.slot j := by
  induction l generalizing s with
  | nil => rfl
  | cons m l ih =>
    have hm := absorbRecurred_settled h m
    rw [List.foldl_cons, ih fun other ho => h other (hm.symm.trans ho), hm]

end

end Sys2Proof.Machine
end

