-- ==== Sys2Proof/Proofs/Recurrence.lean ====
section
/-! PROOF. What a recurring incident absorbs (R125, R140, R142, R144): O37. -/

namespace Sys2Proof.Machine

section
variable {s t : State} {causes : List Cause} {i other : Incident} {j k : Fin 32}

/-- A recurring incident is OPEN again after stage 2, by its own record (R119, R140). -/
theorem recurs_afterStage2 (hs : s.slot k = some i) (hrec : s.recurs causes k) :
    ∃ x, (s.afterStage2 (s.keptCauses causes)).slot k = some x ∧ x.number = i.number ∧ x.kind = i.kind ∧
      x.subject = i.subject ∧ x.close = none ∧ recurredAt s (s.afterStage2 (s.keptCauses causes)) k = true := by
  obtain ⟨y, hk, hy, hphase, hclose, hhere⟩ := hrec
  obtain rfl := Option.some.inj (hs.symm.trans hy)
  obtain ⟨c, -, -, hto⟩ := matchedTo_present hk hclose hhere
  have hx : (s.afterStage2 (s.keptCauses causes)).slot k = some (i.present c) := by
    rw [afterStage2_slot, hs, Option.bind_some, hto]
  rw [recurredAt, hx, hs, present_eq]
  exact ⟨_, rfl, rfl, rfl, rfl, hclose, by simp [hphase]⟩

/-- The recurred slots of a matching, split at one of them: each other one recurs too. -/
theorem recurred_split (ho : s.orderLaw) (hs : s.slot k = some i) (hrec : s.recurs causes k) : ∃ before after,
    (s.afterStage2 (s.keptCauses causes)).order.filter (recurredAt s (s.afterStage2 (s.keptCauses causes))) =
      before ++ k :: after ∧ ∀ m ∈ before, s.recurs causes m ∧ m ≠ k := by
  obtain ⟨x, hx, -, -, -, -, hre⟩ := recurs_afterStage2 hs hrec
  have horder := afterStage2_order (live := s.keptCauses causes) ho
  have hmem : k ∈ (s.afterStage2 (s.keptCauses causes)).order := by
    rw [horder]
    exact List.mem_filter.mpr ⟨(ho.2 k).mpr (hs ▸ rfl), hx ▸ rfl⟩
  obtain ⟨before, after, hsplit⟩ := List.append_of_mem (List.mem_filter.mpr ⟨hmem, hre⟩)
  have hnd : (before ++ k :: after).Nodup := by
    rw [← hsplit, horder]
    exact (ho.1.filter _).filter _
  refine ⟨before, after, hsplit, fun m hm => ⟨?_, ?_⟩⟩
  · have hin := hsplit ▸ List.mem_append_left (k :: after) hm
    exact recurs_of_recurredAt (List.mem_filter.mp hin).2
  · rintro rfl
    exact List.disjoint_of_nodup_append hnd hm List.mem_cons_self

/-- The recurred slots before one leave a slot that none of them absorbs as stage 2 made it (R125). -/
theorem absorbed_before {l : List (Fin 32)} (hs : s.slot j = some other) (hc : other.close = none)
    (hno : ∀ m ∈ l, ∀ x, s.slot m = some x → ¬ s.absorbs m x j other) :
    s.SlotStays j (s.matchedTo (s.keptCauses causes) j other)
      (l.foldl absorbRecurred (s.afterStage2 (s.keptCauses causes))) := by
  have hslot : (s.afterStage2 (s.keptCauses causes)).slot j = s.matchedTo (s.keptCauses causes) j other := by
    rw [afterStage2_slot, hs, Option.bind_some]
  exact List.foldlRecOn (motive := s.SlotStays j _) _ _ ⟨afterStage2_onTable s _, afterStage2_follows s _, hslot⟩
    fun t ht m hm => absorbRecurred_stays hs hc (hno m hm) ht

/-- The absorption of one slot by a recurred incident (R125, R140). -/
theorem absorbRecurred_slot_absorbed {x : Incident} {o : Option Incident} (hk : t.slot k = some x) (hx : x.close = none)
    (hj : t.slot j = o) (habs : ∀ y, o = some y → t.absorbs k x j y) :
    (absorbRecurred t k).slot j = o.bind (Incident.absorbedBy x.number) := by
  rw [absorbRecurred, hk]
  dsimp only
  rw [if_pos (Option.isNone_iff_eq_none.mpr hx)]
  cases o with
  | none =>
    rw [Option.bind_none, absorbAll_slot_kept (fun y hy => nomatch hj.symm.trans hy), hj]
  | some y => rw [Option.bind_some, absorbAll_slot_absorbed hj (habs y rfl)]

theorem absorbedBy_settled {o : Option Incident} {n : Nat} (h : t.slot j = o.bind (Incident.absorbedBy n)) : t.settled j := by
  intro x hx
  obtain ⟨y, -, hy⟩ := Option.bind_eq_some_iff.mp (h.symm.trans hx)
  unfold Incident.absorbedBy at hy
  split at hy
  · obtain rfl := Option.some.inj hy
    exact Option.some_ne_none _
  · cases hy

/-- The absorption of an incident by a recurring one, which no other recurring one absorbs (R125, R140). -/
theorem matchAll_slot_absorbed (ho : s.orderLaw) (hs : s.slot k = some i) (hrec : s.recurs causes k)
    (hj : s.slot j = some other) (habs : s.absorbs k i j other)
    (hno : ∀ k' i', s.slot k' = some i' → s.recurs causes k' → k' ≠ k →
      ¬ s.absorbs k' i' j other ∧ ¬ s.absorbs k' i' k i) :
    (matchAll (s.keptCauses causes) s).slot j =
      (s.matchedTo (s.keptCauses causes) j other).bind (Incident.absorbedBy i.number) := by
  obtain ⟨x, hx, hnum, hkind, hsubj, hclose, -⟩ := recurs_afterStage2 hs hrec
  obtain ⟨before, after, hsplit, hbefore⟩ := recurred_split ho hs hrec
  have hic : i.close = none := by
    obtain ⟨y, -, hy, -, hc, -⟩ := hrec
    exact (Option.some.inj (hs.symm.trans hy)) ▸ hc
  have hatk := absorbed_before (causes := causes) (l := before) hs hic fun m hm y hy =>
    (hno m y hy (hbefore m hm).1 (hbefore m hm).2).2
  have hatj := absorbed_before (causes := causes) (l := before) hj habs.2.1 fun m hm y hy =>
    (hno m y hy (hbefore m hm).1 (hbefore m hm).2).1
  rw [afterStage2_slot, hs, Option.bind_some] at hx
  have habsorbed := absorbRecurred_slot_absorbed (hatk.slot.trans hx) hclose hatj.slot fun y hto => by
    obtain ⟨-, hykind, hysubj, hyclose, -⟩ := matchedTo_keeps hto
    exact (absorbs_onTable hatj.onTable).mpr ((absorbs_congr hkind hsubj hykind hysubj hyclose).mpr habs)
  rw [matchAll_eq, hsplit, List.foldl_append, List.foldl_cons,
    foldl_absorbRecurred_settled after (absorbedBy_settled habsorbed), habsorbed, hnum]

/-- The residue is never absorbed: it has no family (R125, R131). -/
theorem absorbs_ne_zero (hlaw : other.law j) (habs : s.absorbs k i j other) : j ≠ 0 := by
  obtain ⟨-, -, f, m, -, hf, -⟩ := habs
  intro h0
  rw [hlaw.1.mpr h0] at hf
  cases hf

end

/-- Settles O37: stage 2 leaves the absorbed incident by its phase and cause, stage 3 closes or frees it, and the later
stages leave a close-due incident as it is. -/
theorem recurrenceAbsorbs : Obligations.RecurrenceAbsorbs := by
  intro s causes k j i other hpass hlaw ho hk hrec hj habs hno
  obtain ⟨hlaws, -, hcauses⟩ := hlaw
  have hj0 := absorbs_ne_zero (hlaws j other hj) habs
  have hslot := matchAll_slot_absorbed ho hk hrec hj habs hno
  have hclose : other.close = none := habs.2.1
  have hstays := matchedTo_stays (s := s) (i := other) (hcauses causes hpass).2 hj0 hclose rfl
  refine ⟨matchingEvent causes s, _, exec_passMatching hpass, finish_takesInto s _, fun ha => ?announced, fun ha => ?freed⟩
  case announced =>
    have hphase : other.phase ≠ .waiting := fun hw => by
      obtain ⟨-, -, -, hwait, -⟩ := hlaws j other hj
      exact Bool.false_ne_true ((hwait hw).1.symm.trans ha)
    obtain ⟨x, hto, hx⟩ := hstays (.inl hphase)
    have hxa : x.announced = true := (congrArg Incident.announced hx.rest :).trans ha
    rw [hto, Option.bind_some, Incident.absorbedBy, if_pos hxa] at hslot
    have hu := matchingEvent_slot_some hj0 hslot
    rw [evaluated_close (Option.some_ne_none _)] at hu
    exact ⟨_, hu, rfl, rfl, congrArg (fun y : Incident => { y with close := other.close }) hx.rest⟩
  case freed =>
    refine matchingEvent_slot_none hj0 (hslot.trans ?_)
    by_cases h : other.phase ≠ .waiting ∨ s.causePresent causes other = true
    · obtain ⟨x, hto, hx⟩ := hstays h
      have hxa : x.announced = false := (congrArg Incident.announced hx.rest :).trans ha
      rw [hto, Option.bind_some, Incident.absorbedBy, hxa, if_neg Bool.false_ne_true]
    · obtain ⟨hwait, habsent⟩ := not_or.mp h
      rw [matchedTo_eq_none_iff.mpr ⟨hj0, not_not.mp hwait, hclose, Bool.eq_false_iff.mpr habsent⟩, Option.bind_none]

end Sys2Proof.Machine
end

