-- ==== Sys2Proof/Proofs/AttackExpiry.lean ====
section
/-! PROOF. The attack expiry: the incident enters OPEN, absorbs, and sets covering fields (R125, R126, R136, R146): O40. -/

namespace Sys2Proof.Machine

section
variable {s t t' : State} {i opened : Incident} {j k : Fin 32}

/-! ## What closes leave of the table -/

/-- Slot `j` holds an incident in `s` and is free in `t`. -/
def State.freed (s t : State) (j : Fin 32) : Bool := (s.slot j).isSome && (t.slot j).isNone

theorem freed_iff : s.freed t j = true ↔ t.slot j = none ∧ s.slot j ≠ none := by
  rw [State.freed, Bool.and_eq_true, Option.isSome_iff_ne_none, Option.isNone_iff_eq_none, and_comm]

/-- Between `s` and `t` incidents close, and the slots of those not announced are freed (R142, R146). -/
structure State.ClosesInto (s t : State) : Prop where
  free : ∀ j, s.slot j = none → t.slot j = none
  order : t.order = s.order.filter (fun j => !s.freed t j)
  covering : ∀ m, (t.entry m).covering = (s.entry m).covering.filter (fun j => !s.freed t j)
  marks : t.writeMarks = { s.writeMarks with partA := s.writeMarks.partA || (indices 32).any (s.freed t) }

theorem State.ClosesInto.refl (s : State) : s.ClosesInto s := by
  have hnone (j : Fin 32) : s.freed s j = false := by
    rw [State.freed]
    cases s.slot j <;> rfl
  have hany : (indices 32).any (s.freed s) = false := by
    rw [List.any_eq_false]
    exact fun j _ => by simp [hnone]
  refine ⟨fun _ h => h, ?_, fun m => ?_, ?_⟩
  · simp [hnone]
  · cases (s.entry m).covering <;> simp [hnone, Option.filter_some]
  · simp [hany]

/-- A change of incidents in their slots frees none. -/
theorem State.ClosesInto.of_isSome (h : s.ClosesInto t) (hslot : ∀ j, (t'.slot j).isSome = (t.slot j).isSome)
    (horder : t'.order = t.order) (hentries : t'.entries = t.entries) (hmarks : t'.writeMarks = t.writeMarks) :
    s.ClosesInto t' := by
  have hfreed : s.freed t' = s.freed t := by
    funext j
    rw [State.freed, State.freed, ← Option.not_isSome, ← Option.not_isSome, hslot]
  refine ⟨fun j hj => ?_, ?_, fun m => ?_, ?_⟩
  · have := hslot j
    rw [h.free j hj] at this
    exact Option.isNone_iff_eq_none.mp (Option.isSome_eq_false_iff.mp this)
  · rw [horder, hfreed, h.order]
  · rw [hfreed, ← h.covering m, State.entry, State.entry, hentries]
  · rw [hmarks, hfreed, h.marks]

theorem State.ClosesInto.putSlot (h : s.ClosesInto t) {x y : Incident} (hx : t.slot k = some x) :
    s.ClosesInto (t.putSlot k y) := by
  refine h.of_isSome (fun j => ?_) rfl rfl rfl
  rw [putSlot_slot]
  split
  · next hj => rw [← hj, hx]; rfl
  · rfl

/-- A freed slot's covering fields become none (R146). -/
theorem freeSlot_covering (k : Fin 32) (s : State) (m : Fin 512) :
    ((Machine.freeSlot k s).entry m).covering = (s.entry m).covering.filter (fun j => !decide (j = k)) := by
  rw [freeSlot_entry]
  cases hc : (s.entry m).covering with
  | none => simp [hc]
  | some j => by_cases hj : j = k <;> simp [hj, hc, Option.filter_some]

theorem State.ClosesInto.freeSlot (h : s.ClosesInto t) {x : Incident} (hx : t.slot k = some x) :
    s.ClosesInto (freeSlot k t) := by
  have hk : (s.slot k).isSome = true := by
    rw [Option.isSome_iff_ne_none]
    exact fun hn => Option.some_ne_none x (hx.symm.trans (h.free k hn))
  have hfreed (j : Fin 32) : (!s.freed (Machine.freeSlot k t) j) = (!decide (j = k) && !s.freed t j) := by
    rw [State.freed, State.freed, freeSlot_slot]
    by_cases hj : j = k
    · subst hj
      simp [hk]
    · simp [hj, Ne.symm hj]
  refine ⟨fun j hj => ?_, ?_, fun m => ?_, ?_⟩
  · rw [freeSlot_slot, h.free j hj, ite_self]
  · rw [freeSlot_order, h.order, List.filter_filter]
    exact List.filter_congr fun j _ => by rw [hfreed]; simp
  · rw [freeSlot_covering, h.covering, Option.filter_filter]
    congr 1
    funext j
    rw [hfreed, Bool.and_comm]
  · have hany : (indices 32).any (s.freed (Machine.freeSlot k t)) = true := by
      refine List.any_eq_true.mpr ⟨k, mem_indices k, ?_⟩
      rw [State.freed, freeSlot_slot, if_pos rfl, hk]
      rfl
    rw [hany, Bool.or_true]
    show { t.writeMarks with partA := true } = _
    rw [h.marks]

theorem State.ClosesInto.absorbSlot (h : s.ClosesInto t) (k : Fin 32) (i : Incident) (j : Fin 32) :
    s.ClosesInto (absorbSlot k i t j) := by
  rcases absorbSlot_cases k i t j with he | ⟨other, ho, -, he⟩
  · rwa [he]
  · rw [he]
    rcases closeIncident_cases j .absorbed i.number other t with ⟨-, hc⟩ | ⟨-, hc⟩
    · rw [hc]
      exact h.putSlot ho
    · rw [hc]
      exact h.freeSlot ho

/-- The slots in use fall exactly where one is freed (R134). -/
theorem State.ClosesInto.slotsInUse_lt_iff (h : s.ClosesInto t) : t.slotsInUse < s.slotsInUse ↔ ∃ j, s.freed t j = true := by
  have hsplit := List.countP_eq_countP_filter_add (indices 32) (fun j => (s.slot j).isSome) (fun j => (t.slot j).isSome)
  rw [List.countP_filter, List.countP_filter] at hsplit
  have hkept : (indices 32).countP (fun j => (s.slot j).isSome && (t.slot j).isSome) = t.slotsInUse := by
    rw [slotsInUse_eq]
    refine List.countP_congr fun j _ => ?_
    rw [Bool.and_eq_true, and_iff_right_iff_imp, Option.isSome_iff_ne_none, Option.isSome_iff_ne_none]
    exact fun ht hs => ht (h.free j hs)
  have hfreed : (indices 32).countP (fun j => (s.slot j).isSome && !(t.slot j).isSome) =
      (indices 32).countP (s.freed t) := by
    refine List.countP_congr fun j _ => ?_
    rw [State.freed]
    simp
  rw [hkept, hfreed, ← slotsInUse_eq] at hsplit
  have hpos : 0 < (indices 32).countP (s.freed t) ↔ ∃ j, s.freed t j = true := by
    rw [List.countP_pos_iff]
    simp
  rw [← hpos]
  omega

/-! ## The incident as it enters OPEN -/

/-- The incident as it enters OPEN at its attack expiry (R136, R150). -/
def State.openedAt (s : State) (i : Incident) : Incident := s.tested { i with phase := .opened, soak := none }

theorem openedAt_eq (s : State) (i : Incident) : s.openedAt i = { i with
    phase := .opened, soak := none, openDue := i.openDue || s.permitted i, withheld := !s.permitted i } := by
  have hp : s.permitted { i with phase := .opened, soak := none } = s.permitted i := rfl
  rw [State.openedAt, State.tested, hp]
  cases s.permitted i
  · simp
  · simp

/-- The table once the incident has entered OPEN in slot `k` and has absorbed (R125, R136). -/
def State.absorbedAt (s : State) (k : Fin 32) (i : Incident) : State :=
  absorbAll k (s.openedAt i) (s.putSlot k (s.openedAt i))

theorem absorbedAt_onTable (s : State) (k : Fin 32) (i : Incident) : s.onTable (s.absorbedAt k i) :=
  foldl_absorbSlot_onTable _ ⟨rfl, recovers_of_entries rfl⟩

theorem absorbedAt_slot_self (s : State) (k : Fin 32) (i : Incident) :
    (s.absorbedAt k i).slot k = some (s.openedAt i) := by
  rw [State.absorbedAt, absorbAll_slot_kept fun _ _ habs => habs.1 rfl, putSlot_slot, if_pos rfl]

theorem absorbedAt_slot_absorbed {other : Incident} (ho : s.slot j = some other)
    (h : s.absorbs k (s.openedAt i) j other) : (s.absorbedAt k i).slot j = other.absorbedBy i.number := by
  have hslot : (s.putSlot k (s.openedAt i)).slot j = some other := by rw [putSlot_slot, if_neg (Ne.symm h.1), ho]
  rw [State.absorbedAt, absorbAll_slot_absorbed hslot h, openedAt_eq]

theorem absorbedAt_slot_kept (hj : j ≠ k) (h : ∀ other, s.slot j = some other → ¬ s.absorbs k (s.openedAt i) j other) :
    (s.absorbedAt k i).slot j = s.slot j := by
  have hslot : (s.putSlot k (s.openedAt i)).slot j = s.slot j := by rw [putSlot_slot, if_neg (Ne.symm hj)]
  rw [State.absorbedAt, absorbAll_slot_kept fun other ho habs => h other (hslot.symm.trans ho) habs, hslot]

section
variable (hk : s.slot k = some i)
include hk

theorem absorbedAt_closesInto : s.ClosesInto (s.absorbedAt k i) :=
  List.foldlRecOn (motive := s.ClosesInto) _ _ ((State.ClosesInto.refl s).putSlot hk)
    fun _ ht j _ => ht.absorbSlot k (s.openedAt i) j

theorem freed_absorbedAt_iff : s.freed (s.absorbedAt k i) j = true ↔ s.freesAt k (s.openedAt i) j := by
  rw [freed_iff]
  constructor
  · rintro ⟨hfree, hs⟩
    obtain ⟨other, ho⟩ := Option.ne_none_iff_exists'.mp hs
    have hj : j ≠ k := by
      rintro rfl
      exact Option.some_ne_none _ ((absorbedAt_slot_self s j i).symm.trans hfree)
    by_cases habs : s.absorbs k (s.openedAt i) j other
    · refine ⟨other, ho, habs, ?_⟩
      rw [absorbedAt_slot_absorbed ho habs, Incident.absorbedBy] at hfree
      split at hfree
      · cases hfree
      · next ha => exact Bool.eq_false_iff.mpr ha
    · rw [absorbedAt_slot_kept hj fun x hx => (Option.some.inj (ho.symm.trans hx)) ▸ habs] at hfree
      exact absurd hfree hs
  · rintro ⟨other, ho, habs, ha⟩
    rw [absorbedAt_slot_absorbed ho habs, Incident.absorbedBy, ha, if_neg Bool.false_ne_true]
    exact ⟨rfl, ho ▸ Option.some_ne_none _⟩

/-- An incident that stays in its slot keeps its subject, so its depth too (R114). -/
theorem slotDepth_absorbedAt (h : s.freed (s.absorbedAt k i) j = false) : (s.absorbedAt k i).slotDepth j = s.slotDepth j := by
  have hnodes := onTable_nodes (absorbedAt_onTable s k i)
  rw [State.slotDepth, State.slotDepth, hnodes]
  by_cases hj : j = k
  · subst hj
    rw [absorbedAt_slot_self, hk, openedAt_eq]
    rfl
  · cases ho : s.slot j with
    | none => rw [absorbedAt_slot_kept hj (fun x hx => nomatch ho.symm.trans hx), ho]
    | some other =>
      by_cases habs : s.absorbs k (s.openedAt i) j other
      · have ha : other.announced = true := by
          by_contra hn
          exact Bool.false_ne_true (h.symm.trans ((freed_absorbedAt_iff hk).mpr ⟨other, ho, habs, Bool.eq_false_iff.mpr hn⟩))
        rw [absorbedAt_slot_absorbed ho habs, Incident.absorbedBy, if_pos ha]
        rfl
      · rw [absorbedAt_slot_kept hj fun x hx => (Option.some.inj (ho.symm.trans hx)) ▸ habs, ho]

/-! ## The event -/

theorem any_freed_iff : (indices 32).any (s.freed (s.absorbedAt k i)) = true ↔ ∃ j, s.freesAt k (s.openedAt i) j := by
  rw [List.any_eq_true]
  simp [freed_absorbedAt_iff hk]

/-- The event but for its take, as one update: a dirty mark is made where a slot is freed (R125, R126, R136, R146). -/
theorem attackEvent_eq : attackEvent k i s = { coverAtOpening k (s.openedAt i) (s.absorbedAt k i) with
    settle := if (indices 32).any (s.freed (s.absorbedAt k i)) then s.settleAfterMark s.storm else s.settle } := by
  have hframe := (absorbedAt_onTable s k i).1
  have hcloses := absorbedAt_closesInto hk
  have hmade : decide ((s.absorbedAt k i).slotsInUse < s.slotsInUse) = (indices 32).any (s.freed (s.absorbedAt k i)) := by
    rw [Bool.eq_iff_iff, decide_eq_true_iff, hcloses.slotsInUse_lt_iff, List.any_eq_true]
    simp
  have hin : (coverAtOpening k (s.openedAt i) (s.absorbedAt k i)).slotsInUse = (s.absorbedAt k i).slotsInUse := by
    rw [State.slotsInUse, State.slotsInUse, coverAtOpening_slots]
  change markIf (decide ((coverAtOpening k (s.openedAt i) (s.absorbedAt k i)).slotsInUse < s.slotsInUse))
    (coverAtOpening k (s.openedAt i) (s.absorbedAt k i)) = _
  rw [hin, hmade, markIf_eq]
  generalize s.absorbedAt k i = t at hframe
  have hmark : t.settleAfterMark t.storm = s.settleAfterMark s.storm :=
    (congrArg (fun u : State => u.settleAfterMark u.storm) hframe :)
  have hsame : t.settle = s.settle := (congrArg State.settle hframe :)
  rw [← hmark, ← hsame]
  rfl

theorem exec_attackExpiry {w : Window} (hk0 : k ≠ 0) (hp : i.phase = .waiting) (hc : i.close = none) (hw : i.soak = some w)
    (hd : w.due = true) (hf : s.frozen = false) :
    exec (.attackExpiry k) s = .next (finish s (takeNotice (attackEvent k i s))) := by
  have hdue : s.attackDue k i = true := by
    simp [State.attackDue, hk, hk0, hp, hc, hw, isDue_some hd, hf]
  change execAttackExpiry k s = _
  rw [execAttackExpiry, hk]
  exact if_pos hdue

theorem attackEvent_slot (j : Fin 32) : (attackEvent k i s).slot j = (s.absorbedAt k i).slot j := by
  have hslots : (attackEvent k i s).slots = (s.absorbedAt k i).slots := by
    rw [attackEvent_eq hk]
    dsimp only
    rw [coverAtOpening_slots]
  rw [State.slot, State.slot, hslots]

theorem attackEvent_entry (m : Fin 512) : (attackEvent k i s).entry m = { (s.absorbedAt k i).entry m with
    covering := (s.absorbedAt k i).coveringAtOpening k (s.openedAt i) ((s.absorbedAt k i).entry m) } := by
  have hentries : (attackEvent k i s).entries = (coverAtOpening k (s.openedAt i) (s.absorbedAt k i)).entries := by
    rw [attackEvent_eq hk]
  have hentry : (attackEvent k i s).entry m = (coverAtOpening k (s.openedAt i) (s.absorbedAt k i)).entry m := by
    rw [State.entry, State.entry, hentries]
  rw [hentry, coverAtOpening_entry]

/-- The covering field of a terminal that the incident does not cover (R126, R146). -/
theorem attackEvent_covering_other {m : Fin 512} (h : (s.openedAt i).coversTerminal s.nodes (s.entry m) = false) :
    ((attackEvent k i s).entry m).covering = (s.entry m).covering.filter (fun j => !s.freed (s.absorbedAt k i) j) := by
  have hon := absorbedAt_onTable s k i
  rw [attackEvent_entry hk, State.coveringAtOpening, onTable_nodes hon, coversTerminal_covering _ _ (hon.2 m).1, h,
    if_neg Bool.false_ne_true, (absorbedAt_closesInto hk).covering m]

/-- The covering field of a terminal that the incident covers: the nearer of two stays (R126). -/
theorem attackEvent_covering {m : Fin 512} (h : (s.openedAt i).coversTerminal s.nodes (s.entry m) = true) :
    ((attackEvent k i s).entry m).covering =
      some (((s.entry m).covering.filter (fun j => !s.freed (s.absorbedAt k i) j)).elim k
        (fun j => if (s.absorbedAt k i).slotDepth j < (s.openedAt i).subjectDepth s.nodes then k else j)) := by
  have hon := absorbedAt_onTable s k i
  rw [attackEvent_entry hk, State.coveringAtOpening, onTable_nodes hon, coversTerminal_covering _ _ (hon.2 m).1, h,
    (absorbedAt_closesInto hk).covering m]
  dsimp only [if_true]
  cases (s.entry m).covering.filter (fun j => !s.freed (s.absorbedAt k i) j) with
  | none => rfl
  | some j => exact (apply_ite some _ _ _).symm

end

end

/-- Settles O40: the absorptions slot by slot, what their closes leave of the list, the covering fields and the marks, and
then the covering fields that the opening sets. -/
theorem attackExpiryOpensTheIncident : Obligations.AttackExpiryOpensTheIncident := by
  intro s k i opened w hk0 hk hp hc hw hd hf hopened
  obtain rfl : opened = s.openedAt i := hopened.trans (openedAt_eq s i).symm
  have hexec := exec_attackExpiry hk hk0 hp hc hw hd hf
  have hcloses := absorbedAt_closesInto hk
  have hfreed (j : Fin 32) := freed_absorbedAt_iff (j := j) hk
  have hslot := attackEvent_slot hk
  have hgone (j : Fin 32) : s.freed (s.absorbedAt k i) j = true ↔ (attackEvent k i s).slot j = none ∧ s.slot j ≠ none := by
    rw [freed_iff, hslot]
  have hframe := attackEvent_frame k i s
  have hrecovers := attackEvent_recovers k i s
  have hsettle : (attackEvent k i s).settle =
      if (indices 32).any (s.freed (s.absorbedAt k i)) then s.settleAfterMark s.storm else s.settle := by
    rw [attackEvent_eq hk]
  have hmarks : (attackEvent k i s).writeMarks =
      { s.writeMarks with partA := s.writeMarks.partA || (indices 32).any (s.freed (s.absorbedAt k i)) } := by
    rw [← hcloses.marks, attackEvent_eq hk]
    dsimp only
    rw [coverAtOpening_writeMarks]
  have horder : (attackEvent k i s).order = s.order.filter (fun j => !s.freed (s.absorbedAt k i) j) := by
    rw [← hcloses.order, attackEvent_eq hk]
    dsimp only
    rw [coverAtOpening_order]
  have harb : (takeNotice (attackEvent k i s)).arb = s.arb :=
    (congrArg State.arb (takeNotice_frame (attackEvent k i s)) :).trans (congrArg State.arb hframe :)
  obtain ⟨A, ht, hA⟩ := event_update hexec harb
  refine ⟨attackEvent k i s, _, hexec, ?self, fun j other ho hj => ⟨fun h => ?freed, fun habs ha => ?closed, fun habs => ?kept⟩,
    fun j hj => ?free, ?order, fun m => ?entry, fun m hm => ?uncovered, fun m hm => ?covered, fun hno => ?quiet,
    fun hsome => ?marked, ?frame, finish_takesInto s _, ?arb⟩
  case self => rw [hslot, absorbedAt_slot_self]
  case freed => exact ((hgone j).mp ((hfreed j).mpr h)).1
  case closed => rw [hslot, absorbedAt_slot_absorbed ho habs, Incident.absorbedBy, if_pos ha]
  case kept =>
    rw [hslot, absorbedAt_slot_kept hj fun x hx => (Option.some.inj (ho.symm.trans hx)) ▸ habs, ho]
  case free => rw [hslot, hcloses.free j hj]
  case order =>
    rw [horder]
    refine List.filter_congr fun j _ => ?_
    rw [State.freed, ← hslot]
    cases s.slot j <;> cases (attackEvent k i s).slot j <;> rfl
  case entry => rw [(hrecovers m).1]
  case uncovered =>
    rw [attackEvent_covering_other hk hm]
    cases (s.entry m).covering with
    | none => rfl
    | some j =>
      simp only [Option.filter_some, ← hgone]
      cases s.freed (s.absorbedAt k i) j <;> rfl
  case covered =>
    rw [attackEvent_covering hk hm]
    cases (s.entry m).covering with
    | none => rfl
    | some j =>
      simp only [Option.filter_some, ← hgone]
      cases hj : s.freed (s.absorbedAt k i) j with
      | true => simp
      | false => simp [slotDepth_absorbedAt hk hj, apply_ite some]
  case quiet =>
    have hany : (indices 32).any (s.freed (s.absorbedAt k i)) = false := by
      rw [Bool.eq_false_iff, ne_eq, any_freed_iff hk]
      exact fun ⟨j, hj⟩ => hno j hj
    rw [hsettle, hmarks, hany, Bool.or_false]
    exact ⟨rfl, rfl⟩
  case marked =>
    rw [hsettle, hmarks, (any_freed_iff hk).mpr hsome, Bool.or_true]
    exact ⟨rfl, rfl⟩
  case frame => exact hframe
  case arb =>
    rw [Host.Outcome.next.inj (hexec.symm.trans ht)]
    exact hA

end Sys2Proof.Machine
end

