-- ==== Sys2Proof/Proofs/MatchingCovers.lean ====
section
/-! PROOF. What every matching leaves: close-due incidents, covering fields, and the rest of the part (R108, R114, R126,
R128, R143): O35. -/

namespace Sys2Proof.Machine

section
variable {s t : State} {causes : List Cause} {e : Entry} {i x : Incident} {j k : Fin 32}

/-! ## The nearest incident that covers a terminal (R114) -/

/-- `o` is the nearest incident of the list that covers the terminal: of those of the greatest depth the first; or none
does. -/
def State.IsNearest (s : State) (e : Entry) (l : List (Fin 32)) : Option (Fin 32) → Prop
  | none => ∀ k ∈ l, s.slotCovers e k = false
  | some k => ∃ before after, l = before ++ k :: after ∧ s.slotCovers e k = true ∧
      (∀ j ∈ before, s.slotCovers e j = true → s.slotDepth j < s.slotDepth k) ∧
      ∀ j ∈ after, s.slotCovers e j = true → s.slotDepth j ≤ s.slotDepth k

/-- One slot more leaves the nearest as it is, if it covers no terminal or is no deeper. -/
theorem isNearest_snoc_same {l : List (Fin 32)} {o : Option (Fin 32)} (h : s.IsNearest e l o)
    (hk : s.slotCovers e k = true → ∃ j, o = some j ∧ s.slotDepth k ≤ s.slotDepth j) : s.IsNearest e (l ++ [k]) o := by
  cases o with
  | none =>
    intro j hj
    rcases List.mem_append.mp hj with hj | hj
    · exact h j hj
    · rw [List.mem_singleton.mp hj, Bool.eq_false_iff]
      intro hc
      obtain ⟨_, he, -⟩ := hk hc
      cases he
  | some m =>
    obtain ⟨before, after, rfl, hm, hbefore, hafter⟩ := h
    refine ⟨before, after ++ [k], by simp, hm, hbefore, fun j hj hc => ?_⟩
    rcases List.mem_append.mp hj with hj | hj
    · exact hafter j hj hc
    · rw [List.mem_singleton.mp hj] at hc ⊢
      obtain ⟨_, he, hle⟩ := hk hc
      exact (Option.some.inj he) ▸ hle

/-- A slot deeper than the nearest so far is the nearest. -/
theorem isNearest_snoc_new {l : List (Fin 32)} {o : Option (Fin 32)} (h : s.IsNearest e l o) (hk : s.slotCovers e k = true)
    (hdeep : ∀ j, o = some j → s.slotDepth j < s.slotDepth k) : s.IsNearest e (l ++ [k]) (some k) := by
  refine ⟨l, [], rfl, hk, fun j hj hc => ?_, nofun⟩
  cases o with
  | none => exact absurd ((h j hj).symm.trans hc) Bool.false_ne_true
  | some m =>
    have hm := hdeep m rfl
    obtain ⟨before, after, rfl, -, hbefore, hafter⟩ := h
    rcases List.mem_append.mp hj with hj | hj
    · exact (hbefore j hj hc).trans hm
    · rcases List.mem_cons.mp hj with rfl | hj
      · exact hm
      · exact (hafter j hj hc).trans_lt hm

theorem nearestOf_cons (s : State) (e : Entry) (k : Fin 32) (rest : List (Fin 32)) (o : Option (Fin 32)) :
    s.nearestOf e (k :: rest) o = s.nearestOf e rest
      (if s.slotCovers e k && o.all (fun j => decide (s.slotDepth j < s.slotDepth k)) then some k else o) := by
  cases o
  · rfl
  · rfl

theorem isNearest_nearestOf (s : State) (e : Entry) (rest : List (Fin 32)) {l : List (Fin 32)} {o : Option (Fin 32)}
    (h : s.IsNearest e l o) : s.IsNearest e (l ++ rest) (s.nearestOf e rest o) := by
  induction rest generalizing l o with
  | nil => rwa [List.append_nil]
  | cons k rest ih =>
    rw [nearestOf_cons, List.append_cons]
    refine ih ?_
    cases hk : s.slotCovers e k with
    | false => exact isNearest_snoc_same h fun hc => absurd (hk.symm.trans hc) Bool.false_ne_true
    | true =>
      cases o with
      | none => exact isNearest_snoc_new h hk nofun
      | some j =>
        by_cases hj : s.slotDepth j < s.slotDepth k
        · rw [Option.all_some, decide_eq_true hj, Bool.and_self, if_pos rfl]
          exact isNearest_snoc_new h hk fun _ he => (Option.some.inj he) ▸ hj
        · rw [Option.all_some, decide_eq_false hj, Bool.and_false, if_neg Bool.false_ne_true]
          exact isNearest_snoc_same h fun _ => ⟨j, rfl, not_lt.mp hj⟩

theorem isNearest_coveringSlot (s : State) (e : Entry) : s.IsNearest e s.order (s.coveringSlot e) :=
  isNearest_nearestOf s e s.order (l := []) (o := none) nofun

/-- No incident of the list covers the terminal. -/
theorem isNearest_none (h : s.IsNearest e s.order none) (hk : k ∈ s.order) (hi : s.slot k = some i) :
    i.coversTerminal s.nodes e = false := by
  have hc := h k hk
  rw [Bool.eq_false_iff, ne_eq, slotCovers_iff] at hc
  rw [Bool.eq_false_iff]
  exact fun hi' => hc ⟨i, hi, hi'⟩

theorem slotDepth_of_slot (hk : s.slot k = some i) : s.slotDepth k = i.subjectDepth s.nodes := by
  rw [State.slotDepth, hk]
  rfl

/-- The nearest incident by its record. -/
theorem isNearest_some {l : List (Fin 32)} (h : s.IsNearest e l (some k)) : ∃ before after i,
    l = before ++ k :: after ∧ s.slot k = some i ∧ i.coversTerminal s.nodes e = true ∧
    (∀ j ∈ before, ∀ i', s.slot j = some i' → i'.coversTerminal s.nodes e = true →
      i'.subjectDepth s.nodes < i.subjectDepth s.nodes) ∧
    ∀ j ∈ after, ∀ i', s.slot j = some i' → i'.coversTerminal s.nodes e = true →
      i'.subjectDepth s.nodes ≤ i.subjectDepth s.nodes := by
  obtain ⟨before, after, hl, hk, hbefore, hafter⟩ := h
  obtain ⟨i, hi, hcov⟩ := (slotCovers_iff s e k).mp hk
  refine ⟨before, after, i, hl, hi, hcov, fun j hj i' hi' hc => ?_, fun j hj i' hi' hc => ?_⟩
  · have := hbefore j hj ((slotCovers_iff s e j).mpr ⟨i', hi', hc⟩)
    rwa [slotDepth_of_slot hi', slotDepth_of_slot hi] at this
  · have := hafter j hj ((slotCovers_iff s e j).mpr ⟨i', hi', hc⟩)
    rwa [slotDepth_of_slot hi', slotDepth_of_slot hi] at this

/-! ## What covering reads of an incident (R114) -/

/-- What covering reads of an incident. -/
def Incident.cover (i : Incident) : CauseKind × Subject × Phase := (i.kind, i.subject, i.phase)

theorem coversTerminal_of_cover (h : x.cover = i.cover) (nodes : Vector Node 128) (e : Entry) :
    x.coversTerminal nodes e = i.coversTerminal nodes e := by
  simp only [Incident.cover, Prod.mk.injEq] at h
  obtain ⟨hkind, hsubj, hphase⟩ := h
  rw [Incident.coversTerminal, Incident.coversTerminal, Incident.covering, Incident.covering, Incident.aboveTerminal,
    Incident.aboveTerminal, hkind, hsubj, hphase]

theorem subjectDepth_of_cover (h : x.cover = i.cover) (nodes : Vector Node 128) :
    x.subjectDepth nodes = i.subjectDepth nodes := by
  rw [Incident.subjectDepth, Incident.subjectDepth, show x.subject = i.subject from congrArg (·.2.1) h]

/-- The two tables are one to covering: list, nodes, and what covering reads of each slot. -/
structure State.SameCover (s t : State) : Prop where
  order : t.order = s.order
  nodes : t.nodes = s.nodes
  slot : ∀ k, (t.slot k).map Incident.cover = (s.slot k).map Incident.cover

/-- A test of an incident that reads what covering reads is one in both tables. -/
theorem State.SameCover.map_slot (h : s.SameCover t) {β : Type} {f : Incident → β}
    (hf : ∀ x i : Incident, x.cover = i.cover → f x = f i) (k : Fin 32) : (t.slot k).map f = (s.slot k).map f := by
  have hk := h.slot k
  cases ht : t.slot k with
  | none =>
    cases hs : s.slot k with
    | none => rfl
    | some i => rw [ht, hs] at hk; cases hk
  | some x =>
    cases hs : s.slot k with
    | none => rw [ht, hs] at hk; cases hk
    | some i =>
      rw [ht, hs] at hk
      exact congrArg some (hf x i (Option.some.inj hk))

theorem State.SameCover.coveringSlot (h : s.SameCover t) (e : Entry) : t.coveringSlot e = s.coveringSlot e := by
  have hcovers (k : Fin 32) : t.slotCovers e k = s.slotCovers e k := by
    rw [State.slotCovers, State.slotCovers, h.nodes,
      h.map_slot (f := fun i => i.coversTerminal s.nodes e) fun x i hxi => coversTerminal_of_cover hxi s.nodes e]
  have hdepth (k : Fin 32) : t.slotDepth k = s.slotDepth k := by
    rw [State.slotDepth, State.slotDepth, h.nodes,
      h.map_slot (f := fun i => i.subjectDepth s.nodes) fun x i hxi => subjectDepth_of_cover hxi s.nodes]
  have hnearest (l : List (Fin 32)) (o : Option (Fin 32)) : t.nearestOf e l o = s.nearestOf e l o := by
    induction l generalizing o with
    | nil => rfl
    | cons k l ih =>
      rw [nearestOf_cons, nearestOf_cons, hcovers, ih]
      simp only [hdepth]
  rw [State.coveringSlot, State.coveringSlot, h.order, hnearest]

/-- The nearest search does not read the covering field itself (R114). -/
theorem coveringSlot_covering (s : State) {e e' : Entry} {o : Option (Fin 32)} (h : e' = { e with covering := o }) :
    s.coveringSlot e' = s.coveringSlot e := by
  have hcovers (k : Fin 32) : s.slotCovers e' k = s.slotCovers e k := by
    rw [State.slotCovers, State.slotCovers]
    simp only [coversTerminal_covering _ _ h]
  have hnearest (l : List (Fin 32)) (o : Option (Fin 32)) : s.nearestOf e' l o = s.nearestOf e l o := by
    induction l generalizing o with
    | nil => rfl
    | cons k l ih => rw [nearestOf_cons, nearestOf_cons, hcovers, ih]
  rw [State.coveringSlot, State.coveringSlot, hnearest]

/-! ## The last stages and the take -/

theorem evaluated_cover (s : State) (old : Option Incident) (i : Incident) : (s.evaluated old i).cover = i.cover := by
  by_cases hc : i.close = none
  · rw [evaluated_open hc]
    rfl
  · rw [evaluated_close hc]

theorem taken_cover (i : Incident) (d : NoticeKind) : (i.taken d).cover = i.cover := by
  cases d
  · rfl
  · rfl
  · rfl
  · rfl

/-- What a take makes of a slot: nothing, or its marks (R153). -/
theorem takeNotice_slot (s : State) (k : Fin 32) : (takeNotice s).slot k = s.slot k ∨
    ∃ i d, s.slot k = some i ∧ (takeNotice s).slot k = some (i.taken d) := by
  rcases takeNotice_cases s with h | ⟨-, r, -, h⟩ | ⟨-, -, j, i, d, hch, h⟩
  · exact .inl (by rw [h])
  · exact .inl (by rw [h]; rfl)
  · have hslot : (takeNotice s).slot k = if j = k then some (i.taken d) else s.slot k := by
      rw [h]
      exact putSlot_slot s j k (i.taken d)
    by_cases hj : j = k
    · subst hj
      exact .inr ⟨i, d, (chosen_slot hch).2.1, hslot.trans (if_pos rfl)⟩
    · exact .inl (hslot.trans (if_neg hj))

theorem takeNotice_sameCover (s : State) : s.SameCover (takeNotice s) := by
  refine ⟨(congrArg State.order (takeNotice_frame s) :), (congrArg State.nodes (takeNotice_frame s) :), fun k => ?_⟩
  rcases takeNotice_slot s k with h | ⟨i, d, hi, h⟩
  · rw [h]
  · rw [h, hi, Option.map_some, Option.map_some, taken_cover]

/-- The evaluations of the last stage are none to covering (R108). -/
theorem matchingEvent_sameCover (causes : List Cause) (s : State) : (s.afterStage5 causes).SameCover (matchingEvent causes s) := by
  refine ⟨matchingEvent_order_eq causes s, ?_, fun k => ?_⟩
  · rw [matchingEvent_eq]
    rfl
  · rw [matchingEvent_slot, Option.map_map]
    exact congrArg (fun f => Option.map f ((s.afterStage5 causes).slot k)) (funext fun i => evaluated_cover s _ i)

/-- The covering field of a provisioned terminal names its covering incident after the matching (R126). -/
theorem matchingEvent_covering {m : Fin 512} (hp : (s.entry m).provisioned = true) :
    ((matchingEvent causes s).entry m).covering = (matchingEvent causes s).coveringSlot (s.entry m) := by
  have hentry := ((afterStage5_onTable s causes).2 m).1
  have hprov : ((s.afterStage5 causes).entry m).provisioned = true := (congrArg Entry.provisioned hentry :).trans hp
  have hwritten : (matchingEvent causes s).entry m = (rewriteCovering (s.afterStage5 causes)).entry m := by
    rw [matchingEvent_eq]
    rfl
  rw [hwritten, rewriteCovering_entry, State.rewrittenCovering, hprov, if_pos rfl, coveringSlot_covering _ hentry,
    (matchingEvent_sameCover causes s).coveringSlot]

/-! ## Close-due incidents -/

/-- A close-due residue is not recounted (R123). -/
theorem residueRecount_closeDue (v : Unplaced) (hs : s.slot 0 = some i) (hc : i.close ≠ none) : residueRecount v s = s := by
  unfold residueRecount
  rw [hs]
  exact if_pos (Option.isSome_iff_ne_none.mpr hc)

/-- A matching leaves a close-due incident as it is (R119, R143). -/
theorem matchingEvent_closeDue (hs : s.slot k = some i) (hc : i.close ≠ none) : (matchingEvent causes s).slot k = some i := by
  have h2 : (s.afterStage2 (s.keptCauses causes)).slot k = some i := by
    rw [afterStage2_slot, hs, Option.bind_some, matchedTo_kept (.inr hc)]
  have h3 : (matchAll (s.keptCauses causes) s).slot k = some i := by
    rw [matchAll_eq, foldl_absorbRecurred_settled, h2]
    intro x hx
    exact (Option.some.inj (h2.symm.trans hx)) ▸ hc
  have h4 : (s.afterStage4 causes).1.slot k = some i := by
    rcases placeCauses_slot_cases (onTable_matchAll (onTable_refl s) (s.keptCauses causes)) (s.toPlace causes) k with
      he | ⟨hnone, -⟩
    · exact he.trans h3
    · exact absurd (h3.symm.trans hnone) (Option.some_ne_none i)
  have h5 : (s.afterStage5 causes).slot k = some i := by
    rw [State.afterStage5]
    by_cases hk : k = 0
    · subst hk
      rw [residueRecount_closeDue _ h4 hc, h4]
    · rw [residueRecount_slot _ hk, h4]
  rw [matchingEvent_slot, h5, Option.map_some, evaluated_close hc]

theorem takeNotice_closeDue (hs : s.slot k = some i) : ∃ x, (takeNotice s).slot k = some x ∧
    { x with updateDue := i.updateDue, openDue := i.openDue, announced := i.announced, recurred := i.recurred } = i := by
  rcases takeNotice_slot s k with h | ⟨y, d, hy, h⟩
  · exact ⟨i, h.trans hs, rfl⟩
  · obtain rfl := Option.some.inj (hs.symm.trans hy)
    refine ⟨_, h, ?_⟩
    cases d
    · rfl
    · rfl
    · rfl
    · rfl

end

/-- The state `s` with all that a PASS_MATCHING may change as in `s0` (R108, R161). -/
def State.withMatching (s0 s : State) : State :=
  { s0.withIncidents s with pass := s0.pass, notice := s0.notice, restart := s0.restart, arb := s0.arb }

/-- Settles O35: the event as one update, with the covering fields by the nearest search, which the evaluations and the
take do not touch. -/
theorem passMatchingEndsThePass : Obligations.PassMatchingEndsThePass := by
  intro s causes hpass
  have hframe := matchingEvent_frame causes s
  have hrecovers := matchingEvent_recovers causes s
  have hcovering {m : Fin 512} (hp : (s.entry m).provisioned = true) := matchingEvent_covering (causes := causes) hp
  have hclose {k : Fin 32} {i : Incident} (hs : s.slot k = some i) (hc : i.close ≠ none) :=
    matchingEvent_closeDue (causes := causes) hs hc
  have hended : (matchingEvent causes s).pass = none := by rw [matchingEvent_eq]
  have hexec := exec_passMatching hpass
  generalize matchingEvent causes s = u at hframe hrecovers hcovering hclose hended hexec
  have htake := takeNotice_frame u
  have hsame := takeNotice_sameCover u
  have hentries := takeNotice_entries u
  have hmarks {k : Fin 32} {i : Incident} (hs : u.slot k = some i) := takeNotice_closeDue hs
  generalize takeNotice u = v at htake hsame hentries hmarks hexec
  have harb : v.arb = s.arb := (congrArg State.arb htake :).trans (congrArg State.arb hframe :)
  obtain ⟨A, ht, hA⟩ := event_update hexec harb
  have hentry (m : Fin 512) : v.entry m = u.entry m := by rw [State.entry, State.entry, hentries]
  have hnodes : v.nodes = s.nodes := hsame.nodes.trans (congrArg State.nodes hframe :)
  have hnearest {m : Fin 512} (hp : (s.entry m).provisioned = true) :
      v.IsNearest (s.entry m) v.order (v.entry m).covering := by
    rw [hentry, hcovering hp, ← hsame.coveringSlot]
    exact isNearest_coveringSlot v (s.entry m)
  refine ⟨_, ht, ?ended, fun m => ?entries, fun k i hs hc => hmarks (hclose hs hc), fun m hp hnone k hk i hi => ?uncovered,
    fun m k hp hsome => ?covered, fun m hu hn => ?unprovisioned, hA, ?frame⟩
  case ended => exact (congrArg State.pass htake :).trans hended
  case entries =>
    show { v.entry m with covering := (s.entry m).covering } = s.entry m
    rw [hentry, (hrecovers m).1]
  case uncovered =>
    have h := hnearest hp
    rw [show (v.entry m).covering = none from hnone] at h
    exact hnodes ▸ isNearest_none h hk hi
  case covered =>
    have h := hnearest hp
    rw [show (v.entry m).covering = some k from hsome] at h
    exact hnodes ▸ isNearest_some h
  case unprovisioned =>
    show (v.entry m).covering = none
    rw [hentry]
    exact (hrecovers m).2 hu hn
  case frame =>
    have hv : s.withMatching v = s.withMatching u := (congrArg s.withMatching htake :)
    have hu : s.withMatching u = s := (congrArg s.withMatching hframe :)
    exact hv.trans hu

end Sys2Proof.Machine
end

