-- ==== Sys2Proof/Proofs/ResidueRecount.lean ====
section
/-! PROOF. The residue's recount where nothing recurs (R123, R147, R150, R152): O39. -/

namespace Sys2Proof.Machine

section
variable {s : State} {causes : List Cause} {r : Incident}

/-! ## The recount by what slot 0 holds (R123, R147) -/

theorem residueRecount_absent (hs : s.slot 0 = none) : residueRecount Unplaced.none s = s := by
  unfold residueRecount
  rw [hs]
  exact if_pos rfl

theorem residueRecount_opens {v : Unplaced} (hs : s.slot 0 = none) (hv : v ≠ Unplaced.none) :
    residueRecount v s = createIncident 0 (s.newResidue v) s := by
  unfold residueRecount
  rw [hs]
  exact if_neg hv

theorem residueRecount_closes (hs : s.slot 0 = some r) (hc : r.close = none) :
    residueRecount Unplaced.none s = closeIncident 0 .cleared 0 { r with unplaced := Unplaced.none } s := by
  unfold residueRecount
  rw [hs]
  dsimp only
  rw [if_neg (by simp [hc]), if_pos rfl]

theorem residueRecount_recounts {v : Unplaced} (hs : s.slot 0 = some r) (hc : r.close = none) (hv : v ≠ Unplaced.none) :
    residueRecount v s = s.putSlot 0 { r with unplaced := v } := by
  unfold residueRecount
  rw [hs]
  dsimp only
  rw [if_neg (by simp [hc]), if_neg hv]

/-! ## The unplaced counts (R123) -/

theorem countFamily_dark (l : List Cause) : countFamily l .dark =
    l.countP (fun c => c.kind = .trunkLoss ∨ c.kind = .branchDark ∨ c.kind = .terminalDark) :=
  List.countP_congr fun c _ => by cases c.kind <;> simp [CauseKind.family]

theorem countFamily_power (l : List Cause) : countFamily l .power =
    l.countP (fun c => c.kind = .mainsLoss ∨ c.kind = .terminalPower) :=
  List.countP_congr fun c _ => by cases c.kind <;> simp [CauseKind.family]

theorem countFamily_dim (l : List Cause) : countFamily l .dim =
    l.countP (fun c => c.kind = .branchDim ∨ c.kind = .terminalDim) :=
  List.countP_congr fun c _ => by cases c.kind <;> simp [CauseKind.family]

/-- The counts do not read the order of the unplaced causes (R123). -/
theorem unplacedCounts_perm {l l' : List Cause} (h : l.Perm l') : unplacedCounts l = unplacedCounts l' := by
  have hcount (f : Family) : countFamily l f = countFamily l' f := h.countP_eq _
  rw [unplacedCounts, unplacedCounts, hcount, hcount, hcount]

/-! ## Slot 0 after the matching -/

section
variable (hnone : ∀ k, ¬ s.recurs causes k)
include hnone

theorem afterStage5_eq : s.afterStage5 causes =
    residueRecount (unplacedCounts (s.unplacedCauses causes)) (s.afterStage4 causes).1 := by
  rw [State.afterStage5, unplacedCounts_perm (afterStage4_snd hnone)]

theorem matchingEvent_slot_zero : (matchingEvent causes s).slot 0 =
    ((residueRecount (unplacedCounts (s.unplacedCauses causes)) (s.afterStage4 causes).1).slot 0).map
      (s.evaluated (s.slot 0)) := by
  rw [matchingEvent_slot, afterStage5_eq hnone]

end

theorem newResidue_onTable {t : State} (h : s.onTable t) (v : Unplaced) :
    t.newResidue v = { s.newResidue v with number := t.freshNumber } := by
  rw [State.newResidue, State.newResidue, onTable_time h]

/-- The evaluation of a new residue: its flags and its predicate's test (R148, R150). -/
theorem evaluated_newResidue (s t : State) (v : Unplaced) :
    s.evaluated none (t.newResidue v) = { s.reflagged (t.newResidue v) with
      openDue := s.permitted (s.reflagged (t.newResidue v))
      withheld := !s.permitted (s.reflagged (t.newResidue v)) } := by
  rw [evaluated_open (show (t.newResidue v).close = none from rfl)]
  rfl

/-- What makes an update of a residue due (R152): its counts and its flags. -/
theorem residue_updates (s : State) (r : Incident) (v : Unplaced) :
    (s.reflagged { r with unplaced := v }).updates (some r) = true ↔
      (r.announced = true ∨ r.openDue = true) ∧
        (v ≠ r.unplaced ∨ s.subjectUnderMaint { r with unplaced := v } ≠ r.maint ∨ s.storm ≠ r.storm) := by
  have hphase : ¬ (r.phase = .clearing ∧ r.phase = .opened) := fun ⟨hc, ho⟩ => nomatch hc.symm.trans ho
  rw [Incident.updates, Bool.and_eq_true, Bool.or_eq_true, Option.map_some, Option.getD_some, updateReasons_iff]
  simp only [State.reflagged, ne_eq, not_true, false_or, hphase, or_false]
  rw [← or_assoc, or_comm (a := _ ∨ _)]

end

/-- Settles O39: no stage before the recount touches slot 0, so the recount and the evaluation decide it. -/
theorem residueCountsTheUnplaced : Obligations.ResidueCountsTheUnplaced := by
  intro s causes counts hpass hlaw ho hnone hdark hpower hdim
  obtain ⟨hlaws, -, hcauses⟩ := hlaw
  have hcounts : counts = unplacedCounts (s.unplacedCauses causes) := by
    rw [unplacedCounts, countFamily_dark, countFamily_power, countFamily_dim, ← hdark, ← hpower, ← hdim]
  have hslot := matchingEvent_slot_zero hnone
  have hzero := afterStage4_slot_zero hnone
  have hon : s.onTable (s.afterStage4 causes).1 := onTable_placeCauses (onTable_matchAll (onTable_refl s) _) _
  rw [← hcounts] at hslot
  refine ⟨matchingEvent causes s, _, exec_passMatching hpass, finish_takesInto s _, fun h0 hz => ?absent,
    fun h0 hne => ?opens, fun r h0 hc => matchingEvent_closeDue h0 hc, fun r h0 hc hz => ⟨fun ha => ?cleared, fun ha => ?freed⟩,
    fun r h0 hc hne => ?recounted⟩
  case absent =>
    have hz : counts = Unplaced.none := hz
    rw [hslot, hz, residueRecount_absent (hzero.trans h0), hzero, h0, Option.map_none]
  case opens =>
    rw [residueRecount_opens (hzero.trans h0) hne, createIncident_slot, if_pos rfl, Option.map_some, h0,
      evaluated_newResidue] at hslot
    refine ⟨_, hslot, ?_⟩
    rw [newResidue_onTable hon]
    rfl
  case cleared =>
    have hz : counts = Unplaced.none := hz
    rw [hslot, hz, residueRecount_closes (hzero.trans h0) hc, closeIncident_slot_same, if_pos ha, Option.map_some,
      evaluated_close (Option.some_ne_none _)]
  case freed =>
    have hz : counts = Unplaced.none := hz
    have hends := residueRecount_closes (hzero.trans h0) hc
    refine ⟨?_, ?_⟩
    · rw [hslot, hz, hends, closeIncident_slot_same, if_neg (Bool.eq_false_iff.mp ha), Option.map_none]
    · rw [matchingEvent_order_eq, afterStage5_eq hnone, ← hcounts, hz, hends, closeIncident,
        if_neg (Bool.eq_false_iff.mp ha), mem_freeSlot_order]
      exact fun h => h.2 rfl
  case recounted =>
    obtain ⟨-, hresidue, -⟩ := hlaws 0 r h0
    obtain ⟨hphase, hsubj⟩ := hresidue rfl
    rw [residueRecount_recounts (hzero.trans h0) hc hne, putSlot_slot, if_pos rfl, Option.map_some, h0,
      evaluated_open (show ({ r with unplaced := counts } : Incident).close = none from hc)] at hslot
    refine ⟨_, hslot, rfl, subjectUnderMaint_nothing s hsubj, rfl, ?update, fun ha hd => ?tested, fun hnot => ?untested, rfl⟩
    case update => rw [Bool.or_eq_true, residue_updates]; exact Iff.rfl
    case tested =>
      have ht : ({ r with unplaced := counts } : Incident).testable = true := (testable_iff _).mpr ⟨hphase, ha, hd⟩
      simp only [ht, if_true]
      exact ⟨rfl, rfl⟩
    case untested =>
      have ht : ({ r with unplaced := counts } : Incident).testable = false := by
        rw [Bool.eq_false_iff, ne_eq, testable_iff]
        rintro ⟨-, ha, hd⟩
        rcases hnot with h | h
        · exact Bool.false_ne_true (ha.symm.trans h)
        · exact Bool.false_ne_true (hd.symm.trans h)
      simp only [ht, Bool.false_eq_true, if_false]
      exact ⟨trivial, trivial⟩

end Sys2Proof.Machine
end

