-- ==== Sys2Proof/Proofs/TableBooks.lean ====
section
/-! PROOF. Every step keeps the creation-order list exact and the incident numbers distinct and non-zero (O7). Both laws
read of the Incident Table only which number stands in which slot, so each event is judged by what it does to that: keep
it, free a slot, or fill a free slot with the next number that no incident holds. -/

namespace Sys2Proof.Machine

variable {s t u : State} {k : Fin 32} {i : Incident}

/-! ## What the laws read -/

/-- The number of the incident in a slot. -/
def State.numberAt (s : State) (k : Fin 32) : Option Nat := (s.slot k).map Incident.number

/-- What the laws of the creation-order list and of the numbers read (R132, R133). -/
def State.books (s : State) : (Fin 32 → Option Nat) × List (Fin 32) × Nat := (s.numberAt, s.order, s.nextNumber)

theorem books_ext (hn : ∀ k, t.numberAt k = s.numberAt k) (ho : t.order = s.order) (hx : t.nextNumber = s.nextNumber) :
    t.books = s.books := by
  rw [State.books, funext hn, ho, hx, State.books]

theorem orderLaw_iff (s : State) :
    s.orderLaw ↔ s.order.Nodup ∧ ∀ k, k ∈ s.order ↔ (s.numberAt k).isSome = true := by
  simp only [State.orderLaw, State.numberAt, Option.isSome_map]

theorem numberLaw_iff (s : State) : s.numberLaw ↔ 1 ≤ s.nextNumber ∧ s.nextNumber ≤ 65535 ∧
    (∀ k n, s.numberAt k = some n → 1 ≤ n ∧ n ≤ 65535) ∧
    ∀ j k n, s.numberAt j = some n → s.numberAt k = some n → j = k := by
  simp only [State.numberLaw, State.numberAt, Option.map_eq_some_iff]
  constructor
  · rintro ⟨hlow, hhigh, hrange, hinj⟩
    refine ⟨hlow, hhigh, ?_, ?_⟩
    · rintro k _ ⟨i, hi, rfl⟩
      exact hrange k i hi
    · rintro j k _ ⟨i, hi, rfl⟩ ⟨i', hi', hn⟩
      exact hinj j k i i' hi hi' hn.symm
  · rintro ⟨hlow, hhigh, hrange, hinj⟩
    exact ⟨hlow, hhigh, fun k i hi => hrange k _ ⟨i, hi, rfl⟩,
      fun j k i i' hi hi' hn => hinj j k _ ⟨i, hi, rfl⟩ ⟨i', hi', hn.symm⟩⟩

theorem numberHeld_of_numberAt {n : Nat} (h : s.numberAt k = some n) : s.numberHeld n = true := by
  obtain ⟨i, hi, hn⟩ := Option.map_eq_some_iff.mp h
  exact (numberHeld_iff s n).mpr ⟨k, i, hi, hn⟩

/-! ## The two laws together -/

/-- Each of the two laws carries over from one state to the next, by itself. -/
def State.booksKept (s t : State) : Prop := (s.orderLaw → t.orderLaw) ∧ (s.numberLaw → t.numberLaw)

theorem booksKept_refl (s : State) : s.booksKept s := ⟨id, id⟩

theorem booksKept_trans (h : s.booksKept t) (h' : t.booksKept u) : s.booksKept u := ⟨h'.1 ∘ h.1, h'.2 ∘ h.2⟩

/-- An event that leaves every number in its slot, the list and the counter keeps the laws. -/
theorem booksKept_of_books (h : t.books = s.books) : s.booksKept t := by
  simp only [State.books, Prod.mk.injEq] at h
  obtain ⟨hn, ho, hx⟩ := h
  refine ⟨fun hs => ?_, fun hs => ?_⟩
  · rw [orderLaw_iff] at hs ⊢
    rwa [hn, ho]
  · rw [numberLaw_iff] at hs ⊢
    rwa [hn, hx]

/-- A fold of events that each keep the laws. -/
theorem booksKept_foldl {α : Type} {f : State → α → State} (hf : ∀ (s : State) a, s.booksKept (f s a)) (l : List α)
    (s : State) : s.booksKept (l.foldl f s) := by
  induction l generalizing s with
  | nil => exact booksKept_refl s
  | cons a l ih => exact booksKept_trans (hf s a) (ih _)

/-- An empty table keeps the laws. -/
theorem booksKept_of_empty (hk : ∀ k, t.slot k = none) (ho : t.order = []) (hx : t.nextNumber = s.nextNumber) :
    s.booksKept t := by
  have hn (k : Fin 32) : t.numberAt k = none := by rw [State.numberAt, hk, Option.map_none]
  refine ⟨fun _ => ?_, fun hs => ?_⟩
  · rw [orderLaw_iff]
    simp [ho, hn]
  · rw [numberLaw_iff] at hs ⊢
    obtain ⟨hlow, hhigh, -, -⟩ := hs
    simp [hx, hn, hlow, hhigh]

/-! ## One slot -/

theorem numberAt_of_slot (h : s.slot k = some i) : s.numberAt k = some i.number := by
  rw [State.numberAt, h, Option.map_some]

/-- An incident changed in its slot keeps its number (R133). -/
theorem putSlot_books {i' : Incident} (hk : s.slot k = some i) (hn : i'.number = i.number) :
    (s.putSlot k i').books = s.books := by
  refine books_ext (fun j => ?_) rfl rfl
  rw [State.numberAt, putSlot_slot]
  split
  · next hkj => rw [← hkj, Option.map_some, hn, numberAt_of_slot hk]
  · rfl

/-- A freed slot leaves the list (R132, R146). -/
theorem freeSlot_booksKept (k : Fin 32) (s : State) : s.booksKept (freeSlot k s) := by
  have hat (j : Fin 32) : (freeSlot k s).numberAt j = if k = j then none else s.numberAt j := by
    rw [State.numberAt, freeSlot_slot, apply_ite (Option.map Incident.number), Option.map_none, State.numberAt]
  refine ⟨fun hs => ?_, fun hs => ?_⟩
  · obtain ⟨hnodup, hmem⟩ := (orderLaw_iff s).mp hs
    refine (orderLaw_iff _).mpr ⟨freeSlot_order_nodup k hnodup, fun j => ?_⟩
    rw [mem_freeSlot_order, hat, hmem]
    by_cases hj : k = j
    · simp [hj]
    · simp [hj, Ne.symm hj]
  · obtain ⟨hlow, hhigh, hrange, hinj⟩ := (numberLaw_iff s).mp hs
    have hkept {j : Fin 32} {n : Nat} (h : (freeSlot k s).numberAt j = some n) : s.numberAt j = some n := by
      rw [hat] at h
      split at h
      · cases h
      · exact h
    exact (numberLaw_iff _).mpr ⟨hlow, hhigh, fun j n hj => hrange j n (hkept hj),
      fun j j' n hj hj' => hinj j j' n (hkept hj) (hkept hj')⟩

theorem nextNumberAfter_range {n : Nat} (h : 1 ≤ n) : 1 ≤ nextNumberAfter n ∧ nextNumberAfter n ≤ 65535 := by
  unfold nextNumberAfter
  split <;> omega

/-- A new incident in a free slot joins the list at its end, under a number that no incident holds (R122, R132,
R133). -/
theorem createIncident_booksKept (hk : s.slot k = none) (hi : i.number = s.freshNumber) :
    s.booksKept (createIncident k i s) := by
  have hnone : s.numberAt k = none := by rw [State.numberAt, hk, Option.map_none]
  have hat (j : Fin 32) : (createIncident k i s).numberAt j = if k = j then some s.freshNumber else s.numberAt j := by
    rw [State.numberAt, createIncident_slot, apply_ite (Option.map Incident.number), Option.map_some, hi,
      State.numberAt]
  refine ⟨fun hs => ?_, fun hs => ?_⟩
  · obtain ⟨hnodup, hmem⟩ := (orderLaw_iff s).mp hs
    have hnew : k ∉ s.order := by simp [hmem, hnone]
    have hends : (s.order ++ [k]).Nodup := List.concat_eq_append ▸ hnodup.concat hnew
    refine (orderLaw_iff _).mpr ⟨hends, fun j => ?_⟩
    rw [createIncident_order, List.mem_append, List.mem_singleton, hat, hmem]
    by_cases hj : k = j
    · simp [hj]
    · simp [hj, Ne.symm hj]
  · obtain ⟨hlow, hhigh, hrange, hinj⟩ := (numberLaw_iff s).mp hs
    obtain ⟨d, -, hnum, hfree, -⟩ := freshNumber_spec hlow hhigh
    have hfresh : 1 ≤ s.freshNumber ∧ s.freshNumber ≤ 65535 := hnum ▸ ⟨numberFrom_pos _ d, numberFrom_le _ d⟩
    have hother {j : Fin 32} : s.numberAt j ≠ some s.freshNumber := fun h =>
      Bool.false_ne_true (hfree.symm.trans (numberHeld_of_numberAt h))
    obtain ⟨hlow', hhigh'⟩ := nextNumberAfter_range (hi ▸ hfresh.1)
    refine (numberLaw_iff _).mpr ⟨hlow', hhigh', fun j n hj => ?range, fun j j' n hj hj' => ?distinct⟩
    case range =>
      rw [hat] at hj
      split at hj
      · exact Option.some.inj hj ▸ hfresh
      · exact hrange j n hj
    case distinct =>
      rw [hat] at hj hj'
      split at hj
      · next hkj =>
        obtain rfl := Option.some.inj hj
        split at hj'
        · next hkj' => exact hkj.symm.trans hkj'
        · exact absurd hj' hother
      · split at hj'
        · obtain rfl := Option.some.inj hj'
          exact absurd hj hother
        · exact hinj j j' n hj hj'

/-! ## Closes and absorptions -/

theorem closeIncident_booksKept {x : Incident} (hk : s.slot k = some x) (hn : i.number = x.number) (r : CloseReason)
    (n : Nat) : s.booksKept (closeIncident k r n i s) := by
  rcases closeIncident_cases k r n i s with ⟨-, h⟩ | ⟨-, h⟩
  · rw [h]
    exact booksKept_of_books (putSlot_books hk hn)
  · rw [h]
    exact freeSlot_booksKept k s

theorem absorbAll_booksKept (k : Fin 32) (i : Incident) (s : State) : s.booksKept (absorbAll k i s) := by
  refine booksKept_foldl (fun s j => ?_) _ s
  rcases absorbSlot_cases k i s j with h | ⟨other, ho, -, h⟩
  · rw [h]
    exact booksKept_refl s
  · rw [h]
    exact closeIncident_booksKept ho rfl _ _

theorem reconfigureSlot_booksKept (s : State) (k : Fin 32) : s.booksKept (reconfigureSlot s k) := by
  unfold reconfigureSlot
  split
  · exact booksKept_refl s
  · next i hi =>
    split
    · exact closeIncident_booksKept hi rfl _ _
    · exact booksKept_refl s

/-! ## Matching -/

theorem present_number (i : Incident) (c : Cause) : (i.present c).number = i.number := by
  unfold Incident.present
  split <;> rfl

theorem matchSlot_booksKept (causes : List Cause) (s : State) (k : Fin 32) : s.booksKept (matchSlot causes s k) := by
  rcases matchSlot_cases causes s k with h | ⟨i, hi, -, -, ⟨c, -, -, h⟩ | ⟨-, ⟨-, h⟩ | ⟨-, h⟩⟩⟩
  · rw [h]
    exact booksKept_refl s
  · rw [h]
    exact booksKept_of_books (putSlot_books hi (present_number i c))
  · rw [h]
    exact freeSlot_booksKept k s
  · rw [h]
    exact booksKept_of_books (putSlot_books hi rfl)

theorem absorbRecurred_booksKept (s : State) (k : Fin 32) : s.booksKept (absorbRecurred s k) := by
  unfold absorbRecurred
  split
  · exact booksKept_refl s
  · split
    · exact absorbAll_booksKept k _ s
    · exact booksKept_refl s

theorem matchAll_booksKept (causes : List Cause) (s : State) : s.booksKept (matchAll causes s) :=
  booksKept_trans (booksKept_foldl (matchSlot_booksKept causes) _ s) (booksKept_foldl absorbRecurred_booksKept _ _)

theorem placeCauses_booksKept (causes : List Cause) (s : State) : s.booksKept (placeCauses causes s).1 := by
  induction causes generalizing s with
  | nil => exact booksKept_refl s
  | cons c rest ih =>
    unfold placeCauses
    split
    · exact ih s
    · split
      · next k hk => exact booksKept_trans (createIncident_booksKept (freeOrdinary_some hk).2 rfl) (ih _)
      · exact ih s

theorem residueRecount_booksKept (v : Unplaced) (s : State) : s.booksKept (residueRecount v s) := by
  rcases residueRecount_cases v s with h | ⟨h0, -, h⟩ | ⟨i, hi, -, ⟨-, h⟩ | ⟨-, h⟩⟩
  · rw [h]
    exact booksKept_refl s
  · rw [h]
    exact createIncident_booksKept h0 rfl
  · rw [h]
    exact closeIncident_booksKept (i := { i with unplaced := v }) hi rfl _ _
  · rw [h]
    exact booksKept_of_books (putSlot_books hi rfl)

theorem tested_number (s : State) (i : Incident) : (s.tested i).number = i.number := by
  unfold State.tested
  split <;> rfl

theorem evaluated_number (s : State) (old : Option Incident) (i : Incident) :
    (s.evaluated old i).number = i.number := by
  by_cases hc : i.close = none
  · rw [evaluated_open hc]
    rfl
  · rw [evaluated_close hc]

theorem evaluateAll_books (s0 s : State) : (evaluateAll s0 s).books = s.books := by
  refine books_ext (fun k => ?_) rfl rfl
  rw [State.numberAt, evaluateAll_slot, Option.map_map, State.numberAt]
  exact congrArg (Option.map · (s.slot k)) (funext (evaluated_number s (s0.slot k)))

/-- A matching keeps the laws, stage by stage (R108). -/
theorem matchingEvent_booksKept (causes : List Cause) (s : State) : s.booksKept (matchingEvent causes s) := by
  have hstages : s.booksKept (s.afterStage5 causes) :=
    booksKept_trans (matchAll_booksKept _ s)
      (booksKept_trans (placeCauses_booksKept _ _) (residueRecount_booksKept _ _))
  rw [matchingEvent_eq]
  exact booksKept_trans hstages (booksKept_of_books (evaluateAll_books s (rewriteCovering (s.afterStage5 causes))))

/-! ## Soak expiries and the completion -/

theorem markIf_books (made : Bool) (s : State) : (markIf made s).books = s.books := by
  rw [markIf_eq]
  rfl

theorem attackEvent_booksKept (h : s.attackDue k i = true) : s.booksKept (attackEvent k i s) := by
  obtain ⟨hk, -⟩ := attackDue_slot h
  simp only [attackEvent]
  generalize hopened : s.tested { i with phase := .opened, soak := none } = opened
  have hn : opened.number = i.number := by rw [← hopened, tested_number]
  have habsorb : s.booksKept (absorbAll k opened (s.putSlot k opened)) :=
    booksKept_trans (booksKept_of_books (putSlot_books hk hn)) (absorbAll_booksKept k opened _)
  generalize absorbAll k opened (s.putSlot k opened) = v at habsorb ⊢
  exact booksKept_trans habsorb (booksKept_of_books (markIf_books _ (coverAtOpening k opened v)))

theorem releaseEvent_booksKept (h : s.releaseDue k i = true) : s.booksKept (releaseEvent k i s) :=
  booksKept_trans (closeIncident_booksKept (releaseDue_slot h) rfl .cleared 0) (booksKept_of_books (markIf_books _ _))

/-- A COMMIT completion before its take changes the table by the RECONFIGURED closes alone (R145, R183). -/
theorem completionBeforeTake_booksKept (l : Load) (s : State) : s.booksKept (completionBeforeTake l s) := by
  have hcloses : s.booksKept (completionClosed s) := by
    rw [completionClosed, closeGone_eq]
    exact booksKept_trans (t := { s with nodes := s.rebuiltNodes }) (booksKept_of_books rfl)
      (booksKept_foldl reconfigureSlot_booksKept _ _)
  have hf := applyNoticeRing_frame s l.notices (takeRegions l (completionClosed s))
  rw [completionBeforeTake_eq]
  generalize applyNoticeRing l.notices (takeRegions l (completionClosed s)) = v at hf ⊢
  exact booksKept_trans hcloses (booksKept_of_books (congrArg State.books hf :))

/-! ## Notices -/

theorem taken_number (i : Incident) (d : NoticeKind) : (i.taken d).number = i.number := by
  cases d <;> rfl

theorem takeNotice_books (s : State) : (takeNotice s).books = s.books := by
  have hf := takeNotice_frame s
  refine books_ext (fun k => ?_) (congrArg State.order hf :) (congrArg State.nextNumber hf :)
  rcases takeNotice_slot s k with h | ⟨i, d, hi, h⟩
  · rw [State.numberAt, h, State.numberAt]
  · rw [numberAt_of_slot h, numberAt_of_slot hi, taken_number]

theorem freeClosed_booksKept (f : Option (Fin 32)) (s : State) : s.booksKept (freeClosed f s) := by
  rcases freeClosed_cases f s with ⟨-, h⟩ | ⟨k, -, h⟩
  · rw [h]
    exact booksKept_refl s
  · rw [h]
    exact booksKept_trans (freeSlot_booksKept k s) (booksKept_of_books (markIf_books true _))

theorem initWaiting_books (s : State) : (initWaiting s).books = s.books :=
  (congrArg State.books (initWaiting_frame s s) :)

theorem producerEvent_booksKept (n : Notice) (s : State) : s.booksKept (producerEvent n s) :=
  booksKept_trans (t := { s with producer := s.producer + 1, notice := none }) (booksKept_of_books rfl)
    (booksKept_trans (freeClosed_booksKept n.frees _)
      (booksKept_of_books ((takeNotice_books _).trans (initWaiting_books _))))

theorem endingEvent_booksKept (e : Ending) (s : State) : s.booksKept (endingEvent e s) := by
  rcases endingEvent_cases e s with h | ⟨n, -, -, h⟩ | ⟨n, -, -, h⟩ | ⟨r, -, -, h⟩ | ⟨c, -, -, h⟩ | ⟨c, -, -, h⟩ |
    ⟨-, h⟩
  · rw [h]; exact booksKept_refl s
  · rw [h]; exact booksKept_of_books rfl
  · rw [h]; exact producerEvent_booksKept n s
  · rw [h]; exact booksKept_of_books (takeNotice_books { s with headerDue := false })
  · rw [h]; exact booksKept_of_books rfl
  · rw [h]; exact booksKept_of_books rfl
  · rw [h]; exact booksKept_of_books rfl

/-! ## Windows -/

/-- Soaks that a carry counts or passes, or an edit freezes, leave the books. -/
theorem books_of_soaks (g : Window → Window)
    (hk : ∀ k, t.slot k = (s.slot k).map (fun i => { i with soak := i.soak.map g })) (ho : t.order = s.order)
    (hx : t.nextNumber = s.nextNumber) : t.books = s.books := by
  refine books_ext (fun k => ?_) ho hx
  rw [State.numberAt, hk, Option.map_map, State.numberAt]
  rfl

theorem microsecondEvent_books (levels : Levels) (s : State) : (microsecondEvent levels s).books = s.books := by
  rw [microsecondEvent_eq]
  by_cases hd : s.time.divider < 999
  · refine books_ext (fun k => ?_) rfl rfl
    exact congrArg (Option.map Incident.number) ((microsecondCarried_slot s levels k).trans (if_pos hd))
  · exact books_of_soaks s.msCarried (fun k => (microsecondCarried_slot s levels k).trans (if_neg hd)) rfl rfl

/-! ## Every change -/

theorem Move.booksKept (h : Move s t) : s.booksKept t := by
  cases h with
  | terminal k new hp hn =>
    rw [terminalEvent_eq]
    exact booksKept_of_books rfl
  | trunk down => exact booksKept_of_books (markIf_books _ { s with trunk := down })
  | edit tag hp => exact booksKept_of_books (books_of_soaks Window.frozen (freezeWindows_slot s) rfl rfl)
  | forget k hp =>
    rw [forgetTerminal_eq]
    exact booksKept_of_books rfl
  | maint made block mask polarity hp =>
    exact booksKept_of_books (markIf_books made { s with nodes := maintNodes block mask polarity s.nodes })
  | reset => exact booksKept_of_empty (fun k => Vector.getElem_replicate _) rfl rfl
  | take => exact booksKept_of_books (takeNotice_books s)
  | _ => exact booksKept_of_books rfl

/-- Every change of a command keeps the laws. -/
theorem Change.booksKept {c : Instr} {s0 : State} (h : Change c s0 s t) : s.booksKept t := by
  cases h with
  | move hm => exact hm.booksKept
  | path hp hb hq =>
    rw [hp]
    exact booksKept_of_books rfl
  | land w => cases w <;> exact booksKept_of_books rfl
  | ending e he => exact endingEvent_booksKept e s
  | mainsFail => exact booksKept_of_books (markIf_books true { s with inputs.mainsFail := s.inputs.sample.mainsFail })
  | maintAll => exact booksKept_of_books (markIf_books true { s with inputs.maintAll := s.inputs.sample.maintAll })
  | silence hd =>
    exact booksKept_of_books (congrArg State.books (silenceEvent_frame { s with time.silenceDue := false }) :)
  | leak hd =>
    exact booksKept_of_books (congrArg State.books (leakEvent_frame { s with time.leakDue := false }) :)
  | matching causes hp => exact matchingEvent_booksKept causes s
  | attack k i hd => exact attackEvent_booksKept hd
  | release k i hd => exact releaseEvent_booksKept hd
  | checkRead l hc hl ha => exact booksKept_of_books (congrArg State.books (checkReadEvent_frame l s) :)
  | completion l hc hl ha hn =>
    rw [completionEvent_eq]
    exact booksKept_trans (completionBeforeTake_booksKept l s) (booksKept_of_books (takeNotice_books _))
  | microsecond levels hm => exact booksKept_of_books (microsecondEvent_books levels s)
  | millisecond =>
    rw [millisecondRun_eq rfl]
    exact booksKept_of_books (books_of_soaks s.msCarried (carriedSlots_slot s) rfl rfl)
  | _ => exact booksKept_of_books rfl

/-- Every command keeps the laws; hardware reset meets them anew. -/
theorem exec_booksKept {c : Instr} (hx : exec c s = .next t) : s.booksKept t := by
  by_cases hc : ∃ p l d, c = .hardwareReset p l d
  · obtain ⟨p, l, d, rfl⟩ := hc
    obtain rfl := Host.Outcome.next.inj ((execHardwareReset_eq p l d s).symm.trans hx)
    have hreset : State.reset.booksKept ((s.asserted d).atRelease p l) := booksKept_of_books rfl
    exact ⟨fun _ => hreset.1 reset_orderLaw, fun _ => hreset.2 reset_numberLaw⟩
  · exact exec_keeps (P := s.booksKept) (fun p l d hpld => hc ⟨p, l, d, hpld⟩) hx
      (fun _ _ hab hs => booksKept_trans hs hab.booksKept) (booksKept_refl s)

/-- Settles O7: a step is one command, whose every change keeps both laws, or one REFCLK cycle. -/
theorem stepKeepsOrderAndNumbers : Obligations.StepKeepsOrderAndNumbers := by
  intro s t hx
  rcases step_cases hx with ⟨c, hx⟩ | ⟨c, rest, hx⟩ | ⟨-, rfl⟩
  · exact exec_booksKept hx
  · exact booksKept_trans (t := { s with pending := rest }) (booksKept_of_books rfl) (exec_booksKept hx)
  · exact booksKept_of_books rfl

end Sys2Proof.Machine
end

