-- ==== Sys2Proof/Proofs/Takes.lean ====
section
/-! PROOF. The take of a notice (O19): when it comes, and which notice it is. -/

namespace Sys2Proof.Machine

variable {s : State} {k : Fin 32} {i : Incident} {r : RestartReason} {d : NoticeKind}

/-! ## What an incident is due -/

theorem due_eq_none_iff (i : Incident) : i.due = none ↔ i.openDue = false ∧ i.updateDue = false ∧ i.close = none := by
  unfold Incident.due
  cases i.openDue <;> cases i.updateDue <;> cases i.close <;> simp

/-- An OPEN comes before every other notice (R161). -/
theorem due_of_openDue (ho : i.openDue = true) : i.due = some .opening := if_pos ho

/-- An UPDATE comes before a CLOSE (R161). -/
theorem due_of_updateDue (ho : i.openDue = false) (hu : i.updateDue = true) : i.due = some .updating :=
  (if_neg (ho ▸ Bool.false_ne_true)).trans (if_pos hu)

theorem due_of_close (ho : i.openDue = false) (hu : i.updateDue = false) (hc : i.close ≠ none) :
    i.due = some .closing :=
  (if_neg (ho ▸ Bool.false_ne_true)).trans
    ((if_neg (hu ▸ Bool.false_ne_true)).trans (if_pos (Option.isSome_iff_ne_none.mpr hc)))

/-! ## The incident chosen -/

theorem slotDue_of_slot (hk : s.slot k = some i) : s.slotDue k = i.due.map (fun d => (k, i, d)) := by
  rw [State.slotDue, hk, Option.bind_some]

/-- A slot is passed over if its incident, where it holds one, has no due mark (R161). -/
theorem slotDue_eq_none (h : ∀ i, s.slot k = some i → i.openDue = false ∧ i.updateDue = false ∧ i.close = none) :
    s.slotDue k = none := by
  cases hk : s.slot k with
  | none => rw [State.slotDue, hk, Option.bind_none]
  | some i => rw [slotDue_of_slot hk, (due_eq_none_iff i).mpr (h i hk), Option.map_none]

theorem chosen_eq_none (h : ∀ k ∈ s.order, ∀ i, s.slot k = some i →
    i.openDue = false ∧ i.updateDue = false ∧ i.close = none) : s.chosen = none :=
  List.findSome?_eq_none_iff.mpr fun k hk => slotDue_eq_none (h k hk)

/-- The oldest incident with a due mark is chosen (R161). -/
theorem chosen_of_first {before after : List (Fin 32)} (hord : s.order = before ++ k :: after) (hk : s.slot k = some i)
    (hbefore : ∀ j ∈ before, ∀ i', s.slot j = some i' → i'.openDue = false ∧ i'.updateDue = false ∧ i'.close = none)
    (hd : i.due = some d) : s.chosen = some (k, i, d) := by
  have hnone : before.findSome? s.slotDue = none :=
    List.findSome?_eq_none_iff.mpr fun j hj => slotDue_eq_none (hbefore j hj)
  have hsome : s.slotDue k = some (k, i, d) := by rw [slotDue_of_slot hk, hd, Option.map_some]
  rw [State.chosen, hord, List.findSome?_append, hnone, Option.none_or, List.findSome?_cons, hsome]

/-! ## The take -/

theorem takeNotice_blocked (h : s.canTake = false) : takeNotice s = s := by
  rw [takeNotice, h, if_neg Bool.false_ne_true]

theorem takeNotice_restart (h : s.canTake = true) (hr : s.restart = some r) : takeNotice s = takeRestart r s := by
  rw [takeNotice, if_pos h, hr]

theorem takeNotice_idle (h : s.canTake = true) (hr : s.restart = none) (hch : s.chosen = none) : takeNotice s = s := by
  rw [takeNotice, if_pos h, hr, hch]

theorem takeNotice_chosen (h : s.canTake = true) (hr : s.restart = none) (hch : s.chosen = some (k, i, d)) :
    takeNotice s = takeIncident k i d s := by
  rw [takeNotice, if_pos h, hr, hch]

/-- The incident of a slot put there again changes nothing. -/
theorem putSlot_self (hk : s.slot k = some i) : s.putSlot k i = s := by
  rw [State.putSlot, ← hk, State.slot, Fin.getElem_fin, Vector.set_getElem_self]

/-- The take of a CLOSE changes no mark (R153). -/
theorem takeIncident_closing (hk : s.slot k = some i) : takeIncident k i .closing s = { s with
    notice := some { words := incidentNotice .closing i (s.subjectTag i) s.time.clock, written := 0,
                     frees := some k } } := by
  rw [takeIncident, Incident.taken, putSlot_self hk]
  rfl

/-- Settles O19: the conditions of a take, and then the first slot of the list whose incident is due. -/
theorem takeChoosesTheOldestDue : Obligations.TakeChoosesTheOldestDue := by
  intro s
  refine ⟨canTake_iff s, takeNotice_blocked, fun r h hr => takeNotice_restart h hr, fun h hr =>
    ⟨fun hnone => takeNotice_idle h hr (chosen_eq_none hnone), fun before k after i hord hk hbefore => ?_⟩⟩
  have htake {d : NoticeKind} (hd : i.due = some d) : takeNotice s = takeIncident k i d s :=
    takeNotice_chosen h hr (chosen_of_first hord hk hbefore hd)
  exact ⟨fun ho => htake (due_of_openDue ho), fun ho hu => htake (due_of_updateDue ho hu),
    fun ho hu hc => (htake (due_of_close ho hu hc)).trans (takeIncident_closing hk)⟩

end Sys2Proof.Machine
end

