-- ==== Sys2Proof/Proofs/SlotsFreed.lean ====
section
/-! PROOF. The two events that free a slot with a dirty mark: the release expiry of an incident that is not announced
(O41), and the producer write of a CLOSE (O58). -/

namespace Sys2Proof.Machine

section
variable {s u v : State} {k : Fin 32} {i : Incident} {n : Notice} {r : Ring}

/-! ## A slot freed with one dirty mark -/

/-- `u` is `s` with slot `k` freed and one dirty mark made, as far as the Incident Table, the covering fields, the
Settle Timer and the write-pending marks go (R44, R101, R146). -/
def State.freesWithMark (s u : State) (k : Fin 32) : Prop :=
  u.slot k = none ∧ (∀ j, j ≠ k → u.slot j = s.slot j) ∧ u.order = s.order.filter (· ≠ k) ∧
  (∀ m, u.entry m = if (s.entry m).covering = some k then { s.entry m with covering := none } else s.entry m) ∧
  u.settle = s.settleAfterMark s.storm ∧ u.writeMarks = { s.writeMarks with partA := true }

theorem dirtyMark_freeSlot (k : Fin 32) (s : State) : s.freesWithMark (dirtyMark (freeSlot k s)) k := by
  rw [dirtyMark_eq]
  exact ⟨(freeSlot_slot s k k).trans (if_pos rfl), fun j hj => (freeSlot_slot s k j).trans (if_neg hj.symm), rfl,
    freeSlot_entry s k, rfl, rfl⟩

/-! ## The release expiry -/

theorem exec_releaseExpiry {w : Window} (hk0 : k ≠ 0) (hk : s.slot k = some i) (hp : i.phase = .clearing)
    (hc : i.close = none) (hw : i.soak = some w) (hd : w.due = true) (hf : s.frozen = false) :
    exec (.releaseExpiry k) s = .next (finish s (takeNotice (releaseEvent k i s))) := by
  have hdue : s.releaseDue k i = true := by
    simp [State.releaseDue, hk, hk0, hp, hc, hw, isDue_some hd, hf]
  change execReleaseExpiry k s = _
  rw [execReleaseExpiry, hk]
  exact if_pos hdue

theorem releaseEvent_announced (ha : i.announced = true) : releaseEvent k i s =
    s.putSlot k { i with close := some { reason := .cleared, absorber := 0 }, soak := none } := by
  rw [releaseEvent, closeIncident, ha]
  rfl

theorem releaseEvent_unannounced (ha : i.announced = false) : releaseEvent k i s = dirtyMark (freeSlot k s) := by
  rw [releaseEvent, closeIncident, ha]
  rfl

/-! ## The producer write -/

/-- The index has advanced and the notice has ended (R163). -/
def State.indexAdvanced (s : State) : State := { s with producer := s.producer + 1, notice := none }

/-- The part at a producer write before the take that may end it (R161, R163). -/
def producerBeforeTake (n : Notice) (s : State) : State :=
  initWaiting (freeClosed n.frees s.indexAdvanced)

theorem producerEvent_eq (n : Notice) (s : State) : producerEvent n s = takeNotice (producerBeforeTake n s) := rfl

theorem initWaiting_none (h : s.ringWaiting = none) : initWaiting s = s := by
  rw [initWaiting, h]

theorem initWaiting_some (h : s.ringWaiting = some r) : initWaiting s = initRing r s := by
  rw [initWaiting, h]

/-- The free of a CLOSE's slot changes the Incident Table, the covering fields, the write-pending marks and the
Settle Timer alone (R146). -/
theorem freeClosed_withTable (f : Option (Fin 32)) (s : State) :
    s.withTable { freeClosed f s with settle := s.settle } = s := by
  rcases freeClosed_cases f s with ⟨-, h⟩ | ⟨k, -, h⟩
  · rw [h]
    rfl
  · rw [h, dirtyMark_eq]
    rfl

theorem producerBeforeTake_frame (n : Notice) (s : State) : s.withWriter (producerBeforeTake n s) = s := by
  rw [producerBeforeTake, withWriter_of_withRing (initWaiting_frame s _), freeClosed_frame, State.indexAdvanced]
  rfl

theorem initWaiting_table (s : State) : (initWaiting s).slots = s.slots ∧ (initWaiting s).order = s.order ∧
    (initWaiting s).entries = s.entries ∧ (initWaiting s).settle = s.settle ∧
    (initWaiting s).writeMarks = s.writeMarks := by
  have h := initWaiting_frame s s
  exact ⟨(congrArg State.slots h :), (congrArg State.order h :), (congrArg State.entries h :),
    (congrArg State.settle h :), (congrArg State.writeMarks h :)⟩

theorem producerBeforeTake_notice (n : Notice) (s : State) : (producerBeforeTake n s).notice = none := by
  have hring := initWaiting_frame s (freeClosed n.frees s.indexAdvanced)
  have hfree := freeClosed_withTable n.frees s.indexAdvanced
  exact (congrArg State.notice hring :).trans (congrArg State.notice hfree :)

/-- A notice that is no CLOSE leaves the Incident Table, the Settle Timer and the write-pending marks (R146). -/
theorem producerBeforeTake_keeps (hfrees : n.frees = none) :
    (producerBeforeTake n s).slots = s.slots ∧ (producerBeforeTake n s).order = s.order ∧
    (producerBeforeTake n s).entries = s.entries ∧ (producerBeforeTake n s).settle = s.settle ∧
    (producerBeforeTake n s).writeMarks = s.writeMarks := by
  rw [producerBeforeTake, hfrees]
  exact initWaiting_table s.indexAdvanced

/-- A CLOSE frees its slot (R146). -/
theorem producerBeforeTake_frees (hfrees : n.frees = some k) : s.freesWithMark (producerBeforeTake n s) k := by
  have hfreed : s.freesWithMark (dirtyMark (freeSlot k s.indexAdvanced)) k :=
    dirtyMark_freeSlot k s.indexAdvanced
  rw [producerBeforeTake, hfrees, freeClosed]
  generalize dirtyMark _ = v at hfreed ⊢
  obtain ⟨hslots, horder, hentries, hsettle, hmarks⟩ := initWaiting_table v
  unfold State.freesWithMark State.slot State.entry at hfreed ⊢
  rwa [hslots, horder, hentries, hsettle, hmarks]

/-- With no ring waiting the index advances alone (R163). -/
theorem producerBeforeTake_ring (h : s.ringWaiting = none) :
    (producerBeforeTake n s).noticeRing = s.noticeRing ∧ (producerBeforeTake n s).producer = s.producer + 1 ∧
    (producerBeforeTake n s).consumer = s.consumer ∧ (producerBeforeTake n s).ringFault = s.ringFault ∧
    (producerBeforeTake n s).restart = s.restart ∧ (producerBeforeTake n s).headerDue = s.headerDue ∧
    (producerBeforeTake n s).ringWaiting = none := by
  have hf := freeClosed_withTable n.frees s.indexAdvanced
  rw [producerBeforeTake]
  generalize freeClosed n.frees s.indexAdvanced = v at hf ⊢
  have hv : v.ringWaiting = none := (congrArg State.ringWaiting hf :).trans h
  rw [initWaiting_none hv]
  exact ⟨(congrArg State.noticeRing hf :), (congrArg State.producer hf :), (congrArg State.consumer hf :),
    (congrArg State.ringFault hf :), (congrArg State.restart hf :), (congrArg State.headerDue hf :), hv⟩

/-- A ring that waited behind a ring in use is initialised, with the RESTART for a move (R164). -/
theorem producerBeforeTake_moved {r' : Ring} (hr : s.noticeRing = some r) (h : s.ringWaiting = some r') :
    (producerBeforeTake n s).noticeRing = some r' ∧ (producerBeforeTake n s).producer = 0 ∧
    (producerBeforeTake n s).consumer = 0 ∧ (producerBeforeTake n s).ringFault = false ∧
    (producerBeforeTake n s).restart = some .ringMoved ∧ (producerBeforeTake n s).headerDue = true ∧
    (producerBeforeTake n s).ringWaiting = none := by
  have hf := freeClosed_withTable n.frees s.indexAdvanced
  rw [producerBeforeTake]
  generalize freeClosed n.frees s.indexAdvanced = v at hf ⊢
  have hv : v.ringWaiting = some r' := (congrArg State.ringWaiting hf :).trans h
  have hring : v.noticeRing = some r := (congrArg State.noticeRing hf :).trans hr
  rw [initWaiting_some hv, initRing, hring]
  exact ⟨rfl, rfl, rfl, rfl, rfl, rfl, rfl⟩

/-! ## The access and its event -/

/-- The state with another memory and another arbiter. -/
def State.withPath (s : State) (mem : List Host.Cell) (arb : Arbiter) : State := { s with mem, arb }

theorem takeNotice_withPath (s : State) (mem : List Host.Cell) (arb : Arbiter) :
    takeNotice (s.withPath mem arb) = (takeNotice s).withPath mem arb := by
  have htake : (s.withPath mem arb).canTake = s.canTake := rfl
  have hrestart : (s.withPath mem arb).restart = s.restart := rfl
  have hchosen : (s.withPath mem arb).chosen = s.chosen := rfl
  cases hc : s.canTake with
  | false => rw [takeNotice_blocked (htake.trans hc), takeNotice_blocked hc]
  | true =>
    cases hr : s.restart with
    | some r =>
      rw [takeNotice_restart (htake.trans hc) (hrestart.trans hr), takeNotice_restart hc hr]
      rfl
    | none =>
      cases hch : s.chosen with
      | none =>
        rw [takeNotice_idle (htake.trans hc) (hrestart.trans hr) (hchosen.trans hch), takeNotice_idle hc hr hch]
      | some x =>
        obtain ⟨k, i, d⟩ := x
        rw [takeNotice_chosen (htake.trans hc) (hrestart.trans hr) (hchosen.trans hch), takeNotice_chosen hc hr hch]
        rfl

/-- A take leaves memory, the write-pending marks and the arbiter (R161). -/
theorem takeNotice_unmarked (u : State) :
    { takeNotice u with mem := u.mem, writeMarks := u.writeMarks, arb := u.arb } = takeNotice u :=
  (congrArg (fun v : State => { v with status := (takeNotice u).status }) (takeNotice_restore u) :)

theorem initWaiting_withPath (s : State) (mem : List Host.Cell) (arb : Arbiter) :
    initWaiting (s.withPath mem arb) = (initWaiting s).withPath mem arb := by
  have hwait : (s.withPath mem arb).ringWaiting = s.ringWaiting := rfl
  cases h : s.ringWaiting with
  | none => rw [initWaiting_none (hwait.trans h), initWaiting_none h]
  | some r =>
    rw [initWaiting_some (hwait.trans h), initWaiting_some h]
    rfl

theorem freeClosed_withPath (f : Option (Fin 32)) (s : State) (mem : List Host.Cell) (arb : Arbiter) :
    freeClosed f (s.withPath mem arb) = (freeClosed f s).withPath mem arb := by
  cases f with
  | none => rfl
  | some k =>
    rw [freeClosed, freeClosed, dirtyMark_eq, dirtyMark_eq]
    rfl

theorem producerBeforeTake_withPath (n : Notice) (s : State) (mem : List Host.Cell) (arb : Arbiter) :
    producerBeforeTake n (s.withPath mem arb) = (producerBeforeTake n s).withPath mem arb := by
  have hfree : freeClosed n.frees (s.withPath mem arb).indexAdvanced =
      (freeClosed n.frees s.indexAdvanced).withPath mem arb := freeClosed_withPath n.frees s.indexAdvanced mem arb
  rw [producerBeforeTake, hfree, initWaiting_withPath, producerBeforeTake]

/-- The event of a producer write reads neither memory nor the arbiter. -/
theorem producerEvent_withPath (n : Notice) (s : State) (mem : List Host.Cell) (arb : Arbiter) :
    producerEvent n (s.withPath mem arb) = (takeNotice (producerBeforeTake n s)).withPath mem arb := by
  rw [producerEvent_eq, producerBeforeTake_withPath, takeNotice_withPath]

theorem endingEvent_producer (h : s.notice = some n) : endingEvent .producer s = producerEvent n s := by
  unfold endingEvent
  rw [h]

/-- A producer write that a ready memory serves, with no beat held behind it (R163, R190). -/
theorem exec_producerWrite (hr : s.noticeRing = some r) (hn : s.notice = some n) (h8 : 8 ≤ n.written)
    (hserves : s.servesRequest .noticeWriter) : ∃ marks, exec .producerWrite s = .next
      { (takeNotice (producerBeforeTake n s)).withPath (s.store r.base (indexWord (s.producer + 1))).mem s.arbAfterGrant
        with writeMarks := marks } := by
  obtain ⟨hgrants, hheld, hready, -⟩ := hserves
  have hexec : exec .producerWrite s = grantWrite .noticeWriter (s.producerStore r) .producer s := by
    change execProducerWrite s = _
    rw [execProducerWrite, hn, hr]
    exact if_pos h8
  have hevent : endingEvent .producer (land (some (s.producerStore r)) (endWindow s)) =
      (takeNotice (producerBeforeTake n s)).withPath (s.store r.base (indexWord (s.producer + 1))).mem
        s.arbAfterGrant := by
    have hland : (land (some (s.producerStore r)) (endWindow s)).notice = some n := hn
    rw [← producerEvent_withPath, endingEvent_producer hland]
    rfl
  have harb : (endingEvent .producer (land (some (s.producerStore r)) (endWindow s))).arb = (endWindow s).arb :=
    (endingEvent_arb _ _).2.trans (land_arb _ _)
  rw [hexec, grantWrite_update hgrants hheld hready harb, hevent]
  exact ⟨_, rfl⟩

end

/-- Settles O41: the event is one close and, where that frees the slot, one dirty mark. -/
theorem releaseExpiryCloses : Obligations.ReleaseExpiryCloses := by
  intro s k i w hk0 hk hp hc hw hd hf
  have hexec := exec_releaseExpiry hk0 hk hp hc hw hd hf
  have hframe := releaseEvent_frame k i s
  have harb : (takeNotice (releaseEvent k i s)).arb = s.arb :=
    (congrArg State.arb (takeNotice_frame (releaseEvent k i s)) :).trans (congrArg State.arb hframe :)
  obtain ⟨A, ht, hA⟩ := event_update hexec harb
  refine ⟨releaseEvent k i s, _, hexec, releaseEvent_announced, fun ha => ?freed, finish_takesInto s _, ?arb⟩
  case freed =>
    obtain ⟨hslot, hothers, horder, hentries, hsettle, hmarks⟩ := dirtyMark_freeSlot k s
    rw [releaseEvent_unannounced ha] at hframe ⊢
    exact ⟨hslot, hothers, horder, hentries, hsettle, hmarks, hframe⟩
  case arb =>
    rw [Host.Outcome.next.inj (hexec.symm.trans ht)]
    exact hA

/-- Settles O58: the access lands and its event reads neither memory nor the arbiter, so the event's parts are those of
the state before. -/
theorem producerWriteEndsTheNotice : Obligations.ProducerWriteEndsTheNotice := by
  intro s r n hr hserves hn h8
  obtain ⟨marks, hexec⟩ := exec_producerWrite hr hn h8 hserves
  obtain ⟨-, -, -, hwf⟩ := hserves
  have hframe := producerBeforeTake_frame n s
  refine ⟨producerBeforeTake n s, _, hexec, ⟨State.store_byte _ _ hwf, rfl⟩, producerBeforeTake_notice n s,
    producerBeforeTake_keeps, fun k => producerBeforeTake_frees, producerBeforeTake_ring,
    fun r' => producerBeforeTake_moved hr, hframe, ?take⟩
  exact takeNotice_unmarked (producerBeforeTake n s)

end Sys2Proof.Machine
end

