-- ==== Sys2Proof/Proofs/NoticeWriter.lean ====
section
/-! PROOF. The words of the notice in progress stay fixed (O12), from what every change but the end of an internal
access makes of the Notice Writer (R158 to R165), said once; the law of its ring (O4) rests on the same lemmas. -/

namespace Sys2Proof.Machine

open Relation

variable {s t : State} {n : Notice}

/-! ## What a change makes of the Notice Writer -/

/-- What the Notice Writer holds of its ring, of the notice in progress and of an initialisation. -/
def State.writer (s : State) : Option Notice × Option Ring × Half × Half × Bool × Option Ring :=
  (s.notice, s.noticeRing, s.producer, s.consumer, s.headerDue, s.ringWaiting)

/-- One change of the Notice Writer: none; a take (R161); an accepted consumer index (R160); a RESET, after which the
notice in progress frees no slot (R165); a COMMIT completion's ring (R164). -/
inductive WriterChange (s t : State) : Prop
  | same (h : t.writer = s.writer)
  | taken (n : Notice) (hc : s.canTake = true) (hlen : n.words.length = 8) (hn : n.written = 0)
      (h : t.writer = State.writer { s with notice := some n })
  | consumed (r : Ring) (v : Half) (hr : s.noticeRing = some r) (ha : s.acceptsConsumer r v = true)
      (h : t.writer = State.writer { s with consumer := v })
  | unfreed (h : t.writer = State.writer { s with notice := s.notice.map (fun n => { n with frees := none }) })
  | applied (r : Ring) (hr : r.capacityOk) (h : t.writer = (applyNoticeRing r s).writer)

/-- A chain of such changes. -/
abbrev WriterChanges : State → State → Prop := ReflTransGen WriterChange

theorem writerChanges_of_same (h : t.writer = s.writer) : WriterChanges s t := .single (.same h)

theorem incidentNotice_length (kind : NoticeKind) (i : Incident) (tag : Byte) (clock : Word) :
    (incidentNotice kind i tag clock).length = 8 := by
  unfold incidentNotice
  dsimp only
  split
  · rfl
  · rfl

theorem takeNotice_writerChange (s : State) : WriterChange s (takeNotice s) := by
  rcases takeNotice_cases s with h | ⟨hc, r, -, h⟩ | ⟨hc, -, k, i, d, -, h⟩
  · exact .same (by rw [h])
  · exact .taken _ hc rfl rfl (by rw [h]; rfl)
  · exact .taken _ hc (incidentNotice_length _ _ _ _) rfl (by rw [h]; rfl)

/-- Every change of a passing beat is one change of the Notice Writer. -/
theorem Move.writerChange (h : Move s t) : WriterChange s t := by
  cases h with
  | terminal k new hp hn =>
    have hf := terminalEvent_frame k new s
    exact .same (congrArg State.writer hf :)
  | trunk down => rw [markIf_eq]; exact .same rfl
  | forget k hp => rw [forgetTerminal_eq]; exact .same rfl
  | maint made block mask polarity h => rw [markIf_eq]; exact .same rfl
  | reset => exact .unfreed rfl
  | take => exact takeNotice_writerChange s
  | consume r v hr h => exact .consumed r v hr h rfl
  | _ => exact .same rfl

/-- An applied notice ring has 8 to 1024 slots (R180). -/
theorem notices_capacityOk (l : Load) : l.notices.capacityOk := by
  have hall : ∀ x ∈ [8, 8, 16, 32, 64, 128, 256, 512, 1024], 8 ≤ x ∧ x ≤ 1024 := by decide
  exact hall _ (clampPower_mem _ _ _)

theorem completionClosed_writer (s : State) : (completionClosed s).writer = s.writer :=
  (congrArg State.writer (completionClosed_frame s) :)

theorem applyNoticeRing_writer (r : Ring) (h : t.writer = s.writer) :
    (applyNoticeRing r t).writer = (applyNoticeRing r s).writer := by
  simp only [State.writer, Prod.mk.injEq] at h
  obtain ⟨hn, hr, hp, hc, hd, -⟩ := h
  rw [applyNoticeRing, applyNoticeRing, hr, hn]
  split
  · simp only [State.writer, hp, hc, hd]
  · split
    · simp only [State.writer, hp, hc, hd]
    · simp only [State.writer, initRing, hn]

/-- A COMMIT completion applies its ring, and may take a notice (R164, R183). -/
theorem completionEvent_writerChanges (l : Load) (s : State) : WriterChanges s (completionEvent l s) := by
  have happly : WriterChange s (completionBeforeTake l s) := by
    refine .applied l.notices (notices_capacityOk l) ?_
    rw [completionBeforeTake_eq]
    exact applyNoticeRing_writer l.notices (completionClosed_writer s)
  rw [completionEvent_eq]
  exact .tail (.single happly) (takeNotice_writerChange _)

theorem silenceEvent_writer (s : State) : (silenceEvent { s with time.silenceDue := false }).writer = s.writer := by
  have hf := silenceEvent_frame { s with time.silenceDue := false }
  generalize silenceEvent _ = u at hf ⊢
  exact (congrArg State.writer hf :)

theorem leakEvent_writer (s : State) : (leakEvent { s with time.leakDue := false }).writer = s.writer := by
  have hf := leakEvent_frame { s with time.leakDue := false }
  generalize leakEvent _ = u at hf ⊢
  exact (congrArg State.writer hf :)

theorem matchingEvent_writer (causes : List Cause) (s : State) : (matchingEvent causes s).writer = s.writer := by
  have hf := matchingEvent_frame causes s
  generalize matchingEvent causes s = u at hf ⊢
  exact (congrArg State.writer hf :)

theorem attackEvent_writer (k : Fin 32) (i : Incident) (s : State) : (attackEvent k i s).writer = s.writer := by
  have hf := attackEvent_frame k i s
  generalize attackEvent k i s = u at hf ⊢
  exact (congrArg State.writer hf :)

theorem releaseEvent_writer (k : Fin 32) (i : Incident) (s : State) : (releaseEvent k i s).writer = s.writer := by
  have hf := releaseEvent_frame k i s
  generalize releaseEvent k i s = u at hf ⊢
  exact (congrArg State.writer hf :)

theorem checkReadEvent_writer (l : Load) (s : State) : (checkReadEvent l s).writer = s.writer := by
  have hf := checkReadEvent_frame l s
  generalize checkReadEvent l s = u at hf ⊢
  exact (congrArg State.writer hf :)

theorem millisecondEvent_writer (s : State) : (millisecondEvent s).writer = s.writer := by
  rw [millisecondEvent, countWindows_eq]
  rfl

theorem microsecondEvent_writer (levels : Levels) (s : State) : (microsecondEvent levels s).writer = s.writer := by
  rw [microsecondEvent, countPatience_eq]
  dsimp only
  split
  · exact millisecondEvent_writer _
  · rfl

theorem land_writer (w : Option Store) (s : State) : (land w s).writer = s.writer := by
  cases w <;> rfl

/-- Every change of a command is a chain of changes of the Notice Writer, or the end of an internal access. -/
theorem Change.writer_cases {c : Instr} {s0 : State} (h : Change c s0 s t) : WriterChanges s t ∨
    ∃ e : Ending, (c = e.row ∨ ∃ w, s0.arb.busy = some (.internal w (some e))) ∧ t = endingEvent e s := by
  cases h with
  | ending e he => exact .inr ⟨e, he, rfl⟩
  | move h => exact .inl (.single h.writerChange)
  | path h _ _ => exact .inl (writerChanges_of_same (congrArg State.writer h :))
  | land w => exact .inl (writerChanges_of_same (land_writer w s))
  | mainsFail | maintAll => rw [dirtyMark_eq]; exact .inl (writerChanges_of_same rfl)
  | silence h => exact .inl (writerChanges_of_same (silenceEvent_writer s))
  | leak h => exact .inl (writerChanges_of_same (leakEvent_writer s))
  | matching causes h => exact .inl (writerChanges_of_same (matchingEvent_writer causes s))
  | attack k i h => exact .inl (writerChanges_of_same (attackEvent_writer k i s))
  | release k i h => exact .inl (writerChanges_of_same (releaseEvent_writer k i s))
  | checkRead l hc hl ha => exact .inl (writerChanges_of_same (checkReadEvent_writer l s))
  | completion l hc hl ha hn => exact .inl (completionEvent_writerChanges l s)
  | microsecond levels h => exact .inl (writerChanges_of_same (microsecondEvent_writer levels s))
  | millisecond =>
    have hf := runPatience_frame (1000 - s.time.divider) s
    exact .inl (writerChanges_of_same ((millisecondEvent_writer _).trans (congrArg State.writer hf :)))
  | counted | settle | merged | reading | limitEnds | terminalWord | cycle => exact .inl (writerChanges_of_same rfl)

/-! ## The notice in progress -/

/-- The notice in progress goes on, with the same words and as many of them written. -/
theorem WriterChange.notice (h : WriterChange s t) (hn : s.notice = some n) :
    ∃ n', t.notice = some n' ∧ n'.words = n.words ∧ n'.written = n.written := by
  cases h with
  | same h => exact ⟨n, (congrArg Prod.fst h).trans hn, rfl, rfl⟩
  | taken x hc =>
    obtain ⟨hnone, -⟩ := (canTake_iff s).mp hc
    exact absurd (hnone.symm.trans hn) nofun
  | consumed r v hr ha h => exact ⟨n, (congrArg Prod.fst h).trans hn, rfl, rfl⟩
  | unfreed h =>
    exact ⟨{ n with frees := none }, (congrArg Prod.fst h).trans (congrArg (Option.map _) hn), rfl, rfl⟩
  | applied r hr h =>
    refine ⟨n, (congrArg Prod.fst h).trans ?_, rfl, rfl⟩
    exact (congrArg State.notice (applyNoticeRing_frame s r s) :).trans hn

theorem WriterChanges.notice (h : WriterChanges s t) (hn : s.notice = some n) :
    ∃ n', t.notice = some n' ∧ n'.words = n.words ∧ n'.written = n.written := by
  induction h with
  | refl => exact ⟨n, hn, rfl, rfl⟩
  | tail _ hab ih =>
    obtain ⟨m, hm, hwords, hwritten⟩ := ih
    obtain ⟨n', hn', hw, hr⟩ := hab.notice hm
    exact ⟨n', hn', hw.trans hwords, hr.trans hwritten⟩

theorem takeNotice_notice (hn : s.notice = some n) : (takeNotice s).notice = some n := by
  have hc : s.canTake = false := by
    rw [Bool.eq_false_iff, ne_eq, canTake_iff]
    exact fun h => absurd (h.1.symm.trans hn) nofun
  rwa [takeNotice_blocked hc]

/-- The end of an access other than a producer write leaves the words of the notice in progress (R163). -/
theorem endingEvent_words (e : Ending) (he : e ≠ .producer) (hn : s.notice = some n) :
    ∃ n', (endingEvent e s).notice = some n' ∧ n'.words = n.words := by
  rcases endingEvent_cases e s with h | ⟨m, -, hm, h⟩ | ⟨m, hp, -⟩ | ⟨r, -, -, h⟩ | ⟨c, -, -, h⟩ | ⟨c, -, -, h⟩ | ⟨-, h⟩
  · exact ⟨n, by rw [h, hn], rfl⟩
  · obtain rfl := Option.some.inj (hn.symm.trans hm)
    exact ⟨{ n with written := n.written + 1 }, by rw [h]; rfl, rfl⟩
  · exact absurd hp he
  · exact ⟨n, by rw [h]; exact takeNotice_notice (s := { s with headerDue := false }) hn, rfl⟩
  · exact ⟨n, by rw [h]; exact hn, rfl⟩
  · exact ⟨n, by rw [h]; exact hn, rfl⟩
  · exact ⟨n, by rw [h]; exact hn, rfl⟩

/-- Settles O12: no change of a command touches the words, but for the end of a producer write. -/
theorem noticeWordsStayFixed : Obligations.NoticeWordsStayFixed := by
  intro c s t n hx hn hreset hproducer hbusy
  refine exec_keeps (P := fun u => ∃ n', u.notice = some n' ∧ n'.words = n.words) hreset hx ?_ ⟨n, hn, rfl⟩
  rintro a b hab ⟨m, hm, hwords⟩
  have hb : ∃ n', b.notice = some n' ∧ n'.words = m.words := by
    rcases hab.writer_cases with hw | ⟨e, he, rfl⟩
    · obtain ⟨n', hn', hw, -⟩ := hw.notice hm
      exact ⟨n', hn', hw⟩
    · refine endingEvent_words e ?_ hm
      rintro rfl
      rcases he with hc | ⟨w, hw⟩
      · exact hproducer hc
      · exact hbusy w hw
  obtain ⟨n', hn', hw⟩ := hb
  exact ⟨n', hn', hw.trans hwords⟩

end Sys2Proof.Machine
end

