-- ==== Sys2Proof/Proofs/RingLaw.lean ====
section
/-! PROOF. Every step keeps the law of the notice ring (O4). What the ring and the notice in progress are asked is kept
change by change; which access holds the memory side is followed command by command. -/

namespace Sys2Proof.Machine

open Relation

variable {s t u : State} {n : Notice}

/-! ## The law without the memory side -/

/-- A notice is in progress with a word still to write (R163). -/
def State.wordLeft (s : State) : Prop := ∃ n, s.notice = some n ∧ n.written < 8

/-- The Notice Writer's law but for what it asks of the access that holds the memory side (R159). -/
def State.writerLaw (s : State) : Prop :=
  (∀ r, s.ringWaiting = some r → r.capacityOk) ∧ (s.headerDue = true → s.notice = none) ∧
  (∀ n, s.notice = some n → n.words.length = 8 ∧ n.written ≤ 8) ∧
  (s.noticeRing = none →
    s.notice = none ∧ s.headerDue = false ∧ s.ringWaiting = none ∧ s.producer = s.consumer) ∧
  ∀ r, s.noticeRing = some r →
    r.capacityOk ∧ s.unconsumed ≤ r.count ∧ (s.notice ≠ none → s.unconsumed < r.count)

theorem ringLaw_iff (s : State) : s.ringLaw ↔
    s.writerLaw ∧ ∀ w, s.arb.busy = some (.internal w (some .noticeWord)) → s.wordLeft := by
  unfold State.ringLaw State.writerLaw State.wordLeft
  cases s.noticeRing with
  | none => simp only [reduceCtorEq, false_implies, implies_true, and_true, true_implies]; tauto
  | some r => simp only [reduceCtorEq, false_implies, true_and, Option.some.injEq, forall_eq']; tauto

theorem writerLaw_of_same (h : t.writer = s.writer) (hs : s.writerLaw) : t.writerLaw := by
  simp only [State.writer, Prod.mk.injEq] at h
  obtain ⟨hn, hr, hp, hc, hd, hw⟩ := h
  unfold State.writerLaw State.unconsumed at hs ⊢
  rwa [hn, hr, hp, hc, hd, hw]

/-- A take adds a notice to a ring with room (R161). -/
theorem taken_writerLaw (hc : s.canTake = true) (hlen : n.words.length = 8) (hn : n.written = 0) (h : s.writerLaw) :
    State.writerLaw { s with notice := some n } := by
  obtain ⟨hnone, hheader, r, hr, hroom⟩ := (canTake_iff s).mp hc
  obtain ⟨hwait, -, -, -, hring⟩ := h
  refine ⟨hwait, fun hd => absurd (hheader.symm.trans hd) nofun, fun m hm => ?_,
    fun hno => absurd (hr.symm.trans hno) nofun, fun r' hr' => ?_⟩
  · obtain rfl := Option.some.inj hm
    exact ⟨hlen, hn ▸ Nat.zero_le 8⟩
  · obtain ⟨hcap, hle, -⟩ := hring r' hr'
    obtain rfl := Option.some.inj (hr.symm.trans hr')
    exact ⟨hcap, hle, fun _ => hroom⟩

/-- An index below a whole turn grows by one. -/
theorem toNat_succ_sub {a b : Half} (h : (a - b).toNat < 65535) : (a + 1 - b).toNat = (a - b).toNat + 1 := by
  bv_omega

/-- An accepted consumer index leaves the count within the capacity, now and once the notice in progress is written
(R160). -/
theorem consumed_writerLaw {r : Ring} {v : Half} (hr : s.noticeRing = some r) (ha : s.acceptsConsumer r v = true)
    (h : s.writerLaw) : State.writerLaw { s with consumer := v } := by
  obtain ⟨hwait, hheader, hnotice, -, hring⟩ := h
  obtain ⟨hnow, hlater⟩ := Bool.and_eq_true_iff.mp ha
  refine ⟨hwait, hheader, hnotice, fun hno => absurd (hr.symm.trans hno) nofun, fun r' hr' => ?_⟩
  obtain ⟨hcap, -, -⟩ := hring r' hr'
  obtain rfl := Option.some.inj (hr.symm.trans hr')
  have hle : (s.producer - v).toNat ≤ r.count := of_decide_eq_true hnow
  refine ⟨hcap, hle, fun hn => ?_⟩
  have hnext : (s.producer + 1 - v).toNat ≤ r.count := by
    rcases Bool.or_eq_true_iff.mp hlater with hnone | hnext
    · exact absurd (Option.isNone_iff_eq_none.mp hnone) hn
    · exact of_decide_eq_true hnext
  have hmax : r.count ≤ 1024 := hcap.2
  rw [toNat_succ_sub (by omega)] at hnext
  exact hnext

theorem unfreed_writerLaw (h : s.writerLaw) :
    State.writerLaw { s with notice := s.notice.map (fun n => { n with frees := none }) } := by
  have hmap : s.notice.map (fun n => { n with frees := none }) = none ↔ s.notice = none := Option.map_eq_none_iff
  obtain ⟨hwait, hheader, hnotice, hnone, hring⟩ := h
  refine ⟨hwait, fun hd => hmap.mpr (hheader hd), fun m hm => ?_, fun hno => ?_, fun r hr => ?_⟩
  · obtain ⟨n, hn, rfl⟩ := Option.map_eq_some_iff.mp hm
    exact hnotice n hn
  · obtain ⟨hn, hrest⟩ := hnone hno
    exact ⟨hmap.mpr hn, hrest⟩
  · obtain ⟨hcap, hle, hlt⟩ := hring r hr
    exact ⟨hcap, hle, fun hn => hlt (mt hmap.mpr hn)⟩

/-- A ring as it is initialised holds nothing (R164). -/
theorem fresh_writerLaw {r : Ring} (hring : t.noticeRing = some r) (hr : r.capacityOk) (hp : t.producer = 0)
    (hc : t.consumer = 0) (hn : t.notice = none) (hw : t.ringWaiting = none) : t.writerLaw := by
  refine ⟨fun r' hr' => absurd (hw.symm.trans hr') nofun, fun _ => hn, fun m hm => absurd (hn.symm.trans hm) nofun,
    fun hno => absurd (hring.symm.trans hno) nofun, fun r' hr' => ?_⟩
  obtain rfl := Option.some.inj (hring.symm.trans hr')
  have hzero : t.unconsumed = 0 := by rw [State.unconsumed, hp, hc]; rfl
  exact ⟨hr, hzero ▸ Nat.zero_le _, fun hne => absurd hn hne⟩

theorem applyNoticeRing_writerLaw {r : Ring} (hr : r.capacityOk) (h : s.writerLaw) :
    (applyNoticeRing r s).writerLaw := by
  obtain ⟨-, hheader, hnotice, hnone, hring⟩ := h
  rcases applyNoticeRing_cases r s with ⟨-, he⟩ | ⟨-, hn, he⟩ | ⟨-, hn, he⟩
  · rw [he]
    refine ⟨nofun, hheader, hnotice, fun hno => ?_, hring⟩
    obtain ⟨hno', hhdr, -, hidx⟩ := hnone hno
    exact ⟨hno', hhdr, rfl, hidx⟩
  · rw [he]
    exact ⟨fun r' hr' => Option.some.inj hr' ▸ hr, hheader, hnotice, fun hno => absurd (hnone hno).1 hn, hring⟩
  · rw [he]
    exact fresh_writerLaw (r := r) rfl hr rfl rfl hn rfl

theorem WriterChange.writerLaw (h : WriterChange s t) (hs : s.writerLaw) : t.writerLaw := by
  cases h with
  | same h => exact writerLaw_of_same h hs
  | taken n hc hlen hn h => exact writerLaw_of_same h (taken_writerLaw hc hlen hn hs)
  | consumed r v hr ha h => exact writerLaw_of_same h (consumed_writerLaw hr ha hs)
  | unfreed h => exact writerLaw_of_same h (unfreed_writerLaw hs)
  | applied r hr h => exact writerLaw_of_same h (applyNoticeRing_writerLaw hr hs)

theorem WriterChanges.writerLaw (h : WriterChanges s t) (hs : s.writerLaw) : t.writerLaw := by
  induction h with
  | refl => exact hs
  | tail _ hab ih => exact hab.writerLaw ih

theorem WriterChanges.wordLeft (h : WriterChanges s t) (hs : s.wordLeft) : t.wordLeft := by
  obtain ⟨n, hn, hlt⟩ := hs
  obtain ⟨n', hn', -, hwritten⟩ := h.notice hn
  exact ⟨n', hn', hwritten ▸ hlt⟩

/-! ## The ends of internal accesses -/

/-- The producer write moves the index into the room that the notice was taken with (R161, R163, R164). -/
theorem producerBeforeTake_writerLaw (hn : s.notice = some n) (h : s.writerLaw) :
    (producerBeforeTake n s).writerLaw := by
  have hnotice := producerBeforeTake_notice n s
  obtain ⟨hwait, hheader, -, hnone, hring⟩ := h
  have hbusy : s.notice ≠ none := by simp [hn]
  cases hr : s.noticeRing with
  | none => exact absurd (hnone hr).1 hbusy
  | some r =>
    cases hw : s.ringWaiting with
    | some r' =>
      obtain ⟨hmoved, hp, hc, -, -, -, hw'⟩ := producerBeforeTake_moved (n := n) hr hw
      exact fresh_writerLaw hmoved (hwait r' hw) hp hc hnotice hw'
    | none =>
      obtain ⟨hsame, hp, hc, -, -, -, hw'⟩ := producerBeforeTake_ring (n := n) hw
      refine ⟨fun r' hr' => absurd (hw'.symm.trans hr') nofun, fun _ => hnotice,
        fun m hm => absurd (hnotice.symm.trans hm) nofun,
        fun hno => absurd (hr.symm.trans (hsame.symm.trans hno)) nofun, fun r' hr' => ?_⟩
      obtain ⟨hcap, -, hlt⟩ := hring r hr
      obtain rfl := Option.some.inj (hr.symm.trans (hsame.symm.trans hr'))
      have hroom : (s.producer - s.consumer).toNat < r.count := hlt hbusy
      have hmax : r.count ≤ 1024 := hcap.2
      refine ⟨hcap, ?_, fun hne => absurd hnotice hne⟩
      rw [State.unconsumed, hp, hc, toNat_succ_sub (by omega)]
      exact hroom

/-- The end of an internal access keeps the law; a notice word's counts one that was left (R163). -/
theorem endingEvent_writerLaw (e : Ending) (he : e = .noticeWord → s.wordLeft) (h : s.writerLaw) :
    (endingEvent e s).writerLaw := by
  rcases endingEvent_cases e s with hx | ⟨n, hword, hn, hx⟩ | ⟨n, -, hn, hx⟩ | ⟨r, -, -, hx⟩ | ⟨c, -, -, hx⟩ |
    ⟨c, -, -, hx⟩ | ⟨-, hx⟩
  · rwa [hx]
  · obtain ⟨hwait, hheader, hnotice, hnone, hring⟩ := h
    obtain ⟨m, hm, hlt⟩ := he hword
    obtain rfl := Option.some.inj (hn.symm.trans hm)
    have hsome : s.notice ≠ none := by simp [hn]
    rw [hx]
    refine ⟨hwait, fun hd => absurd (hheader hd) hsome, fun m hm => ?_, fun hno => absurd (hnone hno).1 hsome,
      fun r hr => ?_⟩
    · obtain rfl := Option.some.inj hm
      exact ⟨(hnotice n hn).1, hlt⟩
    · obtain ⟨hcap, hle, hroom⟩ := hring r hr
      exact ⟨hcap, hle, fun _ => hroom hsome⟩
  · rw [hx, producerEvent_eq]
    exact (takeNotice_writerChange _).writerLaw (producerBeforeTake_writerLaw hn h)
  · obtain ⟨hwait, -, hnotice, hnone, hring⟩ := h
    have hdropped : State.writerLaw { s with headerDue := false } := by
      refine ⟨hwait, nofun, hnotice, fun hno => ?_, hring⟩
      obtain ⟨hn, -, hrest⟩ := hnone hno
      exact ⟨hn, rfl, hrest⟩
    rw [hx]
    exact (takeNotice_writerChange _).writerLaw hdropped
  · rw [hx]; exact h
  · rw [hx]; exact h
  · rw [hx]; exact h

/-! ## The memory side -/

/-- The law where no internal access holds the memory side. -/
theorem ringLaw_of_free (hb : ∀ w e, s.arb.busy ≠ some (.internal w e)) (h : s.writerLaw) : s.ringLaw :=
  (ringLaw_iff s).mpr ⟨h, fun w hw => absurd hw (hb w _)⟩

theorem ringLaw_of_busy (hc : WriterChanges s t) (hb : t.arb.busy = s.arb.busy) (h : s.ringLaw) : t.ringLaw := by
  obtain ⟨hlaw, hword⟩ := (ringLaw_iff s).mp h
  exact (ringLaw_iff t).mpr ⟨hc.writerLaw hlaw, fun w hw => hc.wordLeft (hword w (hb.symm.trans hw))⟩

theorem finish_writer (s0 s : State) : (finish s0 s).writer = s.writer := by
  rw [finish_eq]
  rfl

/-- An event away from the bus, with its closing. -/
theorem event_ringLaw (s0 : State) (hc : WriterChanges s u) (hb : u.arb.busy = s.arb.busy) (h : s.ringLaw) :
    (finish s0 u).ringLaw :=
  ringLaw_of_busy (.tail hc (.same (finish_writer s0 u))) ((finish_side s0 u).2.trans hb) h

theorem takeBeat_writerLaw (b : Beat) (h : s.writerLaw) : (takeBeat b s).writerLaw :=
  WriterChanges.writerLaw (ReflTransGen.lift id (fun _ _ => Move.writerChange) _ _ (takeBeat_moves b s)) h

/-- A forwarded beat holds the memory side itself, or nothing does (R186). -/
theorem finishBeat_ringLaw (b : Beat) (s0 : State) (h : s.writerLaw) : (finishBeat b s0 s).ringLaw := by
  have hwriter : (finishBeat b s0 s).writer = s.writer := by
    rw [finishBeat_eq, startWindow_eq]
    rfl
  refine ringLaw_of_free (fun w e => ?_) (writerLaw_of_same hwriter h)
  rw [finishBeat_eq, startWindow_eq]
  show (if s.arb.ready then none else some Busy.passing) ≠ _
  split
  · exact nofun
  · exact nofun

theorem releaseHeld_ringLaw (h : s.ringLaw) : (releaseHeld s).ringLaw := by
  unfold releaseHeld
  split
  · exact h
  · exact finishBeat_ringLaw _ _ (takeBeat_writerLaw _ ((ringLaw_iff s).mp h).1)

theorem present_ringLaw {row : BeatRow} {eff : Beat → State → State} {b : Beat}
    (he : s.rowOf b = row → takeBeat b s = eff b s) (hx : present row eff b s = .next t) (h : s.ringLaw) :
    t.ringLaw := by
  have hbeat : (finishBeat b s (takeBeat b s)).ringLaw :=
    finishBeat_ringLaw b s (takeBeat_writerLaw b ((ringLaw_iff s).mp h).1)
  rcases present_cases row eff b s with ⟨-, hs⟩ | ⟨-, -, hs⟩ | ⟨-, hr, hs⟩ | ⟨-, -, hs⟩
  · exact Host.Outcome.next.inj (hs.symm.trans hx) ▸ h
  · exact Host.Outcome.next.inj (hs.symm.trans hx) ▸ h
  · exact Host.Outcome.next.inj (hs.symm.trans hx) ▸ he hr ▸ hbeat
  · exact Host.Outcome.next.inj (hs.symm.trans hx) ▸ hbeat

/-- The end of an internal access that no longer holds the memory side (R186, R190). -/
theorem endAccess_ringLaw (w : Option Store) (e : Option Ending) (hb : s.arb.busy = none)
    (he : e = some .noticeWord → s.wordLeft) (h : s.writerLaw) : (endAccess w e s).ringLaw := by
  have hfree : (endAccess w e s).arb.busy = none := (endAccess_side w e s).2.2.trans hb
  have hland : WriterChanges s (land w s) := writerChanges_of_same (land_writer w s)
  refine ringLaw_of_free (fun w' e' hw => absurd (hfree.symm.trans hw) nofun) ?_
  cases e with
  | none => exact hland.writerLaw h
  | some e =>
    exact writerLaw_of_same (finish_writer _ _) (endingEvent_writerLaw e
      (fun hword => hland.wordLeft (he (congrArg some hword))) (hland.writerLaw h))

theorem memoryReady_ringLaw (ready : Bool) (h : s.ringLaw) : (memoryReady ready s).ringLaw := by
  obtain ⟨hlaw, hword⟩ := (ringLaw_iff s).mp h
  rcases memoryReady_cases ready s with ⟨-, he⟩ | ⟨-, -, ⟨-, he⟩ | ⟨-, he⟩⟩ | ⟨w, e, -, hb, he⟩
  · rw [he]
    exact h
  · rw [he]
    exact ringLaw_of_free nofun hlaw
  · rw [he]
    exact releaseHeld_ringLaw (ringLaw_of_free nofun hlaw)
  · rw [he]
    exact releaseHeld_ringLaw (endAccess_ringLaw w e rfl (fun hnw => hword w (hnw ▸ hb)) hlaw)

/-- A grant; one of a notice word has a word left to write (R163). -/
theorem grant_ringLaw {r : Requester} {w : Option Store} {event : State → State} {e : Option Ending}
    (hv : (event (endWindow s)).writer = s.writer) (hb : (event (endWindow s)).arb.busy = s.arb.busy)
    (he : e = some .noticeWord → s.wordLeft) (hx : grant r w event e s = .next t) (h : s.ringLaw) : t.ringLaw := by
  have hgranted : WriterChanges s (finish s (event (endWindow s))) :=
    writerChanges_of_same ((finish_writer s _).trans hv)
  have hside : (finish s (event (endWindow s))).arb.busy = s.arb.busy := (finish_side s _).2.trans hb
  have hlaw := hgranted.writerLaw ((ringLaw_iff s).mp h).1
  have hword (hnw : e = some .noticeWord) := hgranted.wordLeft (he hnw)
  cases hg : s.grants r with
  | false =>
    rw [grant, if_neg (by simp [hg])] at hx
    exact Host.Outcome.next.inj hx ▸ h
  | true =>
    have hfree : s.arb.busy = none := ((grants_iff s r).mp hg).1
    cases hm : s.arb.ready with
    | true =>
      rw [grant_served hg hm] at hx
      exact Host.Outcome.next.inj hx ▸ releaseHeld_ringLaw (endAccess_ringLaw w e (hside.trans hfree) hword hlaw)
    | false =>
      rw [grant_slow hg hm] at hx
      generalize finish s (event (endWindow s)) = v at hlaw hword hx
      obtain rfl := Host.Outcome.next.inj hx
      refine (ringLaw_iff _).mpr ⟨hlaw, fun w' hw' => hword ?_⟩
      injection hw' with hw'
      injection hw'

/-! ## Events away from the bus -/

theorem next_ringLaw (hx : (.next u : Host.Outcome State Fault Refusal) = .next t) (h : u.ringLaw) : t.ringLaw :=
  Host.Outcome.next.inj hx ▸ h

theorem busy_of_keepsArb (hk : s.keepsArb t) : t.arb.busy = s.arb.busy := by
  rcases hk with ⟨-, ha⟩ | ⟨-, ha⟩
  · rw [ha]
  · rw [ha]

/-- An event away from the bus that is due, or none (log entry 4). -/
theorem due_ringLaw {p : Prop} [Decidable p] (hc : WriterChanges s u) (hk : s.keepsArb u)
    (hx : (if p then .next (finish s u) else .next s : Host.Outcome State Fault Refusal) = .next t)
    (h : s.ringLaw) : t.ringLaw := by
  split at hx
  · exact next_ringLaw hx (event_ringLaw s hc (busy_of_keepsArb hk) h)
  · exact next_ringLaw hx h

theorem dirtyMark_writer (s : State) : (dirtyMark s).writer = s.writer := by
  rw [dirtyMark_eq]
  rfl

theorem editLimitEvent_writer (s : State) : (editLimitEvent s).writer = s.writer := by
  unfold editLimitEvent
  split
  · rfl
  · split
    · rfl
    · rfl

/-- An event of the Incident Table and the take that may end it (R161). -/
theorem take_writerChanges (h : u.writer = s.writer) : WriterChanges s (takeNotice u) :=
  .tail (writerChanges_of_same h) (takeNotice_writerChange u)

theorem execPassReading_ringLaw (hx : execPassReading s = .next t) (h : s.ringLaw) : t.ringLaw := by
  refine due_ringLaw ?_ ?_ hx h
  · split
    · exact writerChanges_of_same rfl
    · exact writerChanges_of_same rfl
  · split
    · exact .inl ⟨rfl, rfl⟩
    · exact .inl ⟨rfl, rfl⟩

theorem execPassMatching_ringLaw (hx : execPassMatching s = .next t) (h : s.ringLaw) : t.ringLaw := by
  unfold execPassMatching at hx
  split at hx
  · exact next_ringLaw hx h
  · next causes _ =>
    exact next_ringLaw hx (event_ringLaw s (take_writerChanges (matchingEvent_writer causes s))
      (busy_of_keepsArb (keepsArb_trans (matchingEvent_keepsArb causes s) (takeNotice_keepsArb _))) h)

theorem execAttackExpiry_ringLaw (k : Fin 32) (hx : execAttackExpiry k s = .next t) (h : s.ringLaw) :
    t.ringLaw := by
  unfold execAttackExpiry at hx
  split at hx
  · exact next_ringLaw hx h
  · exact due_ringLaw (take_writerChanges (attackEvent_writer k _ s))
      (keepsArb_trans (attackEvent_keepsArb k _ s) (takeNotice_keepsArb _)) hx h

theorem execReleaseExpiry_ringLaw (k : Fin 32) (hx : execReleaseExpiry k s = .next t) (h : s.ringLaw) :
    t.ringLaw := by
  unfold execReleaseExpiry at hx
  split at hx
  · exact next_ringLaw hx h
  · exact due_ringLaw (take_writerChanges (releaseEvent_writer k _ s))
      (keepsArb_trans (releaseEvent_keepsArb k _ s) (takeNotice_keepsArb _)) hx h

theorem execCommitCompletion_ringLaw (hx : execCommitCompletion s = .next t) (h : s.ringLaw) : t.ringLaw := by
  unfold execCommitCompletion at hx
  split at hx
  · exact next_ringLaw hx h
  · exact due_ringLaw (completionEvent_writerChanges _ s) (completionEvent_keepsArb _ s) hx h

theorem execMainsFailEdge_ringLaw (hx : execMainsFailEdge s = .next t) (h : s.ringLaw) : t.ringLaw := by
  unfold execMainsFailEdge at hx
  split at hx
  · exact next_ringLaw hx h
  · exact next_ringLaw hx (event_ringLaw s (writerChanges_of_same (dirtyMark_writer _))
      (busy_of_keepsArb (dirtyMark_keepsArb (s := s) rfl rfl)) h)

theorem execMaintAllEdge_ringLaw (hx : execMaintAllEdge s = .next t) (h : s.ringLaw) : t.ringLaw := by
  unfold execMaintAllEdge at hx
  split at hx
  · exact next_ringLaw hx h
  · exact next_ringLaw hx (event_ringLaw s (writerChanges_of_same (dirtyMark_writer _))
      (busy_of_keepsArb (dirtyMark_keepsArb (s := s) rfl rfl)) h)

/-! ## The grants -/

theorem execLoaderCheckRead_ringLaw (hx : execLoaderCheckRead s = .next t) (h : s.ringLaw) : t.ringLaw := by
  unfold execLoaderCheckRead at hx
  split at hx
  · exact next_ringLaw hx h
  · next l _ =>
    have harb := checkReadEvent_arb l (endWindow s)
    split at hx
    · exact next_ringLaw hx h
    · exact grant_ringLaw (e := none) (checkReadEvent_writer l _) (by rw [harb]; rfl) nofun hx h

theorem execTerminalWordApply_ringLaw (hx : execTerminalWordApply s = .next t) (h : s.ringLaw) : t.ringLaw := by
  unfold execTerminalWordApply at hx
  split at hx
  · exact next_ringLaw hx h
  · split at hx
    · exact grant_ringLaw (e := none) rfl rfl nofun hx h
    · exact next_ringLaw hx h

theorem execOwnedWordWriterGrant_ringLaw (hx : execOwnedWordWriterGrant s = .next t) (h : s.ringLaw) :
    t.ringLaw := by
  have hevent : (ownedWordEvent (endWindow s)).writer = s.writer ∧
      (ownedWordEvent (endWindow s)).arb.busy = s.arb.busy := by
    unfold ownedWordEvent
    split
    · exact ⟨rfl, rfl⟩
    · split
      · exact ⟨rfl, rfl⟩
      · exact ⟨rfl, rfl⟩
  exact grant_ringLaw (e := none) hevent.1 hevent.2 nofun hx h

/-- A write that is granted under a condition, or does not come (log entry 4). -/
theorem grantIf_ringLaw {p : Prop} [Decidable p] {r : Requester} {w : Store} {e : Ending}
    (he : p → e = .noticeWord → s.wordLeft) (hx : (if p then grantWrite r w e s else .next s) = .next t)
    (h : s.ringLaw) : t.ringLaw := by
  split at hx
  · next hp => exact grant_ringLaw (event := id) rfl rfl (fun hnw => he hp (Option.some.inj hnw)) hx h
  · exact next_ringLaw hx h

theorem execNoticeWordWrite_ringLaw (hx : execNoticeWordWrite s = .next t) (h : s.ringLaw) : t.ringLaw := by
  unfold execNoticeWordWrite at hx
  split at hx
  · next n _ hn _ => exact grantIf_ringLaw (fun hlt _ => ⟨n, hn, hlt⟩) hx h
  · exact next_ringLaw hx h

theorem execProducerWrite_ringLaw (hx : execProducerWrite s = .next t) (h : s.ringLaw) : t.ringLaw := by
  unfold execProducerWrite at hx
  split at hx
  · exact grantIf_ringLaw nofun hx h
  · exact next_ringLaw hx h

theorem execRingHeaderInitWrite_ringLaw (hx : execRingHeaderInitWrite s = .next t) (h : s.ringLaw) :
    t.ringLaw := by
  unfold execRingHeaderInitWrite at hx
  split at hx
  · exact next_ringLaw hx h
  · exact grantIf_ringLaw nofun hx h

theorem execCensusWordWrite_ringLaw (hx : execCensusWordWrite s = .next t) (h : s.ringLaw) : t.ringLaw := by
  unfold execCensusWordWrite at hx
  split at hx
  · exact next_ringLaw hx h
  · exact grantIf_ringLaw nofun hx h

theorem execCensusDoneWrite_ringLaw (hx : execCensusDoneWrite s = .next t) (h : s.ringLaw) : t.ringLaw := by
  unfold execCensusDoneWrite at hx
  split at hx
  · exact next_ringLaw hx h
  · exact grantIf_ringLaw nofun hx h

theorem execCensusCutWrite_ringLaw (hx : execCensusCutWrite s = .next t) (h : s.ringLaw) : t.ringLaw := by
  unfold execCensusCutWrite at hx
  split at hx
  · exact next_ringLaw hx h
  · exact grantIf_ringLaw nofun hx h

/-! ## The carries -/

theorem execMillisecondCarry_ringLaw (hx : execMillisecondCarry s = .next t) (h : s.ringLaw) : t.ringLaw := by
  unfold execMillisecondCarry at hx
  split at hx
  · exact next_ringLaw hx h
  · have hf := runPatience_frame (1000 - s.time.divider) s
    dsimp only at hx
    generalize runPatience (1000 - s.time.divider) s = v at hf hx
    have hwriter : v.writer = s.writer := (congrArg State.writer hf :)
    have hbusy : v.arb.busy = s.arb.busy := (congrArg (·.arb.busy) hf :)
    refine next_ringLaw hx (event_ringLaw s (writerChanges_of_same ((millisecondEvent_writer _).trans hwriter)) ?_ h)
    rw [millisecondEvent, countWindows_eq]
    exact hbusy

theorem microsecondEvent_busy (levels : Levels) (s : State) :
    (microsecondEvent levels s).arb.busy = s.arb.busy := by
  rw [microsecondEvent_eq]

theorem execMicrosecondCarry_ringLaw (levels : Levels) (run : CarryRun)
    (hx : execMicrosecondCarry levels run s = .next t) (h : s.ringLaw) : t.ringLaw := by
  have hcycle : (toMicrosecond run.ready s).ringLaw :=
    memoryReady_ringLaw (s := { s with time.prescaler := 24 }) run.ready h
  rcases execMicrosecondCarry_cases levels run s with ⟨-, hs⟩ | ⟨-, -, hs⟩ | ⟨-, -, hs⟩
  · exact next_ringLaw (hs.symm.trans hx) h
  · exact next_ringLaw (hs.symm.trans hx) hcycle
  · refine next_ringLaw (hs.symm.trans hx) ?_
    unfold microsecond
    dsimp only
    split
    · exact event_ringLaw _ (writerChanges_of_same (microsecondEvent_writer levels _))
        (microsecondEvent_busy levels _) hcycle
    · exact hcycle

/-! ## Hardware reset -/

/-- No internal access holds the memory side (R192). -/
def State.noInternal (s : State) : Prop := ∀ w e, s.arb.busy ≠ some (.internal w e)

theorem plainBeat_noInternal (b : Beat) (s : State) : (plainBeat b s).noInternal := by
  intro w e
  show (if s.arb.ready then none else some Busy.passing) ≠ _
  split
  · exact nofun
  · exact nofun

theorem plainRelease_noInternal (h : s.noInternal) : (plainRelease s).noInternal := by
  unfold plainRelease
  split
  · exact plainBeat_noInternal _ s
  · exact h

theorem plainEvent_noInternal (e : BusEvent) (h : s.noInternal) : (plainEvent s e).noInternal := by
  rcases plainEvent_cases s e with ⟨b, -, ⟨-, he⟩ | ⟨-, -, he⟩ | ⟨-, -, he⟩⟩ | ⟨-, he⟩ | ⟨-, ⟨-, he⟩ | ⟨b, -, he⟩⟩
  · rwa [he]
  · rw [he]; exact h
  · rw [he]; exact plainBeat_noInternal b s
  · rw [he]; exact h
  · rw [he]; exact fun _ _ => nofun
  · rw [he]; exact plainBeat_noInternal b _

/-- The assertion of RESET_N loses an internal access in progress, and none is granted in it (R192). -/
theorem asserted_noInternal (s : State) (during : List BusEvent) : (s.asserted during).noInternal := by
  unfold State.asserted
  induction during using List.reverseRecOn with
  | nil =>
    refine plainRelease_noInternal fun w e => ?_
    show (if s.arb.busy = some .passing then some Busy.passing else none) ≠ _
    split
    · exact nofun
    · exact nofun
  | append_singleton before e ih =>
    rw [List.foldl_append, List.foldl_cons, List.foldl_nil]
    exact plainEvent_noInternal e ih

/-- After hardware reset the part has no notice ring (R159). -/
theorem atRelease_ringLaw (straps : BitVec 8) (levels : Levels) (h : s.noInternal) :
    (s.atRelease straps levels).ringLaw :=
  ringLaw_of_free h ⟨nofun, nofun, nofun, fun _ => ⟨rfl, rfl, rfl, rfl⟩, nofun⟩

/-! ## Every command -/

theorem exec_ringLaw {c : Instr} (hx : exec c s = .next t) (h : s.ringLaw) : t.ringLaw := by
  cases c with
  | hardwareReset p l d =>
    obtain rfl := Host.Outcome.next.inj ((execHardwareReset_eq p l d s).symm.trans hx)
    exact atRelease_ringLaw p l (asserted_noInternal s d)
  | passingWrite b | intakeWord0Write b | intakeWord1Write b | intakePartialWrite b | intakePartialWord3Write b
  | emptyRecord b | malformedRecord b | statusRecord b | missRecord b | gaspRecord b | linkRecord b | treeDown b
  | treeUp b | extendCmd tag arg burst | editCmd tag arg burst | commitCmd tag arg burst | abandonCmd tag arg burst
  | settimeCmd tag arg burst | forgetCmd tag arg burst | maintCmd tag arg burst | censusCmd tag arg burst
  | resetCmd tag arg burst | badOpcode b | ownedWordWrite b | disturbingWrite b | consumerIndexWrite b =>
    exact present_ringLaw (fun hr => by simp only [takeBeat, hr]) hx h
  | mainsFailEdge => exact execMainsFailEdge_ringLaw hx h
  | maintAllEdge => exact execMaintAllEdge_ringLaw hx h
  | silenceCarry => exact due_ringLaw (writerChanges_of_same (silenceEvent_writer s)) (silenceEvent_keepsArb s) hx h
  | stormLeak => exact due_ringLaw (writerChanges_of_same (leakEvent_writer s)) (leakEvent_keepsArb s) hx h
  | settleExpiry =>
    exact due_ringLaw (s := s) (u := { s with settle := none, passRequest := true }) (writerChanges_of_same rfl)
      (.inl ⟨rfl, rfl⟩) hx h
  | passReading => exact execPassReading_ringLaw hx h
  | passMatching => exact execPassMatching_ringLaw hx h
  | attackExpiry k => exact execAttackExpiry_ringLaw k hx h
  | releaseExpiry k => exact execReleaseExpiry_ringLaw k hx h
  | loaderCheckRead => exact execLoaderCheckRead_ringLaw hx h
  | terminalWordApply => exact execTerminalWordApply_ringLaw hx h
  | commitCompletion => exact execCommitCompletion_ringLaw hx h
  | editLimitExpiry =>
    exact due_ringLaw (writerChanges_of_same (editLimitEvent_writer s)) (editLimitEvent_keepsArb s) hx h
  | noticeWordWrite => exact execNoticeWordWrite_ringLaw hx h
  | producerWrite => exact execProducerWrite_ringLaw hx h
  | ringHeaderInitWrite => exact execRingHeaderInitWrite_ringLaw hx h
  | ownedWordWriterGrant => exact execOwnedWordWriterGrant_ringLaw hx h
  | censusWordWrite => exact execCensusWordWrite_ringLaw hx h
  | censusDoneWrite => exact execCensusDoneWrite_ringLaw hx h
  | censusCutWrite => exact execCensusCutWrite_ringLaw hx h
  | patienceExpiry =>
    change execPatienceExpiry s = _ at hx
    unfold execPatienceExpiry at hx
    split at hx
    · exact next_ringLaw hx (event_ringLaw s (writerChanges_of_same rfl) rfl h)
    · exact next_ringLaw hx h
  | millisecondCarry => exact execMillisecondCarry_ringLaw hx h
  | microsecondCarry levels run => exact execMicrosecondCarry_ringLaw levels run hx h

/-- Settles O4: a step is one command, which keeps the law, or one REFCLK cycle. -/
theorem stepKeepsRingLaw : Obligations.StepKeepsRingLaw := by
  intro s t h hx
  rcases step_cases hx with ⟨c, hx⟩ | ⟨c, rest, hx⟩ | ⟨-, rfl⟩
  · exact exec_ringLaw hx h
  · exact exec_ringLaw (s := { s with pending := rest }) hx h
  · exact h

end Sys2Proof.Machine
end

