-- ==== Sys2Proof/Proofs/NoticeWords.lean ====
section
/-! PROOF. The eight words of a notice, as numbers (O21). -/

namespace Sys2Proof.Machine

/-! ## The fields -/

theorem wordOfHalves_toNat {a b : Nat} (ha : a < 65536) (hb : b < 65536) : (wordOfHalves a b).toNat = 65536 * a + b := by
  simp only [wordOfHalves, toNat_append_add, BitVec.toNat_ofNat]
  omega

theorem kindCode_lt (kind : NoticeKind) : kind.code < 256 := by
  cases kind <;> decide

theorem causeCode_lt (kind : CauseKind) : kind.code < 256 := by
  cases kind <;> decide

theorem subjectField_lt (x : Subject) : subjectField x < 65536 := by
  cases x with
  | node n => exact n.isLt.trans (by decide)
  | terminal m => exact m.isLt.trans (by decide)
  | nothing => decide

theorem exceptionField_lt (l : List (Fin 512)) (k : Nat) : exceptionField l k < 65536 := by
  unfold exceptionField
  cases l[k]? with
  | none => decide
  | some m => exact m.isLt.trans (by decide)

theorem noticeFlags_lt (i : Incident) : noticeFlags i < 256 := by
  have hb (b : Bool) : flag b ≤ 1 := by cases b <;> decide
  have h1 := hb i.storm
  have h2 := hb i.maint
  have h3 := hb i.truncated
  have h4 := hb i.recurred
  unfold noticeFlags
  omega

/-! ## The close -/

/-- The close that a notice reports: that of a CLOSE alone (log entry 9). -/
def noticeClose (kind : NoticeKind) (i : Incident) : Option Close := if kind = .closing then i.close else none

/-- The close reason field of a notice (12.3). -/
def noticeReason (kind : NoticeKind) (i : Incident) : Nat := ((noticeClose kind i).map (·.reason.code)).getD 0

/-- The absorbing number field of a notice (12.3). -/
def noticeAbsorber (kind : NoticeKind) (i : Incident) : Nat := ((noticeClose kind i).map (·.absorber)).getD 0

theorem noticeReason_lt (kind : NoticeKind) (i : Incident) : noticeReason kind i < 256 := by
  unfold noticeReason
  cases noticeClose kind i with
  | none => decide
  | some c => cases hc : c.reason <;> simp [hc, CloseReason.code]

/-- The two fields of a close: 0 in a notice that reports none, else the close's. -/
theorem closeFields_eq {kind : NoticeKind} {i : Incident} {reason absorber : Nat}
    (hnone : kind ≠ .closing ∨ i.close = none → reason = 0 ∧ absorber = 0)
    (hsome : ∀ c, kind = .closing → i.close = some c → absorber = c.absorber ∧
      reason = (match c.reason with | .cleared => 1 | .absorbed => 2 | .reconfigured => 3)) :
    noticeReason kind i = reason ∧ noticeAbsorber kind i = absorber := by
  unfold noticeReason noticeAbsorber noticeClose
  by_cases hk : kind = .closing
  · rw [if_pos hk]
    cases hc : i.close with
    | none =>
      obtain ⟨rfl, rfl⟩ := hnone (.inr hc)
      exact ⟨rfl, rfl⟩
    | some c =>
      obtain ⟨rfl, rfl⟩ := hsome c hk hc
      refine ⟨?_, rfl⟩
      show c.reason.code = _
      cases c.reason <;> rfl
  · obtain ⟨rfl, rfl⟩ := hnone (.inl hk)
    rw [if_neg hk]
    exact ⟨rfl, rfl⟩

/-! ## The notices -/

variable {i : Incident}

theorem incidentNotice_ordinary (kind : NoticeKind) (tag : Byte) (clock : Word) (h : i.kind ≠ .residue) :
    incidentNotice kind i tag clock =
      [wordOfBytesHalf kind.code i.kind.code i.number,
       wordOfBytesHalf (noticeReason kind i) (noticeFlags i) (subjectField i.subject),
       wordOfHalves i.afflicted i.monitored, clock, i.created,
       BitVec.ofNat 16 (noticeAbsorber kind i) ++ tag ++ BitVec.ofNat 8 i.exceptions.length,
       wordOfHalves (exceptionField i.exceptions 1) (exceptionField i.exceptions 0),
       wordOfHalves (exceptionField i.exceptions 3) (exceptionField i.exceptions 2)] := if_neg h

theorem incidentNotice_residue (kind : NoticeKind) (tag : Byte) (clock : Word) (h : i.kind = .residue) :
    incidentNotice kind i tag clock =
      [wordOfBytesHalf kind.code i.kind.code i.number,
       wordOfBytesHalf (noticeReason kind i) (flag i.storm + 2 * flag i.maint) 65535,
       wordOfHalves (i.unplaced.dark + i.unplaced.power + i.unplaced.dim) 0, clock, i.created, 0,
       wordOfHalves i.unplaced.power i.unplaced.dark, wordOfHalves 0 i.unplaced.dim] := if_pos h

/-- The word of the absorbing number, the subject's tag and the number of exceptions (12.3). -/
theorem absorberWord_toNat {absorber count : Nat} (tag : Byte) (ha : absorber < 65536) (hc : count < 256) :
    (BitVec.ofNat 16 absorber ++ tag ++ BitVec.ofNat 8 count).toNat = 65536 * absorber + 256 * tag.toNat + count := by
  simp only [toNat_append_add, BitVec.toNat_ofNat]
  omega

theorem ordinaryNotice_toNat {kind : NoticeKind} (tag : Byte) (clock : Word) (h : i.kind ≠ .residue)
    (hn : i.number < 65536) (ha : i.afflicted < 65536) (hm : i.monitored < 65536)
    (hab : noticeAbsorber kind i < 65536) (hx : i.exceptions.length ≤ 4) :
    (incidentNotice kind i tag clock).map BitVec.toNat =
      [16777216 * kind.code + 65536 * i.kind.code + i.number,
       16777216 * noticeReason kind i + 65536 * noticeFlags i + subjectField i.subject,
       65536 * i.afflicted + i.monitored, clock.toNat, i.created.toNat,
       65536 * noticeAbsorber kind i + 256 * tag.toNat + i.exceptions.length,
       65536 * exceptionField i.exceptions 1 + exceptionField i.exceptions 0,
       65536 * exceptionField i.exceptions 3 + exceptionField i.exceptions 2] := by
  have hlen : i.exceptions.length < 256 := by omega
  have hexc := exceptionField_lt i.exceptions
  simp only [incidentNotice_ordinary kind tag clock h, List.map_cons, List.map_nil,
    wordOfBytesHalf_toNat (kindCode_lt kind) (causeCode_lt i.kind) hn,
    wordOfBytesHalf_toNat (noticeReason_lt kind i) (noticeFlags_lt i) (subjectField_lt i.subject),
    wordOfHalves_toNat ha hm, absorberWord_toNat tag hab hlen, wordOfHalves_toNat (hexc 1) (hexc 0),
    wordOfHalves_toNat (hexc 3) (hexc 2)]

theorem residueNotice_toNat {kind : NoticeKind} (tag : Byte) (clock : Word) (h : i.kind = .residue)
    (hn : i.number < 65536) (hu : i.unplaced.dark + i.unplaced.power + i.unplaced.dim < 65536) :
    (incidentNotice kind i tag clock).map BitVec.toNat =
      [16777216 * kind.code + 65536 * i.kind.code + i.number,
       16777216 * noticeReason kind i + 65536 * (flag i.storm + 2 * flag i.maint) + 65535,
       65536 * (i.unplaced.dark + i.unplaced.power + i.unplaced.dim), clock.toNat, i.created.toNat, 0,
       65536 * i.unplaced.power + i.unplaced.dark, i.unplaced.dim] := by
  have hflags : flag i.storm + 2 * flag i.maint < 256 := by
    have := noticeFlags_lt i
    unfold noticeFlags at this
    omega
  have hzero : (0 : Word).toNat = 0 := rfl
  simp only [incidentNotice_residue kind tag clock h, List.map_cons, List.map_nil,
    wordOfBytesHalf_toNat (kindCode_lt kind) (causeCode_lt i.kind) hn,
    wordOfBytesHalf_toNat (noticeReason_lt kind i) hflags (by decide : 65535 < 65536),
    wordOfHalves_toNat hu (by decide : 0 < 65536), hzero,
    wordOfHalves_toNat (show i.unplaced.power < 65536 by omega) (show i.unplaced.dark < 65536 by omega),
    wordOfHalves_toNat (by decide : 0 < 65536) (show i.unplaced.dim < 65536 by omega), Nat.mul_zero, Nat.zero_add,
    Nat.add_zero]

theorem restartNotice_toNat (r : RestartReason) (clock : Word) : (restartNotice r clock).map BitVec.toNat =
    [67108864, 16777216 * r.code + 65535, 0, clock.toNat, 0, 0, 0, 0] := by
  cases r <;> rfl

/-- Settles O21: each field of the words by its own lemma. -/
theorem noticeWordsCarryTheRecord : Obligations.NoticeWordsCarryTheRecord := by
  refine ⟨?incident, fun r clock => ?restart, fun s i => ?tag⟩
  case incident =>
    intro kind i tag clock code cause reason absorber subject exception _ hcode hcause hnone hsome hsubject
      hexception hn ha hm habsorber hlen hunplaced
    obtain ⟨hr, hab⟩ := closeFields_eq hnone hsome
    have hcode' : code = kind.code := by rw [hcode]; cases kind <;> rfl
    have hcause' : cause = i.kind.code := by rw [hcause]; cases i.kind <;> rfl
    have hsubject' : subject = subjectField i.subject := by rw [hsubject]; cases i.subject <;> rfl
    have hexception' (k : Nat) : exception k = exceptionField i.exceptions k := by
      rw [hexception, exceptionField]
      cases i.exceptions[k]? <;> rfl
    subst hr hab
    refine ⟨fun hk => ?_, fun hk => ?_⟩
    · rw [ordinaryNotice_toNat tag clock hk hn ha hm habsorber hlen, hcode', hcause', hsubject']
      simp only [hexception', noticeFlags, flag_eq_toNat]
    · rw [residueNotice_toNat tag clock hk hn hunplaced, hcode', hk]
      simp only [flag_eq_toNat, CauseKind.code]
  case restart =>
    rw [restartNotice_toNat]
    cases r <;> rfl
  case tag =>
    unfold State.subjectTag
    cases hs : i.subject with
    | node n => exact ⟨fun m hm => Subject.node.inj hm ▸ rfl, fun hne => absurd rfl (hne n)⟩
    | terminal m => exact ⟨nofun, fun _ => rfl⟩
    | nothing => exact ⟨nofun, fun _ => rfl⟩

end Sys2Proof.Machine
end

