-- ==== Sys2Proof/Proofs/ServedWrites.lean ====
section
/-! PROOF. The writes that a ready memory serves at their grant: the notice words and the initial header word (O57), and
the census (O60). -/

namespace Sys2Proof.Machine

variable {s u : State} {r : Ring} {n : Notice} {c : Census}

/-! ## A served write -/

/-- The part once a granted write has reached memory, before its event (R190, R191). -/
def State.granted (s : State) (w : Store) : State := { s.store w.addr w.word with arb := s.arbAfterGrant }

/-- A write that a ready memory serves, with no beat held behind it: its event's changes, memory, the arbiter and the
write-pending marks. -/
theorem write_served {q : Requester} {w : Store} {e : Ending} (h : s.servesRequest q)
    (hu : endingEvent e (s.granted w) = u) :
    grantWrite q w e s = .next { u with writeMarks := (markStatusWords s u).writeMarks } ∧
      s.storeDone { u with writeMarks := (markStatusWords s u).writeMarks } w.addr w.word := by
  obtain ⟨hgrants, hheld, hready, hwf⟩ := h
  have harb : u.arb = s.arbAfterGrant := hu ▸ (endingEvent_arb e (s.granted w)).2
  have hmem : u.mem = (s.store w.addr w.word).mem :=
    hu ▸ (congrArg State.mem (endingEvent_frame s e (s.granted w)) :)
  refine ⟨?_, fun a => ?_, harb⟩
  · have hland : land (some w) (endWindow s) = s.granted w := rfl
    rw [grantWrite_update hgrants hheld hready (by rw [hland, hu]; exact harb), hland, hu]
    rfl
  · show readByte u.mem a = _
    rw [hmem]
    exact State.store_byte _ _ hwf a

/-- A served write whose event leaves both part status words as they stand. -/
theorem write_quiet {q : Requester} {w : Store} {e : Ending} (h : s.servesRequest q)
    (hu : endingEvent e (s.granted w) = u) (hA : u.partStatusA = s.partStatusA) (hB : u.partStatusB = s.partStatusB)
    (hw : u.writeMarks = s.writeMarks) : grantWrite q w e s = .next u ∧ s.storeDone u w.addr w.word := by
  have hx := write_served h hu
  rw [markStatusWords_same hA hB hw, ← hw] at hx
  exact hx

/-! ## The Notice Writer (R158, R163, R164) -/

theorem endingEvent_noticeWord (hn : s.notice = some n) : endingEvent .noticeWord s = noticeWordEvent n s := by
  unfold endingEvent
  rw [hn]

theorem endingEvent_header (hr : s.noticeRing = some r) : endingEvent (.header r) s = headerEvent s := if_pos hr

theorem exec_noticeWordWrite (hr : s.noticeRing = some r) (hn : s.notice = some n) (hlt : n.written < 8) :
    exec .noticeWordWrite s = grantWrite .noticeWriter (s.noticeStore r n) .noticeWord s := by
  change execNoticeWordWrite s = _
  rw [execNoticeWordWrite, hn, hr]
  exact if_pos hlt

theorem exec_ringHeaderInitWrite (hr : s.noticeRing = some r) (hn : s.notice = none) (hd : s.headerDue = true) :
    exec .ringHeaderInitWrite s = grantWrite .noticeWriter { addr := r.base, word := 0 } (.header r) s := by
  change execRingHeaderInitWrite s = _
  rw [execRingHeaderInitWrite, hr]
  exact if_pos (by simp [hn, hd])

theorem noticeStore_word {w : Word} (hw : n.words[n.written]? = some w) : (s.noticeStore r n).word = w := by
  rw [State.noticeStore, hw]
  rfl

/-- The event of a header write reads neither memory nor the arbiter. -/
theorem headerEvent_withPath (s : State) (mem : List Host.Cell) (arb : Arbiter) :
    headerEvent (s.withPath mem arb) = (headerEvent s).withPath mem arb :=
  takeNotice_withPath { s with headerDue := false } mem arb

/-- Settles O57: a notice word's event counts it; the header's ends the initialisation with a take, which reads neither
memory nor the arbiter. -/
theorem noticeAndHeaderWordsAreWritten : Obligations.NoticeAndHeaderWordsAreWritten := by
  intro s r hr hserves
  refine ⟨fun n w hn hw hlt => ?word, fun hn hd => ?header⟩
  case word =>
    have hevent : endingEvent .noticeWord (s.granted (s.noticeStore r n)) =
        noticeWordEvent n (s.granted (s.noticeStore r n)) := endingEvent_noticeWord hn
    obtain ⟨hx, hdone⟩ := write_quiet hserves hevent rfl rfl rfl
    rw [noticeStore_word hw] at hdone
    exact ⟨_, (exec_noticeWordWrite hr hn hlt).trans hx, hdone, rfl, rfl⟩
  case header =>
    have hevent : endingEvent (.header r) (s.granted { addr := r.base, word := 0 }) =
        (headerEvent s).withPath (s.store r.base 0).mem s.arbAfterGrant :=
      (endingEvent_header (s := s.granted _) hr).trans (headerEvent_withPath s _ _)
    have hmarks : (headerEvent s).writeMarks = s.writeMarks :=
      (congrArg State.writeMarks (takeNotice_frame { s with headerDue := false }) :)
    obtain ⟨hx, hdone⟩ := write_served hserves hevent
    exact ⟨{ s with headerDue := false }, _, (exec_ringHeaderInitWrite hr hn hd).trans hx, hdone, rfl, rfl,
      takeNotice_unmarked { s with headerDue := false }, markStatusWords_marksAfter (A := s.arbAfterGrant) hmarks⟩

/-! ## The census (R166 to R168) -/

theorem endingEvent_censusWord (hc : s.census = some c) : endingEvent .censusWord s = censusWordEvent c s := by
  unfold endingEvent
  cases s.notice <;> rw [hc]

theorem endingEvent_censusDone (hc : s.census = some c) : endingEvent .censusDone s = censusDoneEvent c s := by
  unfold endingEvent
  cases s.notice <;> rw [hc]

theorem endingEvent_censusCut (s : State) : endingEvent .censusCut s = censusCutEvent s := by
  unfold endingEvent
  cases s.notice <;> rfl

theorem exec_censusWordWrite (hc : s.census = some c) (hcut : c.cut = false) (hlt : c.written < 642) :
    exec .censusWordWrite s = grantWrite .census (s.censusStore c) .censusWord s := by
  change execCensusWordWrite s = _
  rw [execCensusWordWrite, hc]
  exact if_pos (by simp [hcut, hlt])

theorem exec_censusDoneWrite (hc : s.census = some c) (hcut : c.cut = false) (hle : 642 ≤ c.written) :
    exec .censusDoneWrite s = grantWrite .census c.doneStore .censusDone s := by
  change execCensusDoneWrite s = _
  rw [execCensusDoneWrite, hc]
  exact if_pos (by simp [hcut, hle])

theorem exec_censusCutWrite (hc : s.census = some c) (hcut : c.cut = true) :
    exec .censusCutWrite s = grantWrite .census c.cutStore .censusCut s := by
  change execCensusCutWrite s = _
  rw [execCensusCutWrite, hc]
  exact if_pos hcut

/-! ### The word of a write (R166, R167) -/

theorem censusWord_status (s : State) (c : Census) : s.censusWord c 0 = (0, censusStatusWord 1 c.tag) := if_pos rfl

theorem censusWord_node (s : State) (c : Census) (n : Fin 128) :
    s.censusWord c (1 + n.val) = (2 + n.val, censusNodeWord s.nodes[n]) := by
  have hn := n.isLt
  have hindex : Fin.ofNat 128 (1 + n.val - 1) = n := by
    rw [Nat.add_sub_cancel_left]
    exact Fin.ext (Nat.mod_eq_of_lt hn)
  rw [State.censusWord, if_neg (by omega), if_pos (by omega), Nat.add_right_comm]
  simp only [hindex]

theorem censusWord_terminal (s : State) (c : Census) (k : Fin 512) :
    s.censusWord c (129 + k.val) = (130 + k.val, censusTerminalWord (s.entry k)) := by
  have hk := k.isLt
  have hindex : Fin.ofNat 512 (129 + k.val - 129) = k := by
    rw [Nat.add_sub_cancel_left]
    exact Fin.ext (Nat.mod_eq_of_lt hk)
  rw [State.censusWord, if_neg (by omega), if_neg (by omega), if_pos (by omega), hindex, Nat.add_right_comm]

theorem censusWord_time (s : State) (c : Census) : s.censusWord c 641 = (1, s.time.clock) := by
  rw [State.censusWord, if_neg (by decide), if_neg (by decide), if_neg (by decide)]

/-! ### The census mark of part status word A (R185) -/

/-- Bit 19 of part status word A tells that a census is being written (12.4). -/
theorem partStatusA_census (s : State) : s.partStatusA.getLsbD 19 = s.census.isSome := by
  simp only [State.partStatusA, BitVec.getLsbD_append]
  simp

/-- A census that starts or ends changes part status word A (R185). -/
theorem partStatusA_ne_of_census (h : u.census.isSome ≠ s.census.isSome) : u.partStatusA ≠ s.partStatusA :=
  fun hA => h ((partStatusA_census u).symm.trans (hA ▸ partStatusA_census s))

/-- An event that changes part status word A alone adds its mark to those that the event set (R185). -/
theorem markStatusWords_adds_partA (hA : u.partStatusA ≠ s.partStatusA) (hB : u.partStatusB = s.partStatusB) :
    (markStatusWords s u).writeMarks = { u.writeMarks with partA := true } := by
  simp [markStatusWords_eq, hA, hB]

/-- Settles O60: each write is served, with the word of its number; DONE and CUT end the census. -/
theorem censusWritesTheLiveValues : Obligations.CensusWritesTheLiveValues := by
  intro s c hc hserves
  refine ⟨fun hcut hlt => ?word, fun hcut hle => ?done, fun hcut => ?cut⟩
  case word =>
    have hevent : endingEvent .censusWord (s.granted (s.censusStore c)) =
        censusWordEvent c (s.granted (s.censusStore c)) := endingEvent_censusWord hc
    have hcensus : State.partStatusA (censusWordEvent c (s.granted (s.censusStore c))) = s.partStatusA := by
      unfold State.partStatusA
      rw [hc]
      rfl
    obtain ⟨hx, hdone⟩ := write_quiet hserves hevent hcensus rfl rfl
    refine ⟨_, (s.censusWord c c.written).1, (s.censusWord c c.written).2, (exec_censusWordWrite hc hcut hlt).trans hx,
      hdone, rfl, rfl, fun h => ?_, fun n h => ?_, fun k h => ?_, fun h => ?_⟩
    · rw [h, censusWord_status]
      exact ⟨rfl, rfl⟩
    · rw [h, censusWord_node]
      exact ⟨rfl, rfl⟩
    · rw [h, censusWord_terminal]
      exact ⟨rfl, rfl⟩
    · rw [h, censusWord_time]
      exact ⟨rfl, rfl⟩
  case done =>
    have hevent : endingEvent .censusDone (s.granted c.doneStore) = censusDoneEvent c (s.granted c.doneStore) :=
      endingEvent_censusDone hc
    have hA : (censusDoneEvent c (s.granted c.doneStore)).partStatusA ≠ s.partStatusA :=
      partStatusA_ne_of_census (by simp [hc, censusDoneEvent, record])
    obtain ⟨hx, hdone⟩ := write_served hserves hevent
    exact ⟨_, (exec_censusDoneWrite hc hcut hle).trans hx, hdone, rfl, rfl, markStatusWords_adds_partA hA rfl, rfl⟩
  case cut =>
    have hevent := endingEvent_censusCut (s.granted c.cutStore)
    have hA : (censusCutEvent (s.granted c.cutStore)).partStatusA ≠ s.partStatusA :=
      partStatusA_ne_of_census (by simp [hc, censusCutEvent])
    obtain ⟨hx, hdone⟩ := write_served hserves hevent
    exact ⟨_, (exec_censusCutWrite hc hcut).trans hx, hdone, rfl, markStatusWords_partA hA rfl rfl, rfl⟩

end Sys2Proof.Machine
end

