-- ==== Sys2Proof/Proofs/ConsumerAndCensus.lean ====
section
/-! PROOF. Two passing beats of the Notice Writer and the census writer: the consumer index write (O56) and CENSUS
(O45). -/

namespace Sys2Proof.Machine

/-! ## The consumer index write (R160) -/

section
variable {s : State} {b : Beat} {r : Ring} {v : Half}

theorem full_iff (b : Beat) : b.full = true ↔ b.be = 15 := decide_eq_true_iff

theorem acceptsConsumer_iff (s : State) (r : Ring) (v : Half) : s.acceptsConsumer r v = true ↔
    (s.producer - v).toNat ≤ r.count ∧ (s.notice ≠ none → (s.producer + 1 - v).toNat ≤ r.count) := by
  unfold State.acceptsConsumer
  cases s.notice <;> simp

/-- A consumer index write as one update before the take that an accepted one may make room for (R160). -/
def State.consumerWritten (s : State) (v : Half) (accepted : Bool) : State :=
  { s with consumer := if accepted then v else s.consumer, ringFault := !accepted }

/-- An accepted index write makes room for a take, a held one sets the fault flag (R160, R161). -/
theorem effConsumer_eq (hr : s.noticeRing = some r) : effConsumer b s =
    if b.full && s.acceptsConsumer r (firstHalf b.data) then
      takeNotice ((s.consumerWritten (firstHalf b.data) true).withPath (s.passBeat b b.data).mem s.arb)
    else (s.consumerWritten (firstHalf b.data) false).withPath (s.passBeat b b.data).mem s.arb := by
  rw [effConsumer, hr]
  rfl

end

/-- Settles O56: the beat passes, and the index is accepted or held by its test. -/
theorem consumerWritesAreAcceptedOrHeld : Obligations.ConsumerWritesAreAcceptedOrHeld := by
  rintro b s r v hserves hr rfl
  have heff := effConsumer_eq (b := b) hr
  have htest : (b.full && s.acceptsConsumer r (firstHalf b.data)) = true ↔ b.be = 15 ∧
      (s.producer - firstHalf b.data).toNat ≤ r.count ∧
      (s.notice ≠ none → (s.producer + 1 - firstHalf b.data).toNat ≤ r.count) := by
    rw [Bool.and_eq_true_iff, full_iff, acceptsConsumer_iff]
  cases ha : b.full && s.acceptsConsumer r (firstHalf b.data) with
  | true =>
    rw [ha] at heff htest
    rw [if_pos rfl, takeNotice_withPath] at heff
    obtain ⟨A, hx, hd⟩ := serves_update (w := b.data) hserves heff rfl rfl
    have hmarks : (takeNotice (s.consumerWritten (firstHalf b.data) true)).writeMarks = s.writeMarks :=
      (congrArg State.writeMarks (takeNotice_frame _) :)
    exact ⟨s.consumerWritten (firstHalf b.data) true, _, true, hx, hd, htest, rfl, rfl, rfl, nofun,
      fun _ => takeNotice_unmarked _, markStatusWords_marksAfter hmarks⟩
  | false =>
    rw [ha] at heff htest
    obtain ⟨A, hx, hd⟩ := serves_update (w := b.data) hserves heff rfl rfl
    exact ⟨s.consumerWritten (firstHalf b.data) false, _, false, hx, hd, htest, rfl, rfl, rfl, fun _ => rfl, nofun,
      markStatusWords_marksAfter rfl⟩

/-! ## CENSUS (R166, R173) -/

theorem effCensus_eq (s : State) (tag : Byte) (arg : Half) (burst : Bool) :
    effCensus (s.mailboxBeat 8 tag arg burst) s =
      censusBody tag (s.afterMailbox (s.mailboxBeat 8 tag arg burst)) := by
  rw [effCensus, beatTag_mailboxBeat]
  rfl

/-- CENSUS's body with a setup in use outside LOADING (R173). -/
theorem censusBody_eq (tag : Byte) {s : State} (h : s.part = .running ∨ (s.part = .edit ∧ s.origin = some .running)) :
    censusBody tag s = startCensus tag s := by
  unfold censusBody
  rcases h with hp | ⟨hp, ho⟩
  · rw [hp]
  · rw [hp]
    exact if_pos (by simp [State.setupInUse, hp, ho])

theorem startCensus_idle (tag : Byte) {s : State} (h : s.census = none) : startCensus tag s =
    { s with census := some { base := s.censusBase.getD 0, tag, written := 0, cut := false } } := by
  rw [startCensus, if_neg (by simp [h])]

theorem startCensus_busy (tag : Byte) {s : State} (h : s.census ≠ none) : startCensus tag s = record tag .busy 0 s :=
  if_pos (Option.isSome_iff_ne_none.mpr h)

/-- Settles O45: the body starts the census, or finds one and is refused. -/
theorem censusStarts : Obligations.CensusStarts := by
  intro tag arg burst s ht hwf hpart
  obtain ⟨hforwards, hplain⟩ := (takesCommands_iff s).mp ht
  have hrow : s.rowOf (s.mailboxBeat 8 tag arg burst) = .census := rowOf_mailboxBeat s 8 tag arg burst hplain
  have heff := effCensus_eq s tag arg burst
  rw [censusBody_eq tag (s := s.afterMailbox _) hpart] at heff
  refine ⟨fun base hnone hbase => ?start, fun hsome => ?busy⟩
  case start =>
    rw [startCensus_idle tag (s := s.afterMailbox _) hnone] at heff
    obtain ⟨A, hx, hd⟩ := serves_update (w := mailboxWord 8 tag arg) ⟨hforwards, hrow, hwf⟩ heff rfl rfl
    have hbase' : (s.afterMailbox (s.mailboxBeat 8 tag arg burst)).censusBase.getD 0 = base :=
      congrArg (Option.getD · 0) hbase
    rw [hbase'] at hx hd
    refine ⟨_, hx, hd, rfl, rfl, markStatusWords_partA (partStatusA_ne_of_census ?_) rfl rfl, rfl⟩
    simp [hnone]
  case busy =>
    rw [startCensus_busy tag (s := s.afterMailbox _) hsome] at heff
    obtain ⟨W, A, hx, hd⟩ := command_served ht hwf hrow heff rfl rfl rfl
    exact ⟨_, hx, hd, rfl, rfl⟩

end Sys2Proof.Machine
end

