-- ==== Sys2Proof/Proofs/StatusMarks.lean ====
section
/-! PROOF. A changed status word has its write-pending mark set (O10). An event clears no mark and marks the outcome
that it records; its closing marks the part status words that it changed; and a command is a chain of closed events, of
which the owned-word writer's alone clears a mark, that of a word it leaves as it is. -/

namespace Sys2Proof.Machine

variable {s t u : State}

/-! ## An event before its closing -/

/-- Between `s` and `t` an outcome recorded sets the command status word's mark, and no mark is cleared (R172, R189). -/
structure State.Accrues (s t : State) : Prop where
  outcome : t.status ≠ s.status → t.writeMarks.status = true
  status : s.writeMarks.status = true → t.writeMarks.status = true
  partA : s.writeMarks.partA = true → t.writeMarks.partA = true
  partB : s.writeMarks.partB = true → t.writeMarks.partB = true

theorem accrues_of_same (hs : t.status = s.status) (hw : t.writeMarks = s.writeMarks) : s.Accrues t :=
  ⟨fun h => absurd hs h, fun h => hw ▸ h, fun h => hw ▸ h, fun h => hw ▸ h⟩

theorem State.Accrues.trans (h : s.Accrues t) (h' : t.Accrues u) : s.Accrues u where
  outcome hne := by
    by_cases htu : u.status = t.status
    · exact h'.status (h.outcome (htu ▸ hne))
    · exact h'.outcome htu
  status hm := h'.status (h.status hm)
  partA hm := h'.partA (h.partA hm)
  partB hm := h'.partB (h.partB hm)

/-- A chain whose first change touches neither the command status nor a mark. -/
theorem State.Accrues.after (h : t.Accrues u) (hs : t.status = s.status) (hw : t.writeMarks = s.writeMarks) :
    s.Accrues u := (accrues_of_same hs hw).trans h

theorem record_accrues (tag : Byte) (o : CmdOutcome) (detail : Nat) (s : State) : s.Accrues (record tag o detail s) :=
  ⟨fun _ => rfl, fun _ => rfl, id, id⟩

theorem foldl_accrues {α : Type} {f : State → α → State} (h : ∀ (s : State) (a : α), s.Accrues (f s a)) (l : List α)
    (s : State) : s.Accrues (l.foldl f s) := by
  induction l generalizing s with
  | nil => exact accrues_of_same rfl rfl
  | cons a l ih => exact (h s a).trans (ih _)

/-! ## The Incident Table (R146) -/

theorem freeSlot_accrues (k : Fin 32) (s : State) : s.Accrues (freeSlot k s) :=
  ⟨fun h => absurd rfl h, id, fun _ => rfl, id⟩

theorem closeIncident_accrues (k : Fin 32) (r : CloseReason) (n : Nat) (i : Incident) (s : State) :
    s.Accrues (closeIncident k r n i s) := by
  rcases closeIncident_cases k r n i s with ⟨-, h⟩ | ⟨-, h⟩
  · rw [h]; exact accrues_of_same rfl rfl
  · rw [h]; exact freeSlot_accrues k s

theorem absorbAll_accrues (k : Fin 32) (i : Incident) (s : State) : s.Accrues (absorbAll k i s) := by
  refine foldl_accrues (fun s j => ?_) _ s
  rcases absorbSlot_cases k i s j with h | ⟨other, -, -, h⟩
  · rw [h]; exact accrues_of_same rfl rfl
  · rw [h]; exact closeIncident_accrues j .absorbed i.number other s

theorem matchSlot_accrues (causes : List Cause) (s : State) (k : Fin 32) : s.Accrues (matchSlot causes s k) := by
  rcases matchSlot_cases causes s k with h | ⟨i, -, -, -, ⟨c, -, -, h⟩ | ⟨-, ⟨-, h⟩ | ⟨-, h⟩⟩⟩
  · rw [h]; exact accrues_of_same rfl rfl
  · rw [h]; exact accrues_of_same rfl rfl
  · rw [h]; exact freeSlot_accrues k s
  · rw [h]; exact accrues_of_same rfl rfl

theorem absorbRecurred_accrues (s : State) (k : Fin 32) : s.Accrues (absorbRecurred s k) := by
  unfold absorbRecurred
  split
  · exact accrues_of_same rfl rfl
  · split
    · exact absorbAll_accrues k _ s
    · exact accrues_of_same rfl rfl

theorem placeCauses_accrues (causes : List Cause) (s : State) : s.Accrues (placeCauses causes s).1 := by
  induction causes generalizing s with
  | nil => exact accrues_of_same rfl rfl
  | cons c rest ih =>
    unfold placeCauses
    split
    · exact ih s
    · split
      · exact (ih (createIncident _ (s.newIncident c) s)).after rfl rfl
      · exact ih s

theorem residueRecount_accrues (n : Unplaced) (s : State) : s.Accrues (residueRecount n s) := by
  rcases residueRecount_cases n s with h | ⟨-, -, h⟩ | ⟨i, -, -, ⟨-, h⟩ | ⟨-, h⟩⟩
  · rw [h]; exact accrues_of_same rfl rfl
  · rw [h]; exact accrues_of_same rfl rfl
  · rw [h]; exact closeIncident_accrues 0 .cleared 0 _ s
  · rw [h]; exact accrues_of_same rfl rfl

theorem matchingEvent_accrues (causes : List Cause) (s : State) : s.Accrues (matchingEvent causes s) := by
  unfold matchingEvent
  dsimp only
  generalize causes.filter (fun c => !s.causeCovered c) = live
  have hmatch : s.Accrues (matchAll live s) :=
    (foldl_accrues (matchSlot_accrues live) _ s).trans (foldl_accrues absorbRecurred_accrues _ _)
  generalize matchAll live s = s3 at hmatch ⊢
  generalize live.filter (fun c => !s.matched c && !s3.causeCovered c) = new
  have hplace := placeCauses_accrues new s3
  generalize placeCauses new s3 = placed at hplace ⊢
  have hresidue := residueRecount_accrues (unplacedCounts placed.2) placed.1
  generalize residueRecount (unplacedCounts placed.2) placed.1 = s5 at hresidue ⊢
  exact hmatch.trans (hplace.trans (hresidue.trans (accrues_of_same rfl rfl)))

theorem attackEvent_accrues (k : Fin 32) (i : Incident) (s : State) : s.Accrues (attackEvent k i s) := by
  simp only [attackEvent, markIf_eq]
  generalize s.tested { i with phase := .opened, soak := none } = opened
  have habsorb : s.Accrues (absorbAll k opened (s.putSlot k opened)) :=
    (absorbAll_accrues k opened (s.putSlot k opened)).after rfl rfl
  generalize absorbAll k opened (s.putSlot k opened) = u at habsorb ⊢
  exact habsorb.trans (accrues_of_same rfl rfl)

theorem releaseEvent_accrues (k : Fin 32) (i : Incident) (s : State) : s.Accrues (releaseEvent k i s) := by
  rw [releaseEvent, markIf_eq]
  exact (closeIncident_accrues k .cleared 0 i s).trans (accrues_of_same rfl rfl)

theorem takeNotice_accrues (s : State) : s.Accrues (takeNotice s) := by
  have hf := takeNotice_frame s
  generalize takeNotice s = u at hf ⊢
  exact accrues_of_same (congrArg State.status hf :) (congrArg State.writeMarks hf :)

theorem completionEvent_accrues (l : Load) (s : State) : s.Accrues (completionEvent l s) := by
  have hclosed : s.Accrues (completionClosed s) := by
    rw [completionClosed, closeGone_eq]
    refine (foldl_accrues (fun s k => ?_) _ { s with nodes := s.rebuiltNodes }).after rfl rfl
    unfold reconfigureSlot
    split
    · exact accrues_of_same rfl rfl
    · split
      · exact closeIncident_accrues k .reconfigured 0 _ s
      · exact accrues_of_same rfl rfl
  have hring := applyNoticeRing_frame s l.notices (takeRegions l (completionClosed s))
  rw [completionEvent_eq, completionBeforeTake_eq]
  generalize applyNoticeRing l.notices (takeRegions l (completionClosed s)) = u at hring ⊢
  have hw : u.writeMarks = (completionClosed s).writeMarks := (congrArg State.writeMarks hring :)
  refine .trans ⟨fun _ => rfl, fun _ => rfl, fun hm => ?_, fun hm => ?_⟩ (takeNotice_accrues _)
  · exact (congrArg WriteMarks.partA hw).trans (hclosed.partA hm)
  · exact (congrArg WriteMarks.partB hw).trans (hclosed.partB hm)

/-! ## The ends of internal accesses -/

theorem freeClosed_accrues (f : Option (Fin 32)) (s : State) : s.Accrues (freeClosed f s) := by
  rcases freeClosed_cases f s with ⟨-, h⟩ | ⟨k, -, h⟩
  · rw [h]; exact accrues_of_same rfl rfl
  · rw [h, dirtyMark_eq]; exact (freeSlot_accrues k s).trans (accrues_of_same rfl rfl)

theorem initWaiting_accrues (s : State) : s.Accrues (initWaiting s) := by
  have hf := initWaiting_frame s s
  generalize initWaiting s = u at hf ⊢
  exact accrues_of_same (congrArg State.status hf :) (congrArg State.writeMarks hf :)

theorem endingEvent_accrues (e : Ending) (s : State) : s.Accrues (endingEvent e s) := by
  rcases endingEvent_cases e s with h | ⟨n, -, -, h⟩ | ⟨n, -, -, h⟩ | ⟨r, -, -, h⟩ | ⟨c, -, -, h⟩ | ⟨c, -, -, h⟩ |
    ⟨-, h⟩
  · rw [h]; exact accrues_of_same rfl rfl
  · rw [h]; exact accrues_of_same rfl rfl
  · rw [h, producerEvent]
    have hfree := freeClosed_accrues n.frees { s with producer := s.producer + 1, notice := none }
    exact (hfree.trans ((initWaiting_accrues _).trans (takeNotice_accrues _))).after rfl rfl
  · rw [h]; exact (takeNotice_accrues { s with headerDue := false }).after rfl rfl
  · rw [h]; exact accrues_of_same rfl rfl
  · rw [h]; exact (record_accrues c.tag .done 0 { s with census := none }).after rfl rfl
  · rw [h]; exact accrues_of_same rfl rfl

/-! ## The effects of passing beats -/

theorem Move.accrues (h : Move s t) : s.Accrues t := by
  cases h with
  | terminal k new hp hn =>
    have hf := terminalEvent_frame k new s
    generalize terminalEvent k new s = u at hf ⊢
    exact accrues_of_same (congrArg State.status hf :) (congrArg State.writeMarks hf :)
  | trunk down => rw [markIf_eq]; exact accrues_of_same rfl rfl
  | record tag o detail => exact record_accrues tag o detail s
  | forget k hp => rw [forgetTerminal_eq]; exact accrues_of_same rfl rfl
  | maint made block mask polarity h => rw [markIf_eq]; exact accrues_of_same rfl rfl
  | take => exact takeNotice_accrues s
  | _ => exact accrues_of_same rfl rfl

theorem takeBeat_accrues (b : Beat) (s : State) : s.Accrues (takeBeat b s) := by
  have hmoves := takeBeat_moves b s
  generalize takeBeat b s = u at hmoves ⊢
  induction hmoves with
  | refl => exact accrues_of_same rfl rfl
  | tail _ hm ih => exact ih.trans hm.accrues

/-! ## The other events -/

theorem editLimitEvent_accrues (s : State) : s.Accrues (editLimitEvent s) := by
  unfold editLimitEvent
  split
  · exact (record_accrues s.editTag .expired 0 (leaveEdit s)).after rfl rfl
  · next l _ =>
    split
    · exact accrues_of_same rfl rfl
    · exact (record_accrues l.tag .expired 1 (leaveEdit s)).after rfl rfl

theorem checkReadEvent_accrues (l : Load) (s : State) : s.Accrues (checkReadEvent l s) := by
  unfold checkReadEvent
  dsimp only
  split
  · unfold checkEnd
    split
    · exact ⟨fun _ => rfl, fun _ => rfl, id, id⟩
    · rw [parameterApply, markIf_eq]
      exact accrues_of_same rfl rfl
  · exact accrues_of_same rfl rfl

/-! ## Closed events -/

/-- Between `s` and `t` every status word that changed is marked (R185, R189). -/
def State.marksChanges (s t : State) : Prop :=
  (t.status ≠ s.status → t.writeMarks.status = true) ∧
  (t.partStatusA ≠ s.partStatusA → t.writeMarks.partA = true) ∧
  (t.partStatusB ≠ s.partStatusB → t.writeMarks.partB = true)

/-- A chain of closed events that clear no mark: besides, every status word that changed is marked. -/
def State.Closes (s t : State) : Prop := s.Accrues t ∧ s.marksChanges t

theorem closes_of_same (hs : t.status = s.status) (hw : t.writeMarks = s.writeMarks)
    (hA : t.partStatusA = s.partStatusA) (hB : t.partStatusB = s.partStatusB) : s.Closes t :=
  ⟨accrues_of_same hs hw, fun h => absurd hs h, fun h => absurd hA h, fun h => absurd hB h⟩

/-- A mark that is set stays set through the events that follow. -/
theorem marksChanges_trans (h : s.marksChanges t) (h' : t.Closes u) : s.marksChanges u := by
  obtain ⟨hstatus, hA, hB⟩ := h
  obtain ⟨hkept, hstatus', hA', hB'⟩ := h'
  refine ⟨fun hne => ?_, fun hne => ?_, fun hne => ?_⟩
  · by_cases htu : u.status = t.status
    · exact hkept.status (hstatus (htu ▸ hne))
    · exact hstatus' htu
  · by_cases htu : u.partStatusA = t.partStatusA
    · exact hkept.partA (hA (htu ▸ hne))
    · exact hA' htu
  · by_cases htu : u.partStatusB = t.partStatusB
    · exact hkept.partB (hB (htu ▸ hne))
    · exact hB' htu

theorem State.Closes.trans (h : s.Closes t) (h' : t.Closes u) : s.Closes u :=
  ⟨h.1.trans h'.1, marksChanges_trans h.2 h'⟩

/-- A chain whose first change touches no status word and no mark. -/
theorem State.Closes.after (h : t.Closes u) (hs : t.status = s.status) (hw : t.writeMarks = s.writeMarks)
    (hA : t.partStatusA = s.partStatusA) (hB : t.partStatusB = s.partStatusB) : s.Closes u :=
  (closes_of_same hs hw hA hB).trans h

/-- The closing of an event marks the part status words that it changed (R185). -/
theorem closes_of_marked {W : WriteMarks} {A : Arbiter} (hW : W = (markStatusWords s u).writeMarks)
    (h : s.Accrues u) : s.Closes { u with writeMarks := W, arb := A } := by
  subst hW
  refine ⟨⟨h.outcome, h.status, fun hm => ?_, fun hm => ?_⟩, h.outcome, fun hA => ?_, fun hB => ?_⟩
  · simp [markStatusWords_eq, h.partA hm]
  · simp [markStatusWords_eq, h.partB hm]
  · have hne : u.partStatusA ≠ s.partStatusA := hA
    simp [markStatusWords_eq, hne]
  · have hne : u.partStatusB ≠ s.partStatusB := hB
    simp [markStatusWords_eq, hne]

theorem finish_closes (h : s.Accrues u) : s.Closes (finish s u) := by
  obtain ⟨A, hA, -⟩ := finish_update s u
  rw [hA]
  exact closes_of_marked rfl h

theorem finishBeat_closes (b : Beat) (h : s.Accrues u) : s.Closes (finishBeat b s u) := by
  obtain ⟨A, hA, -⟩ := finishBeat_update b s u
  rw [hA]
  exact closes_of_marked rfl h

/-! ## Beats and accesses -/

theorem present_closes {row : BeatRow} {eff : Beat → State → State} {b : Beat}
    (he : s.rowOf b = row → takeBeat b s = eff b s) (hx : present row eff b s = .next t) : s.Closes t := by
  have hbeat : s.Closes (finishBeat b s (takeBeat b s)) := finishBeat_closes b (takeBeat_accrues b s)
  rcases present_cases row eff b s with ⟨-, hs⟩ | ⟨-, -, hs⟩ | ⟨-, hr, hs⟩ | ⟨-, -, hs⟩
  · exact Host.Outcome.next.inj (hs.symm.trans hx) ▸ closes_of_same rfl rfl rfl rfl
  · exact Host.Outcome.next.inj (hs.symm.trans hx) ▸ closes_of_same rfl rfl rfl rfl
  · exact Host.Outcome.next.inj (hs.symm.trans hx) ▸ he hr ▸ hbeat
  · exact Host.Outcome.next.inj (hs.symm.trans hx) ▸ hbeat

theorem releaseHeld_closes (s : State) : s.Closes (releaseHeld s) := by
  unfold releaseHeld
  split
  · exact closes_of_same rfl rfl rfl rfl
  · next b _ =>
    have hbeat := finishBeat_closes b (takeBeat_accrues b { s with arb := { s.arb with held := none } })
    exact hbeat.after rfl rfl rfl rfl

theorem endAccess_closes (w : Option Store) (e : Option Ending) (s : State) : s.Closes (endAccess w e s) := by
  have hland : s.Closes (land w s) := by cases w <;> exact closes_of_same rfl rfl rfl rfl
  cases e with
  | none => exact hland
  | some e => exact hland.trans (finish_closes (endingEvent_accrues e _))

theorem memoryReady_closes (ready : Bool) (s : State) : s.Closes (memoryReady ready s) := by
  have hfree : s.Closes { s with arb := { s.arb with ready := true, busy := none } } := closes_of_same rfl rfl rfl rfl
  rcases memoryReady_cases ready s with ⟨-, h⟩ | ⟨-, -, ⟨-, h⟩ | ⟨-, h⟩⟩ | ⟨w, e, -, -, h⟩
  · rw [h]; exact closes_of_same rfl rfl rfl rfl
  · rw [h]; exact hfree
  · rw [h]; exact hfree.trans (releaseHeld_closes _)
  · rw [h]; exact hfree.trans ((endAccess_closes w e _).trans (releaseHeld_closes _))

/-- What follows the event of a grant clears no mark (R186, R190, R191). -/
theorem grant_cases {r : Requester} {w : Option Store} {event : State → State} {e : Option Ending}
    (hx : grant r w event e s = .next t) : t = s ∨ (finish s (event (endWindow s))).Closes t := by
  cases hg : s.grants r with
  | false =>
    rw [grant, if_neg (by simp [hg])] at hx
    exact .inl (Host.Outcome.next.inj hx).symm
  | true =>
    refine .inr ?_
    cases hm : s.arb.ready with
    | true =>
      rw [grant_served hg hm] at hx
      exact Host.Outcome.next.inj hx ▸ (endAccess_closes w e _).trans (releaseHeld_closes _)
    | false =>
      rw [grant_slow hg hm] at hx
      exact Host.Outcome.next.inj hx ▸ closes_of_same rfl rfl rfl rfl

theorem grant_closes {r : Requester} {w : Option Store} {event : State → State} {e : Option Ending}
    (hv : s.Accrues (event (endWindow s))) (hx : grant r w event e s = .next t) : s.Closes t := by
  rcases grant_cases hx with rfl | h
  · exact closes_of_same rfl rfl rfl rfl
  · exact (finish_closes hv).trans h

/-! ## The commands -/

theorem next_closes (hx : (.next u : Host.Outcome State Fault Refusal) = .next t) (h : s.Closes u) : s.Closes t :=
  Host.Outcome.next.inj hx ▸ h

theorem stay_closes (hx : (.next s : Host.Outcome State Fault Refusal) = .next t) : s.Closes t :=
  next_closes hx (closes_of_same rfl rfl rfl rfl)

/-- An event away from the bus that is due, or none (log entry 4). -/
theorem due_closes {p : Prop} [Decidable p] (h : s.Accrues u)
    (hx : (if p then .next (finish s u) else .next s : Host.Outcome State Fault Refusal) = .next t) : s.Closes t := by
  split at hx
  · exact next_closes hx (finish_closes h)
  · exact stay_closes hx

/-- The edge of an input, or none (R193). -/
theorem edge_closes {p : Prop} [Decidable p] {i : Inputs}
    (hx : (if p then .next s else .next (finish s (dirtyMark { s with inputs := i })) :
      Host.Outcome State Fault Refusal) = .next t) : s.Closes t := by
  split at hx
  · exact stay_closes hx
  · rw [dirtyMark_eq] at hx
    exact next_closes hx (finish_closes (accrues_of_same rfl rfl))

theorem silenceCarry_closes (hx : exec .silenceCarry s = .next t) : s.Closes t := by
  refine due_closes ?_ hx
  rw [silenceCarry_eq]
  exact accrues_of_same rfl rfl

theorem stormLeak_closes (hx : exec .stormLeak s = .next t) : s.Closes t := by
  refine due_closes ?_ hx
  rw [leakEvent, markIf_eq, setGauge_eq]
  exact accrues_of_same rfl rfl

theorem passReading_closes (hx : exec .passReading s = .next t) : s.Closes t := by
  refine due_closes ?_ hx
  split
  · exact accrues_of_same rfl rfl
  · exact accrues_of_same rfl rfl

theorem passMatching_closes (hx : exec .passMatching s = .next t) : s.Closes t := by
  change execPassMatching s = _ at hx
  unfold execPassMatching at hx
  split at hx
  · exact stay_closes hx
  · exact next_closes hx (finish_closes ((matchingEvent_accrues _ s).trans (takeNotice_accrues _)))

theorem attackExpiry_closes (k : Fin 32) (hx : exec (.attackExpiry k) s = .next t) : s.Closes t := by
  change execAttackExpiry k s = _ at hx
  unfold execAttackExpiry at hx
  split at hx
  · exact stay_closes hx
  · exact due_closes ((attackEvent_accrues k _ s).trans (takeNotice_accrues _)) hx

theorem releaseExpiry_closes (k : Fin 32) (hx : exec (.releaseExpiry k) s = .next t) : s.Closes t := by
  change execReleaseExpiry k s = _ at hx
  unfold execReleaseExpiry at hx
  split at hx
  · exact stay_closes hx
  · exact due_closes ((releaseEvent_accrues k _ s).trans (takeNotice_accrues _)) hx

theorem commitCompletion_closes (hx : exec .commitCompletion s = .next t) : s.Closes t := by
  change execCommitCompletion s = _ at hx
  unfold execCommitCompletion at hx
  split at hx
  · exact stay_closes hx
  · exact due_closes (completionEvent_accrues _ s) hx

/-! ### The grants -/

theorem loaderCheckRead_closes (hx : exec .loaderCheckRead s = .next t) : s.Closes t := by
  change execLoaderCheckRead s = _ at hx
  unfold execLoaderCheckRead at hx
  split at hx
  · exact stay_closes hx
  · split at hx
    · exact stay_closes hx
    · exact grant_closes ((checkReadEvent_accrues _ (endWindow s)).after rfl rfl) hx

theorem terminalWordApply_closes (hx : exec .terminalWordApply s = .next t) : s.Closes t := by
  change execTerminalWordApply s = _ at hx
  unfold execTerminalWordApply at hx
  split at hx
  · exact stay_closes hx
  · split at hx
    · exact grant_closes (accrues_of_same rfl rfl) hx
    · exact stay_closes hx

/-- A row of an internal write is a grant of its write, or does not come (R163, R164, R166, R168, log entry 4). -/
theorem internalWrite_cases {c : Instr} (hc : c ∈ [Instr.noticeWordWrite, .producerWrite, .ringHeaderInitWrite,
    .censusWordWrite, .censusDoneWrite, .censusCutWrite]) (s : State) :
    exec c s = .next s ∨ ∃ r w e, exec c s = grantWrite r w e s := by
  simp only [List.mem_cons, List.not_mem_nil, or_false] at hc
  rcases hc with rfl | rfl | rfl | rfl | rfl | rfl
  all_goals
    simp only [exec, execNoticeWordWrite, execProducerWrite, execRingHeaderInitWrite, execCensusWordWrite,
      execCensusDoneWrite, execCensusCutWrite]
    repeat' split
    any_goals exact .inl rfl
  all_goals exact .inr ⟨_, _, _, rfl⟩

theorem internalWrite_closes {c : Instr} (hc : c ∈ [Instr.noticeWordWrite, .producerWrite, .ringHeaderInitWrite,
    .censusWordWrite, .censusDoneWrite, .censusCutWrite]) (hx : exec c s = .next t) : s.Closes t := by
  rcases internalWrite_cases hc s with h | ⟨r, w, e, h⟩
  · exact stay_closes (h.symm.trans hx)
  · exact grant_closes (event := id) (accrues_of_same rfl rfl) (h.symm.trans hx)

/-- The mark that the owned-word writer clears is that of a word which the grant leaves as it is (R189). -/
theorem ownedWordWriterGrant_marksChanges (hx : exec .ownedWordWriterGrant s = .next t) : s.marksChanges t := by
  have hsame : (ownedWordEvent (endWindow s)).status = s.status ∧
      (ownedWordEvent (endWindow s)).partStatusA = s.partStatusA ∧
      (ownedWordEvent (endWindow s)).partStatusB = s.partStatusB := by
    unfold ownedWordEvent
    split
    · exact ⟨rfl, rfl, rfl⟩
    · split
      · exact ⟨rfl, rfl, rfl⟩
      · exact ⟨rfl, rfl, rfl⟩
  rcases grant_cases hx with rfl | h
  · exact ⟨fun h => absurd rfl h, fun h => absurd rfl h, fun h => absurd rfl h⟩
  · refine marksChanges_trans ?_ h
    obtain ⟨hstatus, hA, hB⟩ := hsame
    rw [finish_eq]
    exact ⟨fun h => absurd hstatus h, fun h => absurd hA h, fun h => absurd hB h⟩

/-! ### The carries -/

theorem millisecondCarry_closes (hx : exec .millisecondCarry s = .next t) : s.Closes t := by
  change execMillisecondCarry s = _ at hx
  unfold execMillisecondCarry at hx
  split at hx
  · exact stay_closes hx
  · refine next_closes hx (finish_closes ?_)
    rw [millisecondRun_eq rfl]
    exact accrues_of_same rfl rfl

theorem microsecondCarry_closes (levels : Levels) (run : CarryRun)
    (hx : exec (.microsecondCarry levels run) s = .next t) : s.Closes t := by
  have hcycle : s.Closes (toMicrosecond run.ready s) :=
    (memoryReady_closes run.ready { s with time.prescaler := 24 }).after rfl rfl rfl rfl
  rcases execMicrosecondCarry_cases levels run s with ⟨-, hs⟩ | ⟨-, -, hs⟩ | ⟨-, -, hs⟩
  · exact stay_closes (hs.symm.trans hx)
  · exact next_closes (hs.symm.trans hx) hcycle
  · refine next_closes (hs.symm.trans hx) ?_
    unfold microsecond
    dsimp only
    split
    · refine hcycle.trans (finish_closes ?_)
      rw [microsecondEvent_eq]
      exact accrues_of_same rfl rfl
    · exact hcycle

/-- Settles O10: hardware reset leaves every mark set; every other command is a chain of closed events. -/
theorem statusChangesAreMarked : Obligations.StatusChangesAreMarked := by
  intro c s t hx
  show s.marksChanges t
  cases c with
  | hardwareReset p l d =>
    obtain rfl := Host.Outcome.next.inj ((execHardwareReset_eq p l d s).symm.trans hx)
    exact ⟨fun _ => rfl, fun _ => rfl, fun _ => rfl⟩
  | ownedWordWriterGrant => exact ownedWordWriterGrant_marksChanges hx
  | passingWrite b | intakeWord0Write b | intakeWord1Write b | intakePartialWrite b | intakePartialWord3Write b
  | emptyRecord b | malformedRecord b | statusRecord b | missRecord b | gaspRecord b | linkRecord b | treeDown b
  | treeUp b | extendCmd tag arg burst | editCmd tag arg burst | commitCmd tag arg burst | abandonCmd tag arg burst
  | settimeCmd tag arg burst | forgetCmd tag arg burst | maintCmd tag arg burst | censusCmd tag arg burst
  | resetCmd tag arg burst | badOpcode b | ownedWordWrite b | disturbingWrite b | consumerIndexWrite b =>
    exact (present_closes (fun hr => by simp only [takeBeat, hr]) hx).2
  | mainsFailEdge => exact (edge_closes hx).2
  | maintAllEdge => exact (edge_closes hx).2
  | silenceCarry => exact (silenceCarry_closes hx).2
  | stormLeak => exact (stormLeak_closes hx).2
  | settleExpiry =>
    exact (due_closes (s := s) (u := { s with settle := none, passRequest := true }) (accrues_of_same rfl rfl) hx).2
  | passReading => exact (passReading_closes hx).2
  | passMatching => exact (passMatching_closes hx).2
  | attackExpiry k => exact (attackExpiry_closes k hx).2
  | releaseExpiry k => exact (releaseExpiry_closes k hx).2
  | loaderCheckRead => exact (loaderCheckRead_closes hx).2
  | terminalWordApply => exact (terminalWordApply_closes hx).2
  | commitCompletion => exact (commitCompletion_closes hx).2
  | editLimitExpiry => exact (due_closes (editLimitEvent_accrues s) hx).2
  | noticeWordWrite | producerWrite | ringHeaderInitWrite | censusWordWrite | censusDoneWrite | censusCutWrite =>
    exact (internalWrite_closes (by simp) hx).2
  | patienceExpiry =>
    exact (due_closes (s := s) (u := { s with arb.window := none, arb.impatient := true })
      (accrues_of_same rfl rfl) hx).2
  | millisecondCarry => exact (millisecondCarry_closes hx).2
  | microsecondCarry levels run => exact (microsecondCarry_closes levels run hx).2

end Sys2Proof.Machine
end

