-- ==== Sys2Proof/Proofs/PlainWrites.lean ====
section
/-! PROOF. Passing beats that no block takes, writes to owned words, and disturbing writes (O24): each effect is one
update that touches no part status word. -/

namespace Sys2Proof.Machine

variable {s : State} {b : Beat} {a w : Nat}

/-- A word of memory is its four bytes, byte enable 0 at the word's address (R194). -/
theorem readWord_byte (mem : List Host.Cell) (a : Nat) {i : Nat} (hi : i < 4) :
    wordByte (readWord mem a) i = readByte mem (wordAddr a + i) := by
  have h0 := (readByte mem (wordAddr a)).isLt
  have h1 := (readByte mem (wordAddr a + 1)).isLt
  have h2 := (readByte mem (wordAddr a + 2)).isLt
  have hword : (readWord mem a).toNat = 16777216 * (readByte mem (wordAddr a + 3)).toNat +
      65536 * (readByte mem (wordAddr a + 2)).toNat + 256 * (readByte mem (wordAddr a + 1)).toNat +
      (readByte mem (wordAddr a)).toNat := by
    simp only [readWord, toNat_append_add]
    omega
  apply BitVec.eq_of_toNat_eq
  have h := (readByte mem (wordAddr a + i)).isLt
  rw [wordByte, hword, BitVec.toNat_ofNat]
  obtain rfl | rfl | rfl | rfl : i = 0 ∨ i = 1 ∨ i = 2 ∨ i = 3 := by omega
  · simp only [Nat.add_zero]
    omega
  all_goals omega

/-! ## Owned words (R188) -/

/-- A word address in the Setup Block is that of its word (R169). -/
theorem eq_setupAddr_of_setupWordOf (ha : a % 4 = 0) (h : s.setupWordOf a = some w) : a = s.setupAddr w := by
  have hbase := setupBase_aligned s
  unfold State.setupWordOf at h
  split at h
  · injection h with h
    rw [State.setupAddr]
    omega
  · exact absurd h nofun

theorem ownedValue_status (h : a = s.setupAddr 1) : s.ownedValue a = statusWord s.status := by
  have hw : s.setupWordOf a = some 1 := h ▸ setupWordOf_word s (by decide)
  rw [State.ownedValue]
  simp only [hw]

theorem ownedValue_partA (h : a = s.setupAddr 2) : s.ownedValue a = s.partStatusA := by
  have hw : s.setupWordOf a = some 2 := h ▸ setupWordOf_word s (by decide)
  rw [State.ownedValue]
  simp only [hw]

theorem ownedValue_partB (h : a = s.setupAddr 3) : s.ownedValue a = s.partStatusB := by
  have hw : s.setupWordOf a = some 3 := h ▸ setupWordOf_word s (by decide)
  rw [State.ownedValue]
  simp only [hw]

theorem ownedValue_producer (ha : a % 4 = 0) (h : ∀ w, w < 4 → a ≠ s.setupAddr w) :
    s.ownedValue a = s.producer.setWidth 32 := by
  rw [State.ownedValue]
  split
  · next hw => exact absurd (eq_setupAddr_of_setupWordOf ha hw) (h 1 (by decide))
  · next hw => exact absurd (eq_setupAddr_of_setupWordOf ha hw) (h 2 (by decide))
  · next hw => exact absurd (eq_setupAddr_of_setupWordOf ha hw) (h 3 (by decide))
  · rfl

/-! ## The four forms -/

theorem effPassing_write (h : b.read = false) : effPassing b s = s.passBeat b b.data := by
  rw [effPassing, if_neg (by simp [h])]

theorem effPassing_read (h : b.read = true) :
    effPassing b s = { s with readData := readWord s.mem b.addr.toNat } := if_pos h

/-- Settles O24: each beat is served with one quiet update; the owned value is that of the word addressed. -/
theorem plainOwnedAndDisturbingWrites : Obligations.PlainOwnedAndDisturbingWrites := by
  intro b s
  refine ⟨fun hserves hr => ?write, fun hserves hr => ?read, fun hserves => ?owned, fun hserves => ?disturbing⟩
  case write =>
    obtain ⟨A, hx, hd⟩ := serves_quiet (w := b.data) hserves (effPassing_write hr) rfl rfl rfl rfl rfl
    exact ⟨_, hx, hd, rfl⟩
  case read =>
    obtain ⟨hforwards, hrow, -⟩ := hserves
    obtain ⟨A, hx, hA⟩ := present_quiet hforwards hrow (effPassing_read hr) rfl rfl rfl rfl
    exact ⟨_, hx, fun i hi => readWord_byte s.mem _ hi, hA, rfl⟩
  case owned =>
    obtain ⟨A, hx, hd⟩ := serves_quiet (eff := effOwned) hserves rfl rfl rfl rfl rfl rfl
    exact ⟨_, _, hx, hd, rfl, ownedValue_status, ownedValue_partA, ownedValue_partB,
      ownedValue_producer (wordAddr_aligned _)⟩
  case disturbing =>
    obtain ⟨A, hx, hd⟩ := serves_quiet (eff := effDisturbing) (w := b.data) hserves rfl rfl rfl rfl rfl rfl
    exact ⟨_, hx, hd, rfl, rfl⟩

end Sys2Proof.Machine
end

