-- ==== Sys2Proof/Proofs/Refusals.lean ====
section
/-! PROOF. Commands that are refused (O47), and the expiry of the edit limit (O53). -/

namespace Sys2Proof.Machine

variable {s u : State} {b : Beat} {tag : Byte} {o : CmdOutcome}

/-! ## A refused command (R171, R173) -/

/-- A command taken from its beat, whose body refuses it, changes its outcome and the latch alone. -/
theorem refuses_of_body {c : Instr} {row : BeatRow} {eff : Beat → State → State}
    (hc : exec c s = present row eff b s) (ht : s.takesCommands = true) (hwf : Memory.wf s.mem = true)
    (hr : s.rowOf b = row) (he : eff b s = refuse tag o (s.afterMailbox b)) : s.refuses c b tag o := by
  obtain ⟨W, A, hx, hd⟩ := command_served ht hwf hr he rfl rfl rfl
  exact ⟨_, hc.trans hx, hd, rfl, rfl⟩

/-! ## The states that refuse a command (R173) -/

theorem editBody_refused (tag : Byte) :
    (s.part = .edit → editBody tag s = refuse tag .wrongState s) ∧
    (s.part = .loading → editBody tag s = refuse tag .busy s) := by
  constructor
  all_goals
    intro h
    rw [editBody, h]

theorem commitBody_refused (tag : Byte) :
    (s.part = .unconfigured ∨ s.part = .running → commitBody tag s = refuse tag .wrongState s) ∧
    (s.part = .loading → commitBody tag s = refuse tag .busy s) := by
  refine ⟨?_, fun h => by rw [commitBody, h]⟩
  rintro (h | h)
  · rw [commitBody, h]
  · rw [commitBody, h]

/-- ABANDON is refused without an edit, and in an apply pass (R173, R177). -/
theorem abandonBody_refused (tag : Byte) :
    (s.part = .unconfigured ∨ s.part = .running → abandonBody tag s = refuse tag .wrongState s) ∧
    (s.part = .loading → s.applyPass = true → abandonBody tag s = refuse tag .busy s) := by
  refine ⟨?_, fun h hpass => ?_⟩
  · rintro (h | h)
    · rw [abandonBody, h]
    · rw [abandonBody, h]
  · rw [abandonBody, h]
    cases hl : s.load with
    | none => rfl
    | some l =>
      have ha : l.applying = true := by simpa [State.applyPass, hl] using hpass
      simp only [ha, if_true]

theorem forgetBody_refused (tag : Byte) (arg : Half) :
    (s.part = .unconfigured → forgetBody tag arg s = refuse tag .wrongState s) ∧
    (s.part = .loading → forgetBody tag arg s = refuse tag .busy s) := by
  constructor
  all_goals
    intro h
    rw [forgetBody, h]

theorem maintBody_refused (tag : Byte) (mask : Half) (latch : Option Half) :
    (s.part = .unconfigured → maintBody tag mask latch s = refuse tag .wrongState s) ∧
    (s.part = .loading → maintBody tag mask latch s = refuse tag .busy s) := by
  constructor
  all_goals
    intro h
    rw [maintBody, h]

/-- CENSUS is refused without a setup in use, whether or not a cut one waits (R173, log entry 16). -/
theorem censusBody_refused (tag : Byte) :
    (s.part = .unconfigured ∨ (s.part = .edit ∧ s.origin = some .unconfigured) →
      censusBody tag s = refuse tag .wrongState s) ∧
    (s.part = .loading → censusBody tag s = refuse tag .busy s) := by
  refine ⟨?_, fun h => by rw [censusBody, h]⟩
  rintro (h | ⟨h, ho⟩)
  · rw [censusBody, h]
  · have hu : s.setupInUse = false := by simp [State.setupInUse, h, ho]
    rw [censusBody, h]
    simp only [hu, Bool.false_eq_true, if_false]

/-! ## BAD_OPCODE (R171) -/

/-- A beat to the mailbox that is partial, or whose code names no command, is taken as BAD_OPCODE. -/
theorem rowOf_badOpcode (hread : b.read = false) (hplain : s.arb.plain = false)
    (haddr : wordAddr b.addr.toNat = s.setupBase)
    (hbad : b.be ≠ 15 ∨ b.data.toNat / 16777216 = 0 ∨ 10 ≤ b.data.toNat / 16777216) : s.rowOf b = .badOpcode := by
  have hw : s.setupWordOf (wordAddr b.addr.toNat) = some 0 := by
    rw [haddr]
    simpa using setupWordOf_word s (w := 0) (by decide)
  rw [rowOf_write hread hplain]
  simp only [State.writeRow, hw, mailboxRow_bad hbad]

theorem beatTag_eq (b : Beat) :
    beatTag b = if b.be.getLsbD 2 then BitVec.ofNat 8 (b.data.toNat / 65536 % 256) else 0 := by
  have htag : mailboxTag b.data = BitVec.ofNat 8 (b.data.toNat / 65536 % 256) := by
    rw [mailboxTag, byteAt_eq]
    apply BitVec.eq_of_toNat_eq
    simp
  rw [beatTag, htag]

/-- Settles O47: each command is taken from its beat, and its body refuses it in the part state that stands. -/
theorem commandsAreRefused : Obligations.CommandsAreRefused := by
  intro tag arg burst s ht hwf _
  have hplain := ((takesCommands_iff s).mp ht).2
  have hrow (code : Byte) := rowOf_mailboxBeat s code tag arg burst hplain
  have hedit {o} (h : editBody tag (s.afterMailbox (s.mailboxBeat 2 tag arg burst)) = refuse tag o _) :
      s.refuses (.editCmd tag arg burst) (s.mailboxBeat 2 tag arg burst) tag o :=
    refuses_of_body rfl ht hwf (hrow 2) ((effEdit_eq s tag arg burst).trans h)
  have hcommit {o} (h : commitBody tag (s.afterMailbox (s.mailboxBeat 3 tag arg burst)) = refuse tag o _) :
      s.refuses (.commitCmd tag arg burst) (s.mailboxBeat 3 tag arg burst) tag o :=
    refuses_of_body rfl ht hwf (hrow 3) ((effCommit_eq s tag arg burst).trans h)
  have habandon {o} (h : abandonBody tag (s.afterMailbox (s.mailboxBeat 4 tag arg burst)) = refuse tag o _) :
      s.refuses (.abandonCmd tag arg burst) (s.mailboxBeat 4 tag arg burst) tag o :=
    refuses_of_body rfl ht hwf (hrow 4) ((effAbandon_eq s tag arg burst).trans h)
  have hforget {o} (h : forgetBody tag arg (s.afterMailbox (s.mailboxBeat 6 tag arg burst)) = refuse tag o _) :
      s.refuses (.forgetCmd tag arg burst) (s.mailboxBeat 6 tag arg burst) tag o :=
    refuses_of_body rfl ht hwf (hrow 6) ((effForget_eq s tag arg burst).trans h)
  have hmaint {o} (h : maintBody tag arg s.latch (s.afterMailbox (s.mailboxBeat 7 tag arg burst)) = refuse tag o _) :
      s.refuses (.maintCmd tag arg burst) (s.mailboxBeat 7 tag arg burst) tag o :=
    refuses_of_body rfl ht hwf (hrow 7) ((effMaint_eq s tag arg burst).trans h)
  have hcensus {o} (h : censusBody tag (s.afterMailbox (s.mailboxBeat 8 tag arg burst)) = refuse tag o _) :
      s.refuses (.censusCmd tag arg burst) (s.mailboxBeat 8 tag arg burst) tag o :=
    refuses_of_body rfl ht hwf (hrow 8) ((effCensus_eq s tag arg burst).trans h)
  refine ⟨fun b hread haddr hbad => ?_, fun h => hedit ((editBody_refused tag).1 h),
    fun h => ⟨hcommit ((commitBody_refused tag).1 h), habandon ((abandonBody_refused tag).1 h)⟩,
    fun h => ⟨hforget ((forgetBody_refused tag arg).1 h), hmaint ((maintBody_refused tag arg _).1 h)⟩,
    fun h => hcensus ((censusBody_refused tag).1 h),
    fun h => ⟨hedit ((editBody_refused tag).2 h), hcommit ((commitBody_refused tag).2 h),
      hforget ((forgetBody_refused tag arg).2 h), hmaint ((maintBody_refused tag arg _).2 h),
      hcensus ((censusBody_refused tag).2 h), fun hpass => habandon ((abandonBody_refused tag).2 h hpass)⟩⟩
  rw [← beatTag_eq]
  exact refuses_of_body (eff := effBadOpcode) rfl ht hwf (rowOf_badOpcode hread hplain haddr hbad) rfl

/-! ## The edit limit (R176) -/

/-- The expiry of the edit limit waits once its last carry has been given, while there is an edit or a load (R88,
R176). -/
theorem editDue_of {w : Window} (hw : s.editLimit = some w) (hd : w.due = true)
    (hpart : s.part = .edit ∨ s.part = .loading) : s.editDue = true := by
  rw [State.editDue, hw, isDue_some hd]
  simpa using hpart

/-- An event away from the bus that ends by recording an outcome over `u`, with its closing, as one update (R172,
R185). -/
theorem outcome_update {c : Instr} {detail : Nat} (h : exec c s = .next (finish s (record tag o detail u)))
    (ha : u.arb = s.arb) (hw : u.writeMarks = s.writeMarks) :
    ∃ W A, exec c s = .next { record tag o detail u with writeMarks := W, arb := A } ∧
      A = s.arbAfterEvent { record tag o detail u with writeMarks := W, arb := A } ∧
      W = { s.marksAfter { record tag o detail u with writeMarks := W, arb := A } with status := true } := by
  obtain ⟨A, ht, harb⟩ := event_update h ha
  refine ⟨_, A, ht, harb, ?_⟩
  rw [markStatusWords_eq, record_eq, hw]
  rfl

/-- Settles O53: with no load the edit expires, in a check pass its COMMIT, in an apply pass nothing but the limit. -/
theorem editLimitExpiryEndsTheEdit : Obligations.EditLimitExpiryEndsTheEdit := by
  intro s w hw hd hpart hlaw
  have hexec : exec .editLimitExpiry s = .next (finish s (editLimitEvent s)) := if_pos (editDue_of hw hd hpart)
  obtain ⟨-, horigin, -⟩ := hlaw
  obtain ⟨origin, ho⟩ := Option.isSome_iff_exists.mp (horigin.mp hpart)
  have hend : s.origin = some (leaveEdit s).part := by
    rw [leaveEdit, ho]
    rfl
  cases hl : s.load with
  | none =>
    have hpass : s.applyPass = false := by rw [State.applyPass, hl]; rfl
    have hevent : editLimitEvent s = record s.editTag .expired 0 (leaveEdit s) := by rw [editLimitEvent, hl]
    rw [hevent] at hexec
    obtain ⟨W, A, ht, harb, hmarks⟩ := outcome_update hexec rfl rfl
    exact ⟨_, ht, harb, rfl, fun _ => ⟨hend, rfl, rfl, fun _ => rfl, nofun, hmarks, by rw [← hl]; rfl⟩,
      fun h => absurd (hpass.symm.trans h) nofun⟩
  | some l =>
    have hpass : s.applyPass = l.applying := by rw [State.applyPass, hl]; rfl
    rw [hpass]
    cases ha : l.applying with
    | true =>
      have hevent : editLimitEvent s = { s with editLimit := none } := by
        rw [editLimitEvent, hl]
        exact if_pos ha
      rw [hevent] at hexec
      obtain ⟨A, ht, harb⟩ := event_quiet hexec rfl rfl rfl rfl
      exact ⟨_, ht, harb, rfl, nofun, fun _ => rfl⟩
    | false =>
      have hevent : editLimitEvent s = record l.tag .expired 1 (leaveEdit s) := by
        rw [editLimitEvent, hl]
        exact if_neg (by simp [ha])
      rw [hevent] at hexec
      obtain ⟨W, A, ht, harb, hmarks⟩ := outcome_update hexec rfl rfl
      refine ⟨_, ht, harb, rfl, fun _ => ⟨hend, rfl, rfl, nofun, fun l' hl' => ?_, hmarks, by rw [← hl]; rfl⟩, nofun⟩
      rw [← Option.some.inj hl']
      rfl

end Sys2Proof.Machine
end

