-- ==== Sys2Proof/Proofs/StructuralChecks.lean ====
section
/-! PROOF. The structural checks of a staged setup (O49): one `↔` per check, and the first node that fails. -/

namespace Sys2Proof.Machine

variable {s : State} {l : Load} {n : Fin 128}

/-! ## Regions (R179) -/

/-- Two regions that are not empty share no byte where one ends before the other begins. -/
theorem disjoint_iff_apart {a len a' len' : Nat} (h : 0 < len) (h' : 0 < len') :
    disjoint a len a' len' = true ↔ apart a len a' len' := by
  rw [disjoint, Bool.or_eq_true, decide_eq_true_iff, decide_eq_true_iff]
  constructor
  · intro hd x hx
    omega
  · intro hx
    have hfirst := hx (max a a')
    omega

theorem inSpace_iff (a len : Nat) : inSpace a len = true ↔ a + len ≤ 16777216 := decide_eq_true_iff

theorem outsideSetup_iff {a len : Nat} (h : 0 < len) :
    s.outsideSetup a len = true ↔ apart a len s.setupBase 2624 := disjoint_iff_apart h (by decide)

theorem noticeBytes_pos (r : Ring) : 0 < r.noticeBytes := Nat.mul_pos (by decide) (Nat.succ_pos _)

theorem outsideNotices_iff {a len : Nat} (h : 0 < len) :
    s.outsideNotices a len = true ↔ ∀ r, s.noticeRing = some r → apart a len r.base (32 * (r.count + 1)) := by
  unfold State.outsideNotices
  cases s.noticeRing with
  | none => simp
  | some r => simpa [Ring.noticeBytes] using disjoint_iff_apart h (noticeBytes_pos r)

/-- A clamped intake ring is not empty (R180). -/
theorem intakeBytes_pos (l : Load) : 0 < l.intake.intakeBytes := by
  have hall : ∀ x ∈ [16, 16, 32, 64, 128, 256, 512, 1024, 2048, 4096], 0 < x := by decide
  exact Nat.mul_pos (by decide) (hall _ (clampPower_mem _ _ _))

/-! ### The three regions of a staged setup -/

theorem intakeFits_iff (s : State) (l : Load) : s.intakeFits l = true ↔
    l.intake.base + 16 * l.intake.count ≤ 16777216 ∧
    apart l.intake.base (16 * l.intake.count) s.setupBase 2624 ∧
    ∀ r, s.noticeRing = some r → apart l.intake.base (16 * l.intake.count) r.base (32 * (r.count + 1)) := by
  have hpos := intakeBytes_pos l
  simp only [State.intakeFits, Bool.and_eq_true, inSpace_iff, outsideSetup_iff hpos, outsideNotices_iff hpos, and_assoc]
  rfl

theorem noticesFit_iff (s : State) (l : Load) : s.noticesFit l = true ↔
    l.notices.base + 32 * (l.notices.count + 1) ≤ 16777216 ∧
    apart l.notices.base (32 * (l.notices.count + 1)) s.setupBase 2624 ∧
    apart l.notices.base (32 * (l.notices.count + 1)) l.intake.base (16 * l.intake.count) := by
  have hpos := noticeBytes_pos l.notices
  simp only [State.noticesFit, Bool.and_eq_true, inSpace_iff, outsideSetup_iff hpos,
    disjoint_iff_apart hpos (intakeBytes_pos l), and_assoc]
  rfl

theorem censusFits_iff (s : State) (l : Load) : s.censusFits l = true ↔
    l.census + 2568 ≤ 16777216 ∧ apart l.census 2568 s.setupBase 2624 ∧
    apart l.census 2568 l.intake.base (16 * l.intake.count) ∧
    apart l.census 2568 l.notices.base (32 * (l.notices.count + 1)) ∧
    ∀ r, s.noticeRing = some r → apart l.census 2568 r.base (32 * (r.count + 1)) := by
  have hpos : 0 < 4 * Config.censusWords := by decide
  simp only [State.censusFits, Bool.and_eq_true, inSpace_iff, outsideSetup_iff hpos, outsideNotices_iff hpos,
    disjoint_iff_apart hpos (intakeBytes_pos l), disjoint_iff_apart hpos (noticeBytes_pos l.notices), and_assoc]
  rfl

/-! ## Nodes (R179) -/

/-- Following staged parents reaches a root within `steps` steps (R179, check 5). -/
theorem reachesRoot_iff (l : Load) (steps : Nat) (n : Fin 128) : l.reachesRoot steps n = true ↔
    ∃ m, m ≤ steps ∧ (l.parent^[m] n = 0 ∨ l.parent^[m] n = 1) := by
  induction steps generalizing n with
  | zero => simp [Load.reachesRoot]
  | succ steps ih =>
    rw [Load.reachesRoot, Bool.or_eq_true, ih]
    constructor
    · rintro (h | ⟨m, hm, h⟩)
      · exact ⟨0, Nat.zero_le _, by simpa using h⟩
      · exact ⟨m + 1, Nat.succ_le_succ hm, h⟩
    · rintro ⟨m, hm, h⟩
      cases m with
      | zero => exact .inl (by simpa using h)
      | succ m => exact .inr ⟨m, Nat.le_of_succ_le_succ hm, h⟩

theorem enables_iff (l : Load) (n : Fin 128) :
    l.enables n = true ↔ n = 0 ∨ n = 1 ∨ (l.nodeWord n).getLsbD 31 = true := by
  simp [Load.enables, nodeWordEnabled, or_assoc]

theorem nodeFits_iff (l : Load) (n : Fin 128) : l.nodeFits n = true ↔ ((l.nodeWord n).getLsbD 31 = true →
    (l.parent n = 0 ∨ l.parent n = 1 ∨ (l.nodeWord (l.parent n)).getLsbD 31 = true) ∧ l.parent n ≠ n ∧
    l.tree (l.parent n) = l.tree n ∧ ∃ m, m ≤ 7 ∧ (l.parent^[m] n = 0 ∨ l.parent^[m] n = 1)) := by
  rw [← enables_iff, ← reachesRoot_iff, Load.nodeFits, nodeWordEnabled]
  cases (l.nodeWord n).getLsbD 31 <;> simp [and_assoc]

/-- The parent of a node word (12.4). -/
theorem parent_val (l : Load) (n : Fin 128) : (l.parent n).val = (l.nodeWord n).toNat / 256 % 128 := by
  simp [Load.parent, nodeWordParent, bits]

/-! ## The first fault -/

/-- A search over all indices finds the least that meets the test. -/
theorem find?_indices {k : Nat} [NeZero k] {p : Fin k → Bool} {i : Fin k} (hi : p i = true)
    (hleast : ∀ j, j < i → p j = false) : (indices k).find? p = some i := by
  have hlen : (indices k).length = k := by simp [indices]
  have hget (m : Nat) (hm : m < (indices k).length) : (indices k)[m] = ⟨m, hlen ▸ hm⟩ := by
    have hmk : m < k := hlen ▸ hm
    simp [indices, Fin.ofNat, Nat.mod_eq_of_lt hmk]
  refine List.find?_eq_some_iff_getElem.mpr ⟨hi, i.val, hlen.symm ▸ i.isLt, hget _ _, fun j hj => ?_⟩
  rw [hget, hleast _ hj]
  rfl

theorem setupFault_intake (h : s.intakeFits l = false) : s.setupFault l = some 4 := by
  rw [State.setupFault, h]
  rfl

theorem setupFault_notices (h1 : s.intakeFits l = true) (h : s.noticesFit l = false) : s.setupFault l = some 6 := by
  rw [State.setupFault, h1, h]
  rfl

theorem setupFault_census (h1 : s.intakeFits l = true) (h2 : s.noticesFit l = true) (h : s.censusFits l = false) :
    s.setupFault l = some 8 := by
  rw [State.setupFault, h1, h2, h]
  rfl

/-- Where the regions fit, the fault is that of the first node 2..127 that does not fit. -/
theorem setupFault_nodes (h1 : s.intakeFits l = true) (h2 : s.noticesFit l = true) (h3 : s.censusFits l = true) :
    s.setupFault l =
      ((indices 128).find? (fun n => decide (2 ≤ n.val) && !l.nodeFits n)).map (fun n => 528 + n.val) := by
  rw [State.setupFault, h1, h2, h3]
  rfl

theorem find?_misfit_none (h : ∀ n : Fin 128, 2 ≤ n.val → l.nodeFits n = true) :
    (indices 128).find? (fun n => decide (2 ≤ n.val) && !l.nodeFits n) = none := by
  refine List.find?_eq_none.mpr fun n _ => ?_
  by_cases hn : 2 ≤ n.val
  · simp [h n hn]
  · simp [hn]

theorem find?_misfit_first (hn : 2 ≤ n.val) (hfit : ¬ l.nodeFits n = true)
    (hbefore : ∀ m : Fin 128, 2 ≤ m.val → m < n → l.nodeFits m = true) :
    (indices 128).find? (fun n => decide (2 ≤ n.val) && !l.nodeFits n) = some n := by
  refine find?_indices (by simp [hn, hfit]) fun m hm => ?_
  by_cases h2 : 2 ≤ m.val
  · simp [hbefore m h2 hm]
  · simp [h2]

/-- Settles O49: each check is the model's own test, by its `↔`, and the fault is the first that fails. -/
theorem structuralChecks : Obligations.StructuralChecks := by
  intro s l
  refine ⟨s.intakeFits l = true, s.noticesFit l = true, s.censusFits l = true, fun n => l.nodeFits n = true, l.tree,
    l.parent, intakeFits_iff s l, noticesFit_iff s l, censusFits_iff s l, fun _ => rfl, parent_val l, nodeFits_iff l,
    fun h => setupFault_intake (Bool.eq_false_iff.mpr h), fun h1 h => setupFault_notices h1 (Bool.eq_false_iff.mpr h),
    fun h1 h2 h => setupFault_census h1 h2 (Bool.eq_false_iff.mpr h), fun h1 h2 h3 => ⟨fun hall => ?_,
      fun n hn hfit hbefore => ?_⟩⟩
  · rw [setupFault_nodes h1 h2 h3, find?_misfit_none hall]
    rfl
  · rw [setupFault_nodes h1 h2 h3, find?_misfit_first hn hfit hbefore]
    rfl

end Sys2Proof.Machine
end

