-- ==== Sys2Proof/Proofs/Requests.lean ====
section
/-! PROOF. The internal requests (R190): the head request is the first of the priority order that waits, and each row of
an internal access is one access that its requester asks for. The owned-word writer's access (O59). -/

namespace Sys2Proof.Machine

variable {s : State} {r : Requester} {c : Instr}

/-! ## The head request -/

/-- The requesters in the priority order of R190. -/
def Requester.byPriority : List Requester := [.loader, .noticeWriter, .ownedWords, .census]

/-- A requester has a request waiting (R190). -/
def State.requests (s : State) : Requester → Bool
  | .loader => s.loaderWaits
  | .noticeWriter => s.notice.isSome || s.headerDue
  | .ownedWords => s.writeMarks.status || s.writeMarks.partA || s.writeMarks.partB
  | .census => s.census.isSome

/-- The head request is the first in the priority order that waits (R190). -/
theorem head_eq_find? (s : State) : s.head = Requester.byPriority.find? s.requests := by
  show (if s.requests .loader then some Requester.loader else if s.requests .noticeWriter then
    some .noticeWriter else if s.requests .ownedWords then some .ownedWords
    else if s.requests .census then some .census else none) = _
  simp only [Requester.byPriority, List.find?_cons, List.find?_nil]
  cases s.requests .loader with
  | true => rfl
  | false =>
    cases s.requests .noticeWriter with
    | true => rfl
    | false =>
      cases s.requests .ownedWords with
      | true => rfl
      | false => cases s.requests .census <;> rfl

theorem requests_of_head (h : s.head = some r) : s.requests r = true :=
  List.find?_some ((head_eq_find? s).symm.trans h)

/-- The loader has reads left in either pass (R178, R181). -/
theorem requests_loader_iff (s : State) : s.requests .loader = true ↔ ∃ l, s.load = some l ∧
    ((l.applying = false ∧ l.staged.length < 139) ∨ (l.applying = true ∧ l.applied < 512)) := by
  rw [State.requests, State.loaderWaits]
  cases s.load with
  | none => simp
  | some l => cases ha : l.applying <;> simp [ha]

theorem requests_noticeWriter_iff (s : State) :
    s.requests .noticeWriter = true ↔ s.notice ≠ none ∨ s.headerDue = true := by
  simp [State.requests, Option.isSome_iff_ne_none]

theorem requests_ownedWords_iff (s : State) : s.requests .ownedWords = true ↔
    s.writeMarks.status = true ∨ s.writeMarks.partA = true ∨ s.writeMarks.partB = true := by
  simp [State.requests, or_assoc]

theorem requests_census_iff (s : State) : s.requests .census = true ↔ s.census ≠ none := by
  simp [State.requests, Option.isSome_iff_ne_none]

/-! ## What each row asks for -/

/-- An access that a requester asks the memory side for: what it writes, its event at the grant, and the event that its
end brings (R190, log entry 32). -/
structure Access where
  requester : Requester
  store : Option Store
  event : State → State
  ending : Option Ending

/-- The grant of an access (R190). -/
def Access.granted (a : Access) (s : State) : Host.Outcome State Fault Refusal :=
  grant a.requester a.store a.event a.ending s

/-- The access that a row asks for, when its requester is at that access (R163, R164, R166, R168, R178, R181, R189). -/
inductive Asks (s : State) : Instr → Access → Prop
  | checkRead (l : Load) (hl : s.load = some l) (ha : l.applying = false) :
      Asks s .loaderCheckRead ⟨.loader, none, checkReadEvent l, none⟩
  | terminalWord (l : Load) (hl : s.load = some l) (ha : l.applying = true) :
      Asks s .terminalWordApply ⟨.loader, none, terminalWordEvent l (Fin.ofNat 512 l.applied), none⟩
  | noticeWord (n : Notice) (r : Ring) (hn : s.notice = some n) (hr : s.noticeRing = some r) (hw : n.written < 8) :
      Asks s .noticeWordWrite ⟨.noticeWriter, some (s.noticeStore r n), id, some .noticeWord⟩
  | producer (n : Notice) (r : Ring) (hn : s.notice = some n) (hr : s.noticeRing = some r) (hw : 8 ≤ n.written) :
      Asks s .producerWrite ⟨.noticeWriter, some (s.producerStore r), id, some .producer⟩
  | header (r : Ring) (hn : s.notice = none) (hr : s.noticeRing = some r) (hd : s.headerDue = true) :
      Asks s .ringHeaderInitWrite ⟨.noticeWriter, some { addr := r.base, word := 0 }, id, some (.header r)⟩
  | ownedWord : Asks s .ownedWordWriterGrant ⟨.ownedWords, s.ownedStore, ownedWordEvent, none⟩
  | censusWord (c : Census) (hc : s.census = some c) (hcut : c.cut = false) (hw : c.written < 642) :
      Asks s .censusWordWrite ⟨.census, some (s.censusStore c), id, some .censusWord⟩
  | censusDone (c : Census) (hc : s.census = some c) (hcut : c.cut = false) (hw : 642 ≤ c.written) :
      Asks s .censusDoneWrite ⟨.census, some c.doneStore, id, some .censusDone⟩
  | censusCut (c : Census) (hc : s.census = some c) (hcut : c.cut = true) :
      Asks s .censusCutWrite ⟨.census, some c.cutStore, id, some .censusCut⟩

/-- The rows of the internal accesses. -/
def internalRows : List Instr :=
  [.loaderCheckRead, .terminalWordApply, .noticeWordWrite, .producerWrite, .ringHeaderInitWrite, .ownedWordWriterGrant,
    .censusWordWrite, .censusDoneWrite, .censusCutWrite]

variable {a : Access}

/-- A row is the grant of the access that it asks for. -/
theorem Asks.exec_eq (h : Asks s c a) : exec c s = a.granted s := by
  cases h with
  | checkRead l hl ha =>
    show execLoaderCheckRead s = _
    rw [execLoaderCheckRead, hl]
    exact if_neg (ha ▸ Bool.false_ne_true)
  | terminalWord l hl ha =>
    show execTerminalWordApply s = _
    rw [execTerminalWordApply, hl]
    exact if_pos ha
  | noticeWord n r hn hr hw => exact exec_noticeWordWrite hr hn hw
  | producer n r hn hr hw =>
    show execProducerWrite s = _
    rw [execProducerWrite, hn, hr]
    exact if_pos hw
  | header r hn hr hd => exact exec_ringHeaderInitWrite hr hn hd
  | ownedWord => rfl
  | censusWord c hc hcut hw => exact exec_censusWordWrite hc hcut hw
  | censusDone c hc hcut hw => exact exec_censusDoneWrite hc hcut hw
  | censusCut c hc hcut => exact exec_censusCutWrite hc hcut

/-- A row whose condition fails does nothing (log entry 4). -/
theorem asks_or_skips {p : Prop} [Decidable p] {o : Host.Outcome State Fault Refusal} (h : p → Asks s c a) :
    (∃ a, Asks s c a) ∨ (if p then o else .next s) = .next s := by
  split
  · next hp => exact .inl ⟨a, h hp⟩
  · exact .inr rfl

/-- A row whose requester is not at its access does nothing (log entry 4). -/
theorem exec_internal_cases (hc : c ∈ internalRows) (s : State) : (∃ a, Asks s c a) ∨ exec c s = .next s := by
  simp only [internalRows, List.mem_cons, List.not_mem_nil, or_false] at hc
  rcases hc with rfl | rfl | rfl | rfl | rfl | rfl | rfl | rfl | rfl
  · show _ ∨ execLoaderCheckRead s = _
    unfold execLoaderCheckRead
    split
    · exact .inr rfl
    · next l hl =>
      split
      · exact .inr rfl
      · next ha => exact .inl ⟨_, .checkRead l hl (Bool.eq_false_iff.mpr ha)⟩
  · show _ ∨ execTerminalWordApply s = _
    unfold execTerminalWordApply
    split
    · exact .inr rfl
    · next l hl => exact asks_or_skips (.terminalWord l hl)
  · show _ ∨ execNoticeWordWrite s = _
    unfold execNoticeWordWrite
    split
    · next n r hn hr => exact asks_or_skips (.noticeWord n r hn hr)
    · exact .inr rfl
  · show _ ∨ execProducerWrite s = _
    unfold execProducerWrite
    split
    · next n r hn hr => exact asks_or_skips (.producer n r hn hr)
    · exact .inr rfl
  · show _ ∨ execRingHeaderInitWrite s = _
    unfold execRingHeaderInitWrite
    split
    · exact .inr rfl
    · next r hr => exact asks_or_skips fun h => .header r (by simp_all) hr (by simp_all)
  · exact .inl ⟨_, .ownedWord⟩
  · show _ ∨ execCensusWordWrite s = _
    unfold execCensusWordWrite
    split
    · exact .inr rfl
    · next c hc => exact asks_or_skips fun h => .censusWord c hc (by simp_all) (by simp_all)
  · show _ ∨ execCensusDoneWrite s = _
    unfold execCensusDoneWrite
    split
    · exact .inr rfl
    · next c hc => exact asks_or_skips fun h => .censusDone c hc (by simp_all) (by simp_all)
  · show _ ∨ execCensusCutWrite s = _
    unfold execCensusCutWrite
    split
    · exact .inr rfl
    · next c hc => exact asks_or_skips (.censusCut c hc)

/-- The head request's next access is the row that asks for it (R190). -/
theorem Asks.nextAccess_eq (h : Asks s c a) (hhead : s.head = some a.requester) : s.nextAccess = some c := by
  unfold State.nextAccess
  rw [hhead]
  cases h with
  | checkRead l hl ha => simp [hl, ha]
  | terminalWord l hl ha => simp [hl, ha]
  | noticeWord n r hn hr hw => simp [hn, hr, hw]
  | producer n r hn hr hw => simp [hn, hr, hw]
  | header r hn hr hd => simp [hn, hr]
  | ownedWord => rfl
  | censusWord c hc hcut hw => simp [hc, hcut, hw]
  | censusDone c hc hcut hw => simp [hc, hcut, hw]
  | censusCut c hc hcut => simp [hc, hcut]

/-- The row of the head request's next access asks for an access of the head requester (R190). -/
theorem asks_of_nextAccess (h : s.nextAccess = some c) : ∃ a, Asks s c a ∧ s.head = some a.requester := by
  unfold State.nextAccess at h
  split at h
  · cases h
  · next hhead =>
    obtain ⟨l, hl, rfl⟩ := Option.map_eq_some_iff.mp h
    cases ha : l.applying with
    | false => exact ⟨_, .checkRead l hl ha, hhead⟩
    | true => exact ⟨_, .terminalWord l hl ha, hhead⟩
  · next hhead =>
    obtain ⟨r, hr, rfl⟩ := Option.map_eq_some_iff.mp h
    cases hn : s.notice with
    | none =>
      have hd : s.headerDue = true := by simpa [hn] using (requests_noticeWriter_iff s).mp (requests_of_head hhead)
      exact ⟨_, .header r hn hr hd, hhead⟩
    | some n =>
      dsimp only
      split
      · next hw => exact ⟨_, .noticeWord n r hn hr hw, hhead⟩
      · next hw => exact ⟨_, .producer n r hn hr (Nat.le_of_not_lt hw), hhead⟩
  · next hhead =>
    obtain rfl := Option.some.inj h
    exact ⟨_, .ownedWord, hhead⟩
  · next hhead =>
    obtain ⟨c, hc, rfl⟩ := Option.map_eq_some_iff.mp h
    split
    · next hcut => exact ⟨_, .censusCut c hc hcut, hhead⟩
    · next hcut =>
      split
      · next hw => exact ⟨_, .censusWord c hc (Bool.eq_false_iff.mpr hcut) hw, hhead⟩
      · next hw => exact ⟨_, .censusDone c hc (Bool.eq_false_iff.mpr hcut) (Nat.le_of_not_lt hw), hhead⟩

/-- An access that the arbiter does not grant does not come (R190, log entry 4). -/
theorem exec_ungranted (hc : c ∈ internalRows)
    (h : s.nextAccess ≠ some c ∨ s.arb.busy ≠ none ∨ s.arb.beatsLeft ≠ 0) : exec c s = .next s := by
  rcases exec_internal_cases hc s with ⟨a, ha⟩ | hskip
  · have hno : ¬ s.grants a.requester = true := fun hg => by
      obtain ⟨hbusy, hbeats, hhead⟩ := (grants_iff s _).mp hg
      rcases h with h | h | h
      · exact h (ha.nextAccess_eq hhead)
      · exact h hbusy
      · exact h hbeats
    rw [ha.exec_eq]
    exact if_neg hno
  · exact hskip

/-! ## The owned-word writer (R189) -/

/-- The write-pending marks once the lowest-numbered word marked has been granted (R189). -/
def WriteMarks.served (m : WriteMarks) : WriteMarks :=
  if m.status then { m with status := false }
  else if m.partA then { m with partA := false }
  else { m with partB := false }

theorem ownedWordEvent_eq (s : State) : ownedWordEvent s = { s with writeMarks := s.writeMarks.served } := by
  unfold ownedWordEvent WriteMarks.served
  split
  · rfl
  · split <;> rfl

/-- An event that leaves both part status words as they stand marks nothing (R185). -/
theorem markStatusWords_unchanged {u : State} (hA : u.partStatusA = s.partStatusA)
    (hB : u.partStatusB = s.partStatusB) : markStatusWords s u = u := by
  simp [markStatusWords_eq, hA, hB]

/-- An owned word that a ready memory serves, with no beat held behind it (R189, R190). -/
theorem ownedWordWriterGrant_served {w : Store} (hserves : s.servesRequest .ownedWords) (hw : s.ownedStore = some w) :
    ∃ t, exec .ownedWordWriterGrant s = .next t ∧
      { t with mem := s.mem, writeMarks := s.writeMarks, arb := s.arb } = s ∧ s.storeDone t w.addr w.word ∧
      t.writeMarks = s.writeMarks.served := by
  obtain ⟨hgrants, hheld, hready, hwf⟩ := hserves
  have hevent := ownedWordEvent_eq (endWindow s)
  have hexec : exec .ownedWordWriterGrant s = _ :=
    grant_update (w := s.ownedStore) hgrants hheld hready (congrArg State.arb hevent :)
  have hquiet : markStatusWords s (ownedWordEvent (endWindow s)) = ownedWordEvent (endWindow s) :=
    markStatusWords_unchanged (congrArg State.partStatusA hevent :) (congrArg State.partStatusB hevent :)
  rw [hquiet, hevent, hw] at hexec
  exact ⟨_, hexec, rfl, ⟨State.store_byte w.addr w.word hwf, rfl⟩, rfl⟩

/-- Settles O59: the word written and the mark cleared are those of the lowest-numbered word marked, and the head
request says that one is. -/
theorem ownedWordWriterWritesTheLowestMarked : Obligations.OwnedWordWriterWritesTheLowestMarked := by
  intro s hserves
  obtain ⟨-, -, hhead⟩ := (grants_iff s _).mp hserves.1
  have hmarked := (requests_ownedWords_iff s).mp (requests_of_head hhead)
  by_cases hs : s.writeMarks.status = true
  · obtain ⟨t, hx, hframe, hdone, hmarks⟩ := ownedWordWriterGrant_served hserves (if_pos hs)
    exact ⟨t, hx, hframe, fun _ => ⟨hdone, hmarks.trans (if_pos hs)⟩, by simp [hs], by simp [hs]⟩
  · by_cases hA : s.writeMarks.partA = true
    · obtain ⟨t, hx, hframe, hdone, hmarks⟩ := ownedWordWriterGrant_served hserves ((if_neg hs).trans (if_pos hA))
      exact ⟨t, hx, hframe, by simp [hs], fun _ _ => ⟨hdone, hmarks.trans ((if_neg hs).trans (if_pos hA))⟩,
        by simp [hA]⟩
    · have hB : s.writeMarks.partB = true := (hmarked.resolve_left hs).resolve_left hA
      obtain ⟨t, hx, hframe, hdone, hmarks⟩ :=
        ownedWordWriterGrant_served hserves ((if_neg hs).trans ((if_neg hA).trans (if_pos hB)))
      exact ⟨t, hx, hframe, by simp [hs], by simp [hA],
        fun _ _ => ⟨hB, hdone, hmarks.trans ((if_neg hs).trans (if_neg hA))⟩⟩

end Sys2Proof.Machine
end

