-- ==== Sys2Proof/Proofs/BusSide.lean ====
section
/-! SUPPORT. What an event reads of the arbiter: the effect of a passing beat and the events of an internal access come
to the same whatever the level of M_READY, whatever holds the memory side, and whatever beat is held with WAIT (R186,
R190, R191). -/

namespace Sys2Proof.Machine

variable {s : State}

/-! ## The side of the bus -/

/-- The state with another level of M_READY, another holder of the memory side and another beat held with WAIT. -/
def State.withSide (s : State) (ready : Bool) (busy : Option Busy) (held : Option Beat) : State :=
  { s with arb := { s.arb with ready, busy, held } }

/-- An event that neither reads nor changes M_READY, what holds the memory side, and the beat held with WAIT. -/
def SideBlind (f : State → State) : Prop :=
  ∀ (s : State) (ready : Bool) (busy : Option Busy) (held : Option Beat),
    f (s.withSide ready busy held) = (f s).withSide ready busy held

theorem SideBlind.comp {f g : State → State} (hf : SideBlind f) (hg : SideBlind g) : SideBlind (fun s => f (g s)) :=
  fun s ready busy held => (congrArg f (hg s ready busy held)).trans (hf _ ready busy held)

/-- An event keeps the level of M_READY, the holder of the memory side and the held beat that it does not read. -/
theorem SideBlind.keeps {f : State → State} (h : SideBlind f) (s : State) :
    (f s).arb.ready = s.arb.ready ∧ (f s).arb.busy = s.arb.busy ∧ (f s).arb.held = s.arb.held := by
  have harb := congrArg State.arb (h s s.arb.ready s.arb.busy s.arb.held)
  exact ⟨(congrArg Arbiter.ready harb :), (congrArg Arbiter.busy harb :), (congrArg Arbiter.held harb :)⟩

/-! ## The shared operations -/

theorem takeNotice_sideBlind : SideBlind takeNotice := by
  intro s ready busy held
  have hframe := takeNotice_frame s
  have hmem : (takeNotice s).mem = s.mem := (congrArg State.mem hframe :)
  have harb : (takeNotice s).arb = s.arb := (congrArg State.arb hframe :)
  show takeNotice (s.withPath s.mem { s.arb with ready, busy, held }) = _
  rw [takeNotice_withPath, State.withPath, State.withSide, hmem.symm, harb]

theorem dirtyMark_sideBlind : SideBlind dirtyMark := fun s ready busy held => by
  rw [dirtyMark_eq, dirtyMark_eq]
  rfl

theorem markIf_sideBlind (made : Bool) : SideBlind (markIf made) := fun s ready busy held => by
  rw [markIf_eq, markIf_eq]
  rfl

theorem terminalEvent_sideBlind (k : Fin 512) (new : Entry) : SideBlind (terminalEvent k new) :=
  fun s ready busy held => by
    rw [terminalEvent, terminalEvent, markIf_eq, markIf_eq, terminalChange, terminalChange, addFalls_eq, addFalls_eq,
      moveEntry_eq, moveEntry_eq]
    rfl

theorem cutCensus_sideBlind : SideBlind cutCensus := by
  intro s ready busy held
  have hcensus : (s.withSide ready busy held).census = s.census := rfl
  unfold cutCensus
  rw [hcensus]
  cases s.census with
  | none => rfl
  | some c =>
    cases hcut : c.cut with
    | true => simp only [hcut, if_true]
    | false => simp only [hcut, Bool.false_eq_true, if_false]; rfl

/-! ## The intake records -/

theorem deliver_sideBlind (b : Beat) (k : Fin 512) (new : Entry) (d : Disposition) : SideBlind (deliver b k new d) :=
  SideBlind.comp (f := complete b d (some new.link)) (fun _ _ _ _ => rfl) (terminalEvent_sideBlind k new)

theorem effUnknown_sideBlind (b : Beat) : SideBlind (effUnknown b) := fun _ _ _ _ => rfl

theorem effPassing_sideBlind (b : Beat) : SideBlind (effPassing b) := fun s ready busy held => by
  unfold effPassing
  split <;> rfl

theorem effTree_sideBlind (b : Beat) (down : Bool) : SideBlind (effTree b down) := by
  refine SideBlind.comp (f := complete b .accepted none) (fun _ _ _ _ => rfl) fun s ready busy held => ?_
  exact markIf_sideBlind (s.trunk != down) { s with trunk := down } ready busy held

/-- The record that a completion takes and the terminal that it names do not depend on the bus side. -/
theorem decision_withSide (b : Beat) (s : State) (ready : Bool) (busy : Option Busy) (held : Option Beat) :
    ((s.withSide ready busy held).mark ((s.withSide ready busy held).intakeSlot b)).decision =
      (s.mark (s.intakeSlot b)).decision := rfl

theorem recordTerminal_withSide (c : Word0Capture) (s : State) (ready : Bool) (busy : Option Busy)
    (held : Option Beat) : (s.withSide ready busy held).recordTerminal c = s.recordTerminal c := rfl

theorem entry_withSide (k : Fin 512) (s : State) (ready : Bool) (busy : Option Busy) (held : Option Beat) :
    (s.withSide ready busy held).entry k = s.entry k := rfl

theorem effStatus_sideBlind (b : Beat) : SideBlind (effStatus b) := by
  intro s ready busy held
  unfold effStatus
  rw [decision_withSide]
  split
  · next c power _ =>
    rw [recordTerminal_withSide]
    split
    · exact effUnknown_sideBlind b s ready busy held
    · next k _ =>
      dsimp only
      rw [entry_withSide]
      split
      · exact deliver_sideBlind b k _ _ s ready busy held
      · exact deliver_sideBlind b k _ _ s ready busy held
  · rfl

theorem effMiss_sideBlind (b : Beat) : SideBlind (effMiss b) := by
  intro s ready busy held
  unfold effMiss
  rw [decision_withSide]
  split
  · next c _ =>
    rw [recordTerminal_withSide]
    split
    · exact effUnknown_sideBlind b s ready busy held
    · next k _ =>
      dsimp only
      rw [entry_withSide]
      split
      · exact deliver_sideBlind b k _ _ s ready busy held
      · exact deliver_sideBlind b k _ _ s ready busy held
  · rfl

theorem effGasp_sideBlind (b : Beat) : SideBlind (effGasp b) := by
  intro s ready busy held
  unfold effGasp
  rw [decision_withSide]
  split
  · next c _ =>
    rw [recordTerminal_withSide]
    split
    · exact effUnknown_sideBlind b s ready busy held
    · next k _ => exact deliver_sideBlind b k _ _ s ready busy held
  · rfl

theorem effLink_sideBlind (b : Beat) : SideBlind (effLink b) := by
  intro s ready busy held
  unfold effLink
  rw [decision_withSide]
  split
  · next c power _ =>
    rw [recordTerminal_withSide]
    split
    · exact effUnknown_sideBlind b s ready busy held
    · next k _ => exact deliver_sideBlind b k _ _ s ready busy held
  · rfl

/-! ## The commands of the mailbox -/

theorem mailboxEvent_sideBlind (b : Beat) {body : Option Half → State → State} (h : ∀ l, SideBlind (body l)) :
    SideBlind (mailboxEvent b body) := fun s ready busy held =>
  h s.latch { s.passBeat b b.data with latch := none } ready busy held

theorem part_withSide (s : State) (ready : Bool) (busy : Option Busy) (held : Option Beat) :
    (s.withSide ready busy held).part = s.part := rfl

theorem editBody_sideBlind (tag : Byte) : SideBlind (editBody tag) := by
  intro s ready busy held
  unfold editBody
  rw [part_withSide]
  split <;> rfl

theorem commitBody_sideBlind (tag : Byte) : SideBlind (commitBody tag) := by
  intro s ready busy held
  unfold commitBody
  rw [part_withSide]
  split
  · rfl
  · rfl
  · exact cutCensus_sideBlind { s with part := .loading, load := some (Load.start tag) } ready busy held
  · rfl

theorem abandonBody_sideBlind (tag : Byte) : SideBlind (abandonBody tag) := by
  intro s ready busy held
  have hload : (s.withSide ready busy held).load = s.load := rfl
  unfold abandonBody
  rw [part_withSide]
  split
  · rfl
  · rfl
  · rfl
  · rw [hload]
    split
    · rfl
    · split <;> rfl

theorem forgetBody_sideBlind (tag : Byte) (arg : Half) : SideBlind (forgetBody tag arg) := by
  intro s ready busy held
  have htarget : (s.withSide ready busy held).forgetTarget arg = s.forgetTarget arg := rfl
  have hforget (k : Fin 512) : forgetTerminal k (s.withSide ready busy held) =
      (forgetTerminal k s).withSide ready busy held := by
    rw [forgetTerminal_eq, forgetTerminal_eq]
    rfl
  unfold forgetBody
  rw [part_withSide, htarget]
  split
  · rfl
  · rfl
  all_goals
    split
    · rfl
    · rw [hforget]
      rfl

theorem maintBody_sideBlind (tag : Byte) (mask : Half) (latch : Option Half) :
    SideBlind (maintBody tag mask latch) := by
  intro s ready busy held
  have hevent : maintEvent tag mask latch (s.withSide ready busy held) =
      (maintEvent tag mask latch s).withSide ready busy held := by
    simp only [maintEvent, markIf_eq]
    rfl
  unfold maintBody
  rw [part_withSide]
  split
  · rfl
  · rfl
  · exact hevent
  · exact hevent

theorem startCensus_sideBlind (tag : Byte) : SideBlind (startCensus tag) := by
  intro s ready busy held
  have hcensus : (s.withSide ready busy held).census = s.census := rfl
  unfold startCensus
  rw [hcensus]
  split <;> rfl

theorem censusBody_sideBlind (tag : Byte) : SideBlind (censusBody tag) := by
  intro s ready busy held
  have huse : (s.withSide ready busy held).setupInUse = s.setupInUse := rfl
  unfold censusBody
  rw [part_withSide, huse]
  split
  · rfl
  · rfl
  · exact startCensus_sideBlind tag s ready busy held
  · split
    · exact startCensus_sideBlind tag s ready busy held
    · rfl

theorem resetBody_sideBlind (tag : Byte) : SideBlind (resetBody tag) := by
  have hreset : SideBlind (fun s => record tag .done 0 (softReset s)) := fun _ _ _ _ => rfl
  exact takeNotice_sideBlind.comp (hreset.comp cutCensus_sideBlind)

/-! ## Every passing beat -/

theorem effConsumer_sideBlind (b : Beat) : SideBlind (effConsumer b) := by
  intro s ready busy held
  have hring : (s.withSide ready busy held).noticeRing = s.noticeRing := rfl
  cases hr : s.noticeRing with
  | none =>
    unfold effConsumer
    rw [hring, hr]
    rfl
  | some r =>
    have haccepts : (s.withSide ready busy held).acceptsConsumer r (firstHalf b.data) =
      s.acceptsConsumer r (firstHalf b.data) := rfl
    rw [effConsumer_eq (hring.trans hr), effConsumer_eq hr, haccepts]
    split
    · exact takeNotice_sideBlind ((s.consumerWritten (firstHalf b.data) true).withPath (s.passBeat b b.data).mem s.arb)
        ready busy held
    · rfl

/-- The effect of a passing beat, whatever row the part takes it as (R187). -/
theorem takeBeat_sideBlind (b : Beat) : SideBlind (takeBeat b) := by
  intro s ready busy held
  have hrow : (s.withSide ready busy held).rowOf b = s.rowOf b := rfl
  unfold takeBeat
  rw [hrow]
  cases s.rowOf b with
  | passingWrite => exact effPassing_sideBlind b s ready busy held
  | intakeWord0 => rfl
  | intakeWord1 => rfl
  | intakePartial => rfl
  | intakePartialWord3 => rfl
  | empty => rfl
  | malformed => rfl
  | status => exact effStatus_sideBlind b s ready busy held
  | miss => exact effMiss_sideBlind b s ready busy held
  | gasp => exact effGasp_sideBlind b s ready busy held
  | link => exact effLink_sideBlind b s ready busy held
  | treeDown => exact effTree_sideBlind b true s ready busy held
  | treeUp => exact effTree_sideBlind b false s ready busy held
  | extend => rfl
  | edit => exact mailboxEvent_sideBlind b (fun _ => editBody_sideBlind _) s ready busy held
  | commit => exact mailboxEvent_sideBlind b (fun _ => commitBody_sideBlind _) s ready busy held
  | abandon => exact mailboxEvent_sideBlind b (fun _ => abandonBody_sideBlind _) s ready busy held
  | settime => rfl
  | forget => exact mailboxEvent_sideBlind b (fun _ => forgetBody_sideBlind _ _) s ready busy held
  | maint => exact mailboxEvent_sideBlind b (maintBody_sideBlind _ _) s ready busy held
  | census => exact mailboxEvent_sideBlind b (fun _ => censusBody_sideBlind _) s ready busy held
  | reset => exact mailboxEvent_sideBlind b (fun _ => resetBody_sideBlind _) s ready busy held
  | badOpcode => rfl
  | ownedWord => rfl
  | disturbing => rfl
  | consumerIndex => exact effConsumer_sideBlind b s ready busy held

/-! ## The internal accesses -/

theorem checkEnd_sideBlind (l : Load) : SideBlind (checkEnd l) := by
  intro s ready busy held
  have hfault : (s.withSide ready busy held).setupFault l = s.setupFault l := rfl
  unfold checkEnd
  rw [hfault]
  split
  · rfl
  · rw [parameterApply, parameterApply, markIf_eq, markIf_eq]
    rfl

theorem checkReadEvent_sideBlind (l : Load) : SideBlind (checkReadEvent l) := by
  intro s ready busy held
  have hword : readWord (s.withSide ready busy held).mem
    ((s.withSide ready busy held).setupAddr (checkWord l.staged.length)) =
      readWord s.mem (s.setupAddr (checkWord l.staged.length)) := rfl
  unfold checkReadEvent
  rw [hword]
  dsimp only
  split
  · exact checkEnd_sideBlind _ { s with load := _ } ready busy held
  · rfl

theorem ownedWordEvent_sideBlind : SideBlind ownedWordEvent := fun s ready busy held => by
  rw [ownedWordEvent_eq, ownedWordEvent_eq]
  rfl

/-- The event of an access at its grant (R178, R181, R189). -/
theorem Asks.event_sideBlind {c : Instr} {a : Access} (h : Asks s c a) : SideBlind a.event := by
  cases h with
  | checkRead l => exact checkReadEvent_sideBlind l
  | terminalWord l => exact fun _ _ _ _ => rfl
  | ownedWord => exact ownedWordEvent_sideBlind
  | _ => exact fun _ _ _ _ => rfl

theorem initWaiting_sideBlind : SideBlind initWaiting := fun s ready busy held => by
  have hframe := initWaiting_frame s s
  have hmem : (initWaiting s).mem = s.mem := (congrArg State.mem hframe :)
  have harb : (initWaiting s).arb = s.arb := (congrArg State.arb hframe :)
  show initWaiting (s.withPath s.mem { s.arb with ready, busy, held }) = _
  rw [initWaiting_withPath, State.withPath, State.withSide, hmem.symm, harb]

theorem freeClosed_sideBlind (f : Option (Fin 32)) : SideBlind (freeClosed f) := by
  intro s ready busy held
  cases f with
  | none => rfl
  | some k => exact dirtyMark_sideBlind (freeSlot k s) ready busy held

theorem producerEvent_sideBlind (n : Notice) : SideBlind (producerEvent n) :=
  takeNotice_sideBlind.comp (initWaiting_sideBlind.comp
    (SideBlind.comp (freeClosed_sideBlind n.frees) (g := State.indexAdvanced) fun _ _ _ _ => rfl))

/-- The event of an access when its write has been made (R163, R164, R166, R168). -/
theorem endingEvent_sideBlind (e : Ending) : SideBlind (endingEvent e) := by
  intro s ready busy held
  have hnotice : (s.withSide ready busy held).notice = s.notice := rfl
  have hcensus : (s.withSide ready busy held).census = s.census := rfl
  have hring : (s.withSide ready busy held).noticeRing = s.noticeRing := rfl
  unfold endingEvent
  rw [hnotice, hcensus]
  split
  · rfl
  · exact producerEvent_sideBlind _ s ready busy held
  · rw [hring]
    split
    · exact takeNotice_sideBlind { s with headerDue := false } ready busy held
    · rfl
  · rfl
  · rfl
  · rfl
  · rfl

end Sys2Proof.Machine
end

