-- ==== Sys2Proof/Proofs/HeadRequest.lean ====
section
/-! PROOF. The grants of the memory side (O54): the head request alone is served, and a beat held with WAIT follows the
one access granted (R190, R191). -/

namespace Sys2Proof.Machine

variable {s u : State} {c : Instr} {a : Access} {b : Beat} {ready : Bool} {busy : Option Busy} {held : Option Beat}

/-! ## The end of an access -/

theorem passing_eq_false (hbeats : u.arb.beatsLeft = 0) (hbusy : u.arb.busy ≠ some .passing) :
    u.arb.passing = false := by
  simp [Arbiter.passing, hbeats, hbusy]

/-- With no passing access at the memory side, an event closes with the write-pending marks alone (R185, R191). -/
theorem finish_unwatched (s : State) (hp : u.arb.passing = false) : finish s u = markStatusWords s u :=
  if_neg (hp ▸ Bool.false_ne_true)

/-- The end of an internal access marks what its event changed (R185, R190). -/
theorem endAccess_some (w : Option Store) (e : Ending) (hp : u.arb.passing = false) :
    endAccess w (some e) u = markStatusWords (land w u) (endingEvent e (land w u)) :=
  finish_unwatched _ (by rw [(endingEvent_arb e _).2, land_arb, hp])

theorem endAccess_arb (w : Option Store) (e : Option Ending) (hp : u.arb.passing = false) :
    (endAccess w e u).arb = u.arb := by
  cases e with
  | none => exact land_arb w u
  | some e => rw [endAccess_some w e hp, markStatusWords_arb, (endingEvent_arb e _).2, land_arb]

theorem land_withSide (w : Option Store) (u : State) (ready : Bool) (busy : Option Busy) (held : Option Beat) :
    land w (u.withSide ready busy held) = (land w u).withSide ready busy held := by
  cases w <;> rfl

theorem endAccess_withSide (w : Option Store) (e : Option Ending) (hp : u.arb.passing = false)
    (hbusy : busy ≠ some .passing) :
    endAccess w e (u.withSide ready busy held) = (endAccess w e u).withSide ready busy held := by
  cases e with
  | none => exact land_withSide w u ready busy held
  | some e =>
    have hp' : (u.withSide ready busy held).arb.passing = false :=
      passing_eq_false (by simp_all [Arbiter.passing, State.withSide]) hbusy
    rw [endAccess_some w e hp, endAccess_some w e hp', land_withSide, endingEvent_sideBlind]
    rfl

/-! ## A granted access -/

/-- The part once an access has been granted, before its end (R190). -/
def Access.begun (a : Access) (s : State) : State := finish s (a.event (endWindow s))

/-- The part once an access has been granted and has ended (R190). -/
def Access.served (a : Access) (s : State) : State := endAccess a.store a.ending (a.begun s)

/-- The event of an access at its grant leaves the arbiter, memory and the prescaler (R178, R181, R189). -/
theorem Asks.event_keeps (h : Asks s c a) (u : State) :
    (a.event u).arb = u.arb ∧ (a.event u).mem = u.mem ∧ (a.event u).time.prescaler = u.time.prescaler := by
  cases h with
  | checkRead l =>
    have hframe := checkReadEvent_frame l u
    exact ⟨(congrArg State.arb hframe :), (congrArg State.mem hframe :),
      (congrArg Timebase.prescaler (checkReadEvent_time l u) :)⟩
  | ownedWord =>
    show (ownedWordEvent u).arb = _ ∧ (ownedWordEvent u).mem = _ ∧ (ownedWordEvent u).time.prescaler = _
    rw [ownedWordEvent_eq]
    exact ⟨rfl, rfl, rfl⟩
  | _ => exact ⟨rfl, rfl, rfl⟩

theorem passing_of_grants {r : Requester} (hg : s.grants r = true) : s.arb.passing = false := by
  obtain ⟨hbusy, hbeats, -⟩ := (grants_iff s r).mp hg
  exact passing_eq_false hbeats (by simp [hbusy])

theorem Asks.begun_eq (h : Asks s c a) {r : Requester} (hg : u.grants r = true) :
    a.begun u = markStatusWords u (a.event (endWindow u)) :=
  finish_unwatched u (by rw [(h.event_keeps _).1]; exact passing_of_grants hg)

theorem Asks.begun_arb (h : Asks s c a) {r : Requester} (hg : u.grants r = true) :
    (a.begun u).arb = u.arbAfterGrant := by
  rw [h.begun_eq hg, markStatusWords_arb, (h.event_keeps _).1]
  rfl

theorem Asks.begun_passing (h : Asks s c a) {r : Requester} (hg : u.grants r = true) :
    (a.begun u).arb.passing = false := by
  rw [h.begun_arb hg]
  exact passing_of_grants hg

theorem Asks.served_arb (h : Asks s c a) {r : Requester} (hg : u.grants r = true) :
    (a.served u).arb = u.arbAfterGrant :=
  (endAccess_arb a.store a.ending (h.begun_passing hg)).trans (h.begun_arb hg)

/-- What a grant does depends neither on M_READY nor on the beat held (R190, R191). -/
theorem Asks.begun_withSide (h : Asks s c a) {r : Requester} (hg : u.grants r = true) :
    a.begun (u.withSide ready u.arb.busy held) = (a.begun u).withSide ready u.arb.busy held := by
  have hg' : (u.withSide ready u.arb.busy held).grants r = true := hg
  have hwindow : endWindow (u.withSide ready u.arb.busy held) = (endWindow u).withSide ready u.arb.busy held := rfl
  rw [h.begun_eq hg, h.begun_eq hg', hwindow, h.event_sideBlind]
  rfl

theorem Asks.served_withSide (h : Asks s c a) {r : Requester} (hg : u.grants r = true) :
    a.served (u.withSide ready u.arb.busy held) = (a.served u).withSide ready u.arb.busy held := by
  obtain ⟨hbusy, -, -⟩ := (grants_iff u r).mp hg
  rw [Access.served, h.begun_withSide hg, endAccess_withSide _ _ (h.begun_passing hg) (by simp [hbusy]), Access.served]

/-- A row asks for the same access whatever stands on the side of the bus. -/
theorem Asks.withSide (h : Asks s c a) (ready : Bool) (busy : Option Busy) (held : Option Beat) :
    Asks (s.withSide ready busy held) c a := by
  cases h with
  | checkRead l hl ha => exact .checkRead l hl ha
  | terminalWord l hl ha => exact .terminalWord l hl ha
  | noticeWord n r hn hr hw => exact .noticeWord n r hn hr hw
  | producer n r hn hr hw => exact .producer n r hn hr hw
  | header r hn hr hd => exact .header r hn hr hd
  | ownedWord => exact .ownedWord
  | censusWord c hc hcut hw => exact .censusWord c hc hcut hw
  | censusDone c hc hcut hw => exact .censusDone c hc hcut hw
  | censusCut c hc hcut => exact .censusCut c hc hcut

/-- A granted row that a ready memory serves (R190, R191). -/
theorem Asks.exec_served (h : Asks s c a) (hg : s.grants a.requester = true) (hready : s.arb.ready = true) :
    exec c s = .next (releaseHeld (a.served s)) := h.exec_eq.trans (grant_served hg hready)

/-! ## A beat held with WAIT -/

/-- A passing access that is forwarded at once (R186, R187). -/
theorem passingWrite_forwards (b : Beat) (hf : u.forwards = true) :
    exec (.passingWrite b) u = .next (finishBeat b u (takeBeat b u)) := by
  rcases present_cases .passingWrite effPassing b u with ⟨hheld, -⟩ | ⟨-, hno, -⟩ | ⟨-, hrow, hx⟩ | ⟨-, -, hx⟩
  · rw [((forwards_iff u).mp hf).1] at hheld
    cases hheld
  · exact absurd hf (hno ▸ Bool.false_ne_true)
  · refine hx.trans ?_
    rw [takeBeat, hrow]
  · exact hx

/-- At the end of an access the held beat is as one that is presented then (R191). -/
theorem releaseHeld_passingWrite (hheld : u.arb.held = some b) (hbusy : u.arb.busy = none)
    (hpatient : u.holdsPassing = false) :
    .next (releaseHeld u) = exec (.passingWrite b) (u.withSide u.arb.ready u.arb.busy none) := by
  have hf : (u.withSide u.arb.ready u.arb.busy none).forwards = true := (forwards_iff _).mpr ⟨rfl, hbusy, hpatient⟩
  rw [passingWrite_forwards b hf, releaseHeld, hheld]
  rfl

/-- Settles O54: the head is the first of the priority order that requests, a row acts only as its grant, and the beat
held follows the access as one presented at its end. -/
theorem grantsServeTheHeadRequest : Obligations.GrantsServeTheHeadRequest := by
  refine ⟨fun s => ?head, fun c s hc => exec_ungranted hc, fun c b s u hnext hbusy hbeats hready hheld hu => ?held⟩
  case head =>
    have hhead := head_eq_find? s
    exact ⟨_, _, _, _, requests_loader_iff s, requests_noticeWriter_iff s, requests_ownedWords_iff s,
      requests_census_iff s, fun hl => by simp [hhead, Requester.byPriority, hl],
      fun hl hn => by simp [hhead, Requester.byPriority, hl, hn],
      fun hl hn ho => by simp [hhead, Requester.byPriority, hl, hn, ho],
      fun hl hn ho hc => by simp [hhead, Requester.byPriority, hl, hn, ho, hc],
      fun hl hn ho hc => by simp [hhead, Requester.byPriority, hl, hn, ho, hc]⟩
  case held =>
    obtain ⟨a, hasks, hhead⟩ := asks_of_nextAccess hnext
    have hg : s.grants a.requester = true := (grants_iff s _).mpr ⟨hbusy, hbeats, hhead⟩
    have harb := hasks.served_arb hg
    have hserved : a.served (s.withSide s.arb.ready s.arb.busy none) =
      (a.served s).withSide s.arb.ready s.arb.busy none := hasks.served_withSide hg
    have hfree := (hasks.withSide s.arb.ready s.arb.busy none).exec_served hg hready
    rw [hserved, releaseHeld_none rfl] at hfree
    obtain rfl := Host.Outcome.next.inj (hfree.symm.trans hu)
    rw [hasks.exec_served hg hready, releaseHeld_passingWrite (b := b), harb]
    · rfl
    · rw [harb]; exact hheld
    · rw [harb]; exact hbusy
    · rw [State.holdsPassing, harb]; rfl

end Sys2Proof.Machine
end

