-- ==== Sys2Proof/Proofs/SlowMemory.lean ====
section
/-! PROOF. Memory that is not ready (O55): the access holds the memory side and a beat that starts is held behind it,
and the ready that comes gives what a ready memory would have given (R186, R190, log entry 32). -/

namespace Sys2Proof.Machine

variable {s t u : State} {c : Instr} {a : Access} {b : Beat} {w : Option Window}

/-! ## The cycle of the carry -/

/-- The state in the cycle of a microsecond carry, with another settle window. -/
def State.inCycle (s : State) (w : Option Window) : State :=
  { s with time := { s.time with prescaler := 24 }, settle := w }

/-- Two windows run for the same carries: they differ at most in the moment of their start (R88). -/
def SameLeft (w w' : Option Window) : Prop := w.map Window.left = w'.map Window.left

theorem takeNotice_inCycle (s : State) (w : Option Window) : takeNotice (s.inCycle w) = (takeNotice s).inCycle w := by
  have htake : (s.inCycle w).canTake = s.canTake := rfl
  have hrestart : (s.inCycle w).restart = s.restart := rfl
  have hchosen : (s.inCycle w).chosen = s.chosen := rfl
  unfold takeNotice
  rw [htake, hrestart, hchosen]
  split
  · split
    · rfl
    · split <;> rfl
  · rfl

theorem initWaiting_inCycle (s : State) (w : Option Window) :
    initWaiting (s.inCycle w) = (initWaiting s).inCycle w := by
  have hwait : (s.inCycle w).ringWaiting = s.ringWaiting := rfl
  unfold initWaiting
  rw [hwait]
  split <;> rfl

/-- A dirty mark in the cycle starts a window of the same carries (R88, R101). -/
theorem settleAfterMark_inCycle (hw : SameLeft w s.settle) (storm : Bool) :
    SameLeft ((s.inCycle w).settleAfterMark storm) (s.settleAfterMark storm) := by
  have hsettle : (s.inCycle w).settle = w := rfl
  have huse : (s.inCycle w).setupInUse = s.setupInUse := rfl
  unfold State.settleAfterMark
  rw [hsettle, huse]
  cases w with
  | none =>
    cases hs : s.settle with
    | none => cases s.setupInUse <;> rfl
    | some y => rw [hs] at hw; cases hw
  | some x =>
    cases hs : s.settle with
    | none => rw [hs] at hw; cases hw
    | some y => rw [hs] at hw; exact hw

theorem freeClosed_inCycle (f : Option (Fin 32)) (hw : SameLeft w s.settle) :
    ∃ w', SameLeft w' (freeClosed f s).settle ∧ freeClosed f (s.inCycle w) = (freeClosed f s).inCycle w' := by
  cases f with
  | none => exact ⟨w, hw, rfl⟩
  | some k =>
    rw [freeClosed, freeClosed, dirtyMark_eq, dirtyMark_eq]
    exact ⟨_, settleAfterMark_inCycle (s := freeSlot k s) hw _, rfl⟩

theorem producerEvent_inCycle (n : Notice) (hw : SameLeft w s.settle) :
    ∃ w', SameLeft w' (producerEvent n s).settle ∧ producerEvent n (s.inCycle w) = (producerEvent n s).inCycle w' := by
  obtain ⟨w', hw', hfree⟩ := freeClosed_inCycle n.frees (s := s.indexAdvanced) hw
  refine ⟨w', ?_, ?_⟩
  · rw [producerEvent_eq, takeNotice_settle, producerBeforeTake, initWaiting_settle]
    exact hw'
  · have hadvance : (s.inCycle w).indexAdvanced = s.indexAdvanced.inCycle w := rfl
    rw [producerEvent_eq, producerBeforeTake, hadvance, hfree, initWaiting_inCycle, takeNotice_inCycle]
    rfl

/-- The event of an access comes to the same in the cycle of the carry, but for the moment of a window that it starts
(R88). -/
theorem endingEvent_inCycle (e : Ending) (hw : SameLeft w s.settle) :
    ∃ w', SameLeft w' (endingEvent e s).settle ∧ endingEvent e (s.inCycle w) = (endingEvent e s).inCycle w' := by
  have hnotice : (s.inCycle w).notice = s.notice := rfl
  have hcensus : (s.inCycle w).census = s.census := rfl
  have hring : (s.inCycle w).noticeRing = s.noticeRing := rfl
  unfold endingEvent
  rw [hnotice, hcensus, hring]
  split
  · exact ⟨w, hw, rfl⟩
  · exact producerEvent_inCycle _ hw
  · split
    · refine ⟨w, ?_, takeNotice_inCycle { s with headerDue := false } w⟩
      rw [headerEvent, takeNotice_settle]
      exact hw
    · exact ⟨w, hw, rfl⟩
  · exact ⟨w, hw, rfl⟩
  · exact ⟨w, hw, rfl⟩
  · exact ⟨w, hw, rfl⟩
  · exact ⟨w, hw, rfl⟩

theorem endAccess_inCycle (st : Option Store) (e : Option Ending) (hp : s.arb.passing = false) :
    ∃ w, SameLeft w (endAccess st e s).settle ∧
      endAccess st e (s.inCycle s.settle) = (endAccess st e s).inCycle w := by
  have hland : land st (s.inCycle s.settle) = (land st s).inCycle (land st s).settle := by
    cases st <;> rfl
  cases e with
  | none => exact ⟨(land st s).settle, rfl, hland⟩
  | some e =>
    obtain ⟨w, hw, hevent⟩ := endingEvent_inCycle e (s := land st s) rfl
    refine ⟨w, ?_, ?_⟩
    · rw [endAccess_some st e hp]
      exact hw
    · rw [endAccess_some st e hp, endAccess_some (u := s.inCycle s.settle) st e hp, hland, hevent]
      rfl

/-! ## The ready that comes -/

/-- The state in the cycle of a microsecond carry. -/
def State.atCarry (s : State) : State := s.inCycle s.settle

theorem atCarry_self (h : s.time.prescaler = 24) : s.atCarry = s := by
  rw [State.atCarry, State.inCycle, ← h]

/-- The ready ends a passing access; the beat held behind it follows unless the head request goes first (R186, R191). -/
theorem toMicrosecond_passing (hbusy : t.arb.busy = some .passing) : toMicrosecond true t =
    if t.holdsPassing then t.atCarry.withSide true none t.arb.held
    else releaseHeld (t.atCarry.withSide true none t.arb.held) := by
  rw [toMicrosecond, memoryReady, if_pos rfl, hbusy]
  rfl

/-- With no beat held, the ready ends a passing access and no more (R186). -/
theorem toMicrosecond_passing_alone (hbusy : t.arb.busy = some .passing) (hheld : t.arb.held = none) :
    toMicrosecond true t = t.atCarry.withSide true none none := by
  rw [toMicrosecond_passing hbusy, hheld, releaseHeld_none rfl, ite_self]

/-- A passing access that does not find the memory side is held with WAIT (R186, R191). -/
theorem passingWrite_waits (b : Beat) (hheld : u.arb.held = none) (hf : u.forwards = false) :
    exec (.passingWrite b) u = .next { u with arb := { u.arb with held := some b } } := by
  rcases present_cases .passingWrite effPassing b u with ⟨hx, -⟩ | ⟨-, -, hx⟩ | ⟨hx, -, -⟩ | ⟨hx, -, -⟩
  · rw [hheld] at hx
    cases hx
  · exact hx
  · exact absurd hx (hf ▸ Bool.false_ne_true)
  · exact absurd hx (hf ▸ Bool.false_ne_true)

/-- A beat held behind a passing access is as one that is presented when the ready has come (R186, R191). -/
theorem toMicrosecond_passing_held (hbusy : t.arb.busy = some .passing) (hheld : t.arb.held = some b) :
    .next (toMicrosecond true t) = exec (.passingWrite b) (t.atCarry.withSide true none none) := by
  rw [toMicrosecond_passing hbusy, hheld]
  cases hp : t.holdsPassing with
  | true =>
    have hf : (t.atCarry.withSide true none none).forwards = false :=
      Bool.eq_false_iff.mpr fun h => Bool.false_ne_true (((forwards_iff _).mp h).2.2.symm.trans hp)
    rw [passingWrite_waits b rfl hf]
    rfl
  | false => exact releaseHeld_passingWrite (u := t.atCarry.withSide true none (some b)) rfl rfl hp

/-- The ready ends an internal access, and the beat held behind it follows (R186, R190). -/
theorem toMicrosecond_internal {st : Option Store} {e : Option Ending} (hbusy : t.arb.busy = some (.internal st e)) :
    toMicrosecond true t = releaseHeld (endAccess st e (t.atCarry.withSide true none t.arb.held)) := by
  rw [toMicrosecond, memoryReady, if_pos rfl, hbusy]
  rfl

/-! ## Passing accesses -/

/-- A beat that memory has not made ready differs from one that it has by its hold of the memory side (R186). -/
theorem finishBeat_withSide (b : Beat) (s u : State) (hready : u.arb.ready = false) :
    (finishBeat b s u).arb.busy = some .passing ∧
      finishBeat b (s.withSide true none none) (u.withSide true none none) =
        (finishBeat b s u).withSide true none none := by
  rw [finishBeat_eq, finishBeat_eq, startWindow_eq, startWindow_eq]
  refine ⟨?_, rfl⟩
  show (if u.arb.ready = true then none else some Busy.passing) = _
  rw [hready]
  rfl

/-- A passing access before a memory that is not ready, and before one that is (R186). -/
theorem passingWrite_slow (b : Beat) (hf : s.forwards = true) (hready : s.arb.ready = false) :
    ∃ t, exec (.passingWrite b) s = .next t ∧
      exec (.passingWrite b) { s with arb := { s.arb with ready := true } } = .next (t.withSide true none none) ∧
      t.arb.busy = some .passing ∧ t.arb.held = none := by
  obtain ⟨hheld, hbusy, -⟩ := (forwards_iff s).mp hf
  have hside : { s with arb := { s.arb with ready := true } } = s.withSide true none none := by
    show s.withSide true s.arb.busy s.arb.held = _
    rw [hbusy, hheld]
  obtain ⟨hready', -, hheld'⟩ := (takeBeat_sideBlind b).keeps s
  obtain ⟨hslow, hsame⟩ := finishBeat_withSide b s (takeBeat b s) (hready'.trans hready)
  refine ⟨_, passingWrite_forwards b hf, ?_, hslow, ?_⟩
  · have hf' : (s.withSide true none none).forwards = true := hside ▸ hf
    rw [hside, passingWrite_forwards b hf', takeBeat_sideBlind, hsame]
  · rw [finishBeat_eq, startWindow_eq]
    exact hheld'.trans hheld

/-! ## Internal accesses -/

/-- An internal access before a memory that is not ready (R186, R190). -/
theorem Asks.exec_slow (h : Asks s c a) (hg : s.grants a.requester = true) (hready : s.arb.ready = false) :
    exec c s = .next { a.begun s with
      arb := { (a.begun s).arb with busy := some (.internal a.store a.ending) } } :=
  h.exec_eq.trans (grant_slow hg hready)

/-- The ready gives what the grant would have given with a memory ready at once, in the cycle of the carry (R186). -/
theorem Asks.ready_internal (h : Asks s c a) (hg : s.grants a.requester = true)
    (ht : t = { a.begun s with arb := { (a.begun s).arb with busy := some (.internal a.store a.ending) } }) :
    toMicrosecond true t = releaseHeld (endAccess a.store a.ending
      (a.begun (s.withSide true s.arb.busy s.arb.held)).atCarry) := by
  obtain ⟨hbusy, -, -⟩ := (grants_iff s _).mp hg
  have hheld : t.arb.held = s.arb.held := by
    rw [ht]
    show (a.begun s).arb.held = _
    rw [h.begun_arb hg]
    rfl
  have hside : t.atCarry.withSide true none t.arb.held = (a.begun (s.withSide true s.arb.busy s.arb.held)).atCarry := by
    rw [h.begun_withSide hg, hheld, hbusy, ht]
    rfl
  rw [toMicrosecond_internal (st := a.store) (e := a.ending) (by rw [ht]), hside]

/-- A slow internal access, and what the ready that ends it gives (R186, R190). -/
theorem internal_slow (hnext : s.nextAccess = some c) (hbusy : s.arb.busy = none) (hbeats : s.arb.beatsLeft = 0)
    (hready : s.arb.ready = false) :
    ∃ t r, exec c s = .next t ∧ exec c { s with arb := { s.arb with ready := true } } = .next r ∧
      (∃ w e, t.arb.busy = some (.internal w e)) ∧ t.mem = s.mem ∧
      (s.time.prescaler = 24 → toMicrosecond true t = r) ∧
      (s.arb.held = none → ∃ w, SameLeft w r.settle ∧ toMicrosecond true t = r.inCycle w ∧ r.arb.busy = none) := by
  obtain ⟨a, hasks, hhead⟩ := asks_of_nextAccess hnext
  have hg : s.grants a.requester = true := (grants_iff s _).mpr ⟨hbusy, hbeats, hhead⟩
  have hg' : (s.withSide true s.arb.busy s.arb.held).grants a.requester = true := hg
  have hasks' := hasks.withSide true s.arb.busy s.arb.held
  have hcarry := hasks.ready_internal hg rfl
  refine ⟨_, _, hasks.exec_slow hg hready, hasks'.exec_served hg' rfl, ⟨_, _, rfl⟩, ?mem, fun h24 => ?atOnce,
    fun hheld => ?later⟩
  case mem =>
    show (a.begun s).mem = _
    rw [hasks.begun_eq hg, markStatusWords_mem, (hasks.event_keeps _).2.1]
    rfl
  case atOnce =>
    have hcycle : (a.begun (s.withSide true s.arb.busy s.arb.held)).time.prescaler = 24 := by
      rw [hasks'.begun_eq hg', markStatusWords_time, (hasks'.event_keeps _).2.2]
      exact h24
    rw [hcarry, atCarry_self hcycle]
    rfl
  case later =>
    obtain ⟨w, hw, hend⟩ : ∃ w, SameLeft w (a.served (s.withSide true s.arb.busy s.arb.held)).settle ∧
        endAccess a.store a.ending (a.begun (s.withSide true s.arb.busy s.arb.held)).atCarry =
          (a.served (s.withSide true s.arb.busy s.arb.held)).inCycle w :=
      endAccess_inCycle a.store a.ending (hasks'.begun_passing hg')
    have harb := hasks'.served_arb hg'
    have hfree : (a.served (s.withSide true s.arb.busy s.arb.held)).arb.held = none := by
      rw [harb]
      exact hheld
    rw [hcarry, hend, releaseHeld_none (s := State.inCycle _ w) hfree, releaseHeld_none hfree, harb]
    exact ⟨w, hw, rfl, hbusy⟩

/-! ## A carry without M_READY -/

/-- Without M_READY the access and the held beat stay as they are (R186). -/
theorem microsecondCarry_unready (levels : Levels) (upTo : Bool) (hw : s.waiting = none)
    (hx : exec (.microsecondCarry levels { ready := false, upTo }) s = .next t) :
    t.arb.busy = s.arb.busy ∧ t.arb.held = s.arb.held ∧ t.arb.ready = false := by
  cases upTo with
  | true =>
    rw [microsecondCarry_upTo levels false hw, toMicrosecond_idle (.inl rfl)] at hx
    obtain rfl := Host.Outcome.next.inj hx
    exact ⟨rfl, rfl, rfl⟩
  | false =>
    obtain ⟨u, hu, -, harb, -⟩ := microsecond_idle (s := s) levels (ready := false) (.inl rfl)
    rw [microsecondCarry_whole levels false hw, hu] at hx
    obtain rfl := Host.Outcome.next.inj hx
    rw [harb]
    exact ⟨rfl, rfl, rfl⟩

/-- Settles O55: the passing access and the internal one are each carried to their ready, and a carry without it leaves
them. -/
theorem slowMemoryHoldsTheAccess : Obligations.SlowMemoryHoldsTheAccess := by
  refine ⟨fun b s hf hready => ?passing, fun c s hnext hbusy hbeats hready => ?internal,
    fun levels upTo s t hx hw => microsecondCarry_unready levels upTo hw hx⟩
  case passing =>
    obtain ⟨t, hslow, hfast, hbusy, hheld⟩ := passingWrite_slow b hf hready
    have hidle (levels : Levels) (hw : t.waiting = none) :
        exec (.microsecondCarry levels { ready := true, upTo := true }) (t.withSide true none none) =
          .next (t.atCarry.withSide true none none) := by
      rw [microsecondCarry_upTo (s := t.withSide true none none) levels true hw, toMicrosecond_idle (.inr rfl)]
      rfl
    refine ⟨t, _, hslow, hfast, hbusy, by simp [State.wait, hbusy], fun levels hw => ?_,
      fun b' => ⟨passingWrite_waits b' hheld (by simp [State.forwards, hbusy]), fun levels v hw hv => ?_⟩⟩
    · rw [microsecondCarry_upTo levels true hw, hidle levels hw, toMicrosecond_passing_alone hbusy hheld]
    · obtain rfl := Host.Outcome.next.inj ((hidle levels hw).symm.trans hv)
      exact (microsecondCarry_upTo (s := { t with arb := { t.arb with held := some b' } }) levels true hw).trans
        (toMicrosecond_passing_held hbusy rfl)
  case internal =>
    obtain ⟨t, r, hslow, hfast, hside, hmem, hcycle, hlater⟩ := internal_slow hnext hbusy hbeats hready
    refine ⟨t, r, hslow, hfast, hside, hmem, fun levels hw => ?_⟩
    rw [microsecondCarry_upTo levels true hw]
    refine ⟨fun h24 => congrArg _ (hcycle h24), fun hheld => ?_⟩
    obtain ⟨w, hsame, hcarry, hfree⟩ := hlater hheld
    rw [hcarry]
    exact ⟨_, rfl, rfl, hsame, hfree, rfl⟩

end Sys2Proof.Machine
end

