-- ==== Sys2Proof/Proofs/NoCommandStops.lean ====
section
/-! PROOF. No command stops the part and none touches the queue (O2): every row answers with a next state, and no change
that a command is made of writes the queue (00_scope.md 1.5, log entries 4 and 7). -/

namespace Sys2Proof.Machine

variable {s t : State}

/-! ## The queue -/

/-- No change of a passing beat touches the queue. -/
theorem Move.pending_eq (h : Move s t) : t.pending = s.pending := by
  cases h with
  | terminal k new hp hn => exact (congrArg State.pending (terminalEvent_frame k new s) :)
  | trunk down => rw [markIf_eq]
  | forget k hp => rw [forgetTerminal_eq]
  | maint made block mask polarity hp => rw [markIf_eq]
  | take => exact (congrArg State.pending (takeNotice_frame s) :)
  | _ => rfl

@[simp] theorem withEnding_pending (s0 s : State) : (s0.withEnding s).pending = s.pending := rfl

@[simp] theorem withIncidents_pending (s0 s : State) : (s0.withIncidents s).pending = s.pending := rfl

@[simp] theorem withTable_pending (s0 s : State) : (s0.withTable s).pending = s.pending := rfl

@[simp] theorem withSetup_pending (s0 s : State) : (s0.withSetup s).pending = s.pending := rfl

/-- No change of a command touches the queue. -/
theorem Change.pending_eq {c : Instr} {s0 : State} (h : Change c s0 s t) : t.pending = s.pending := by
  cases h with
  | move h => exact h.pending_eq
  | path h hl hp => exact (congrArg State.pending h :)
  | land w =>
    cases w with
    | none => rfl
    | some w => exact State.store_pending s w.addr w.word
  | ending e h => simpa only [withEnding_pending] using congrArg State.pending (endingEvent_frame s e s)
  | mainsFail => rw [dirtyMark_eq]
  | maintAll => rw [dirtyMark_eq]
  | silence h => exact (congrArg State.pending (silenceEvent_frame { s with time.silenceDue := false }) :)
  | leak h => exact (congrArg State.pending (leakEvent_frame { s with time.leakDue := false }) :)
  | matching causes h =>
    simpa only [withIncidents_pending] using congrArg State.pending (matchingEvent_frame causes s)
  | attack k i h => simpa only [withTable_pending] using congrArg State.pending (attackEvent_frame k i s)
  | release k i h => simpa only [withTable_pending] using congrArg State.pending (releaseEvent_frame k i s)
  | checkRead l hc hl ha => exact (congrArg State.pending (checkReadEvent_frame l s) :)
  | completion l hc hl ha hn =>
    rw [completionEvent_eq]
    refine (Move.take _).pending_eq.trans ?_
    simpa only [withSetup_pending] using congrArg State.pending (completionBeforeTake_frame l s)
  | microsecond levels h =>
    rw [microsecondEvent_eq]
    rfl
  | millisecond =>
    rw [millisecondRun_eq rfl]
    rfl
  | counted b | settle h | merged h | reading h hp | limitEnds h | terminalWord l hc hl ha | cycle => rfl

/-- A command that answers next leaves the queue: hardware reset by what its assertion keeps, every other one change by
change. -/
theorem exec_pending {c : Instr} (h : exec c s = .next t) : t.pending = s.pending := by
  by_cases hc : ∃ p l d, c = .hardwareReset p l d
  · obtain ⟨p, l, d, rfl⟩ := hc
    obtain rfl := Host.Outcome.next.inj ((execHardwareReset_eq p l d s).symm.trans h)
    exact asserted_pending s d
  · exact exec_keeps (P := fun u => u.pending = s.pending) (fun p l d hpld => hc ⟨p, l, d, hpld⟩) h
      (fun _ _ hab hs => hab.pending_eq.trans hs) rfl

/-! ## The answer -/

/-- A choice between two states answers with one of them: a due event comes, and one that is not due does nothing (log
entry 4). -/
theorem ite_next_answers (p : Prop) [Decidable p] (u v : State) :
    ∃ t, (if p then .next u else .next v : Host.Outcome State Fault Refusal) = .next t := by
  split
  · exact ⟨u, rfl⟩
  · exact ⟨v, rfl⟩

/-- A presented beat does not stop the part: it does not start, is held, or is forwarded with a row's effect (R186). -/
theorem present_answers (row : BeatRow) (eff : Beat → State → State) (b : Beat) (s : State) :
    ∃ t, present row eff b s = .next t := by
  rcases present_cases row eff b s with ⟨-, h⟩ | ⟨-, -, h⟩ | ⟨-, -, h⟩ | ⟨-, -, h⟩ <;> exact ⟨_, h⟩

/-- An internal access is served, is held by a slow memory, or does not come (R190). -/
theorem granted_answers (a : Access) (s : State) : ∃ t, a.granted s = .next t := ite_next_answers _ _ _

/-- A row of an internal access is the grant of that access, or does nothing (log entry 4). -/
theorem exec_internal_answers {c : Instr} (hc : c ∈ internalRows) (s : State) : ∃ t, exec c s = .next t := by
  rcases exec_internal_cases hc s with ⟨a, ha⟩ | h
  · rw [ha.exec_eq]
    exact granted_answers a s
  · exact ⟨s, h⟩

theorem execPassMatching_answers (s : State) : ∃ t, execPassMatching s = .next t := by
  unfold execPassMatching
  split
  · exact ⟨s, rfl⟩
  · exact ⟨_, rfl⟩

theorem execAttackExpiry_answers (k : Fin 32) (s : State) : ∃ t, execAttackExpiry k s = .next t := by
  unfold execAttackExpiry
  split
  · exact ⟨s, rfl⟩
  · exact ite_next_answers _ _ _

theorem execReleaseExpiry_answers (k : Fin 32) (s : State) : ∃ t, execReleaseExpiry k s = .next t := by
  unfold execReleaseExpiry
  split
  · exact ⟨s, rfl⟩
  · exact ite_next_answers _ _ _

theorem execCommitCompletion_answers (s : State) : ∃ t, execCommitCompletion s = .next t := by
  unfold execCommitCompletion
  split
  · exact ⟨s, rfl⟩
  · exact ite_next_answers _ _ _

theorem execMicrosecondCarry_answers (levels : Levels) (run : CarryRun) (s : State) :
    ∃ t, execMicrosecondCarry levels run s = .next t := by
  rcases execMicrosecondCarry_cases levels run s with ⟨-, h⟩ | ⟨-, -, h⟩ | ⟨-, -, h⟩ <;> exact ⟨_, h⟩

/-- Every command answers next in every state: a reset, a presented beat, an internal access or an event of the part. -/
theorem exec_answers (c : Instr) (s : State) : ∃ t, exec c s = .next t := by
  cases c with
  | hardwareReset p l d => exact ⟨_, execHardwareReset_eq p l d s⟩
  | passingWrite b | intakeWord0Write b | intakeWord1Write b | intakePartialWrite b | intakePartialWord3Write b
  | emptyRecord b | malformedRecord b | statusRecord b | missRecord b | gaspRecord b | linkRecord b | treeDown b
  | treeUp b | badOpcode b | ownedWordWrite b | disturbingWrite b | consumerIndexWrite b
  | extendCmd tag arg burst | editCmd tag arg burst | commitCmd tag arg burst | abandonCmd tag arg burst
  | settimeCmd tag arg burst | forgetCmd tag arg burst | maintCmd tag arg burst | censusCmd tag arg burst
  | resetCmd tag arg burst => exact present_answers _ _ _ s
  | loaderCheckRead | terminalWordApply | noticeWordWrite | producerWrite | ringHeaderInitWrite
  | ownedWordWriterGrant | censusWordWrite | censusDoneWrite | censusCutWrite =>
    exact exec_internal_answers (by simp [internalRows]) s
  | mainsFailEdge | maintAllEdge | millisecondCarry | silenceCarry | stormLeak | settleExpiry | passReading
  | editLimitExpiry | patienceExpiry => exact ite_next_answers _ _ _
  | passMatching => exact execPassMatching_answers s
  | attackExpiry k => exact execAttackExpiry_answers k s
  | releaseExpiry k => exact execReleaseExpiry_answers k s
  | commitCompletion => exact execCommitCompletion_answers s
  | microsecondCarry levels run => exact execMicrosecondCarry_answers levels run s

/-- Settles O2: every command answers next, and no change that its answer is made of writes the queue. -/
theorem noCommandStops : Obligations.NoCommandStops := by
  intro c s
  obtain ⟨t, h⟩ := exec_answers c s
  exact ⟨t, h, exec_pending h⟩

end Sys2Proof.Machine
end
